-- ==== Sys2Proof/Word.lean ====
section
/-!
DEFINITION. The words of the part and the fixed-size table its records are kept in.
-/
namespace Sys2Proof

/-- One byte. -/
abbrev Byte := BitVec 8
/-- A 24-bit byte address of plant memory (spec 00 section 7.1). -/
abbrev Addr := BitVec 24
/-- The value of a checked cell, 0 to 65535 (R81), and other 16-bit fields. -/
abbrev Half := BitVec 16
/-- The data of a transfer of up to 4 bytes. -/
abbrev Data := BitVec 32

/-- A fixed number of like things, kept as a list of that length. -/
structure Tab (α : Type) (n : Nat) where
  items : List α
  size : items.length = n
  deriving DecidableEq, Repr

namespace Tab

/-- The `i`-th of the things. -/
def get {α : Type} {n : Nat} (t : Tab α n) (i : Fin n) : α :=
  t.items[i.val]'(by rw [t.size]; exact i.isLt)

/-- The table with its `i`-th thing replaced. -/
def set {α : Type} {n : Nat} (t : Tab α n) (i : Fin n) (a : α) : Tab α n :=
  ⟨t.items.set i.val a, by rw [List.length_set]; exact t.size⟩

/-- The table with its `i`-th thing changed by `f`. -/
def modify {α : Type} {n : Nat} (t : Tab α n) (i : Fin n) (f : α → α) : Tab α n :=
  t.set i (f (t.get i))

/-- `n` copies of one thing. -/
def replicate {α : Type} (n : Nat) (a : α) : Tab α n :=
  ⟨List.replicate n a, List.length_replicate⟩

/-- Every thing changed by `f`. -/
def map {α β : Type} {n : Nat} (f : α → β) (t : Tab α n) : Tab β n :=
  ⟨t.items.map f, by rw [List.length_map]; exact t.size⟩

/-- The table whose `i`-th thing is `f i`. -/
def ofFn {α : Type} {n : Nat} (f : Fin n → α) : Tab α n :=
  ⟨(List.finRange n).map f, by rw [List.length_map, List.length_finRange]⟩

/-- The things that differ only where `f`, given the number, changes them. -/
def mapIdx {α β : Type} {n : Nat} (f : Fin n → α → β) (t : Tab α n) : Tab β n :=
  ofFn (fun i => f i (t.get i))

end Tab

/-- The numbers 0 to n − 1 in ascending order. -/
abbrev indices (n : Nat) : List (Fin n) := List.finRange n

end Sys2Proof
end

