-- ==== Sys2Proof/Syntax.lean ====
section
/-!
DEFINITION. The commands of the part: one constructor for each row of spec/opcode_table.json.
The table gives the rows no operands; the operands here are what the rules of each row need (log 3).
-/
namespace Sys2Proof

/-- The width of a transfer: 1, 2 or 4 bytes (spec 00 section 7.1). -/
inductive Width where
  | w1 | w2 | w4
  deriving DecidableEq, Repr

/-- The two blocks that make claims on the cell store (R103). -/
inductive Claimant where
  | checker | engine
  deriving DecidableEq, Repr

/-- The commands. -/
inductive Instr where
  /-- SUPPLY_RISE (R184); `pins`: the signal line pins' levels, sampled as hold levels (R163). -/
  | supplyRise (pins : BitVec 8)
  /-- BROWN_OUT (R186). -/
  | brownOut
  /-- BROWN_OUT_END (R184); `pins` as for `supplyRise`. -/
  | brownOutEnd (pins : BitVec 8)
  /-- RESET_ASSERT (R186). -/
  | resetAssert
  /-- RESET_RELEASE (R184); `pins` as for `supplyRise`. -/
  | resetRelease (pins : BitVec 8)
  /-- LOADING_END (R184); `readable`: the store could be read (R183 check 1). -/
  | loadingEnd (readable : Bool)
  /-- STORE_WRITE_COMPLETE (R192); `readBack`: the stored image reads back right. -/
  | storeWriteComplete (readBack : Bool)
  /-- TICK_1MS (R1); `commissioning`: the level of the commissioning line's pin (R189). -/
  | tick1ms (commissioning : Bool)
  /-- TICK_100MS (R1). -/
  | tick100ms
  /-- TICK_1S (R1). -/
  | tick1s
  /-- PULSE_BOUNDARY (R164). -/
  | pulseBoundary
  /-- CHANNEL_SAMPLE (R28): the raw code of one conversion. -/
  | channelSample (ch : Fin 8) (code : BitVec 12)
  /-- WARM_UP_EXPIRY (R31). -/
  | warmUpExpiry (ch : Fin 8)
  /-- SPILL_SAMPLE (R43); `high`: the input level. -/
  | spillSample (line : Fin 12) (high : Bool)
  /-- TACH_PULSE (R48). -/
  | tachPulse (tach : Fin 8)
  /-- WINDOW_EVENT (R48). -/
  | windowEvent (tach : Fin 8)
  /-- DELAY_TIMER_EXPIRY (R52, R53). -/
  | delayTimerExpiry (tach : Fin 8)
  /-- REFRESH_EXPIRY (R11). -/
  | refreshExpiry (zone : Fin 4)
  /-- PURGE_EXPIRY (R17). -/
  | purgeExpiry (zone : Fin 4)
  /-- HOST_READ (R75). -/
  | hostRead (addr : Addr) (width : Width)
  /-- HOST_WRITE (R63); the bytes above the width are not written. -/
  | hostWrite (addr : Addr) (width : Width) (data : Data)
  /-- CLAIM_SETTLEMENT (R113): a claimant takes its settlement and resumes. -/
  | claimSettlement (who : Claimant)
  /-- PLACEMENT_ENTERS (R70). -/
  | placementEnters
  /-- UPSTREAM_RESET (R78). -/
  | upstreamReset
  /-- UPSTREAM_RESET_RELEASE (R78). -/
  | upstreamResetRelease
  /-- HOLD_EXPIRY (R123). -/
  | holdExpiry
  /-- RETRY_TIMER_EXPIRY (R141). -/
  | retryTimerExpiry (entry : Fin 16)
  /-- MEMORY_ANSWER (R154): DONE with the data of a read, or FAULT. -/
  | memoryAnswer (done : Bool) (data : Data)
  /-- DOWNSTREAM_TIMEOUT (R154). -/
  | downstreamTimeout
  /-- SETTLING_END (R155). -/
  | settlingEnd
  /-- REPORT_AGING_EXPIRY (R153). -/
  | reportAgingExpiry
  /-- COMMISSIONING_LINE_CHANGE (R189). -/
  | commissioningLineChange
  /-- STATUS (R190). -/
  | status
  /-- READ_LOG (R190). -/
  | readLog
  /-- READ_STORE (R115). -/
  | readStore
  /-- READ_IMAGE (R190); `readable`: the store can be read at this event. -/
  | readImage (offset length : Half) (readable : Bool)
  /-- WRITE_STAGE (R191). -/
  | writeStage (offset length : Half) (bytes : List Byte)
  /-- COMMIT (R192). -/
  | commit
  /-- TEST_READING (R35). -/
  | testReading (channel : Byte) (concentration : Half)
  /-- END_TEST (R36). -/
  | endTest (channel : Byte)
  /-- ACKNOWLEDGE (R191). -/
  | acknowledge (zone : Byte)
  /-- UNKNOWN_COMMAND (R188): the bytes of a frame with an unknown code or too few parameter bytes. -/
  | unknownCommand (frame : List Byte)
  deriving DecidableEq, Repr

end Sys2Proof
end

