-- ==== Sys2Proof/Config.lean ====
section
/-!
DEFINITION. What the part fixes, and the free values: constants without a body, so that no proof can see what they are.
-/
namespace Sys2Proof

/-- FREE VALUE (log 8, log 9): which of the orders the spec allows is taken, where it gives none (R19, R113, R125, R152, R176).
Read at `State.choices`, which the step advances at every use. -/
opaque Config.order : Nat → Nat

/-- FREE VALUE (log 15): the bytes of a non-volatile store whose write was cut off or failed (R186, R192).
The first argument tells one torn write from another, the second is the byte's offset. -/
opaque Config.tornByte : Nat → Nat → Byte

/-- The posted queue holds at most 8 entries (R69). -/
abbrev Config.postedCapacity : Nat := 8
/-- The hold queue holds at most 8 entries (R118). -/
abbrev Config.holdCapacity : Nat := 8
/-- The event log holds at most 32 records (R176). -/
abbrev Config.logCapacity : Nat := 32
/-- The image and the staging buffer are 2048 bytes (R182). -/
abbrev Config.imageSize : Nat := 2048
/-- The retry timer of a FAILED force entry, in seconds (R140). -/
abbrev Config.retrySeconds : Nat := 5
/-- Failed attempts at which a force entry becomes FAILED (R140). -/
abbrev Config.maxAttempts : Nat := 3
/-- The report aging timer, in milliseconds (R153). -/
abbrev Config.agingMs : Nat := 20
/-- Notices one step may take before it ends (log 7): far above what any step can give rise to. -/
abbrev Config.noticeBound : Nat := 512

end Sys2Proof
end

