-- ==== Sys2Proof/Machine/State.lean ====
section
/-!
DEFINITION. The state of the part, block by block, as plain data, and the state right after reset.
-/
namespace Sys2Proof.Machine

/-! ## Timers, zones and causes (chapter 1) -/

/-- A timer of the part (R2). -/
inductive Timer where
  /-- Not running. -/
  | stopped
  /-- Running, with this many ticks of its unit to come. -/
  | running (left : Nat)
  /-- Its expiring tick has come and its expiry event has not been taken yet (log 5). -/
  | due
  /-- At rest at 0 after its expiry (the refresh timer of R11, the retry timer of R141). -/
  | rested
  deriving DecidableEq, Repr

/-- The hazard state of a zone (R3). -/
inductive ZoneState where
  | clear | alert | vent | purge | lockout
  deriving DecidableEq, Repr

/-- The causes, in the order of their numbers (R5). -/
inductive Cause where
  | start | h2Alert | h2Vent | h2High | spill | sensorLost | hostLost | ventUnproven | fanFault | config
  deriving DecidableEq, Repr

/-- A zone's cause set: each cause present or absent (R3, R5). -/
structure Causes where
  start : Bool
  h2Alert : Bool
  h2Vent : Bool
  h2High : Bool
  spill : Bool
  sensorLost : Bool
  hostLost : Bool
  ventUnproven : Bool
  fanFault : Bool
  config : Bool
  deriving DecidableEq, Repr

/-- A zone record (R3). The restriction level is derived (R15). -/
structure ZoneRec where
  state : ZoneState
  causes : Causes
  unack : Bool
  reading : Option Nat
  peak : Option Nat
  purge : Timer
  refresh : Timer
  deriving DecidableEq, Repr

/-! ## Gas channels (chapter 2), spill lines and tachs (chapter 3) -/

/-- A channel's sample state (R26). -/
inductive SampleState where
  | warmup | live | fault
  deriving DecidableEq, Repr

/-- The state of a channel as the outside sees it (R26, R172). -/
inductive ChanState where
  | off | warmup | live | fault | test
  deriving DecidableEq, Repr

/-- A channel record (R26). The state and the filtered value are derived. -/
structure ChanRec where
  sample : SampleState
  test : Option Nat
  timer : Timer
  warm : Bool
  /-- Oldest to newest, at most four. -/
  filter : List Nat
  bad : Nat
  good : Nat
  raw : Option (BitVec 12)
  deriving DecidableEq, Repr

/-- A spill line record (R42). -/
structure SpillRec where
  wet : Bool
  run : Nat
  /-- The level last sampled: `some true` is wet. -/
  last : Option Bool
  /-- Sampled at the last 100 ms tick, the sample event not yet taken (log 6). -/
  due : Bool
  deriving DecidableEq, Repr

/-- A tach's proof state (R48). -/
inductive ProofState where
  | idle | proving | proven | failed
  deriving DecidableEq, Repr

/-- A tach record (R48). -/
structure TachRec where
  state : ProofState
  required : Bool
  timer : Timer
  count : Nat
  speed : Option Nat
  /-- The window closes at the last 1 s tick, its event not yet taken (log 6). -/
  due : Bool
  deriving DecidableEq, Repr

/-! ## The settings in force (chapter 12, and each block's chapter) -/

/-- A window's class (R61). -/
inductive WinClass where
  | open_ | checked | watched | barred
  deriving DecidableEq, Repr

/-- A window's watch function (R61, R67). -/
inductive WatchFn where
  | acknowledge | heartbeat | logClear
  deriving DecidableEq, Repr

/-- A window's refusal style (R61, R65). -/
inductive Style where
  | report | absorb
  deriving DecidableEq, Repr

/-- A configured window (R61). -/
structure Window where
  enabled : Bool
  cls : WinClass
  zone : Fin 4
  profile : Fin 8
  func : WatchFn
  style : Style
  base : Addr
  sizeExp : Nat
  deriving DecidableEq, Repr

/-- An out-of-bounds verdict (R82). -/
inductive BoundsRule where
  | clamp | hold | refuse
  deriving DecidableEq, Repr

/-- A profile's bounds at one restriction level (R82). -/
structure LevelBounds where
  low : Half
  high : Half
  rule : BoundsRule
  deriving DecidableEq, Repr

/-- A profile's unknown action (R82). -/
inductive UnknownAction where
  | boundsOnly | refuse
  deriving DecidableEq, Repr

/-- A limit profile (R82). -/
structure Profile where
  levels : Tab LevelBounds 4
  fall : Half
  rise : Half
  unknown : UnknownAction
  holdLimit : Nat
  deriving DecidableEq, Repr

/-- A zone's settings (R4). -/
structure ZoneCfg where
  alert : Nat
  vent : Nat
  high : Nat
  hysteresis : Nat
  purgeTime : Nat
  refreshPeriod : Nat
  deriving DecidableEq, Repr

/-- A channel's settings (R25); no zone means unused. -/
structure ChanCfg where
  zone : Option (Fin 4)
  rawZero : Nat
  span : Nat
  openLimit : Nat
  overLimit : Nat
  warmUp : Nat
  deriving DecidableEq, Repr

/-- A spill line's settings (R41); no zone means unused. -/
structure SpillCfg where
  zone : Option (Fin 4)
  wetHigh : Bool
  debounce : Nat
  deriving DecidableEq, Repr

/-- A tach's settings (R47). -/
structure TachCfg where
  binding : Option (Fin 16)
  pulses : Nat
  proofSpeed : Nat
  proofDelay : Nat
  deriving DecidableEq, Repr

/-- The sense of a force entry (R133). -/
inductive Sense where
  | floor | ceiling | exact_
  deriving DecidableEq, Repr

/-- The release mode of a force entry (R131). -/
inductive ReleaseMode where
  | keep | restore
  deriving DecidableEq, Repr

/-- A force entry's settings (R131). -/
structure ForceCfg where
  zone : Fin 4
  cell : Addr
  sense : Sense
  forced : Half
  release : ReleaseMode
  deriving DecidableEq, Repr

/-- The function of a signal line group (R163). -/
inductive GroupFn where
  | lamps | sounders | cell | fixed
  deriving DecidableEq, Repr

/-- The settings the blocks work from: those of the image in force in RUN, none in LOADING and FALLBACK. -/
structure Settings where
  imageId : Data
  /-- The report base; absent where there is no report window (R62, R77). -/
  reportBase : Option Addr
  windows : Tab Window 16
  profiles : Tab Profile 8
  zones : Tab ZoneCfg 4
  channels : Tab ChanCfg 8
  spills : Tab SpillCfg 12
  tachs : Tab TachCfg 8
  /-- `none` for an entry number the image leaves undefined. -/
  forces : Tab (Option ForceCfg) 16
  /-- In the order the image lists them (R102). -/
  pins : List Addr
  groups : Tab GroupFn 2
  cellAddrs : Tab Addr 8
  fixedLevels : Tab Bool 8
  deriving DecidableEq, Repr

/-! ## The transit path (chapter 4) and the write checker (chapter 5) -/

/-- A request the host presents (R58). -/
structure HostRequest where
  write : Bool
  addr : Addr
  width : Width
  data : Data
  deriving DecidableEq, Repr

/-- The kinds of response (R59). -/
inductive ResponseKind where
  | done | altered | held | refused
  deriving DecidableEq, Repr

/-- A response given to the host; a read's DONE carries its data. -/
structure Response where
  kind : ResponseKind
  data : Option Data
  deriving DecidableEq, Repr

/-- What the upstream port holds (R58). Every constructor but `idle` is BUSY. -/
inductive Upstream where
  /-- No request. -/
  | idle
  /-- A checked write under judgement (R66). -/
  | judging
  /-- A write waiting for space in the posted queue (R70). -/
  | placing
  /-- A read: waiting for its predecessors, presented, or in flight at the downstream port (R75). -/
  | reading (addr : Addr) (width : Width) (zone : Option (Fin 4)) (inFlight : Bool)
  deriving DecidableEq, Repr

/-- The origin of a posted write (R69). -/
inductive PostedOrigin where
  | host | release
  deriving DecidableEq, Repr

/-- An entry of the posted queue (R69). -/
structure Posted where
  addr : Addr
  width : Width
  data : Data
  origin : PostedOrigin
  checked : Bool
  zone : Option (Fin 4)
  inFlight : Bool
  /-- Noted as a predecessor of the read the port holds (R75). -/
  ahead : Bool
  deriving DecidableEq, Repr

/-- The observation a WATCHED write makes as it enters the posted queue (R67). -/
inductive Observation where
  | acknowledge (zone : Fin 4)
  | heartbeat (zone : Fin 4)
  | logClear (seq : Half)
  deriving DecidableEq, Repr

/-- Where a placement comes from (R70). -/
inductive PlacementSource where
  /-- A host write, with the response its entry gives and the observation it makes. -/
  | host (response : ResponseKind) (watch : Option Observation)
  /-- The RELEASING hold entry of the cell. -/
  | hold
  /-- The force engine's release write of the entry. -/
  | engine (entry : Fin 16)
  deriving DecidableEq, Repr

/-- A write presented to the posted queue (R70). -/
structure Placement where
  source : PlacementSource
  addr : Addr
  width : Width
  data : Data
  checked : Bool
  zone : Option (Fin 4)
  deriving DecidableEq, Repr

/-- The write checker's judgement record (R83). -/
inductive Judgement where
  | idle
  /-- AWAITING_VALUE; `heldBack`: its lookup waits for an abandoned claim to settle (R103). -/
  | awaiting (cell : Addr) (value : Half) (zone : Fin 4) (profile : Fin 8) (style : Style) (heldBack : Bool)
  deriving DecidableEq, Repr

/-! ## The cell store (chapter 6) -/

/-- One cell of a line (R100). -/
structure CellRec where
  valid : Bool
  value : Half
  written : Bool
  deriving DecidableEq, Repr

/-- A line of the cell store (R100). -/
structure Line where
  tag : Option Addr
  pinned : Bool
  filling : Bool
  cells : Tab CellRec 4
  deriving DecidableEq, Repr

/-- The fill in progress (R105, R106). -/
structure Fill where
  line : Fin 16
  /-- The number of the cell it is settling; 4 once cell 3 is settled. -/
  pos : Nat
  /-- A read of the cell at the position is presented to the downstream port. -/
  reading : Bool
  deriving DecidableEq, Repr

/-- For whom a fill request stands in the fill list (R104). -/
inductive FillFor where
  | checker | engine
  /-- A checker claim whose judgement an upstream reset abandoned (R117). -/
  | abandoned
  /-- A prefill or a repair of a pinned line. -/
  | nobody
  deriving DecidableEq, Repr

/-- A request of the fill list (R104). -/
structure FillRequest where
  group : Addr
  start : Fin 4
  who : FillFor
  deriving DecidableEq, Repr

/-- How far a claim has come (R103, R104, R113). -/
inductive ClaimStage where
  | listed
  | joined
  /-- Settled with a value, or as unknown, and not yet taken by its claimant. -/
  | settled (value : Option Half)
  deriving DecidableEq, Repr

/-- A claim on the cell store (R103). -/
structure Claim where
  cell : Addr
  stage : ClaimStage
  /-- The judgement that made it was abandoned by an upstream reset (R97, R117). -/
  abandoned : Bool
  deriving DecidableEq, Repr

/-- The cell store. -/
structure CellStore where
  lines : Tab Line 16
  /-- From most to least recently used (R101). -/
  lru : List (Fin 16)
  fill : Option Fill
  list : List FillRequest
  checkerClaim : Option Claim
  engineClaim : Option Claim
  deriving DecidableEq, Repr

/-! ## The hold queue (chapter 7) and the force engine (chapter 8) -/

/-- The origin of a hold entry (R118). -/
inductive HoldOrigin where
  | host | part
  deriving DecidableEq, Repr

/-- A hold entry (R118). -/
structure HoldEntry where
  cell : Addr
  value : Half
  zone : Fin 4
  profile : Fin 8
  origin : HoldOrigin
  entered : Nat
  expiry : Nat
  releasing : Bool
  deriving DecidableEq, Repr

/-- The state of a force entry (R132). -/
inductive ForceState where
  | idle | applying | active | failed | releasing
  deriving DecidableEq, Repr

/-- A force entry's record (R132). -/
structure ForceRec where
  state : ForceState
  prior : Option Half
  last : Option Half
  attempts : Nat
  retry : Timer
  /-- The apply now running found the entry FAILED, so that ending in ACTIVE is a recovery (R141). -/
  fromFailed : Bool
  deriving DecidableEq, Repr

/-- The kind of a sweep (R134). -/
inductive SweepKind where
  | apply | release
  deriving DecidableEq, Repr

/-- What the operation of the sweep in progress waits for (R136 to R144). -/
inductive SweepWork where
  /-- At an entry boundary: about to work the next entry from the sweep's entry on. -/
  | boundary
  /-- The completion of an in-flight delivery to the cell (R137). -/
  | delivery
  /-- The settlement of the engine's claim (R138). -/
  | claim
  /-- The completion of the force write (R139). -/
  | writing
  /-- The entry of the release placement into the posted queue (R144). -/
  | placing
  deriving DecidableEq, Repr

/-- The sweep in progress (R134). -/
structure Sweep where
  zone : Fin 4
  kind : SweepKind
  /-- The entry it is working, or from which it looks for the next; 16 after the last. -/
  entry : Nat
  stop : Bool
  work : SweepWork
  deriving DecidableEq, Repr

/-- A pending sweep request; its age is its place in the list (R134). -/
structure SweepRequest where
  zone : Fin 4
  kind : SweepKind
  deriving DecidableEq, Repr

/-! ## The downstream port (chapter 9) and the output lines (chapter 10) -/

/-- The requesters of the downstream port (R150). -/
inductive Requester where
  | engine | fill | transit | report
  deriving DecidableEq, Repr

/-- A transfer presented or in flight (R150). -/
structure Transfer where
  who : Requester
  write : Bool
  addr : Addr
  width : Width
  data : Data
  deriving DecidableEq, Repr

/-- The port state (R150). -/
inductive PortState where
  | idle
  | busy (transfer : Transfer)
  | settling
  deriving DecidableEq, Repr

/-- The downstream port (R150, R153, R155). -/
structure Downstream where
  state : PortState
  timeout : Timer
  /-- The 1 ms tick that ends SETTLING has come and SETTLING_END has not been taken (log 5). -/
  settleDue : Bool
  aging : Timer
  aged : Bool
  deriving DecidableEq, Repr

/-- What a signal line shows: a steady level or a pattern (R164). -/
inductive Pattern where
  | steady (level : Bool)
  | slow
  | fast
  deriving DecidableEq, Repr

/-- A signal line: what it shows and the level it stands at. -/
structure SignalLine where
  pattern : Pattern
  level : Bool
  deriving DecidableEq, Repr

/-- The output lines. For the fail-safe lines `true` is released: the safe action is called for. -/
structure Lines where
  fanRun : Tab Bool 4
  charger : Bool
  attention : Bool
  signals : Tab SignalLine 8
  /-- The hold levels (R163). -/
  hold : Tab Bool 8
  deriving DecidableEq, Repr

/-! ## The report unit (chapter 11) and the maintenance unit (chapter 12) -/

/-- The kinds of event record (R177). -/
inductive EventKind where
  | zoneState | causeSet | causeClear | acknowledged | channelFault | channelLive | testBegin | testEnd
  | spillWet | spillDry | fanFailed | fanProven | forceFailed | forceRecovered
  | writeRefused | writeAbsorbed | misaligned | holdEntered | holdFull | holdDiscarded
  | writeFault | readFault | fillFault | reportFault | holdExpired | restart | configFallback
  deriving DecidableEq, Repr

/-- An event record (R176). -/
structure Record where
  seq : Half
  kind : EventKind
  zone : Option (Fin 4)
  time : Nat
  subject : Option Nat
  value : Option Nat
  repeats : Nat
  gap : Bool
  deriving DecidableEq, Repr

/-- The result of a log clear (R171, R180). -/
inductive ClearResult where
  | none | cleared | stale | empty
  deriving DecidableEq, Repr

/-- The event log and its companions (R176, R181). -/
structure EventLog where
  /-- Oldest to newest. -/
  records : List Record
  nextSeq : Half
  lastClear : ClearResult
  clearedThrough : Half
  commitCount : Nat
  latch : Bool
  deriving DecidableEq, Repr

/-- The report writer (R173); an item is named by its place in the cycle, 0 (the header) to 66 (log slot 31). -/
inductive Writer where
  | idle
  | writing (item : Fin 67) (snapshot : List Byte) (offset : Nat)
  deriving DecidableEq, Repr

/-- A reply frame (R187). -/
inductive Reply where
  | none
  | ok (data : List Byte)
  | busy
  | denied
  | rejected (code : Nat)
  | badCommand
  deriving DecidableEq, Repr

/-- The maintenance unit (R187). -/
structure Maintenance where
  reply : Reply
  storing : Bool
  /-- The commissioning line as last sampled, `true` asserted; released until the first sample (log 17). -/
  line : Bool
  /-- The line has been sampled since the power-up restart: the next sample can be a change (R187). -/
  sampled : Bool
  /-- A sampled change of the line that has not been taken yet (R189). -/
  lineDue : Option Bool
  deriving DecidableEq, Repr

/-- An addressed buffer of bytes: cells in strictly rising address order, none holding 0, which is what an unlisted address reads as (log 36). -/
abbrev Memory := List Host.Cell

/-- The non-volatile store (R182): its image, and whether a store write was cut off or failed (R186, R192), with the number its free bytes are read at (log 15). -/
structure NvStore where
  image : Memory
  torn : Option Nat
  deriving DecidableEq, Repr

/-! ## The whole part -/

/-- The supply (R1, R186). -/
inductive Supply where
  | off | low | on
  deriving DecidableEq, Repr

/-- The part's mode (R184). -/
inductive Mode where
  | loading | run | fallback
  deriving DecidableEq, Repr

/-- The time base (R1) and the pulse phase formed from it (R164). -/
structure TimeBase where
  running : Bool
  seconds : Nat
  /-- 1 ms ticks since the last 100 ms tick (R1). -/
  shortTicks : Nat
  /-- A 100 ms tick has come whose TICK_100MS has not been taken (R1, log 4). -/
  tenthDue : Bool
  /-- 100 ms ticks since the last 1 s tick (R1). -/
  tenths : Nat
  /-- A 1 s tick has come whose TICK_1S has not been taken (R1, log 4). -/
  secondDue : Bool
  phase : Nat
  /-- The phase has reached a boundary whose event has not been taken (log 6). -/
  pulseDue : Bool
  deriving DecidableEq, Repr

/-- A notice one block hands another, taken within the same step (log 7). -/
inductive Notice where
  /-- To the hold queue (R19, R121). -/
  | levelChange (zone : Fin 4) (level : Fin 4)
  /-- To the fan proof unit (R19, R50). -/
  | forcingChange (zone : Fin 4)
  /-- To the fan proof unit (R50, R132): the entry has left or returned to IDLE. -/
  | entryIdle (entry : Fin 16)
  /-- To the force engine (R134, R135). -/
  | sweepRequest (zone : Fin 4) (kind : SweepKind)
  /-- To the force engine itself: it is free, or at an entry boundary (R136). -/
  | engineGo
  deriving DecidableEq, Repr

/-- The state of the part. -/
structure State where
  /-- The commands that are waiting, first in first out. -/
  pending : List Instr
  supply : Supply
  /-- The RESET line is asserted (R184). -/
  resetLine : Bool
  /-- The host bus reset input is asserted (R78). -/
  busReset : Bool
  mode : Mode
  time : TimeBase
  cfg : Settings
  zones : Tab ZoneRec 4
  chans : Tab ChanRec 8
  /-- The channels the converter scan has still to sample, in its order (R27). -/
  scan : List (Fin 8)
  spills : Tab SpillRec 12
  tachs : Tab TachRec 8
  /-- The first tach window has opened (R48). -/
  windowOpen : Bool
  upstream : Upstream
  /-- Requests the host presents and the port has not taken (R58, R76; log 11). -/
  hostWaiting : List HostRequest
  /-- The responses given so far, oldest first: a record of an output (log 12). -/
  responses : List Response
  posted : List Posted
  waiting : List Placement
  checker : Judgement
  store : CellStore
  hold : List HoldEntry
  force : Tab ForceRec 16
  sweep : Option Sweep
  requests : List SweepRequest
  port : Downstream
  lines : Lines
  log : EventLog
  /-- The dirty marks of the report region's items (R170). -/
  marks : Tab Bool 67
  writer : Writer
  /-- The item the report writer last started (R173). -/
  lastItem : Option (Fin 67)
  maint : Maintenance
  staging : Memory
  nv : NvStore
  /-- Notices not yet taken; empty between steps (log 7). -/
  agenda : List Notice
  /-- The counter the free orders are read at (log 8). -/
  choices : Nat
  deriving DecidableEq, Repr

/-- Why the part stops: never. Every fault the spec describes is an outcome it gives a rule for, so no meaning raises one. -/
inductive Fault where
  deriving DecidableEq, Repr

/-- Why a command has no meaning. -/
inductive Refusal where
  /-- Raised by `exec` alone, for a command that has no meaning yet; safe. No arm raises it. -/
  | notModelled (mnemonic : String)
  deriving DecidableEq, Repr

/-! ## The values after reset -/

/-- No cause. -/
def Causes.empty : Causes :=
  { start := false, h2Alert := false, h2Vent := false, h2High := false, spill := false, sensorLost := false,
    hostLost := false, ventUnproven := false, fanFault := false, config := false }

/-- A zone record from the start of LOADING (R23). -/
def ZoneRec.initial : ZoneRec :=
  { state := .vent, causes := { Causes.empty with start := true }, unack := true, reading := none, peak := none,
    purge := .stopped, refresh := .stopped }

/-- A channel record from the start of LOADING (R38); `warm` is the warm flag it keeps. The sample state takes R38's value as RUN begins
(`State.chanAtRun`); until then, in FALLBACK and for an unused channel it stands at WARMUP, the model's choice (log 39). -/
def ChanRec.initial (warm : Bool) : ChanRec :=
  { sample := .warmup, test := none, timer := .stopped, warm := warm, filter := [], bad := 0, good := 0, raw := none }

/-- A spill line record after a restart (R45). -/
def SpillRec.initial : SpillRec := { wet := false, run := 0, last := none, due := false }

/-- A tach record after a restart (R56). -/
def TachRec.initial : TachRec :=
  { state := .idle, required := false, timer := .stopped, count := 0, speed := none, due := false }

/-- A force entry after a restart (R147). -/
def ForceRec.initial : ForceRec :=
  { state := .idle, prior := none, last := none, attempts := 0, retry := .stopped, fromFailed := false }

/-- An empty line of the cell store (R116). -/
def Line.empty : Line :=
  { tag := none, pinned := false, filling := false,
    cells := Tab.replicate 4 { valid := false, value := 0#16, written := false } }

/-- The cell store from the start of LOADING (R116). -/
def CellStore.initial : CellStore :=
  { lines := Tab.replicate 16 Line.empty, lru := indices 16, fill := none, list := [], checkerClaim := none,
    engineClaim := none }

/-- The downstream port from the start of LOADING (R158). -/
def Downstream.initial : Downstream :=
  { state := .idle, timeout := .stopped, settleDue := false, aging := .stopped, aged := false }

/-- The output lines while no zone drives them: fail-safe lines released, signal lines at their hold levels (R169). -/
def Lines.safe (hold : Tab Bool 8) : Lines :=
  { fanRun := Tab.replicate 4 true, charger := true, attention := true,
    signals := hold.map (fun h => { pattern := .steady h, level := h }), hold := hold }

/-- Settings that configure nothing: LOADING and FALLBACK (R4, R14, R25, R41, R47, R61, R82, R102, R131). -/
def Settings.unset : Settings :=
  { imageId := 0#32, reportBase := none,
    windows := Tab.replicate 16
      { enabled := false, cls := .open_, zone := 0, profile := 0, func := .acknowledge, style := .report, base := 0#24, sizeExp := 3 },
    profiles := Tab.replicate 8
      { levels := Tab.replicate 4 { low := 0#16, high := 0#16, rule := .clamp }, fall := 0#16, rise := 0#16,
        unknown := .boundsOnly, holdLimit := 1 },
    zones := Tab.replicate 4 { alert := 0, vent := 0, high := 0, hysteresis := 0, purgeTime := 0, refreshPeriod := 0 },
    channels := Tab.replicate 8 { zone := none, rawZero := 0, span := 1, openLimit := 0, overLimit := 0, warmUp := 0 },
    spills := Tab.replicate 12 { zone := none, wetHigh := false, debounce := 1 },
    tachs := Tab.replicate 8 { binding := none, pulses := 1, proofSpeed := 0, proofDelay := 0 },
    forces := Tab.replicate 16 none, pins := [], groups := Tab.replicate 2 .lamps,
    cellAddrs := Tab.replicate 8 0#24, fixedLevels := Tab.replicate 8 false }

/-- The RESTART record of a power-up restart (R184): sequence 0, no zone, no subject, value 1. -/
def Record.powerUp : Record :=
  { seq := 0#16, kind := .restart, zone := none, time := 0, subject := none, value := some 1, repeats := 1, gap := false }

/-- The part right after a power-up restart has begun LOADING (R23, R38, R45, R56, R79, R98, R116, R128, R147, R158, R169, R181, R184, R187).
The values the spec does not give (input levels, the store's contents, the hold levels) are those of log 1. -/
def State.reset : State :=
  { pending := [], supply := .on, resetLine := false, busReset := false, mode := .loading,
    time := { running := true, seconds := 0, shortTicks := 0, tenthDue := false, tenths := 0, secondDue := false, phase := 0,
              pulseDue := false },
    cfg := Settings.unset, zones := Tab.replicate 4 ZoneRec.initial, chans := Tab.replicate 8 (ChanRec.initial false),
    scan := [], spills := Tab.replicate 12 SpillRec.initial, tachs := Tab.replicate 8 TachRec.initial,
    windowOpen := false, upstream := .idle, hostWaiting := [], responses := [], posted := [], waiting := [],
    checker := .idle, store := CellStore.initial, hold := [], force := Tab.replicate 16 ForceRec.initial,
    sweep := none, requests := [], port := Downstream.initial, lines := Lines.safe (Tab.replicate 8 false),
    log := { records := [Record.powerUp], nextSeq := 1#16, lastClear := .none, clearedThrough := 0#16, commitCount := 0,
             latch := false },
    marks := Tab.replicate 67 false, writer := .idle, lastItem := none,
    maint := { reply := .none, storing := false, line := false, sampled := false, lineDue := none },
    staging := [], nv := { image := [], torn := none }, agenda := [], choices := 0 }

end Sys2Proof.Machine
end

