-- ==== Sys2Proof/Machine/Flags.lean ====
section
/-!
DEFINITION. The zones' cause flags, the restriction level and the settling of the state (chapter 1), and the mean of a filter.
-/
namespace Sys2Proof.Machine

/-- The causes in the order of their numbers (R5). -/
def Cause.all : List Cause :=
  [.start, .h2Alert, .h2Vent, .h2High, .spill, .sensorLost, .hostLost, .ventUnproven, .fanFault, .config]

/-- A cause's number (R5). -/
def Cause.number : Cause → Nat
  | .start => 0 | .h2Alert => 1 | .h2Vent => 2 | .h2High => 3 | .spill => 4
  | .sensorLost => 5 | .hostLost => 6 | .ventUnproven => 7 | .fanFault => 8 | .config => 9

/-- Whether a cause is present. -/
def Causes.has (cs : Causes) : Cause → Bool
  | .start => cs.start | .h2Alert => cs.h2Alert | .h2Vent => cs.h2Vent | .h2High => cs.h2High
  | .spill => cs.spill | .sensorLost => cs.sensorLost | .hostLost => cs.hostLost
  | .ventUnproven => cs.ventUnproven | .fanFault => cs.fanFault | .config => cs.config

/-- The set with a cause made present or absent. -/
def Causes.put (cs : Causes) (c : Cause) (b : Bool) : Causes :=
  match c with
  | .start => { cs with start := b }
  | .h2Alert => { cs with h2Alert := b }
  | .h2Vent => { cs with h2Vent := b }
  | .h2High => { cs with h2High := b }
  | .spill => { cs with spill := b }
  | .sensorLost => { cs with sensorLost := b }
  | .hostLost => { cs with hostLost := b }
  | .ventUnproven => { cs with ventUnproven := b }
  | .fanFault => { cs with fanFault := b }
  | .config => { cs with config := b }

/-- A cause of class LOCKOUT is present (R5). -/
def Causes.anyLockout (cs : Causes) : Bool := cs.h2High || cs.ventUnproven

/-- A cause of class VENT is present (R5). -/
def Causes.anyVent (cs : Causes) : Bool :=
  cs.start || cs.h2Vent || cs.spill || cs.sensorLost || cs.hostLost || cs.config

/-- The word of cause bits the report region and STATUS show: bit k for cause number k (R172, R190). -/
def Causes.word (cs : Causes) : Nat :=
  (Cause.all.map (fun c => if cs.has c then 2 ^ c.number else 0)).sum

/-- The causes whose presence differs between two sets, in number order, with the new presence. -/
def Causes.changes (old new : Causes) : List (Cause × Bool) :=
  (Cause.all.filter (fun c => old.has c != new.has c)).map (fun c => (c, new.has c))

/-- Some cause is present in the new set and absent from the old. -/
def Causes.anySet (old new : Causes) : Bool := (Causes.changes old new).any (fun p => p.2)

/-- A state's code (R3). -/
def ZoneState.code : ZoneState → Nat
  | .clear => 0 | .alert => 1 | .vent => 2 | .purge => 3 | .lockout => 4

/-- The restriction level of a state (R15). -/
def ZoneState.level : ZoneState → Fin 4
  | .clear => 0 | .alert => 1 | .vent => 2 | .purge => 2 | .lockout => 3

/-- Whether a state is forcing (R15). -/
def ZoneState.forcing : ZoneState → Bool
  | .clear | .alert => false
  | .vent | .purge | .lockout => true

/-- The settling of a zone's state: the first of the six cases of R16 that holds. -/
def settleState (old : ZoneState) (cs : Causes) : ZoneState :=
  if cs.anyLockout then .lockout
  else if old = .lockout then .lockout
  else if cs.anyVent then .vent
  else match old with
    | .vent => .purge
    | .purge => .purge
    | .clear | .alert | .lockout => if cs.h2Alert then .alert else .clear

/-- The changes of state into a higher hazard, which set the unacknowledged flag (R18). -/
def isRise : ZoneState → ZoneState → Bool
  | .clear, .alert => true
  | .clear, .vent | .alert, .vent | .purge, .vent => true
  | .clear, .lockout | .alert, .lockout | .vent, .lockout | .purge, .lockout => true
  | _, _ => false

/-- One hydrogen cause after a reading change: the table of R7. -/
def hydrogenCause (threshold hysteresis : Nat) (reading : Option Nat) (present : Bool) : Bool :=
  match reading with
  | none => false
  | some r => if threshold ≤ r then true else if threshold - hysteresis ≤ r then present else false

/-- The three hydrogen causes after a reading change (R7). -/
def Causes.hydrogen (cs : Causes) (z : ZoneCfg) (reading : Option Nat) : Causes :=
  { cs with
    h2Alert := hydrogenCause z.alert z.hysteresis reading cs.h2Alert
    h2Vent := hydrogenCause z.vent z.hysteresis reading cs.h2Vent
    h2High := hydrogenCause z.high z.hysteresis reading cs.h2High }

/-- The filtered value: the mean of the filter's members, rounded down; absent while it is empty (R29). -/
def meanOf (filter : List Nat) : Option Nat :=
  match filter with
  | [] => none
  | _ => some (filter.sum / filter.length)

/-- The greater of two optional readings. -/
def maxReading : Option Nat → Option Nat → Option Nat
  | none, b => b
  | a, none => a
  | some a, some b => some (max a b)

end Sys2Proof.Machine
end

