-- ==== Sys2Proof/Machine/Operands.lean ====
section
/-!
DEFINITION. The operands of transfers: widths, alignment, and the order of bytes in words (spec 00 section 7.1); and the timers (R2).
-/
namespace Sys2Proof

/-- The number of bytes of a transfer. -/
def Width.bytes : Width → Nat
  | .w1 => 1
  | .w2 => 2
  | .w4 => 4

/-- The data of that width: the bytes above it are no part of the transfer. -/
def Width.cut (w : Width) (d : Data) : Data :=
  match w with
  | .w1 => d &&& 0xFF#32
  | .w2 => d &&& 0xFFFF#32
  | .w4 => d

/-- A request is aligned when its address is a multiple of its width (R60). -/
def Width.aligned (w : Width) (a : Addr) : Bool := a.toNat % w.bytes == 0

namespace Machine

/-- The two bytes at the lower address of a transfer's data, or its one byte: the value a record or a clear request carries (R65, R68, R72). -/
def lowHalf (w : Width) (d : Data) : Half := (w.cut d).setWidth 16

/-- A cell's value as the data of a 2-byte transfer. -/
def cellData (v : Half) : Data := v.setWidth 32

/-- The value a 2-byte transfer's data gives a cell (R81). -/
def cellValue (d : Data) : Half := d.setWidth 16

/-- The line group that contains an address: its aligned group of 8 bytes (R100). -/
def groupOf (a : Addr) : Addr := a &&& 0xFFFFF8#24

/-- The number of a cell within its line, 0 to 3 from the lowest address (R100). -/
def cellIndex (a : Addr) : Fin 4 := ⟨a.toNat / 2 % 4, Nat.mod_lt _ (by decide)⟩

/-- The address of cell `i` of a line group. -/
def cellAt (group : Addr) (i : Nat) : Addr := group + BitVec.ofNat 24 (2 * i)

/-- A number as `n` bytes, least significant first (R171, R182). -/
def leBytes : Nat → Nat → List Byte
  | 0, _ => []
  | n + 1, v => BitVec.ofNat 8 v :: leBytes n (v / 256)

/-- The number that bytes, least significant first, stand for. -/
def leValue : List Byte → Nat
  | [] => 0
  | b :: rest => b.toNat + 256 * leValue rest

/-- Exactly `n` bytes: the bytes given, then zeros (R171: bytes the layouts do not name are written zero). -/
def padTo (n : Nat) (bs : List Byte) : List Byte := (bs ++ List.replicate n 0#8).take n

/-- A truth value as a byte, 1 or 0. -/
def flagByte (b : Bool) : Byte := if b then 1#8 else 0#8

/-- A zone number as a byte, FFh when absent (R172, R177). -/
def zoneByte (z : Option (Fin 4)) : Byte :=
  match z with
  | some z => BitVec.ofNat 8 z.val
  | none => 0xFF#8

/-! ## Timers (R2) -/

/-- A timer started or restarted at its configured length; a length of 0 starts nothing. -/
def Timer.start (n : Nat) : Timer := if n = 0 then .stopped else .running n

/-- One tick of the timer's unit (R2): the tick that brings the count to zero makes the expiry due. -/
def Timer.tick : Timer → Timer
  | .running n => if n ≤ 1 then .due else .running (n - 1)
  | .stopped => .stopped
  | .due => .due
  | .rested => .rested

/-- The remaining count a view shows; 0 when the timer is not running. A timer whose expiring tick has come shows 0 until its expiry is
taken, the model's choice (log 5). -/
def Timer.shown : Timer → Nat
  | .running n => n
  | .stopped | .due | .rested => 0

/-- The timer is running or its expiry is still to be taken. -/
def Timer.active : Timer → Bool
  | .running _ | .due => true
  | .stopped | .rested => false

end Machine
end Sys2Proof
end

