-- ==== Sys2Proof/Machine/Windows.lean ====
section
/-!
DEFINITION. The window table (chapter 4): resolution of an address to its governing window, and the profile bounds of chapter 5.
-/
namespace Sys2Proof.Machine

/-- What governs an address (R62). -/
inductive Governs where
  /-- The built-in report window. -/
  | report
  | window (w : Window)
  /-- No window: the address is OPEN. -/
  | nothing
  deriving DecidableEq, Repr

/-- A window covers base to base + size − 1 (R61). -/
def Window.covers (w : Window) (a : Addr) : Bool :=
  w.enabled && decide (w.base.toNat ≤ a.toNat) && decide (a.toNat < w.base.toNat + 2 ^ w.sizeExp)

/-- The report window: 1 KB at the report base (R62). -/
def Settings.inReport (cfg : Settings) (a : Addr) : Bool :=
  match cfg.reportBase with
  | some b => decide (b.toNat ≤ a.toNat) && decide (a.toNat < b.toNat + 1024)
  | none => false

/-- The governing window of an address: the report window, else the enabled window of lowest number, else none (R62). -/
def Settings.governing (cfg : Settings) (a : Addr) : Governs :=
  if cfg.inReport a then .report
  else match cfg.windows.items.find? (fun w => w.covers a) with
    | some w => .window w
    | none => .nothing

/-- The CHECKED window that governs an address, if one does (R62, R81). -/
def Settings.checkedAt (cfg : Settings) (a : Addr) : Option Window :=
  match cfg.governing a with
  | .window w => if w.cls = .checked then some w else none
  | .report | .nothing => none

/-- The zone of the window that governs an address, where that window has one: CHECKED, or WATCHED other than LOG_CLEAR (R61, R64). -/
def Settings.zoneAt (cfg : Settings) (a : Addr) : Option (Fin 4) :=
  match cfg.governing a with
  | .window w =>
    match w.cls with
    | .checked => some w.zone
    | .watched => if w.func = .logClear then none else some w.zone
    | .open_ | .barred => none
  | .report | .nothing => none

/-- The outcome of comparing a value with the bounds of one level (R85, R121, R144). -/
inductive BoundsOutcome where
  /-- In bounds, or clamped to the nearer bound. -/
  | value (v : Half)
  | hold
  | refuse
  deriving DecidableEq, Repr

/-- A value compared with the bounds of a level (R85). -/
def LevelBounds.judge (b : LevelBounds) (v : Half) : BoundsOutcome :=
  if b.low.toNat ≤ v.toNat ∧ v.toNat ≤ b.high.toNat then .value v
  else match b.rule with
    | .clamp => .value (if v.toNat < b.low.toNat then b.low else b.high)
    | .hold => .hold
    | .refuse => .refuse

/-- A value lies in the bounds of a level. -/
def LevelBounds.inBounds (b : LevelBounds) (v : Half) : Bool :=
  decide (b.low.toNat ≤ v.toNat) && decide (v.toNat ≤ b.high.toNat)

/-- A value raised to `lo` if below it. -/
def raiseTo (lo v : Half) : Half := if v.toNat < lo.toNat then lo else v

/-- A value lowered to `hi` if above it. -/
def lowerTo (hi v : Half) : Half := if hi.toNat < v.toNat then hi else v

/-- The step limits of a profile applied to a value, then the final clamp into the level's bounds (R86). -/
def Profile.step (p : Profile) (b : LevelBounds) (current v : Half) : Half :=
  let v1 := if p.fall = 0#16 then v else raiseTo (BitVec.ofNat 16 (current.toNat - p.fall.toNat)) v
  let v2 := if p.rise = 0#16 then v1 else lowerTo (BitVec.ofNat 16 (min 65535 (current.toNat + p.rise.toNat))) v1
  lowerTo b.high (raiseTo b.low v2)

/-- A profile has a step limit (R82). -/
def Profile.stepped (p : Profile) : Bool := p.fall != 0#16 || p.rise != 0#16

/-- A value moved towards a forced value by a sense (R88). -/
def Sense.move (sense : Sense) (f v : Half) : Half :=
  match sense with
  | .floor => raiseTo f v
  | .ceiling => lowerTo f v
  | .exact_ => f

/-- A value satisfies a sense (R133). -/
def Sense.satisfied (sense : Sense) (f n : Half) : Bool :=
  match sense with
  | .floor => decide (f.toNat ≤ n.toNat)
  | .ceiling => decide (n.toNat ≤ f.toNat)
  | .exact_ => decide (n = f)

/-- A force entry in this state is under force (R88, R132). -/
def ForceState.underForce : ForceState → Bool
  | .applying | .active | .failed => true
  | .idle | .releasing => false

namespace State

/-- The restriction level of a zone (R15). -/
def zoneLevel (s : State) (z : Fin 4) : Fin 4 := (s.zones.get z).state.level

end State
end Sys2Proof.Machine
end

