-- ==== Sys2Proof/Machine/Cells.lean ====
section
/-!
DEFINITION. The cell store (chapter 6): lookups, claims, the fill list, fills, write-through and invalidation.
A fill asks the posted queue for the newest flagged entry of a cell (R74); the operations take that question as an argument `queued`.
-/
namespace Sys2Proof.Machine

/-- A request stands with no claimant: a prefill, a repair, or an abandoned checker claim (R104). -/
def FillFor.unclaimed : FillFor → Bool
  | .nobody | .abandoned => true
  | .checker | .engine => false

/-- A claim that has not settled: it waits in the fill list or is joined to a fill (R103, R104). -/
def Claim.unsettled : Claim → Bool
  | { stage := .listed, .. } | { stage := .joined, .. } => true
  | { stage := .settled _, .. } => false

namespace CellStore

/-- The line that holds a group's tag (R100). -/
def find (c : CellStore) (group : Addr) : Option (Fin 16) :=
  (indices 16).find? (fun i => (c.lines.get i).tag == some group)

/-- A line moved to the head of the LRU order (R101). -/
def touch (c : CellStore) (i : Fin 16) : CellStore := { c with lru := i :: c.lru.filter (fun j => j != i) }

/-- A line changed. -/
def setLine (c : CellStore) (i : Fin 16) (l : Line) : CellStore := { c with lines := c.lines.set i l }

/-- A cell of a line changed. -/
def setCell (c : CellStore) (i : Fin 16) (k : Fin 4) (r : CellRec) : CellStore :=
  c.setLine i { c.lines.get i with cells := (c.lines.get i).cells.set k r }

/-- A cell of a line. -/
def cell (c : CellStore) (i : Fin 16) (k : Fin 4) : CellRec := (c.lines.get i).cells.get k

/-- Every cell of a line from a starting cell on is valid (R105). -/
def validFrom (c : CellStore) (i : Fin 16) (start : Fin 4) : Bool :=
  (indices 4).all (fun k => decide (k.val < start.val) || (c.cell i k).valid)

/-- The least recently used line that is neither pinned nor filling (R105). -/
def victim (c : CellStore) : Option (Fin 16) :=
  c.lru.reverse.find? (fun i => !(c.lines.get i).pinned && !(c.lines.get i).filling)

/-- A claim changed where it satisfies a condition. -/
def onClaim (p : Claim → Bool) (stage : ClaimStage) (k : Option Claim) : Option Claim :=
  k.map (fun k => if p k then { k with stage := stage } else k)

/-- Both claims changed where they satisfy a condition. -/
def onClaims (c : CellStore) (p : Claim → Bool) (stage : ClaimStage) : CellStore :=
  { c with checkerClaim := onClaim p stage c.checkerClaim, engineClaim := onClaim p stage c.engineClaim }

/-- The claims joined on a cell settle (R113). -/
def settleCell (c : CellStore) (a : Addr) (v : Option Half) : CellStore :=
  c.onClaims (fun k => k.stage == .joined && k.cell == a) (.settled v)

/-- Every claim joined on a later cell of the line settles as unknown (R108). -/
def settleLater (c : CellStore) (group : Addr) (pos : Nat) : CellStore :=
  c.onClaims (fun k => k.stage == .joined && groupOf k.cell == group && decide (pos ≤ (cellIndex k.cell).val)) (.settled none)

/-- The end of a fill: the filling flag and the written marks of its line are cleared (R109). -/
def endFill (c : CellStore) (f : Fill) : CellStore :=
  let l := c.lines.get f.line
  { c.setLine f.line { l with filling := false, cells := l.cells.map (fun r => { r with written := false }) } with fill := none }

/-- The start of a fill on a line from a cell: every listed claim of the line at or above it leaves the list and joins (R104). -/
def beginFill (c : CellStore) (i : Fin 16) (group : Addr) (start : Fin 4) : CellStore :=
  let c := c.setLine i { c.lines.get i with filling := true }
  let c : CellStore := { c with
    fill := some { line := i, pos := start.val, reading := false }
    list := c.list.filter (fun (r : FillRequest) => !(r.who != .nobody && r.group == group && decide (start.val ≤ r.start.val))) }
  c.onClaims (fun (k : Claim) => k.stage == .listed && groupOf k.cell == group && decide (start.val ≤ (cellIndex k.cell).val)) .joined

/-- The claim a request stands for settles at once with a value (R105). -/
def settleRequest (c : CellStore) (r : FillRequest) (v : Half) : CellStore :=
  match r.who with
  | .checker | .abandoned => { c with checkerClaim := c.checkerClaim.map (fun k => { k with stage := .settled (some v) }) }
  | .engine => { c with engineClaim := c.engineClaim.map (fun k => { k with stage := .settled (some v) }) }
  | .nobody => c

/-- The request at the head of the fill list examined (R105); it has left the list. -/
def startRequest (c : CellStore) (r : FillRequest) : CellStore :=
  match c.find r.group with
  | some i =>
    let k := c.cell i r.start
    match r.who with
    | .checker | .engine =>
      if k.valid then (c.settleRequest r k.value).touch i else (c.touch i).beginFill i r.group r.start
    | .nobody => if c.validFrom i r.start then c else c.beginFill i r.group r.start
    | .abandoned =>
      let c := if k.valid then c.settleRequest r k.value else c
      if c.validFrom i r.start then c else c.beginFill i r.group r.start
  | none =>
    match c.victim with
    | some i =>
      let l := c.lines.get i
      let l := { l with tag := some r.group, cells := l.cells.map (fun x => { x with valid := false, written := false }) }
      ((c.setLine i l).touch i).beginFill i r.group r.start
    | none => c

/-- One move of the fills: a request examined, a cell settled without a transfer, a read presented, or a fill ended (R105, R106, R109).
`none` when nothing is to be done before a read completes or a request arrives. -/
def advance (queued : Addr → Option Half) (c : CellStore) : Option CellStore :=
  match c.fill with
  | none =>
    match c.list with
    | [] => none
    | r :: rest => some ({ c with list := rest }.startRequest r)
  | some f =>
    if f.reading then none
    else if h : f.pos < 4 then
      let group := ((c.lines.get f.line).tag).getD 0#24
      let a := cellAt group f.pos
      let k := c.cell f.line ⟨f.pos, h⟩
      let next := some { f with pos := f.pos + 1 }
      if k.valid then some ({ c with fill := next }.settleCell a (some k.value))
      else match queued a with
        | some v => some ({ c.setCell f.line ⟨f.pos, h⟩ { k with valid := true, value := v } with fill := next }.settleCell a (some v))
        | none => some { c with fill := some { f with reading := true } }
    else some (c.endFill f)

/-- The fills run on until a read is presented or the list is empty; `n` bounds the moves. -/
def runFills (queued : Addr → Option Half) : Nat → CellStore → CellStore
  | 0, c => c
  | n + 1, c =>
    match c.advance queued with
    | some c' => runFills queued n c'
    | none => c

/-- The moves that can be needed: one to examine each request, and up to six for each fill. -/
def fillMoves (c : CellStore) : Nat := 7 * (c.list.length + 1)

/-- The fills run on. -/
def settleFills (queued : Addr → Option Half) (c : CellStore) : CellStore := runFills queued c.fillMoves c

/-- A claim made on a cell: it joins the fill in progress or goes to the end of the list (R104). -/
def addClaim (c : CellStore) (who : Claimant) (a : Addr) : CellStore :=
  let joins := match c.fill with
    | some f => (c.lines.get f.line).tag == some (groupOf a) && decide (f.pos ≤ (cellIndex a).val)
    | none => false
  let k : Claim := { cell := a, stage := if joins then .joined else .listed, abandoned := false }
  let r : FillRequest :=
    { group := groupOf a, start := cellIndex a, who := match who with | .checker => .checker | .engine => .engine }
  let c := if joins then c else { c with list := c.list ++ [r] }
  match who with
  | .checker => { c with checkerClaim := some k }
  | .engine => { c with engineClaim := some k }

/-- A lookup (R103): a hit gives the value at once, otherwise the lookup becomes a claim. -/
def lookup (queued : Addr → Option Half) (c : CellStore) (who : Claimant) (a : Addr) : Option Half × CellStore :=
  match c.find (groupOf a) with
  | some i =>
    let c := c.touch i
    let k := c.cell i (cellIndex a)
    if k.valid then (some k.value, c) else (none, (c.addClaim who a).settleFills queued)
  | none => (none, (c.addClaim who a).settleFills queued)

/-- The fill in progress has not yet settled the cell (R107, R110). -/
def unsettled (c : CellStore) (i : Fin 16) (k : Fin 4) : Bool :=
  match c.fill with
  | some f => f.line == i && decide (f.pos ≤ k.val)
  | none => false

/-- A write-through (R110). -/
def writeThrough (c : CellStore) (a : Addr) (v : Half) : CellStore :=
  match c.find (groupOf a) with
  | some i =>
    let k := cellIndex a
    let r := c.cell i k
    c.setCell i k { valid := true, value := v, written := r.written || c.unsettled i k }
  | none => c

/-- A repair of a pinned line requested, unless the list already holds a request with no claimant for the line (R111). -/
def repair (c : CellStore) (i : Fin 16) (group : Addr) (start : Fin 4) : CellStore :=
  if (c.lines.get i).pinned && !c.list.any (fun r => r.who.unclaimed && r.group == group) then
    { c with list := c.list ++ [{ group := group, start := start, who := .nobody }] }
  else c

/-- A cell made invalid, with a repair where its line is pinned (R111, R112). -/
def invalidate (queued : Addr → Option Half) (c : CellStore) (a : Addr) : CellStore :=
  match c.find (groupOf a) with
  | some i =>
    let k := cellIndex a
    let c := c.setCell i k { c.cell i k with valid := false, written := false }
    (c.repair i (groupOf a) k).settleFills queued
  | none => c

/-- The belief corrected after a force apply has removed queued writes to a cell; `inFlight` is the value of the entry still in the
queue, if any (R112). A cell that was invalid takes the value and is valid too (log 41). -/
def correct (queued : Addr → Option Half) (c : CellStore) (a : Addr) (inFlight : Option Half) : CellStore :=
  match inFlight with
  | some v =>
    match c.find (groupOf a) with
    | some i => c.setCell i (cellIndex a) { c.cell i (cellIndex a) with valid := true, value := v }
    | none => c
  | none => c.invalidate queued a

/-- The address of the cell whose read the fill presents. -/
def readAddress (c : CellStore) : Option Addr :=
  match c.fill with
  | some f => if f.reading then some (cellAt (((c.lines.get f.line).tag).getD 0#24) f.pos) else none
  | none => none

/-- The fill in progress carries a force engine claim not yet settled (R152). -/
def carriesEngine (c : CellStore) : Bool :=
  match c.engineClaim with
  | some k => k.stage == .joined
  | none => false

/-- The completion DONE of the fill's read (R107). -/
def readDone (queued : Addr → Option Half) (c : CellStore) (v : Half) : CellStore :=
  match c.fill with
  | some f =>
    if h : f.pos < 4 then
      let a := cellAt (((c.lines.get f.line).tag).getD 0#24) f.pos
      let k := c.cell f.line ⟨f.pos, h⟩
      let k' := if k.written then k else { k with valid := true, value := v }
      let c := { c.setCell f.line ⟨f.pos, h⟩ k' with fill := some { f with pos := f.pos + 1, reading := false } }
      (c.settleCell a (some k'.value)).settleFills queued
    else c
  | none => c

/-- The completion FAULT of the fill's read (R108): the fill ends. -/
def readFault (queued : Addr → Option Half) (c : CellStore) : CellStore :=
  match c.fill with
  | some f =>
    if h : f.pos < 4 then
      let group := ((c.lines.get f.line).tag).getD 0#24
      let k := c.cell f.line ⟨f.pos, h⟩
      let c := c.settleCell (cellAt group f.pos) (if k.written then some k.value else none)
      let c := c.settleLater group (f.pos + 1)
      (c.endFill f).settleFills queued
    else c
  | none => c

/-- The claim of a claimant. -/
def claimOf (c : CellStore) : Claimant → Option Claim
  | .checker => c.checkerClaim
  | .engine => c.engineClaim

/-- The claim of a claimant taken away. -/
def dropClaim (c : CellStore) : Claimant → CellStore
  | .checker => { c with checkerClaim := none }
  | .engine => { c with engineClaim := none }

/-- The checker's claim abandoned by an upstream reset (R117): one that has not settled keeps its place, with no claimant to resume; the
settlement of one that has finds no judgement, and the claim is gone (R97). -/
def abandon (c : CellStore) : CellStore :=
  { c with
    checkerClaim := (c.checkerClaim.filter Claim.unsettled).map (fun k => { k with abandoned := true })
    list := c.list.map (fun r => if r.who = .checker then { r with who := .abandoned } else r) }

/-- A fill is in progress or waits: "store busy" (R109). -/
def busy (c : CellStore) : Bool := c.fill.isSome || !c.list.isEmpty

/-- One pin allocated: its group takes the lowest-numbered empty line, unless it already has one (R102). -/
def pin (c : CellStore) (a : Addr) : CellStore :=
  match c.find (groupOf a) with
  | some _ => c
  | none =>
    match (indices 16).find? (fun i => (c.lines.get i).tag == none) with
    | some i => c.setLine i { Line.empty with tag := some (groupOf a), pinned := true }
    | none => c

/-- The cell store as RUN begins (R102, R116): pins allocated, one prefill request for each pinned line, in line order. -/
def atRun (queued : Addr → Option Half) (pins : List Addr) : CellStore :=
  let c := pins.foldl pin CellStore.initial
  let prefills := (indices 16).filterMap (fun i =>
    match (c.lines.get i).tag with
    | some g => some { group := g, start := (0 : Fin 4), who := FillFor.nobody }
    | none => none)
  { c with list := prefills }.settleFills queued

end CellStore
end Sys2Proof.Machine
end

