-- ==== Sys2Proof/Machine/Layout.lean ====
section
/-!
DEFINITION. The layouts of the report region's items and of an event record (chapter 11), and the report writer's choice of an item.
-/
namespace Sys2Proof.Machine

/-- A channel's state as the zone controller and the outside see it (R26). -/
def chanState (c : ChanCfg) (r : ChanRec) : ChanState :=
  match c.zone, r.test, r.sample with
  | none, _, _ => .off
  | some _, some _, _ => .test
  | some _, none, .warmup => .warmup
  | some _, none, .live => .live
  | some _, none, .fault => .fault

/-- A state's code (R172). -/
def ChanState.code : ChanState → Nat
  | .off => 0 | .warmup => 1 | .live => 2 | .fault => 3 | .test => 4

/-- A kind's code (R177). -/
def EventKind.code : EventKind → Nat
  | .zoneState => 1 | .causeSet => 2 | .causeClear => 3 | .acknowledged => 4 | .channelFault => 5 | .channelLive => 6
  | .testBegin => 7 | .testEnd => 8 | .spillWet => 9 | .spillDry => 10 | .fanFailed => 11 | .fanProven => 12
  | .forceFailed => 13 | .forceRecovered => 14
  | .writeRefused => 32 | .writeAbsorbed => 33 | .misaligned => 34 | .holdEntered => 35 | .holdFull => 36
  | .holdDiscarded => 37 | .writeFault => 38 | .readFault => 39 | .fillFault => 40 | .reportFault => 41 | .holdExpired => 42
  | .restart => 64 | .configFallback => 65

/-- A clear result's code (R171). -/
def ClearResult.code : ClearResult → Nat
  | .none => 0 | .cleared => 1 | .stale => 2 | .empty => 3

/-- A proof state's code (R172). -/
def ProofState.code : ProofState → Nat
  | .idle => 0 | .proving => 1 | .proven => 2 | .failed => 3

/-- Up to three truth values as the low bits of a byte. -/
def bits4 (b0 b1 b2 b3 : Bool) : Byte := flagByte b0 + 2#8 * flagByte b1 + 4#8 * flagByte b2 + 8#8 * flagByte b3

/-- A record in 16 bytes (R177). -/
def Record.bytes (r : Record) : List Byte :=
  leBytes 2 r.seq.toNat ++ leBytes 1 r.kind.code ++ [zoneByte r.zone] ++ leBytes 4 r.time ++ leBytes 4 (r.subject.getD 0)
    ++ leBytes 2 (r.value.getD 0) ++ leBytes 1 r.repeats ++ [bits4 r.gap r.subject.isSome r.value.isSome false]

/-- The refresh timer's field: FFFFh when stopped (R172). -/
def refreshField : Timer → Nat
  | .stopped => 0xFFFF
  | t => t.shown

/-- A zone record's item (R172). -/
def ZoneRec.bytes (r : ZoneRec) : List Byte :=
  leBytes 1 r.state.code ++ leBytes 1 r.state.level.val ++ [flagByte r.unack]
    ++ [bits4 r.reading.isSome r.peak.isSome false false] ++ leBytes 2 r.causes.word ++ leBytes 2 (r.reading.getD 0)
    ++ leBytes 2 (r.peak.getD 0) ++ leBytes 2 r.purge.shown ++ leBytes 2 (refreshField r.refresh)

/-- A channel record's item (R172). The value fields whose presence bit is clear are written zero (log 40). -/
def ChanRec.bytes (c : ChanCfg) (r : ChanRec) : List Byte :=
  leBytes 1 (chanState c r).code ++ [bits4 r.warm (meanOf r.filter).isSome r.test.isSome r.raw.isSome]
    ++ leBytes 2 ((meanOf r.filter).getD 0) ++ leBytes 2 (r.test.getD 0) ++ leBytes 2 ((r.raw.map BitVec.toNat).getD 0)

/-- A tach record's item (R172). A speed whose presence bit is clear is written zero (log 40). -/
def TachRec.bytes (c : TachCfg) (r : TachRec) : List Byte :=
  leBytes 1 r.state.code ++ [match c.binding with | some e => BitVec.ofNat 8 e.val | none => 0xFF#8]
    ++ [bits4 r.required r.speed.isSome false false] ++ leBytes 1 r.timer.shown ++ leBytes 2 (r.speed.getD 0)

/-- A spill line record's item (R172). -/
def SpillRec.bytes (c : SpillCfg) (r : SpillRec) : List Byte :=
  [zoneByte c.zone, flagByte r.wet, match r.last with | some w => flagByte w | none => 0xFF#8] ++ leBytes 1 r.run

/-- An occupied slot of the hold queue mirror (R130, R172). It shows at least 1 second: an entry whose expiring tick has come stands only
until its expiry is taken (log 5). -/
def HoldEntry.bytes (now : Nat) (e : HoldEntry) : List Byte :=
  leBytes 3 e.cell.toNat ++ leBytes 1 e.zone.val ++ leBytes 2 e.value.toNat ++ leBytes 2 (max 1 (e.expiry - now))

/-- The 67 items (R170). -/
inductive Item where
  | header
  | zone (z : Fin 4)
  | channel (c : Fin 8)
  | tach (t : Fin 8)
  | spill (l : Fin 12)
  | hold
  | unused
  | slot (k : Fin 32)
  deriving DecidableEq, Repr

/-- The item at a place of the cycle (R170, R173). -/
def Item.at (i : Fin 67) : Item :=
  if i.val = 0 then .header
  else if i.val < 5 then .zone ⟨(i.val - 1) % 4, Nat.mod_lt _ (by decide)⟩
  else if i.val < 13 then .channel ⟨(i.val - 5) % 8, Nat.mod_lt _ (by decide)⟩
  else if i.val < 21 then .tach ⟨(i.val - 13) % 8, Nat.mod_lt _ (by decide)⟩
  else if i.val < 33 then .spill ⟨(i.val - 21) % 12, Nat.mod_lt _ (by decide)⟩
  else if i.val = 33 then .hold
  else if i.val = 34 then .unused
  else .slot ⟨(i.val - 35) % 32, Nat.mod_lt _ (by decide)⟩

/-- An item's offset in the region (R170). -/
def Item.offset : Item → Nat
  | .header => 0
  | .zone z => 64 + 32 * z.val
  | .channel c => 192 + 8 * c.val
  | .tach t => 256 + 8 * t.val
  | .spill l => 320 + 4 * l.val
  | .hold => 368
  | .unused => 432
  | .slot k => 512 + 16 * k.val

/-- An item's size (R170). -/
def Item.size : Item → Nat
  | .header | .hold => 64
  | .zone _ => 32
  | .channel _ | .tach _ => 8
  | .spill _ => 4
  | .unused => 80
  | .slot _ => 16

namespace State

/-- The header's named bytes (R171). -/
def headerBytes (s : State) : List Byte :=
  leBytes 2 0x0341 ++ leBytes 1 (if s.maint.storing then 2 else 1) ++ leBytes 1 s.log.lastClear.code
    ++ leBytes 4 s.cfg.imageId.toNat ++ leBytes 4 s.time.seconds ++ leBytes 2 s.log.commitCount
    ++ leBytes 2 (s.log.nextSeq - 1#16).toNat ++ leBytes 2 s.log.clearedThrough.toNat ++ leBytes 1 s.log.records.length
    ++ leBytes 1 s.posted.length ++ leBytes 1 s.hold.length

/-- An item's contents as they stand (R171, R172, R175); bytes the layouts do not name are zero. -/
def itemBytes (s : State) (i : Item) : List Byte :=
  padTo i.size
    (match i with
      | .header => s.headerBytes
      | .zone z => (s.zones.get z).bytes
      | .channel c => (s.chans.get c).bytes (s.cfg.channels.get c)
      | .tach t => (s.tachs.get t).bytes (s.cfg.tachs.get t)
      | .spill l => (s.spills.get l).bytes (s.cfg.spills.get l)
      | .hold => s.hold.flatMap (fun e => e.bytes s.time.seconds)
      | .unused => []
      | .slot k =>
        match s.log.records.find? (fun r => r.seq.toNat % 32 == k.val) with
        | some r => r.bytes
        | none => [])

/-- The places of the cycle in the order in which the writer looks at them: after the item it last started (R173). -/
def writerOrder (last : Option (Fin 67)) : List (Fin 67) :=
  match last with
  | none => indices 67
  | some i => (indices 67).drop (i.val + 1) ++ (indices 67).take (i.val + 1)

/-- An IDLE writer in RUN chooses the next marked item, if there is one: its mark is cleared and its snapshot taken (R173). -/
def chooseItem (s : State) : State :=
  match s.writer with
  | .writing _ _ _ => s
  | .idle =>
    if s.mode = .run then
      match (writerOrder s.lastItem).find? (fun i => s.marks.get i) with
      | none => s
      | some i =>
        { s with
          writer := .writing i (s.itemBytes (Item.at i)) 0
          marks := s.marks.set i false
          lastItem := some i }
    else s

end State
end Sys2Proof.Machine
end

