-- ==== Sys2Proof/Machine/Ops.lean ====
section
/-!
DEFINITION. The named operations every block uses: the addressed buffers, dirty marks, the event log, records of the
tables, responses, notices and the free orders.
-/
namespace Sys2Proof.Machine

/-! ## Addressed buffers (R182) -/

/-- The byte at an offset; 0 where none is listed. -/
def Memory.read : Memory → Nat → Byte
  | [], _ => 0#8
  | (k, v) :: rest, a => if k = a then v else Memory.read rest a

/-- The buffer with one byte written, in canonical form again. -/
def Memory.write : Memory → Nat → Byte → Memory
  | [], a, v => if v = 0#8 then [] else [(a, v)]
  | (k, w) :: rest, a, v =>
    if a < k then (if v = 0#8 then (k, w) :: rest else (a, v) :: (k, w) :: rest)
    else if a = k then (if v = 0#8 then rest else (a, v) :: rest)
    else (k, w) :: Memory.write rest a v

/-- The buffer with bytes written from an offset on. -/
def Memory.writeAll : Memory → Nat → List Byte → Memory
  | m, _, [] => m
  | m, a, b :: bs => Memory.writeAll (Memory.write m a b) (a + 1) bs

/-- `n` bytes from an offset on. -/
def Memory.bytes (m : Memory) (off n : Nat) : List Byte := (List.range n).map (fun i => m.read (off + i))

/-- Addresses strictly rising from a bound on, and no entry equal to what an unlisted offset reads as. -/
def Memory.wfFrom : Nat → Memory → Bool
  | _, [] => true
  | lo, (k, v) :: rest => decide (lo ≤ k) && decide (v ≠ 0#8) && Memory.wfFrom (k + 1) rest

/-- The canonical form (log 36). -/
def Memory.wf (m : Memory) : Bool := Memory.wfFrom 0 m

/-- A field of `n` bytes, least significant first (R182). -/
def Memory.field (m : Memory) (off n : Nat) : Nat := leValue (m.bytes off n)

/-- A byte of the non-volatile store as it stands; free where a store write was cut off (R186, log 15). -/
def NvStore.read (nv : NvStore) (a : Nat) : Byte :=
  match nv.torn with
  | none => nv.image.read a
  | some key => Config.tornByte key a

/-! ## Items of the report region (R170) -/

/-- The header's place in the report cycle. -/
def itemHeader : Fin 67 := 0
/-- A zone record's place. -/
def itemZone (z : Fin 4) : Fin 67 := ⟨1 + z.val, by omega⟩
/-- A channel record's place. -/
def itemChannel (c : Fin 8) : Fin 67 := ⟨5 + c.val, by omega⟩
/-- A tach record's place. -/
def itemTach (t : Fin 8) : Fin 67 := ⟨13 + t.val, by omega⟩
/-- A spill line record's place. -/
def itemSpill (l : Fin 12) : Fin 67 := ⟨21 + l.val, by omega⟩
/-- The hold queue mirror's place. -/
def itemHold : Fin 67 := 33
/-- The unused area's place. -/
def itemUnused : Fin 67 := 34
/-- The place of the log slot of a sequence number: its number modulo 32 (R170). -/
def itemSlot (seq : Half) : Fin 67 := ⟨35 + seq.toNat % 32, by omega⟩

/-- What of a zone record marks its item dirty when it changes (R18). -/
def ZoneRec.shown (r : ZoneRec) : ZoneState × Causes × Bool × Option Nat × Option Nat :=
  (r.state, r.causes, r.unack, r.reading, r.peak)

namespace State

/-- An item marked dirty, an event of its own at the report unit (R170): a writer that is IDLE chooses at that event (R173, log 20).
Marks are kept in RUN only (R175). -/
def mark (s : State) (i : Fin 67) : State :=
  if s.mode = .run then { s with marks := s.marks.set i true }.chooseItem else s

/-- Every item marked dirty, at one event (R175). -/
def markEvery (s : State) : State := { s with marks := Tab.replicate 67 true }.chooseItem

/-- Several items marked dirty. -/
def markAll (s : State) (is : List (Fin 67)) : State := is.foldl State.mark s

/-- A notice handed on, to be taken within the step (log 7). -/
def notify (s : State) (n : Notice) : State := { s with agenda := s.agenda ++ [n] }

/-- The next free order, and the counter advanced (log 8). -/
def nextOrder (s : State) : Nat × State := (Config.order s.choices, { s with choices := s.choices + 1 })

/-! ## The event log (R176, R178, R179) -/

/-- Whether a record coalesces into the newest one (R178). -/
def coalesces (kind : EventKind) (zone : Option (Fin 4)) (subject : Option Nat) (newest : Record) : Bool :=
  (kind == .writeRefused || kind == .writeAbsorbed) && newest.kind == kind && newest.zone == zone
    && newest.subject == subject

/-- A record appended by R176, removing the oldest of 32 (R179). -/
def appendRecord (s : State) (kind : EventKind) (zone : Option (Fin 4)) (subject value : Option Nat) : State :=
  let full := decide (Config.logCapacity ≤ s.log.records.length)
  let kept := if full then s.log.records.drop 1 else s.log.records
  let r : Record :=
    { seq := s.log.nextSeq, kind := kind, zone := zone, time := s.time.seconds, subject := subject, value := value,
      repeats := 1, gap := full }
  let s := { s with log := { s.log with records := kept ++ [r], nextSeq := s.log.nextSeq + 1#16 } }
  (s.mark itemHeader).mark (itemSlot r.seq)

/-- A repeat counted on the newest record (R178). -/
def countRepeat (s : State) (r : Record) : State :=
  if r.repeats < 255 then
    let s := { s with log := { s.log with records := s.log.records.dropLast ++ [{ r with repeats := r.repeats + 1 }] } }
    s.mark (itemSlot r.seq)
  else s

/-- An append to the event log: coalesced by R178, or a record of its own by R176. -/
def append (s : State) (kind : EventKind) (zone : Option (Fin 4)) (subject value : Option Nat) : State :=
  match s.log.records.getLast? with
  | some r => if coalesces kind zone subject r then s.countRepeat r else s.appendRecord kind zone subject value
  | none => s.appendRecord kind zone subject value

/-! ## Records of the tables -/

/-- A zone record written; its item is marked when a field of R18 changes. -/
def setZone (s : State) (z : Fin 4) (r : ZoneRec) : State :=
  let changed := decide ((s.zones.get z).shown ≠ r.shown)
  let s := { s with zones := s.zones.set z r }
  if changed then s.mark (itemZone z) else s

/-- A channel record written. -/
def setChan (s : State) (c : Fin 8) (r : ChanRec) : State := { s with chans := s.chans.set c r }

/-- A tach record written. -/
def setTach (s : State) (t : Fin 8) (r : TachRec) : State := { s with tachs := s.tachs.set t r }

/-- A spill line record written; its item is marked when a shown field changes (R46). -/
def setSpill (s : State) (l : Fin 12) (r : SpillRec) : State :=
  let old := s.spills.get l
  let changed := decide ((old.wet, old.run, old.last) ≠ (r.wet, r.run, r.last))
  let s := { s with spills := s.spills.set l r }
  if changed then s.mark (itemSpill l) else s

/-- A force entry's record written. -/
def setForce (s : State) (e : Fin 16) (r : ForceRec) : State := { s with force := s.force.set e r }

/-- The posted queue written; the header shows its count (R80, R171). -/
def setPosted (s : State) (q : List Posted) : State :=
  let changed := decide (s.posted.length ≠ q.length)
  let s := { s with posted := q }
  if changed then s.mark itemHeader else s

/-- The hold queue after an event that makes, removes, replaces or changes an entry: the mirror is marked, also where an entry is replaced by
an equal one, and the header where the count changes (R130). -/
def replaceHold (s : State) (q : List HoldEntry) : State :=
  let counted := decide (s.hold.length ≠ q.length)
  let s := { s with hold := q }.mark itemHold
  if counted then s.mark itemHeader else s

/-- The hold queue written, where an event may leave it as it is. -/
def setHold (s : State) (q : List HoldEntry) : State := if s.hold = q then s else s.replaceHold q

/-- A response given to the host (R59). -/
def respond (s : State) (kind : ResponseKind) (data : Option Data) : State :=
  { s with responses := s.responses ++ [{ kind := kind, data := data }] }

/-- The response to the request the port holds; the port becomes IDLE (R58). -/
def answerHost (s : State) (kind : ResponseKind) (data : Option Data) : State :=
  { s.respond kind data with upstream := .idle }

/-- The part is powered and not held in RESET (R184, R186). -/
def alive (s : State) : Bool := decide (s.supply = .on) && !s.resetLine

end State
end Sys2Proof.Machine
end

