-- ==== Sys2Proof/Machine/OutputLines.lean ====
section
/-!
DEFINITION. The output line unit (chapter 10): fail-safe lines, group functions and the pulse patterns.
-/
namespace Sys2Proof.Machine

/-- A pattern's level at a pulse phase (R164). -/
def Pattern.level (p : Pattern) (phase : Nat) : Bool :=
  match p with
  | .steady b => b
  | .slow => decide (phase < 500)
  | .fast => decide (phase / 125 % 2 = 0)

/-- The lamp of a zone (R165). -/
def lampPattern (state : ZoneState) (unack : Bool) : Pattern :=
  match state, unack with
  | .clear, _ => .steady false
  | .alert, _ | .purge, _ => .steady true
  | .vent, true => .slow
  | .vent, false => .steady true
  | .lockout, true => .fast
  | .lockout, false => .slow

/-- The sounder of a zone (R166). -/
def sounderPattern (state : ZoneState) (unack : Bool) : Pattern :=
  match state with
  | .vent | .lockout => .steady unack
  | .clear | .alert | .purge => .steady false

/-- The group of a signal line, 0 for A and 1 for B (R163). -/
def lineGroup (i : Fin 8) : Fin 2 := ⟨i.val / 4, by omega⟩

/-- The zone shown by a line of a LAMPS or SOUNDERS group (R165, R166). -/
def lineZone (i : Fin 8) : Fin 4 := ⟨i.val % 4, Nat.mod_lt _ (by decide)⟩

/-- The pulse phases that are boundaries (R164). -/
def isPulseBoundary (phase : Nat) : Bool := decide (phase % 125 = 0)

namespace State

/-- The belief a CELL line follows: the value of its cell if it is valid (R114, R167). -/
def lineCell (s : State) (a : Addr) : Option Half :=
  match s.store.find (groupOf a) with
  | some i => let k := s.store.cell i (cellIndex a); if k.valid then some k.value else none
  | none => none

/-- What a signal line shows in RUN (R163 to R168). -/
def linePattern (s : State) (i : Fin 8) : Pattern :=
  let z := s.zones.get (lineZone i)
  match s.cfg.groups.get (lineGroup i) with
  | .lamps => lampPattern z.state z.unack
  | .sounders => sounderPattern z.state z.unack
  | .fixed => .steady (s.cfg.fixedLevels.get i)
  | .cell =>
    match s.lineCell (s.cfg.cellAddrs.get i) with
    | some v => .steady (v != 0#16)
    | none => .steady (s.lines.hold.get i)

/-- A signal line after a notice: a pattern it begins takes its level at once; one it keeps waits for a boundary (R164). -/
def lineAfter (s : State) (i : Fin 8) : SignalLine :=
  let old := s.lines.signals.get i
  let p := s.linePattern i
  if old.pattern = p then old else { pattern := p, level := p.level s.time.phase }

/-- The fail-safe and signal lines in RUN (R160 to R168). -/
def runLines (s : State) : Lines :=
  { fanRun := Tab.ofFn (fun z => (s.zones.get z).state.forcing)
    charger := (indices 4).any (fun z => (s.zones.get z).state == .lockout)
    attention := (indices 4).any (fun z => (s.zones.get z).unack)
    signals := Tab.ofFn s.lineAfter
    hold := s.lines.hold }

/-- The lines recomputed (R160 to R169): in RUN from the zones, cells and settings; in LOADING, in FALLBACK and unpowered, the safe
levels. -/
def refreshLines (s : State) : State :=
  { s with lines := if s.alive ∧ s.mode = .run then s.runLines else Lines.safe s.lines.hold }

/-- A pulse boundary: every line that shows a pattern is set to its level (R164). -/
def pulse (s : State) : State :=
  if s.time.pulseDue then
    { s with
      time := { s.time with pulseDue := false }
      lines := { s.lines with signals := s.lines.signals.map (fun l => { l with level := l.pattern.level s.time.phase }) } }
  else s

end State
end Sys2Proof.Machine
end

