-- ==== Sys2Proof/Machine/Zones.lean ====
section
/-!
DEFINITION. The zone controller (chapter 1): the zone event, the change of state with its notices, acknowledgement, the refresh and
purge timers.
-/
namespace Sys2Proof.Machine

/-- The three notices of a change of state in one of the six orders the spec allows (R19: they have no order among themselves). -/
def inOrder (k : Nat) (a b c : List Notice) : List Notice :=
  match k % 6 with
  | 0 => a ++ b ++ c
  | 1 => a ++ c ++ b
  | 2 => b ++ a ++ c
  | 3 => b ++ c ++ a
  | 4 => c ++ a ++ b
  | _ => c ++ b ++ a

/-- The level change notice of a change of state (R19). -/
def levelNotice (z : Fin 4) (old new : ZoneState) : List Notice :=
  if old.level = new.level then [] else [.levelChange z new.level]

/-- The forcing change notice of a change of state (R19). -/
def forcingNotice (z : Fin 4) (old new : ZoneState) : List Notice :=
  if old.forcing = new.forcing then [] else [.forcingChange z]

/-- The sweep request of a change of state (R19). -/
def sweepNotice (z : Fin 4) (old new : ZoneState) : List Notice :=
  match old.forcing, new.forcing with
  | false, true => [.sweepRequest z .apply]
  | true, false => [.sweepRequest z .release]
  | _, _ => []

namespace State

/-- The notices of a change of state handed on (R19). Their order is free (log 8) where it can matter: where a hold entry of the zone
stands, or a fan report may log. -/
def zoneNotices (s : State) (z : Fin 4) (old new : ZoneState) : State :=
  let a := levelNotice z old new
  let b := forcingNotice z old new
  let c := sweepNotice z old new
  if s.hold.any (fun e => e.zone == z) || (s.zones.get z).causes.fanFault then
    { s.nextOrder.2 with agenda := s.agenda ++ inOrder s.nextOrder.1 a b c }
  else
    { s with agenda := s.agenda ++ (a ++ b ++ c) }

/-- A zone record moved to a state: the flag set at a rise (R18), the purge timer started or stopped (R16, R17). -/
def moved (s : State) (z : Fin 4) (r : ZoneRec) (new : ZoneState) : ZoneRec :=
  if r.state = new then r
  else
    { r with
      state := new
      unack := r.unack || isRise r.state new
      purge := if new = .purge then Timer.start (s.cfg.zones.get z).purgeTime else .stopped }

/-- What a change of a zone's state gives out: ZONE_STATE logged (R18), and the notices (R19). -/
def announce (s : State) (z : Fin 4) (old new : ZoneState) : State :=
  if old = new then s
  else (s.append .zoneState (some z) (some old.code) (some new.code)).zoneNotices z old new

/-- A change of a zone's state with no cause touched (R17). -/
def zoneMove (s : State) (z : Fin 4) (new : ZoneState) : State :=
  let r := s.zones.get z
  (s.setZone z (s.moved z r new)).announce z r.state new

/-- CAUSE_SET or CAUSE_CLEAR logged for each cause that changes, in number order (R5, log 19). -/
def logCauses (s : State) (z : Fin 4) (old new : Causes) : State :=
  (Causes.changes old new).foldl
    (fun s p => s.append (if p.2 then .causeSet else .causeClear) (some z) (some p.1.number) none) s

/-- One event at a zone (R5): the record's other fields as `r` gives them, the causes become `cs`, the state is settled once (R16), and
the records and notices of the event follow. -/
def zoneEvent (s : State) (z : Fin 4) (r : ZoneRec) (cs : Causes) : State :=
  let old := (s.zones.get z).causes
  let new := settleState r.state cs
  let s := s.setZone z (s.moved z { r with causes := cs, unack := r.unack || Causes.anySet old cs } new)
  (s.logCauses z old cs).announce z r.state new

/-- One event at a zone that touches one cause. -/
def zoneCause (s : State) (z : Fin 4) (c : Cause) (present : Bool) : State :=
  let r := s.zones.get z
  s.zoneEvent z r (r.causes.put c present)

/-- Every used spill line of the zone is DRY (R20 step 3, R44). -/
def zoneDry (s : State) (z : Fin 4) : Bool :=
  (indices 12).all (fun l => !((s.cfg.spills.get l).zone == some z) || !(s.spills.get l).wet)

/-- The state an acknowledge leaves a zone in, after step 3 (R20 steps 4 and 5, R21). -/
def acknowledgedState (old : ZoneState) (cs : Causes) : ZoneState :=
  if old = .lockout && !cs.anyLockout then (if cs.anyVent then .vent else .purge) else settleState old cs

/-- An acknowledge of a zone, taken as one event (R20). -/
def zoneAcknowledge (s : State) (z : Fin 4) : State :=
  let r := s.zones.get z
  let cs := if r.causes.spill && s.zoneDry z then r.causes.put .spill false else r.causes
  let new := acknowledgedState r.state cs
  let s := s.setZone z (s.moved z { r with unack := false, peak := r.reading, causes := cs } new)
  let s := s.append .acknowledged (some z) none none
  (s.logCauses z r.causes cs).announce z r.state new

/-- A restart of a zone's refresh timer (R11): with a period of 0 nothing happens; HOST_LOST clears if present. -/
def refreshRestart (s : State) (z : Fin 4) : State :=
  let period := (s.cfg.zones.get z).refreshPeriod
  if period = 0 then s
  else
    let r := { s.zones.get z with refresh := Timer.start period }
    if r.causes.hostLost then s.zoneEvent z r (r.causes.put .hostLost false) else s.setZone z r

/-- The refresh timer's expiry (R11): HOST_LOST sets and the timer rests at 0. -/
def refreshExpire (s : State) (z : Fin 4) : State :=
  let r := s.zones.get z
  if r.refresh = .due then s.zoneEvent z { r with refresh := .rested } (r.causes.put .hostLost true) else s

/-- The purge timer's expiry (R17): the zone goes to ALERT or CLEAR. -/
def purgeExpire (s : State) (z : Fin 4) : State :=
  let r := s.zones.get z
  if r.purge = .due then s.zoneMove z (if r.causes.h2Alert then .alert else .clear) else s

/-- The force engine's notice of a failed entry (R140): the flag is set and the record marked. -/
def zoneFlagged (s : State) (z : Fin 4) : State :=
  { s with zones := s.zones.set z { s.zones.get z with unack := true } }.mark (itemZone z)

/-- One 100 ms tick at the refresh timers (R11). -/
def tickRefresh (s : State) : State :=
  { s with zones := s.zones.map (fun r => { r with refresh := r.refresh.tick }) }

/-- One 1 s tick at the purge timers (R17); a running one marks its zone's item (R18). -/
def tickPurge (s : State) : State :=
  let running := (indices 4).filter (fun z => (s.zones.get z).purge.active)
  let s := { s with zones := s.zones.map (fun (r : ZoneRec) => { r with purge := r.purge.tick }) }
  s.markAll (running.map itemZone)

end State
end Sys2Proof.Machine
end

