-- ==== Sys2Proof/Machine/Transit.lean ====
section
/-!
DEFINITION. The posted queue and its placements (chapter 4), with the notices an entry gives, and the log clear (chapter 11).
-/
namespace Sys2Proof.Machine.State

/-- The value of the newest flagged entry of the posted queue for a cell, in flight or not (R74). -/
def queued (s : State) (a : Addr) : Option Half :=
  ((s.posted.filter (fun p => p.checked && p.addr == a)).getLast?).map (fun p => cellValue p.data)

/-- The cell store replaced. -/
def setStore (s : State) (c : CellStore) : State := { s with store := c }

/-- A clear request at the report unit (R180). -/
def logClear (s : State) (seq : Half) : State :=
  let log :=
    match s.log.records.getLast? with
    | none => { s.log with lastClear := .empty }
    | some r =>
      if r.seq = seq then { s.log with records := [], clearedThrough := seq, lastClear := .cleared }
      else { s.log with lastClear := .stale }
  { s with log := log }.mark itemHeader

/-- A WATCHED write's observation, taken as it enters the posted queue (R67, R68). -/
def observe (s : State) (w : Option Observation) : State :=
  match w with
  | none => s
  | some (.acknowledge z) => s.zoneAcknowledge z
  | some (.heartbeat z) => s.refreshRestart z
  | some (.logClear seq) => s.logClear seq

/-- The sweep in progress reaches the boundary after an entry, and the engine goes on (R136). -/
def entryBoundary (s : State) (e : Fin 16) : State :=
  let sweep := s.sweep.map (fun w => { w with work := .boundary, entry := e.val + 1 })
  { s with sweep := sweep }.notify .engineGo

/-- The end of an entry's release (R144): the entry becomes IDLE, the fan proof unit is notified (R132), the sweep goes on. -/
def releaseDone (s : State) (e : Fin 16) : State :=
  let s := s.setForce e { s.force.get e with state := .idle, prior := none, last := none }
  (s.notify (.entryIdle e)).entryBoundary e

/-- A placement enters the posted queue as its newest entry, with the notices of R70: the response, the hold queue's removal, the force
engine's notice, the write-through of a flagged entry (R74, R110), the observation (R67) and the header's mark (R80). -/
def enter (s : State) (p : Placement) : State :=
  let e : Posted :=
    { addr := p.addr, width := p.width, data := p.data,
      origin := match p.source with | .host _ _ => .host | .hold | .engine _ => .release,
      checked := p.checked, zone := p.zone, inFlight := false, ahead := false }
  let s := s.setPosted (s.posted ++ [e])
  let s := if p.checked then s.setStore (s.store.writeThrough p.addr (cellValue p.data)) else s
  match p.source with
  | .host response watch => (s.answerHost response none).observe watch
  | .hold => s.setHold (s.hold.filter (fun h => h.cell != p.addr))
  | .engine entry => s.releaseDone entry

/-- A placement presented to the posted queue (R70, R122): it enters at once if there is room and none waits, else it waits. -/
def place (s : State) (p : Placement) : State :=
  if s.posted.length < Config.postedCapacity ∧ s.waiting = [] then s.enter p
  else { s with waiting := s.waiting ++ [p] }

/-- The placement at the head of the waiting list enters, if there is room (R70). -/
def enterNext (s : State) : State :=
  match s.waiting with
  | p :: rest => if s.posted.length < Config.postedCapacity then { s with waiting := rest }.enter p else s
  | [] => s

end Sys2Proof.Machine.State
end

