-- ==== Sys2Proof/Machine/Holds.lean ====
section
/-!
DEFINITION. The hold queue (chapter 7): making entries, supersession, re-judgement, release, expiry and its emptying.
-/
namespace Sys2Proof.Machine

/-- A waiting placement is the RELEASING hold entry of a cell. -/
def Placement.isHoldOf (p : Placement) (a : Addr) : Bool := p.source == .hold && p.addr == a

namespace State

/-- The hold entry of a cell, if one stands (R118). -/
def holdOf (s : State) (a : Addr) : Option HoldEntry := s.hold.find? (fun h => h.cell == a)

/-- A cell's hold entry removed, leaving the waiting placements with it if it was RELEASING there (R120, R123, R124). -/
def dropHold (s : State) (a : Addr) : State :=
  let s := s.setHold (s.hold.filter (fun h => h.cell != a))
  { s with waiting := s.waiting.filter (fun p => !p.isHoldOf a) }

/-- A new entry joins the queue as its newest, WAITING, its time and expiry taken from the current seconds (R91, R119); HOLD_ENTERED is
logged (R129). An entry that stands for the cell leaves. -/
def joinHold (s : State) (a : Addr) (v : Half) (z : Fin 4) (p : Fin 8) (origin : HoldOrigin) : State :=
  let kept := s.hold.filter (fun h => h.cell != a)
  let e : HoldEntry :=
    { cell := a, value := v, zone := z, profile := p, origin := origin, entered := s.time.seconds,
      expiry := s.time.seconds + (s.cfg.profiles.get p).holdLimit, releasing := false }
  let s := s.replaceHold (kept ++ [e])
  let s := { s with waiting := s.waiting.filter (fun q => !q.isHoldOf a) }
  s.append .holdEntered (some z) (some a.toNat) (some v.toNat)

/-- A release write of the force engine that its bounds judgement holds (R119). -/
def holdPart (s : State) (a : Addr) (v : Half) (z : Fin 4) (p : Fin 8) : State :=
  if (s.holdOf a).isSome then s.append .holdDiscarded (some z) (some a.toNat) (some v.toNat)
  else if s.hold.length < Config.holdCapacity then s.joinHold a v z p .part
  else s.append .holdFull (some z) (some a.toNat) (some v.toNat)

/-- An entry released with a value (R122): it becomes RELEASING and is presented to the posted queue. -/
def releaseHold (s : State) (e : HoldEntry) (v : Half) : State :=
  let s := s.setHold (s.hold.map (fun h => if h.cell = e.cell then { h with value := v, releasing := true } else h))
  s.place { source := .hold, addr := e.cell, width := .w2, data := cellData v, checked := true, zone := some e.zone }

/-- One WAITING entry judged again at a level (R121). -/
def rejudgeEntry (s : State) (level : Fin 4) (e : HoldEntry) : State :=
  match (((s.cfg.profiles.get e.profile).levels).get level).judge e.value with
  | .value v => s.releaseHold e v
  | .hold => s
  | .refuse => (s.dropHold e.cell).append .holdDiscarded (some e.zone) (some e.cell.toNat) (some e.value.toNat)

/-- The level change notice at the hold queue: every WAITING entry of the zone is judged again, in queue order (R121). -/
def rejudgeZone (s : State) (z : Fin 4) (level : Fin 4) : State :=
  (s.hold.filter (fun e => e.zone == z && !e.releasing)).foldl (fun s e => s.rejudgeEntry level e) s

/-- The expiry of every entry whose expiry time has been reached, in queue order (R123). -/
def expireHolds (s : State) : State :=
  (s.hold.filter (fun e => decide (e.expiry ≤ s.time.seconds))).foldl
    (fun s e => (s.dropHold e.cell).append .holdExpired (some e.zone) (some e.cell.toNat) (some e.value.toNat)) s

/-- The hold queue at an upstream reset (R127). -/
def emptyHolds (s : State) : State :=
  let n := s.hold.length
  let s := s.setHold []
  let s := { s with waiting := s.waiting.filter (fun p => p.source != .hold) }
  if n = 0 then s else s.append .holdDiscarded none none (some n)

end State
end Sys2Proof.Machine
end

