-- ==== Sys2Proof/Machine/Force.lean ====
section
/-!
DEFINITION. The force engine (chapter 8): the sweep queue, applying and releasing a force, failed attempts and retries.
-/
namespace Sys2Proof.Machine

/-- A waiting placement is a host write to a checked cell (R71). -/
def Placement.isHostWrite (p : Placement) (a : Addr) : Bool :=
  (match p.source with | .host _ _ => true | .hold | .engine _ => false) && p.checked && p.addr == a

/-- A posted entry that a force apply on a cell removes: flagged, for the cell, not in flight (R73). -/
def Posted.removable (p : Posted) (a : Addr) : Bool := p.checked && p.addr == a && !p.inFlight

/-- A posted entry for a cell whose delivery is in flight (R137). -/
def Posted.delivering (p : Posted) (a : Addr) : Bool := p.checked && p.addr == a && p.inFlight

/-- Whether a sweep of a kind works an entry in a state (R136). -/
def SweepKind.works : SweepKind → ForceState → Bool
  | .apply, .idle | .apply, .failed => true
  | .release, .active | .release, .failed => true
  | .apply, .applying | .apply, .active | .apply, .releasing => false
  | .release, .idle | .release, .applying | .release, .releasing => false

/-- The new last request of an entry that was IDLE: the value of the removed hold entry, which is the newest of all that the apply removes
(R124); else of the withdrawn waiting host write, which is newer than every posted entry (R71); else of the newest removed posted entry
(R73). R137's list names the withdrawn write before the hold entry, which differs only beside a hold entry of origin PART: there R124 is
followed, whose value is the one the host wrote, where the write carries the value pulled under force (DEDUCED, log 44). -/
def takenRequest (held : Option HoldEntry) (withdrawn : Option Placement) (removed : List Posted) : Option Half :=
  match held, withdrawn with
  | some h, _ => some h.value
  | none, some p => some (cellValue p.data)
  | none, none => removed.getLast?.map (fun p => cellValue p.data)

/-- The value a release writes (R143). -/
def releaseValue (mode : ReleaseMode) (r : ForceRec) : Option Half :=
  match r.last, mode with
  | some v, _ => some v
  | none, .restore => r.prior
  | none, .keep => none

namespace State

/-- The defined force entries of a zone, in ascending number. -/
def zoneEntries (s : State) (z : Fin 4) : List (Fin 16) :=
  (indices 16).filter (fun e => (s.cfg.forces.get e).map ForceCfg.zone == some z)

/-- The pending requests of the other zones. -/
def otherRequests (s : State) (z : Fin 4) : List SweepRequest := s.requests.filter (fun r => r.zone != z)

/-- The pending request of a zone. -/
def pendingSweep (s : State) (z : Fin 4) : Option SweepRequest := s.requests.find? (fun r => r.zone == z)

/-- The request becomes the zone's pending request, the newest of all; one that stood for the zone is removed (R135). -/
def pendSweep (s : State) (z : Fin 4) (k : SweepKind) : State :=
  { s with requests := s.otherRequests z ++ [{ zone := z, kind := k }] }

/-- The last four cases of R135, which look at the zone's pending request. -/
def queueSweep (s : State) (z : Fin 4) (k : SweepKind) : State :=
  match s.pendingSweep z with
  | none => s.pendSweep z k
  | some r =>
    if r.kind = k then s
    else match k with
      | .apply => s.pendSweep z k
      | .release =>
        if (s.zoneEntries z).any (fun e => decide ((s.force.get e).state ≠ .idle)) then s.pendSweep z k
        else { s with requests := s.otherRequests z }

/-- A sweep request taken into the sweep queue, by the first case of R135 that fits. -/
def takeSweepRequest (s : State) (z : Fin 4) (k : SweepKind) : State :=
  match s.sweep with
  | none => s.queueSweep z k
  | some w =>
    if w.zone = z ∧ w.kind = k ∧ w.stop = true then
      { s with sweep := some { w with stop := false }, requests := s.otherRequests z }
    else if w.zone = z ∧ w.kind ≠ k ∧ w.stop = false then
      { s.pendSweep z k with sweep := some { w with stop := true } }
    else s.queueSweep z k

/-- A sweep request as one event at the force engine (R134); in FALLBACK and LOADING it takes none (R131). -/
def requestSweep (s : State) (z : Fin 4) (k : SweepKind) : State :=
  if s.mode = .run then (s.takeSweepRequest z k).notify .engineGo else s

/-- What the sweep's operation waits for, changed. -/
def setWork (s : State) (w : SweepWork) : State := { s with sweep := s.sweep.map (fun x => { x with work := w }) }

/-- The entry the sweep in progress is working. -/
def sweepEntry (s : State) : Option (Fin 16) :=
  match s.sweep with
  | some w => if h : w.entry < 16 then some ⟨w.entry, h⟩ else none
  | none => none

/-- The entry becomes ACTIVE, with FORCE_RECOVERED if the apply found it FAILED (R139, R141), and the sweep reaches its boundary.
`attempts` is the attempt count left (R139, log 24). -/
def forceActive (s : State) (e : Fin 16) (f : ForceCfg) (attempts : Nat) : State :=
  let r := s.force.get e
  let s := s.setForce e { r with state := .active, attempts := attempts, fromFailed := false }
  let s := if r.fromFailed then s.append .forceRecovered (some f.zone) (some e.val) (some f.forced.toNat) else s
  s.entryBoundary e

/-- The engine has the cell's current value (R138, R139): it is the prior value if none is held, and decides whether a write is made.
Where no prior value is held yet, a value that a host write under force put into the cell is taken too, the model's choice (log 43). -/
def engineValue (s : State) (e : Fin 16) (f : ForceCfg) (n : Half) : State :=
  let r := s.force.get e
  let s := s.setForce e { r with prior := match r.prior with | some p => some p | none => some n }
  if f.sense.satisfied f.forced n then s.forceActive e f r.attempts else s.setWork .writing

/-- The engine's lookup of the entry's cell (R138). -/
def engineLookup (s : State) (e : Fin 16) (f : ForceCfg) : State :=
  let found := s.store.lookup s.queued .engine f.cell
  let s := s.setStore found.2
  match found.1 with
  | some n => s.engineValue e f n
  | none => s.setWork .claim

/-- A failed attempt (R140): a fresh lookup, or at the third the entry becomes FAILED. -/
def attemptFailed (s : State) (e : Fin 16) (f : ForceCfg) : State :=
  let r := s.force.get e
  if r.attempts + 1 < Config.maxAttempts then
    (s.setForce e { r with attempts := r.attempts + 1 }).engineLookup e f
  else
    let s := s.setForce e
      { r with state := .failed, attempts := r.attempts + 1, retry := Timer.start Config.retrySeconds, fromFailed := false }
    let s := s.append .forceFailed (some f.zone) (some e.val) (some f.forced.toNat)
    (s.zoneFlagged f.zone).entryBoundary e

/-- The waiting host write for the cell is withdrawn and answered HELD (R71). -/
def withdrawHost (s : State) (a : Addr) : State :=
  if s.waiting.any (fun p => p.isHostWrite a) then
    { s with waiting := s.waiting.filter (fun p => !p.isHostWrite a) }.answerHost .held none
  else s

/-- The posted entries a force apply removes leave the queue, and the cell store corrects its belief (R73, R112). -/
def removePosted (s : State) (a : Addr) : State :=
  if s.posted.any (fun p => p.removable a) then
    let s := s.setPosted (s.posted.filter (fun p => !p.removable a))
    s.setStore (s.store.correct s.queued a (s.queued a))
  else s

/-- An apply sweep reaches an IDLE or FAILED entry (R137). -/
def forceApply (s : State) (e : Fin 16) (f : ForceCfg) : State :=
  let r := s.force.get e
  let idle := decide (r.state = .idle)
  let taken := takenRequest (s.holdOf f.cell) (s.waiting.find? (fun p => p.isHostWrite f.cell))
    (s.posted.filter (fun p => p.removable f.cell))
  let s := ((s.withdrawHost f.cell).removePosted f.cell).dropHold f.cell
  let s := s.setForce e
    { r with state := .applying, attempts := 0, retry := .stopped, last := if idle then taken else r.last, fromFailed := !idle }
  let s := if idle then s.notify (.entryIdle e) else s
  if s.posted.any (fun p => p.delivering f.cell) then s.setWork .delivery else s.engineLookup e f

/-- The release value judged by bounds alone at the zone's level (R144). A cell with no profile cannot arise (R131, log 32). -/
def forceJudge (s : State) (e : Fin 16) (f : ForceCfg) (v : Half) : State :=
  match s.cfg.checkedAt f.cell with
  | none => s.releaseDone e
  | some w =>
    match ((s.cfg.profiles.get w.profile).levels.get (s.zoneLevel f.zone)).judge v with
    | .value v' =>
      (s.setWork .placing).place
        { source := .engine e, addr := f.cell, width := .w2, data := cellData v', checked := true, zone := some f.zone }
    | .hold => (s.holdPart f.cell v f.zone w.profile).releaseDone e
    | .refuse => (s.append .holdDiscarded (some f.zone) (some f.cell.toNat) (some v.toNat)).releaseDone e

/-- A release sweep reaches an ACTIVE or FAILED entry (R143). -/
def forceRelease (s : State) (e : Fin 16) (f : ForceCfg) : State :=
  let r := s.force.get e
  let s := s.setForce e { r with state := .releasing, retry := .stopped }
  match releaseValue f.release r with
  | some v => s.forceJudge e f v
  | none => s.releaseDone e

/-- The sweep in progress ends (R136). -/
def endSweep (s : State) : State := { s with sweep := none }.notify .engineGo

/-- The oldest pending apply, or if none is pending the oldest pending release (R136). -/
def oldestRequest (s : State) : Option SweepRequest :=
  match s.requests.find? (fun r => r.kind == SweepKind.apply) with
  | some r => some r
  | none => s.requests.find? (fun r => r.kind == SweepKind.release)

/-- The engine is free: it takes the oldest pending apply, or else the oldest pending release (R136). -/
def takeSweep (s : State) : State :=
  match s.oldestRequest with
  | none => s
  | some r =>
    { s with sweep := some { zone := r.zone, kind := r.kind, entry := 0, stop := false, work := .boundary },
             requests := s.otherRequests r.zone }.notify .engineGo

/-- The engine goes on, if it is free or at an entry boundary: a sweep is taken, ended, or works its next entry (R136). -/
def engineGo (s : State) : State :=
  match s.sweep with
  | none => s.takeSweep
  | some w =>
    if w.work ≠ .boundary then s
    else if w.stop then s.endSweep
    else
      match (s.zoneEntries w.zone).find? (fun e => decide (w.entry ≤ e.val) && w.kind.works (s.force.get e).state) with
      | none => s.endSweep
      | some e =>
        match s.cfg.forces.get e with
        | none => s.endSweep
        | some f =>
          let s := { s with sweep := some { w with entry := e.val } }
          match w.kind with
          | .apply => s.forceApply e f
          | .release => s.forceRelease e f

/-- The engine takes its claim's settlement and resumes (R113, R138, R140). -/
def engineSettles (s : State) (value : Option Half) : State :=
  match s.sweepEntry with
  | none => s
  | some e =>
    match s.cfg.forces.get e, value with
    | some f, some n => s.engineValue e f n
    | some f, none => s.attemptFailed e f
    | none, _ => s

/-- The completion of the force write (R139). -/
def forceWritten (s : State) (done : Bool) : State :=
  match s.sweepEntry with
  | none => s
  | some e =>
    match s.cfg.forces.get e with
    | none => s
    | some f =>
      if done then s.forceActive e f 0
      else (s.setStore (s.store.invalidate s.queued f.cell)).attemptFailed e f

/-- The transit unit's notice that a posted delivery has completed, at a force engine that waits for it (R137). -/
def deliveryDone (s : State) (p : Posted) : State :=
  match s.sweep, s.sweepEntry with
  | some w, some e =>
    match s.cfg.forces.get e with
    | some f => if w.work = .delivery ∧ p.delivering f.cell then s.engineLookup e f else s
    | none => s
  | _, _ => s

/-- The expiry of a FAILED entry's retry timer (R141). -/
def retryExpire (s : State) (e : Fin 16) : State :=
  let r := s.force.get e
  if r.retry = .due then
    let s := s.setForce e { r with retry := .rested }
    match s.cfg.forces.get e with
    | some f => if (s.zones.get f.zone).state.forcing then s.requestSweep f.zone .apply else s
    | none => s
  else s

/-- One 1 s tick at the retry timers (R141). -/
def tickRetry (s : State) : State := { s with force := s.force.map (fun r => { r with retry := r.retry.tick }) }

end State
end Sys2Proof.Machine
end

