-- ==== Sys2Proof/Machine/Checker.lean ====
section
/-!
DEFINITION. The write checker (chapter 5), refusals by style (R65), and the upstream port's taking of a request (chapter 4).
-/
namespace Sys2Proof.Machine

/-- What becomes of a judged write (R85 to R93). -/
inductive Verdict where
  /-- The write passes with this value (R90). -/
  | pass (v : Half)
  /-- Held under force: the value is kept as the force entry's last request (R89, R91). -/
  | kept
  /-- Held in the hold queue (R91). -/
  | held
  /-- Sent to holding with the hold queue full (R92). -/
  | full
  /-- Refused (R93). -/
  | refused
  deriving DecidableEq, Repr

/-- A verdict that sets the last request of an entry under force (R88, R89, R91, R93). -/
def Verdict.setsRequest : Verdict → Bool
  | .pass _ | .kept => true
  | .held | .full | .refused => false

namespace State

/-- The force entry whose cell is `a` and which is under force (R84, R88). -/
def forceOn (s : State) (a : Addr) : Option (Fin 16 × ForceCfg) :=
  (indices 16).findSome? (fun e =>
    match s.cfg.forces.get e with
    | some f => if f.cell = a ∧ (s.force.get e).state.underForce = true then some (e, f) else none
    | none => none)

/-- The force step (R88, R89). -/
def forceStep (s : State) (a : Addr) (b : LevelBounds) (v : Half) : Verdict :=
  match s.forceOn a with
  | none => .pass v
  | some (_, f) => if b.inBounds (f.sense.move f.forced v) then .pass (f.sense.move f.forced v) else .kept

/-- The steps of the verdict, in their order (R85 to R92). `current` is the value the cell store gave, or unknown. -/
def judge (s : State) (a : Addr) (v : Half) (z : Fin 4) (p : Fin 8) (current : Option Half) : Verdict :=
  let profile := s.cfg.profiles.get p
  let b := profile.levels.get (s.zoneLevel z)
  match b.judge v with
  | .hold =>
    if (s.forceOn a).isSome then .kept
    else if (s.holdOf a).isSome || decide (s.hold.length < Config.holdCapacity) then .held
    else .full
  | .refuse => .refused
  | .value v1 =>
    if !profile.stepped then s.forceStep a b v1
    else match current, profile.unknown with
      | some n, _ => s.forceStep a b (profile.step b n v1)
      | none, .boundsOnly => s.forceStep a b v1
      | none, .refuse => .refused

/-- A refusal answered by the window's style (R65). -/
def refuse (s : State) (style : Style) (z : Option (Fin 4)) (a : Addr) (value : Half) : State :=
  match style with
  | .report => (s.append .writeRefused z (some a.toNat) (some value.toNat)).answerHost .refused none
  | .absorb => (s.append .writeAbsorbed z (some a.toNat) (some value.toNat)).answerHost .done none

/-- The last request of the entry under force on a cell becomes the value the host wrote (R88, R89, R91). -/
def keepRequest (s : State) (a : Addr) (v : Half) : State :=
  match s.forceOn a with
  | some (e, _) => s.setForce e { s.force.get e with last := some v }
  | none => s

/-- A verdict carried out (R89 to R93). -/
def carryOut (s : State) (a : Addr) (v : Half) (z : Fin 4) (p : Fin 8) (style : Style) (d : Verdict) : State :=
  let s := if d.setsRequest then s.keepRequest a v else s
  match d with
  | .pass v' =>
    { s.dropHold a with upstream := .placing }.place
      { source := .host (if v' = v then .done else .altered) none, addr := a, width := .w2, data := cellData v',
        checked := true, zone := some z }
  | .kept => s.answerHost .held none
  | .held => (s.joinHold a v z p .host).answerHost .held none
  | .full => (s.append .holdFull (some z) (some a.toNat) (some v.toNat)).refuse style (some z) a v
  | .refused => s.refuse style (some z) a v

/-- The verdict event (R84): the checker is IDLE again, the verdict is carried out, and the zone's refresh timer restarts (R94). Where the
restart clears HOST_LOST, its records and those of the verdict are in a free order (R176, log 8). -/
def verdict (s : State) (a : Addr) (v : Half) (z : Fin 4) (p : Fin 8) (style : Style) (current : Option Half) : State :=
  let d := s.judge a v z p current
  let s := { s with checker := .idle }
  if (s.zones.get z).causes.hostLost then
    let k := s.nextOrder.1
    let s := s.nextOrder.2
    if k % 2 = 0 then (s.carryOut a v z p style d).refreshRestart z else (s.refreshRestart z).carryOut a v z p style d
  else (s.carryOut a v z p style d).refreshRestart z

/-- The checker's lookup for a step-limited write (R83, R103): a hit reaches the verdict, a claim is awaited. -/
def checkerLookup (s : State) (a : Addr) (v : Half) (z : Fin 4) (p : Fin 8) (style : Style) : State :=
  let found := s.store.lookup s.queued .checker a
  let s := s.setStore found.2
  match found.1 with
  | some n => s.verdict a v z p style (some n)
  | none => { s with checker := .awaiting a v z p style false }

/-- A write handed to the checker (R66, R83). While an abandoned claim is unsettled the lookup is held back (R103). -/
def handOver (s : State) (a : Addr) (v : Half) (z : Fin 4) (p : Fin 8) (style : Style) : State :=
  let s := { s with upstream := .judging }
  if !(s.cfg.profiles.get p).stepped then s.verdict a v z p style none
  else if s.store.checkerClaim.any Claim.unsettled then { s with checker := .awaiting a v z p style true }
  else s.checkerLookup a v z p style

/-- The checker takes its claim's settlement (R83, R113): the verdict, or, at an abandoned claim, the lookup held back (R103). -/
def checkerSettles (s : State) (abandoned : Bool) (value : Option Half) : State :=
  match s.checker with
  | .idle => s
  | .awaiting a v z p style heldBack =>
    if heldBack then (if abandoned then s.checkerLookup a v z p style else s)
    else if abandoned then s
    else s.verdict a v z p style value

/-- An abandoned claim that an event has settled: it finds no judgement to resume, and the lookup held back behind it is made at that
event, with a hit reaching the verdict (R103, R113, R117; log 9). -/
def abandonedSettles (s : State) : State :=
  match s.store.checkerClaim with
  | some { stage := .settled value, abandoned := true, .. } => (s.setStore (s.store.dropClaim .checker)).checkerSettles true value
  | some _ | none => s

/-- A host write that goes to the posted queue unjudged (R63, R64). -/
def postHost (s : State) (r : HostRequest) (zone : Option (Fin 4)) (watch : Option Observation) : State :=
  { s with upstream := .placing }.place
    { source := .host .done watch, addr := r.addr, width := r.width, data := r.width.cut r.data, checked := false, zone := zone }

/-- The observation of a WATCHED window (R67, R68). -/
def observation (w : Window) (r : HostRequest) : Observation :=
  match w.func with
  | .acknowledge => .acknowledge w.zone
  | .heartbeat => .heartbeat w.zone
  | .logClear => .logClear (lowHalf r.width r.data)

/-- An aligned write, by the class of its governing window (R63). -/
def takeWrite (s : State) (r : HostRequest) : State :=
  match s.cfg.governing r.addr with
  | .report => s.refuse .report none r.addr (lowHalf r.width r.data)
  | .nothing => s.postHost r none none
  | .window w =>
    match w.cls with
    | .open_ => s.postHost r none none
    | .watched => s.postHost r (s.cfg.zoneAt r.addr) (some (observation w r))
    | .barred => s.refuse w.style none r.addr (lowHalf r.width r.data)
    | .checked =>
      if r.width = .w2 then s.handOver r.addr (cellValue r.data) w.zone w.profile w.style
      else s.refuse w.style (some w.zone) r.addr (lowHalf r.width r.data)

/-- An aligned read: the entries of the posted queue are its predecessors (R75). -/
def takeRead (s : State) (r : HostRequest) : State :=
  { s with
    upstream := .reading r.addr r.width (s.cfg.zoneAt r.addr) false
    posted := s.posted.map (fun p => { p with ahead := true }) }

/-- The port takes a request (R58, R60, R63). -/
def takeRequest (s : State) (r : HostRequest) : State :=
  if !r.width.aligned r.addr then
    (s.append .misaligned none (some r.addr.toNat) (some r.width.bytes)).answerHost .refused none
  else if r.write then s.takeWrite r
  else s.takeRead r

/-- The port can take a request: powered, not in LOADING, the host bus reset released, and IDLE (R58, R76, R78). -/
def portOpen (s : State) : Bool := s.alive && decide (s.mode ≠ .loading) && !s.busReset && decide (s.upstream = .idle)

/-- The request the host presents is taken, if the port can take one (R58). -/
def admitOne (s : State) : State :=
  match s.hostWaiting with
  | r :: rest => if s.portOpen then { s with hostWaiting := rest }.takeRequest r else s
  | [] => s

end State
end Sys2Proof.Machine
end

