-- ==== Sys2Proof/Machine/Channels.lean ====
section
/-!
DEFINITION. The gas channel unit (chapter 2): samples, scaling, the filter, warm-up, fault and recovery, test readings, and the zone
reading.
-/
namespace Sys2Proof.Machine

/-- The state counts as LIVE or TEST for SENSOR_LOST (R10). -/
def ChanState.reads : ChanState → Bool
  | .live | .test => true
  | .off | .warmup | .fault => false

/-- What a channel contributes to its zone's reading (R6, R37). -/
def contribution (c : ChanCfg) (r : ChanRec) : Option Nat :=
  match chanState c r with
  | .test => r.test
  | .live => meanOf r.filter
  | .off | .warmup | .fault => none

/-- A raw code is good from the open limit to the over-range limit inclusive (R28). -/
def goodCode (c : ChanCfg) (code : Nat) : Bool := decide (c.openLimit ≤ code) && decide (code ≤ c.overLimit)

/-- The concentration a good code scales to, rounded down and held within 0 to 1000 (R28). -/
def scaled (c : ChanCfg) (code : Nat) : Nat := min 1000 ((code - c.rawZero) * 100 / c.span)

/-- The filter with a new member; of four the oldest leaves (R29). -/
def filterPush (filter : List Nat) (v : Nat) : List Nat :=
  (if 4 ≤ filter.length then filter.drop 1 else filter) ++ [v]

/-- A channel's record after a bad sample, and whether it has become FAULT (R28, R32, R33). -/
def badSample (r : ChanRec) : ChanRec × Bool :=
  let bad := min 3 (r.bad + 1)
  let r' := { r with bad := bad, good := 0 }
  if r.sample ≠ .fault && r.bad < 3 && bad = 3 then ({ r' with sample := .fault, filter := [] }, true) else (r', false)

/-- A channel's record after a good sample of concentration `v`, and whether it has become LIVE (R28, R29, R33, R34). -/
def goodSample (r : ChanRec) (v : Nat) : ChanRec × Bool :=
  let good := min 10 (r.good + 1)
  let r' := { r with bad := 0, good := good }
  match r.sample with
  | .live => ({ r' with filter := filterPush r.filter v }, false)
  | .warmup => (r', false)
  | .fault =>
    if r.good < 10 && good = 10 then
      if r.warm then ({ r' with sample := .live, filter := [v] }, true)
      else ({ r' with sample := .warmup, filter := [] }, false)
    else (r', false)

namespace State

/-- The channels configured to a zone. -/
def zoneChannels (s : State) (z : Fin 4) : List (Fin 8) :=
  (indices 8).filter (fun c => (s.cfg.channels.get c).zone == some z)

/-- A channel's state as it stands. -/
def channelState (s : State) (c : Fin 8) : ChanState := chanState (s.cfg.channels.get c) (s.chans.get c)

/-- The zone reading formed anew (R6, R37). -/
def gasReading (s : State) (z : Fin 4) : Option Nat :=
  (s.zoneChannels z).foldl (fun m c => maxReading m (contribution (s.cfg.channels.get c) (s.chans.get c))) none

/-- Some channel of the zone is LIVE or TEST (R10). -/
def zoneReads (s : State) (z : Fin 4) : Bool := (s.zoneChannels z).any (fun c => (s.channelState c).reads)

/-- Every channel configured to the zone has its warm flag set (R8). -/
def zoneWarm (s : State) (z : Fin 4) : Bool := (s.zoneChannels z).all (fun c => (s.chans.get c).warm)

/-- SENSOR_LOST evaluated on a cause set (R10). -/
def sensorLost (s : State) (z : Fin 4) (cs : Causes) : Causes :=
  if s.zoneReads z then cs.put .sensorLost false
  else if !(s.zoneChannels z).isEmpty && !cs.start then cs.put .sensorLost true
  else cs

/-- The report of a channel event to the zone (R37), taken there as one event (R5 to R8, R10): `moved` when a channel's state changed,
`warmed` when warm-up ended. An event that changes neither those nor the reading gives no report. -/
def gasReport (s : State) (z : Fin 4) (moved warmed : Bool) : State :=
  let r := s.zones.get z
  let reading := s.gasReading z
  let fresh := decide (reading ≠ r.reading)
  if !(moved || warmed || fresh) then s
  else
    let r1 : ZoneRec := if fresh then { r with reading := reading, peak := maxReading r.peak reading } else r
    let c1 := if fresh then r.causes.hydrogen (s.cfg.zones.get z) reading else r.causes
    let started := warmed && c1.start && s.zoneWarm z
    let c2 := if started then c1.put .start false else c1
    let c3 := if moved || started then s.sensorLost z c2 else c2
    s.zoneEvent z r1 c3

/-- A channel's record replaced at an event of that channel, and the zone's report that follows. -/
def chanEvent (s : State) (c : Fin 8) (r : ChanRec) (warmed : Bool) : State :=
  match (s.cfg.channels.get c).zone with
  | none => s.setChan c r
  | some z =>
    let before := s.channelState c
    let s := s.setChan c r
    s.gasReport z (decide (before ≠ s.channelState c)) warmed

/-- A channel's sample event (R28 to R34). -/
def chanSample (s : State) (c : Fin 8) (code : BitVec 12) : State :=
  let cfg := s.cfg.channels.get c
  let r := { s.chans.get c with raw := some code }
  if goodCode cfg code.toNat then
    let next := goodSample r (scaled cfg code.toNat)
    let s := if next.2 then s.append .channelLive cfg.zone (some c.val) none else s
    s.chanEvent c next.1 false
  else
    let next := badSample r
    let s := if next.2 then s.append .channelFault cfg.zone (some c.val) (some code.toNat) else s
    s.chanEvent c next.1 false

/-- The expiry of a channel's warm-up timer (R31). -/
def warmUpExpire (s : State) (c : Fin 8) : State :=
  let cfg := s.cfg.channels.get c
  let r := s.chans.get c
  if r.timer = .due then
    let r := { r with timer := .stopped, warm := true }
    match r.sample with
    | .warmup =>
      if r.bad = 0 then
        (s.append .channelLive cfg.zone (some c.val) none).chanEvent c { r with sample := .live, filter := [] } true
      else
        (s.append .channelFault cfg.zone (some c.val) (r.raw.map BitVec.toNat)).chanEvent c
          { r with sample := .fault, filter := [] } true
    | .fault | .live => s.chanEvent c r true
  else s

/-- A test reading begins or is replaced (R35). -/
def beginTest (s : State) (c : Fin 8) (v : Nat) : State :=
  let s := s.append .testBegin (s.cfg.channels.get c).zone (some c.val) (some v)
  s.chanEvent c { s.chans.get c with test := some v } false

/-- A channel in TEST ends its test reading (R36); one that is not in TEST is left alone. -/
def endTestOf (s : State) (c : Fin 8) : State :=
  if (s.chans.get c).test.isSome then
    let s := s.append .testEnd (s.cfg.channels.get c).zone (some c.val) none
    s.chanEvent c { s.chans.get c with test := none } false
  else s

/-- A test reading ends, with nothing yet reported to the zone: its TEST_END, and the channel without it (R36). -/
def testEnded (s : State) (c : Fin 8) : State :=
  (s.append .testEnd (s.cfg.channels.get c).zone (some c.val) none).setChan c { s.chans.get c with test := none }

/-- The release of the commissioning line (R36): every test reading ends at once, then each zone takes one report. R37 gives
the reports of different zones no order; that they are taken in ascending zone number is the model's choice, as is the ascending order of
the TEST_END records (log 18). -/
def endAllTests (s : State) : State :=
  let testing := (indices 8).filter (fun c => (s.chans.get c).test.isSome)
  (indices 4).foldl
    (fun s z => s.gasReport z (testing.any (fun c => (s.cfg.channels.get c).zone == some z)) false) (testing.foldl testEnded s)

/-- One 1 s tick at the warm-up timers (R30). -/
def tickWarmUp (s : State) : State := { s with chans := s.chans.map (fun r => { r with timer := r.timer.tick }) }

/-- The used channels in ascending number: what a converter scan takes (R27). -/
def usedChannels (s : State) : List (Fin 8) := (indices 8).filter (fun c => (s.cfg.channels.get c).zone.isSome)

/-- A channel's record as RUN begins (R30, R38). -/
def chanAtRun (cfg : ChanCfg) (r : ChanRec) : ChanRec :=
  match cfg.zone with
  | none => ChanRec.initial false
  | some _ =>
    if r.warm || cfg.warmUp = 0 then { ChanRec.initial true with sample := .live }
    else { ChanRec.initial false with timer := Timer.start cfg.warmUp }

end State
end Sys2Proof.Machine
end

