-- ==== Sys2Proof/Machine/Report.lean ====
section
/-!
DEFINITION. The report writer's completions (chapter 11).
-/
namespace Sys2Proof.Machine.State

/-- The completion of the writer's transfer: after the last transfer of an item, or a FAULT, the writer is IDLE and chooses again at the
same event (R173, R174). A FAULT marks its item again, the unused area too (log 42). -/
def reportWritten (s : State) (done : Bool) (a : Addr) : State :=
  match s.writer with
  | .idle => s
  | .writing i snapshot off =>
    if done then
      let s := { s with log := { s.log with latch := false } }
      if off + 4 < (Item.at i).size then { s with writer := .writing i snapshot (off + 4) }
      else { s with writer := .idle }.chooseItem
    else
      let s := { s with writer := .idle }.mark i
      if s.log.latch then s
      else
        let s := s.append .reportFault none (some a.toNat) none
        { s with log := { s.log with latch := true } }

end Sys2Proof.Machine.State
end

