-- ==== Sys2Proof/Machine/Port.lean ====
section
/-!
DEFINITION. The downstream port (chapter 9): the transfers presented, the arbiter, grants, completions and the timeout.
-/
namespace Sys2Proof.Machine.State

/-- The force engine's presented transfer: the force write of the entry in APPLYING (R139, R151). -/
def engineTransfer (s : State) : Option Transfer :=
  match s.sweep, s.sweepEntry with
  | some w, some e =>
    match w.work, s.cfg.forces.get e with
    | .writing, some f => some { who := .engine, write := true, addr := f.cell, width := .w2, data := cellData f.forced }
    | _, _ => none
  | _, _ => none

/-- The fill's presented transfer: the read of the cell at its position (R106, R151). -/
def fillTransfer (s : State) : Option Transfer :=
  s.store.readAddress.map (fun a => { who := .fill, write := false, addr := a, width := .w2, data := 0#32 })

/-- The transfer of the oldest posted entry (R72). -/
def postedTransfer (s : State) : Option Transfer :=
  s.posted.head?.map (fun p => { who := .transit, write := true, addr := p.addr, width := p.width, data := p.data })

/-- The transit stream's presented transfer: a read that stands first, or the oldest posted entry (R72, R75). -/
def transitTransfer (s : State) : Option Transfer :=
  match s.upstream with
  | .reading a w _ _ =>
    if s.posted.any (fun p => p.ahead) then s.postedTransfer
    else some { who := .transit, write := false, addr := a, width := w, data := 0#32 }
  | .idle | .judging | .placing => s.postedTransfer

/-- The report writer's presented transfer (R151, R173). -/
def reportTransfer (s : State) : Option Transfer :=
  match s.writer, s.cfg.reportBase with
  | .writing i snapshot off, some b =>
    some { who := .report, write := true, addr := b + BitVec.ofNat 24 ((Item.at i).offset + off), width := .w4,
           data := BitVec.ofNat 32 (leValue ((snapshot.drop off).take 4)) }
  | _, _ => none

/-- The presented transfers in rank order (R152). -/
def presented (s : State) : List Transfer :=
  s.engineTransfer.toList ++ s.fillTransfer.toList ++ (if s.port.aged then s.reportTransfer.toList else [])
    ++ s.transitTransfer.toList ++ s.reportTransfer.toList

/-- The oldest posted entry goes in flight (R72). -/
def flyPosted (s : State) : State :=
  { s with posted := match s.posted with | p :: rest => { p with inFlight := true } :: rest | [] => [] }

/-- The host read goes in flight (R75). -/
def flyRead (s : State) : State :=
  { s with upstream := match s.upstream with | .reading a w z _ => .reading a w z true | u => u }

/-- A grant (R150, R152): the port is BUSY and the timeout timer starts; a force write is written through (R110), a transit transfer goes
in flight, a report write stops the aging timer and clears the aged mark (R153). -/
def grant (s : State) (t : Transfer) : State :=
  let s := { s with port := { s.port with state := .busy t, timeout := Timer.start 1 } }
  match t.who with
  | .engine => s.setStore (s.store.writeThrough t.addr (cellValue t.data))
  | .fill => s
  | .transit => if t.write then s.flyPosted else s.flyRead
  | .report => { s with port := { s.port with aging := .stopped, aged := false } }

/-- The engine's claim has settled and the engine has not yet taken the settlement: it may present its force write before the port
grants (R113, R152, log 9). -/
def engineComing (s : State) : Bool :=
  match s.store.engineClaim with
  | some k => match k.stage with | .settled _ => true | .listed | .joined => false
  | none => false

/-- The grant, if the port is IDLE and a transfer is presented (R152). Where the force engine has a settlement to take, whether the
grant is made first is free (log 9). -/
def grantNext (s : State) : State :=
  if s.port.state = .idle then
    match s.presented with
    | [] => s
    | t :: _ =>
      if s.engineComing then
        if s.nextOrder.1 % 2 = 0 then s.nextOrder.2.grant t else s.nextOrder.2
      else s.grant t
  else s

/-- The port's transfer is the report writer's. -/
def reportInFlight (s : State) : Bool :=
  match s.port.state with
  | .busy t => t.who == .report
  | .idle | .settling => false

/-- The aging timer is started when the writer's transfer is presented and not granted (R153). -/
def startAging (s : State) : State :=
  if s.reportTransfer.isSome && !s.reportInFlight && decide (s.port.aging = .stopped) && !s.port.aged then
    { s with port := { s.port with aging := Timer.start Config.agingMs } }
  else s

/-- The arbiter at the end of an event: a grant, and the aging of a report write left waiting (R152, R153). -/
def arbitrate (s : State) : State := s.grantNext.startAging

/-- The zone of the line that fills, for FILL_FAULT (R108). -/
def fillZone (s : State) (a : Addr) : Option (Fin 4) := (s.cfg.checkedAt a).map Window.zone

/-- The completion of a posted delivery (R72, R111, R137). -/
def postedDone (s : State) (done : Bool) : State :=
  match s.posted with
  | [] => s
  | p :: rest =>
    let s := s.setPosted rest
    let s :=
      if done then s
      else
        let s := s.append .writeFault p.zone (some p.addr.toNat) (some (lowHalf p.width p.data).toNat)
        if p.checked then s.setStore (s.store.invalidate s.queued p.addr) else s
    s.deliveryDone p

/-- The completion of a host read; after an upstream reset there is none to answer (R75, R78). -/
def hostReadDone (s : State) (done : Bool) (data : Data) : State :=
  match s.upstream with
  | .reading a w z true =>
    if done then s.answerHost .done (some (w.cut data))
    else (s.append .readFault z (some a.toNat) none).answerHost .refused none
  | .reading _ _ _ false | .idle | .judging | .placing => s

/-- The completion of a fill read (R107, R108). No other event settles a claim of the checker that has waited: the fill that it has
joined, or that it waits behind, waits for its read. So a lookup held back behind an abandoned claim is made here (R103, R113). -/
def fillReadDone (s : State) (done : Bool) (a : Addr) (data : Data) : State :=
  let s :=
    if done then s.setStore (s.store.readDone s.queued (cellValue data))
    else
      let s := s.append .fillFault (s.fillZone a) (some a.toNat) none
      s.setStore (s.store.readFault s.queued)
  s.abandonedSettles

/-- The outcome of a transfer handed to its requester (R150, R156). -/
def handOutcome (s : State) (t : Transfer) (done : Bool) (data : Data) : State :=
  match t.who with
  | .engine => s.forceWritten done
  | .fill => s.fillReadDone done t.addr data
  | .transit => if t.write then s.postedDone done else s.hostReadDone done data
  | .report => s.reportWritten done t.addr

/-- Memory's answer (R154); in SETTLING and IDLE it is late and ignored (R155). -/
def answered (s : State) (done : Bool) (data : Data) : State :=
  match s.port.state with
  | .busy t => { s with port := { s.port with state := .idle, timeout := .stopped } }.handOutcome t done data
  | .idle | .settling => s

/-- The expiry of the timeout timer (R154): the transfer completes as FAULT and the port settles. -/
def timedOut (s : State) : State :=
  match s.port.state with
  | .busy t =>
    if s.port.timeout = .due then
      { s with port := { s.port with state := .settling, timeout := .stopped, settleDue := false } }.handOutcome t false 0#32
    else s
  | .idle | .settling => s

/-- The end of SETTLING (R155). -/
def settled (s : State) : State :=
  if s.port.state = .settling ∧ s.port.settleDue = true then
    { s with port := { s.port with state := .idle, settleDue := false } }
  else s

/-- The expiry of the report aging timer (R153). -/
def reportAged (s : State) : State :=
  if s.port.aging = .due then { s with port := { s.port with aging := .stopped, aged := true } } else s

/-- One 1 ms tick at the port (R153, R154, R155): its timers count, and SETTLING is due to end. -/
def tickPort (s : State) : State :=
  { s with
    port := { s.port with
      timeout := s.port.timeout.tick
      aging := s.port.aging.tick
      settleDue := s.port.settleDue || decide (s.port.state = .settling) } }

end Sys2Proof.Machine.State
end

