-- ==== Sys2Proof/Machine/Spills.lean ====
section
/-!
DEFINITION. The spill line unit (chapter 3): sampling and debouncing.
-/
namespace Sys2Proof.Machine

/-- A spill line's record after a sample read as wet or dry, and whether its state changed (R43). -/
def spillStep (debounce : Nat) (r : SpillRec) (wet : Bool) : SpillRec × Bool :=
  let r := { r with last := some wet, due := false }
  if wet = r.wet then ({ r with run := 0 }, false)
  else if r.run + 1 < debounce then ({ r with run := r.run + 1 }, false)
  else ({ r with wet := wet, run := 0 }, true)

namespace State

/-- A spill line's sample event (R42, R43): the input level read against the wet level, SPILL_WET or SPILL_DRY logged at a change, and a
WET change reported to the zone (R9). -/
def spillSample (s : State) (l : Fin 12) (high : Bool) : State :=
  let cfg := s.cfg.spills.get l
  let old := s.spills.get l
  let next := spillStep cfg.debounce old (decide (high = cfg.wetHigh))
  let r := next.1
  let s := s.setSpill l r
  if !next.2 then s
  else
    let s := s.append (if r.wet then .spillWet else .spillDry) cfg.zone (some l.val) none
    match cfg.zone with
    | some z => if r.wet then s.zoneCause z .spill true else s
    | none => s

/-- The 100 ms tick in RUN: every used line is sampled (R42). -/
def tickSpills (s : State) : State :=
  { s with spills := s.spills.mapIdx (fun l r => if (s.cfg.spills.get l).zone.isSome then { r with due := true } else r) }

end State
end Sys2Proof.Machine
end

