-- ==== Sys2Proof/Machine/Tachs.lean ====
section
/-!
DEFINITION. The fan proof unit (chapter 3): windows, the required condition, the proof machine and its reports.
-/
namespace Sys2Proof.Machine

/-- The speed a window of `count` pulses measures (R48). -/
def windowSpeed (pulses count : Nat) : Nat := min 65535 (count * 60 / pulses)

/-- What a tach's event logs. -/
inductive FanLog where
  | failed | proven
  deriving DecidableEq, Repr

/-- A tach's record after its window event, and what it logs (R48, R51 to R54). -/
def windowStep (cfg : TachCfg) (r : TachRec) : TachRec × Option FanLog :=
  let speed := windowSpeed cfg.pulses r.count
  let reaches := decide (cfg.proofSpeed ≤ speed)
  let r := { r with count := 0, speed := some speed, due := false }
  match r.state with
  | .idle => (r, none)
  | .proving => if reaches then ({ r with state := .proven, timer := .stopped }, none) else (r, none)
  | .proven =>
    if reaches then ({ r with timer := .stopped }, none)
    else if r.timer = .stopped then ({ r with timer := Timer.start cfg.proofDelay }, none)
    else (r, none)
  | .failed => if reaches then ({ r with state := .proven, timer := .stopped }, some .proven) else (r, none)

/-- A tach's record when its required condition is re-evaluated (R50, R51). -/
def requireStep (cfg : TachCfg) (r : TachRec) (required : Bool) : TachRec :=
  match required, r.required with
  | true, false =>
    if r.state = .idle then { r with required := true, state := .proving, timer := Timer.start cfg.proofDelay }
    else { r with required := true }
  | false, true => { r with required := false, state := .idle, timer := .stopped }
  | true, true | false, false => r

namespace State

/-- The zone of a tach: that of its bound force entry (R47). -/
def tachZone (s : State) (t : Fin 8) : Option (Fin 4) :=
  match (s.cfg.tachs.get t).binding with
  | none => none
  | some e => (s.cfg.forces.get e).map ForceCfg.zone

/-- The condition of R50: the bound entry is in a state other than IDLE and its zone is forcing. -/
def tachRequired (s : State) (t : Fin 8) : Bool :=
  match (s.cfg.tachs.get t).binding, s.tachZone t with
  | some e, some z => decide ((s.force.get e).state ≠ .idle) && (s.zones.get z).state.forcing
  | _, _ => false

/-- The tachs bound to a force entry of the zone. -/
def zoneTachs (s : State) (z : Fin 4) : List (Fin 8) := (indices 8).filter (fun t => s.tachZone t == some z)

/-- VENT_UNPROVEN and FAN_FAULT evaluated on a cause set: the table of R12. -/
def fanCauses (s : State) (z : Fin 4) (cs : Causes) : Causes :=
  let required := (s.zoneTachs z).map s.tachs.get |>.filter TachRec.required
  let unproven :=
    if required.any (fun r => r.state == .proven) || required.isEmpty then false
    else if required.all (fun r => r.state == .failed) then true
    else cs.ventUnproven
  (cs.put .ventUnproven unproven).put .fanFault (required.any (fun r => r.state == .failed))

/-- The fan proof unit's report to a zone (R55), taken there as one event. -/
def fanReport (s : State) (z : Fin 4) : State :=
  let r := s.zones.get z
  s.zoneEvent z r (s.fanCauses z r.causes)

/-- The required condition of some tachs re-evaluated, with one report to their zone if any changed (R50, R51, R55). -/
def fanRecompute (s : State) (z : Fin 4) (ts : List (Fin 8)) : State :=
  let changed := ts.any (fun t => s.tachRequired t != (s.tachs.get t).required)
  let s := ts.foldl (fun s t => s.setTach t (requireStep (s.cfg.tachs.get t) (s.tachs.get t) (s.tachRequired t))) s
  if changed then s.fanReport z else s

/-- A tach's record replaced at an event that may log and report (R54, R55). -/
def tachEvent (s : State) (t : Fin 8) (r : TachRec) (log : Option FanLog) : State :=
  let moved := decide ((s.tachs.get t).state ≠ r.state)
  let zone := s.tachZone t
  let s := s.setTach t r
  let s := match log with
    | some .failed => s.append .fanFailed zone (some t.val) r.speed
    | some .proven => s.append .fanProven zone (some t.val) r.speed
    | none => s
  match zone with
  | some z => if moved then s.fanReport z else s
  | none => s

/-- A tach's window event (R48, R52 to R54). -/
def tachWindow (s : State) (t : Fin 8) : State :=
  let next := windowStep (s.cfg.tachs.get t) (s.tachs.get t)
  s.tachEvent t next.1 next.2

/-- The expiry of a tach's proof delay timer (R52, R53): the tach becomes FAILED. -/
def delayExpire (s : State) (t : Fin 8) : State :=
  let r := s.tachs.get t
  if r.timer = .due then
    match r.state with
    | .proving | .proven => s.tachEvent t { r with state := .failed, timer := .stopped } (some .failed)
    | .idle | .failed => s.setTach t { r with timer := .stopped }
  else s

/-- One 1 s tick at the tachs in RUN: the delay timers count (R49); the first tick opens the windows, each later one closes them (R48). -/
def tickTachs (s : State) : State :=
  { s with
    tachs := s.tachs.map (fun r => { r with timer := r.timer.tick, due := r.due || s.windowOpen })
    windowOpen := true }

end State
end Sys2Proof.Machine
end

