-- ==== Sys2Proof/Machine/Agenda.lean ====
section
/-!
DEFINITION. How a step ends: the notices the blocks gave each other are taken, the port takes what the host presents, and the arbiter and
the output lines follow (log 7, log 11, log 20).
-/
namespace Sys2Proof.Machine.State

/-- The tachs bound to a force entry (R47). -/
def entryTachs (s : State) (e : Fin 16) : List (Fin 8) :=
  (indices 8).filter (fun t => (s.cfg.tachs.get t).binding == some e)

/-- The fan proof unit's notice that an entry has left or returned to IDLE (R50, R132). -/
def entryMoved (s : State) (e : Fin 16) : State :=
  match s.cfg.forces.get e with
  | some f => s.fanRecompute f.zone (s.entryTachs e)
  | none => s

/-- A notice taken by the block it is for. -/
def takeNotice (s : State) (n : Notice) : State :=
  match n with
  | .levelChange z level => s.rejudgeZone z level
  | .forcingChange z => s.fanRecompute z (s.zoneTachs z)
  | .entryIdle e => s.entryMoved e
  | .sweepRequest z k => s.requestSweep z k
  | .engineGo => s.engineGo

/-- A notice to the fan proof unit that is taken before the force engine goes on (R50): a zone's tachs cease to be required at its forcing
change, before the release sweep has returned their entries to IDLE, and become required as the apply sweep takes their entries out of
IDLE, one entry at a time. -/
def fanFirst (s : State) (n : Notice) : Bool :=
  match n with
  | .forcingChange _ => true
  | .entryIdle e => decide ((s.force.get e).state ≠ .idle)
  | .levelChange _ _ | .sweepRequest _ _ | .engineGo => false

/-- The notice taken where the force engine is to go on: the oldest that R50 puts before it, or else its own. -/
def engineTurn (s : State) : Notice := (s.agenda.find? s.fanFirst).getD .engineGo

/-- A notice whose outcome can depend on whether the force engine goes on before it, where no rule gives the order: a change of level with a
hold entry of its zone (R125), or a return to IDLE of an entry to which a tach is bound, and which the engine may apply again (R132). Any
other notice is taken before the engine goes on (log 8). -/
def contested (s : State) (n : Notice) : Bool :=
  match n with
  | .levelChange z _ => s.hold.any (fun e => e.zone == z)
  | .entryIdle e => !s.fanFirst n && !(s.entryTachs e).isEmpty
  | .forcingChange _ | .sweepRequest _ _ | .engineGo => false

/-- The next notice to be taken, with the state it is taken in: the oldest, but that the force engine may go on before a notice that has no
order with it, or after it (R19, R125, R132; log 8), and that it goes on only when R50 puts no notice before it. -/
def pickNotice (s : State) : Option (Notice × State) :=
  match s.agenda with
  | [] => none
  | n :: rest =>
    if n = .engineGo then some (s.engineTurn, { s with agenda := s.agenda.erase s.engineTurn })
    else if s.contested n && rest.contains .engineGo then
      if s.nextOrder.1 % 2 = 0 then some (n, { s.nextOrder.2 with agenda := rest })
      else some (s.engineTurn, { s.nextOrder.2 with agenda := s.agenda.erase s.engineTurn })
    else some (n, { s with agenda := rest })

/-- The notices taken one after another, at most so many of them (log 7). -/
def drain : Nat → State → State
  | 0, s => { s with agenda := [] }
  | n + 1, s =>
    match s.pickNotice with
    | none => s
    | some (k, s') => drain n (s'.takeNotice k)

/-- Every notice taken. -/
def settle (s : State) : State := s.drain Config.noticeBound

/-- The port takes what the host presents while it can, at most so many requests (R58). -/
def admitWaiting : Nat → State → State
  | 0, s => s
  | n + 1, s =>
    match s.hostWaiting with
    | [] => s
    | _ :: _ => if s.portOpen then admitWaiting n s.admitOne.settle else s

/-- The arbiter grants, the lines follow. -/
def conclude (s : State) : State := s.arbitrate.refreshLines

/-- The end of a step that may have changed anything. -/
def finish (s : State) : State :=
  let s := s.settle
  (s.admitWaiting s.hostWaiting.length).conclude

end Sys2Proof.Machine.State
end

