-- ==== Sys2Proof/Machine/Image.lean ====
section
/-!
DEFINITION. The configuration image (chapter 12): its CRC, its layout, and the thirteen image checks.
-/
namespace Sys2Proof.Machine

/-! ## The CRC (R182) -/

/-- One bit of the CRC-32 register, least significant bit first. -/
def crcBit (r : Nat) : Nat := if r % 2 = 1 then (r / 2) ^^^ 0xEDB88320 else r / 2

/-- One byte of the CRC-32. -/
def crcByte (r : Nat) (b : Byte) : Nat :=
  crcBit (crcBit (crcBit (crcBit (crcBit (crcBit (crcBit (crcBit (r ^^^ b.toNat))))))))

/-- The register after bytes. The match has each byte's register evaluated before the next byte's. -/
def crcRun : Nat → List Byte → Nat
  | r, [] => r
  | r, b :: rest =>
    match crcByte r b with
    | 0 => crcRun 0 rest
    | n + 1 => crcRun (n + 1) rest

/-- The CRC-32 of bytes. -/
def crc32 (bs : List Byte) : Nat := crcRun 0xFFFFFFFF bs ^^^ 0xFFFFFFFF

/-! ## The layout (R182) -/

/-- One byte of the image as a number. -/
def Memory.byteAt (m : Memory) (off : Nat) : Nat := (m.read off).toNat

/-- A 16-bit field. -/
def Memory.half (m : Memory) (off : Nat) : Half := BitVec.ofNat 16 (m.field off 2)

/-- A 4-byte address field as an address. -/
def Memory.addr (m : Memory) (off : Nat) : Addr := BitVec.ofNat 24 (m.field off 4)

/-- A zone field. -/
def Memory.zone (m : Memory) (off : Nat) : Fin 4 := ⟨m.byteAt off % 4, Nat.mod_lt _ (by decide)⟩

/-- A zone field in which FFh means unused. -/
def Memory.zoneOrNone (m : Memory) (off : Nat) : Option (Fin 4) := if m.byteAt off = 0xFF then none else some (m.zone off)

/-- A profile field. -/
def Memory.profile (m : Memory) (off : Nat) : Fin 8 := ⟨m.byteAt off % 8, Nat.mod_lt _ (by decide)⟩

/-- A tach's binding, in which FFh means none. -/
def Memory.binding (m : Memory) (off : Nat) : Option (Fin 16) :=
  if m.byteAt off = 0xFF then none else some ⟨m.byteAt off % 16, Nat.mod_lt _ (by decide)⟩

/-- The class codes (R182). -/
def WinClass.ofCode : Nat → WinClass
  | 0 => .open_ | 1 => .checked | 2 => .watched | _ => .barred

/-- The watch function codes (R182). -/
def WatchFn.ofCode : Nat → WatchFn
  | 0 => .acknowledge | 1 => .heartbeat | _ => .logClear

/-- The style codes (R182). -/
def Style.ofCode : Nat → Style
  | 0 => .report | _ => .absorb

/-- The verdict codes (R182). -/
def BoundsRule.ofCode : Nat → BoundsRule
  | 0 => .clamp | 1 => .hold | _ => .refuse

/-- The unknown action codes (R182). -/
def UnknownAction.ofCode : Nat → UnknownAction
  | 0 => .boundsOnly | _ => .refuse

/-- The sense codes (R182). -/
def Sense.ofCode : Nat → Sense
  | 0 => .floor | 1 => .ceiling | _ => .exact_

/-- The release mode codes (R182). -/
def ReleaseMode.ofCode : Nat → ReleaseMode
  | 0 => .keep | _ => .restore

/-- The group function codes (R182). -/
def GroupFn.ofCode : Nat → GroupFn
  | 0 => .lamps | 1 => .sounders | 2 => .cell | _ => .fixed

namespace Settings

/-- Where window `i` starts in the image. -/
def windowAt (i : Fin 16) : Nat := 16 + 12 * i.val
/-- Where profile `p` starts. -/
def profileAt (p : Fin 8) : Nat := 208 + 32 * p.val
/-- Where level `l` of profile `p` starts. -/
def levelAt (p : Fin 8) (l : Fin 4) : Nat := profileAt p + 5 * l.val
/-- Where zone `z` starts. -/
def zoneCfgAt (z : Fin 4) : Nat := 464 + 16 * z.val
/-- Where channel `c` starts. -/
def channelAt (c : Fin 8) : Nat := 528 + 16 * c.val
/-- Where spill line `l` starts. -/
def spillAt (l : Fin 12) : Nat := 656 + 4 * l.val
/-- Where tach `t` starts. -/
def tachAt (t : Fin 8) : Nat := 704 + 8 * t.val
/-- Where force entry `e` starts. -/
def forceAt (e : Fin 16) : Nat := 768 + 12 * e.val
/-- Where pin address `i` stands. -/
def pinAt (i : Fin 8) : Nat := 960 + 4 * i.val
/-- Where the function of group `g` stands. -/
def groupAt (g : Fin 2) : Nat := 992 + g.val
/-- Where the CELL address of signal line `i` stands. -/
def cellAddrAt (i : Fin 8) : Nat := 994 + 4 * i.val
/-- Where the FIXED level of signal line `i` stands. -/
def fixedAt (i : Fin 8) : Nat := 1026 + i.val

/-- The force entry of the image, if it is defined. -/
def forceOf (m : Memory) (e : Fin 16) : Option ForceCfg :=
  let o := forceAt e
  if m.byteAt o = 1 then
    some { zone := m.zone (o + 1), cell := m.addr (o + 4), sense := .ofCode (m.byteAt (o + 2)), forced := m.half (o + 8),
           release := .ofCode (m.byteAt (o + 3)) }
  else none

/-- The window of the image. -/
def windowOf (m : Memory) (i : Fin 16) : Window :=
  let o := windowAt i
  { enabled := m.byteAt o = 1, cls := .ofCode (m.byteAt (o + 1)), zone := m.zone (o + 2), profile := m.profile (o + 3),
    func := .ofCode (m.byteAt (o + 4)), style := .ofCode (m.byteAt (o + 5)), base := m.addr (o + 6),
    sizeExp := m.byteAt (o + 10) }

/-- The profile of the image. -/
def profileOf (m : Memory) (p : Fin 8) : Profile :=
  let o := profileAt p
  { levels := Tab.ofFn (fun l =>
      { low := m.half (levelAt p l), high := m.half (levelAt p l + 2), rule := .ofCode (m.byteAt (levelAt p l + 4)) }),
    fall := m.half (o + 20), rise := m.half (o + 22), unknown := .ofCode (m.byteAt (o + 24)), holdLimit := m.field (o + 25) 2 }

/-- The pin addresses of the image, in the order it lists them (R102). -/
def pinsOf (m : Memory) : List Addr :=
  (indices 8).filterMap (fun i => if m.field (pinAt i) 4 = 0xFFFFFFFF then none else some (m.addr (pinAt i)))

/-- The settings an image gives (R182): what the blocks take as RUN begins. -/
def ofImage (m : Memory) : Settings :=
  { imageId := BitVec.ofNat 32 (m.field 2 4)
    reportBase := some (m.addr 6)
    windows := Tab.ofFn (windowOf m)
    profiles := Tab.ofFn (profileOf m)
    zones := Tab.ofFn (fun z =>
      let o := zoneCfgAt z
      { alert := m.field o 2, vent := m.field (o + 2) 2, high := m.field (o + 4) 2, hysteresis := m.field (o + 6) 2,
        purgeTime := m.field (o + 8) 2, refreshPeriod := m.field (o + 10) 2 })
    channels := Tab.ofFn (fun c =>
      let o := channelAt c
      { zone := m.zoneOrNone o, rawZero := m.field (o + 1) 2, span := m.field (o + 3) 2, openLimit := m.field (o + 5) 2,
        overLimit := m.field (o + 7) 2, warmUp := m.field (o + 9) 2 })
    spills := Tab.ofFn (fun l =>
      let o := spillAt l
      { zone := m.zoneOrNone o, wetHigh := m.byteAt (o + 1) = 1, debounce := m.byteAt (o + 2) })
    tachs := Tab.ofFn (fun t =>
      let o := tachAt t
      { binding := m.binding o, pulses := m.byteAt (o + 1), proofSpeed := m.field (o + 2) 2, proofDelay := m.field (o + 4) 2 })
    forces := Tab.ofFn (forceOf m)
    pins := pinsOf m
    groups := Tab.ofFn (fun g => .ofCode (m.byteAt (groupAt g)))
    cellAddrs := Tab.ofFn (fun i => m.addr (cellAddrAt i))
    fixedLevels := Tab.ofFn (fun i => decide (m.byteAt (fixedAt i) = 1)) }

end Settings

/-! ## The checks (R183) -/

namespace Memory

open Settings

/-- A 4-byte address field whose most significant byte is zero (R183). -/
def addrOk (m : Memory) (off : Nat) : Bool := m.byteAt (off + 3) == 0

/-- Check 1, on an image that could be read: the CRC-32 over bytes 0 to 2043 is the stored one. -/
def crcOk (m : Memory) : Bool := crc32 (m.bytes 0 2044) == m.field 2044 4

/-- Check 2. -/
def versionOk (m : Memory) : Bool := m.field 0 2 == 1

/-- Check 3. -/
def windowsOk (m : Memory) : Bool :=
  (indices 16).all (fun i =>
    let o := windowAt i
    let e := m.byteAt (o + 10)
    decide (m.byteAt o ≤ 1)
      && (m.byteAt o == 0
        || decide (3 ≤ e) && decide (e ≤ 20) && m.addrOk (o + 6) && m.field (o + 6) 4 % 2 ^ e == 0))

/-- Check 4. -/
def classesOk (m : Memory) : Bool :=
  (indices 16).all (fun i =>
    let o := windowAt i
    let cls := m.byteAt (o + 1)
    m.byteAt o == 0
      || decide (cls ≤ 3) && decide (m.byteAt (o + 5) ≤ 1)
        && (cls != 1 || decide (m.byteAt (o + 2) ≤ 3) && decide (m.byteAt (o + 3) ≤ 7))
        && (cls != 2 || decide (m.byteAt (o + 4) ≤ 2) && (m.byteAt (o + 4) == 2 || decide (m.byteAt (o + 2) ≤ 3))))

/-- Check 5. -/
def reportBaseOk (m : Memory) : Bool := m.addrOk 6 && m.field 6 4 % 1024 == 0

/-- Check 6. -/
def profilesOk (m : Memory) : Bool :=
  (indices 8).all (fun p =>
    let o := profileAt p
    (indices 4).all (fun l =>
      decide (m.field (levelAt p l) 2 ≤ m.field (levelAt p l + 2) 2) && decide (m.byteAt (levelAt p l + 4) ≤ 2))
      && decide (m.byteAt (o + 24) ≤ 1) && decide (1 ≤ m.field (o + 25) 2) && decide (m.field (o + 25) 2 ≤ 3600))

/-- Check 7. -/
def zonesOk (m : Memory) : Bool :=
  (indices 4).all (fun z =>
    let o := zoneCfgAt z
    let alert := m.field o 2
    let vent := m.field (o + 2) 2
    let high := m.field (o + 4) 2
    decide (0 < alert) && decide (alert < vent) && decide (vent < high) && decide (high ≤ 1000)
      && decide (m.field (o + 6) 2 ≤ alert) && decide (10 ≤ m.field (o + 8) 2) && decide (m.field (o + 8) 2 ≤ 3600)
      && decide (m.field (o + 10) 2 ≤ 600))

/-- Check 8. -/
def channelsOk (m : Memory) : Bool :=
  (indices 8).all (fun c =>
    let o := channelAt c
    m.byteAt o == 0xFF
      || decide (m.byteAt o ≤ 3) && decide (1 ≤ m.field (o + 3) 2) && decide (m.field (o + 3) 2 ≤ 4095)
        && decide (m.field (o + 5) 2 < m.field (o + 7) 2) && decide (m.field (o + 7) 2 ≤ 4095)
        && decide (m.field (o + 9) 2 ≤ 900))

/-- Check 9. -/
def spillsOk (m : Memory) : Bool :=
  (indices 12).all (fun l =>
    let o := spillAt l
    m.byteAt o == 0xFF
      || decide (m.byteAt o ≤ 3) && decide (m.byteAt (o + 1) ≤ 1) && decide (1 ≤ m.byteAt (o + 2))
        && decide (m.byteAt (o + 2) ≤ 50))

/-- Check 10. -/
def tachsOk (m : Memory) : Bool :=
  (indices 8).all (fun t =>
    let o := tachAt t
    decide (1 ≤ m.byteAt (o + 1)) && decide (m.byteAt (o + 1) ≤ 8)
      && (m.byteAt o == 0xFF
        || decide (m.byteAt o ≤ 15) && ((m.binding o).bind (forceOf m)).isSome
          && decide (1 ≤ m.field (o + 2) 2) && decide (m.field (o + 2) 2 ≤ 6000)
          && decide (5 ≤ m.field (o + 4) 2) && decide (m.field (o + 4) 2 ≤ 120)))

/-- The CHECKED window of the image that governs an even address, where its address field is valid (R183 checks 11 and 12). -/
def checkedWindow (m : Memory) (off : Nat) : Option Window :=
  if m.addrOk off && m.byteAt off % 2 == 0 then (ofImage m).checkedAt (m.addr off) else none

/-- One force entry of check 11. -/
def forceOk (m : Memory) (e : Fin 16) : Bool :=
  let o := forceAt e
  decide (m.byteAt o ≤ 1)
    && (m.byteAt o == 0
      || decide (m.byteAt (o + 1) ≤ 3) && decide (m.byteAt (o + 2) ≤ 2) && decide (m.byteAt (o + 3) ≤ 1)
        && (match m.checkedWindow (o + 4) with
          | some w =>
            let p := profileOf m w.profile
            w.zone == m.zone (o + 1) && (p.levels.get 2).inBounds (m.half (o + 8)) && (p.levels.get 3).inBounds (m.half (o + 8))
          | none => false))

/-- The defined force entries of the image. -/
def forcesOf (m : Memory) : List ForceCfg := (indices 16).filterMap (forceOf m)

/-- Check 11. -/
def forcesOk (m : Memory) : Bool :=
  (indices 16).all m.forceOk
    && (indices 4).all (fun z => decide ((m.forcesOf.filter (fun f => f.zone == z)).length ≤ 8))
    && decide (m.forcesOf.map ForceCfg.cell).Nodup

/-- Check 12. -/
def pinsOk (m : Memory) : Bool :=
  (indices 8).all (fun i => m.field (pinAt i) 4 == 0xFFFFFFFF || (m.checkedWindow (pinAt i)).isSome)

/-- The lines 4 × g to 4 × g + 3 of group `g`. -/
def groupLines (g : Fin 2) : List (Fin 8) := (indices 8).filter (fun i => i.val / 4 == g.val)

/-- Check 13 (log 25). -/
def groupsOk (m : Memory) : Bool :=
  (indices 2).all (fun g =>
    decide (m.byteAt (groupAt g) ≤ 3)
      && (m.byteAt (groupAt g) != 2
        || (groupLines g).all (fun i =>
          m.addrOk (cellAddrAt i) && m.byteAt (cellAddrAt i) % 2 == 0
            && (pinsOf m).any (fun a => groupOf a == groupOf (m.addr (cellAddrAt i))))))
    && (indices 8).all (fun i => decide (m.byteAt (fixedAt i) ≤ 1))

/-- The checks of R183, each with its code, in the order of their codes. -/
def checks (m : Memory) : List (Nat × Bool) :=
  [(1, m.crcOk), (2, m.versionOk), (3, m.windowsOk), (4, m.classesOk), (5, m.reportBaseOk), (6, m.profilesOk), (7, m.zonesOk),
   (8, m.channelsOk), (9, m.spillsOk), (10, m.tachsOk), (11, m.forcesOk), (12, m.pinsOk), (13, m.groupsOk)]

/-- The check result of an image that could be read: the code of the first check that fails; none if the image is good (R183). -/
def imageCheck (m : Memory) : Option Nat := (m.checks.find? (fun p => !p.2)).map Prod.fst

end Memory

/-- The check result at the end of LOADING: code 1 where the store could not be read or holds a cut-off or failed write (R183, R185,
R186). -/
def NvStore.check (nv : NvStore) (readable : Bool) : Option Nat :=
  if readable && nv.torn.isNone then nv.image.imageCheck else some 1

end Sys2Proof.Machine
end

