-- ==== Sys2Proof/Machine/Restart.lean ====
section
/-!
DEFINITION. Restarts, brown-out, and the end of LOADING (chapter 12, with the restart rules of every other chapter).
-/
namespace Sys2Proof.Machine.State

/-- The store when the supply or RESET breaks: a write in progress leaves it partly written, its bytes free (R186, log 15). -/
def cutStore (s : State) : NvStore :=
  if s.maint.storing then { s.nv with torn := some s.choices } else s.nv

/-- A power-up restart, from the start of LOADING (R184): every block at its power-up values, the hold levels sampled from the pins, and
RESTART with value 1 logged. What is outside the part stays; a store write in progress is cut off (R186). -/
def powerUp (s : State) (pins : BitVec 8) : State :=
  { State.reset with
    pending := s.pending, busReset := s.busReset, hostWaiting := s.hostWaiting, responses := s.responses, nv := s.cutStore,
    choices := s.choices + 1, lines := Lines.safe (Tab.ofFn (fun i => pins.getLsb i)) }

/-- The part without power or held in RESET (R186): it holds no state, its drivers are off, and the signal lines rest at their hold
levels. -/
def dark (s : State) (supply : Supply) (resetLine : Bool) : State :=
  { State.reset with
    pending := s.pending, supply := supply, resetLine := resetLine, busReset := s.busReset,
    time := { State.reset.time with running := false },
    hostWaiting := s.hostWaiting, responses := s.responses, nv := s.cutStore, choices := s.choices + 1,
    log := { State.reset.log with records := [], nextSeq := 0#16 },
    lines := Lines.safe s.lines.hold }

/-- A commit restart, from the start of LOADING (R185): a power-up restart that keeps the time base, the log, the warm flags, the hold
levels and the commissioning line; the commit restart count rises, saturating, and RESTART with value 2 is logged. -/
def commitRestart (s : State) (nv : NvStore) : State :=
  { State.reset with
    pending := s.pending, busReset := s.busReset, time := s.time, hostWaiting := s.hostWaiting, responses := s.responses,
    nv := nv, choices := s.choices, lines := Lines.safe s.lines.hold,
    chans := s.chans.map (fun (r : ChanRec) => ChanRec.initial r.warm),
    log := { s.log with commitCount := min 65535 (s.log.commitCount + 1), latch := false },
    maint := { State.reset.maint with line := s.maint.line, sampled := s.maint.sampled, lineDue := s.maint.lineDue } }.append .restart none none (some 2)

/-- CHANNEL_LIVE for each channel that is LIVE as RUN begins, in ascending number (R30, R40). -/
def logLive (s : State) : State :=
  (s.usedChannels).foldl
    (fun s c =>
      if (s.chans.get c).sample = .live then s.append .channelLive (s.cfg.channels.get c).zone (some c.val) none else s) s

/-- START cleared at once in a zone that R8 allows, as one event (R8, R10, R16). -/
def clearStart (s : State) (z : Fin 4) : State :=
  if s.zoneWarm z then
    let r := s.zones.get z
    s.zoneEvent z r (s.sensorLost z (r.causes.put .start false))
  else s

/-- Each block takes its settings as RUN begins (R8, R11, R82, R131, R163), the channels their first states (R30, R38), and every item is
marked (R175). -/
def takeSettings (s : State) (cfg : Settings) : State :=
  let s : State :=
    { s with
      mode := .run
      cfg := cfg
      zones := s.zones.mapIdx (fun z r => { r with refresh := Timer.start (cfg.zones.get z).refreshPeriod })
      chans := s.chans.mapIdx (fun c r => chanAtRun (cfg.channels.get c) r) }
  s.markEvery

/-- START cleared in each zone where it may be, in zone order (R8). -/
def clearStarts (s : State) : State := (indices 4).foldl clearStart s

/-- The prefills of the pinned lines are placed (R102), and an apply sweep is requested for each zone, in zone order (R136). -/
def beginPath (s : State) : State :=
  { s with
    store := CellStore.atRun s.queued s.cfg.pins
    agenda := s.agenda ++ (indices 4).map (fun z => .sweepRequest z .apply) }

/-- RUN begins with an image (R184): settings, the records of the channels that are LIVE, START, the prefills and the sweeps (R23, R38,
R61, R102, R136). -/
def beginRun (s : State) (cfg : Settings) : State := (s.takeSettings cfg).logLive.clearStarts.beginPath

/-- FALLBACK (R14, R23, R77, R184): no settings apply, CONFIG_FALLBACK is logged with the check code, and CONFIG stands in every zone in
place of START. -/
def beginFallback (s : State) (code : Nat) : State :=
  let s := { s with mode := .fallback, cfg := Settings.unset }.append .configFallback none none (some code)
  { s with zones := s.zones.map (fun r => { r with causes := { Causes.empty with config := true } }) }

/-- The end of LOADING for a check result (R184): RUN, or FALLBACK with the check code. -/
def endLoading (s : State) (verdict : Option Nat) : State :=
  match verdict with
  | none => (s.beginRun (Settings.ofImage s.nv.image)).finish
  | some code => (s.beginFallback code).finish

end Sys2Proof.Machine.State
end

