-- ==== Sys2Proof/Machine/Bus.lean ====
section
/-!
DEFINITION. The commands of the host's bus, of the claims, placements and queues, and of the downstream port (chapters 4 to 9).
-/
namespace Sys2Proof.Machine

/-- The host presents a request, taken when the port can (R58). That one presented while the part is without power or held in RESET waits
too, and is taken after the LOADING that follows, is the model's choice (log 11). -/
def State.present (s : State) (r : HostRequest) : State := { s with hostWaiting := s.hostWaiting ++ [r] }.finish

/-- HOST_READ (R58, R60, R75). -/
def execHostRead (addr : Addr) (width : Width) (s : State) : Host.Outcome State Fault Refusal :=
  .next (s.present { write := false, addr := addr, width := width, data := 0#32 })

/-- HOST_WRITE (R58, R60, R63). -/
def execHostWrite (addr : Addr) (width : Width) (data : Data) (s : State) : Host.Outcome State Fault Refusal :=
  .next (s.present { write := true, addr := addr, width := width, data := data })

namespace State

/-- A claimant takes its settlement (R113). -/
def takeSettlement (s : State) (who : Claimant) (k : Claim) (value : Option Half) : State :=
  let s := s.setStore (s.store.dropClaim who)
  match who with
  | .checker => s.checkerSettles k.abandoned value
  | .engine => s.engineSettles value

/-- The request the port holds is abandoned (R78, R97, R117). -/
def abandonRequest (s : State) : State :=
  match s.upstream with
  | .idle => s
  | .reading _ _ _ _ => { s with upstream := .idle, posted := s.posted.map (fun p => { p with ahead := false }) }
  | .placing =>
    { s with
      upstream := .idle
      waiting := s.waiting.filter (fun p => match p.source with | .host _ _ => false | .hold | .engine _ => true) }
  | .judging =>
    match s.checker with
    | .awaiting _ _ _ _ _ false => { s with upstream := .idle, checker := .idle, store := s.store.abandon }
    | .awaiting _ _ _ _ _ true | .idle => { s with upstream := .idle, checker := .idle }

end State

/-- CLAIM_SETTLEMENT (R113): a claimant whose claim has settled takes the settlement and resumes. -/
def execClaimSettlement (who : Claimant) (s : State) : Host.Outcome State Fault Refusal :=
  match s.store.claimOf who with
  | some k =>
    match k.stage with
    | .settled value => .next (s.takeSettlement who k value).finish
    | .listed | .joined => .next s
  | none => .next s

/-- PLACEMENT_ENTERS (R70): the placement at the head of the waiting list enters, if there is room. -/
def execPlacementEnters (s : State) : Host.Outcome State Fault Refusal :=
  if s.waiting ≠ [] ∧ s.posted.length < Config.postedCapacity then .next s.enterNext.finish else .next s

/-- UPSTREAM_RESET (R78, R97, R117, R127). -/
def execUpstreamReset (s : State) : Host.Outcome State Fault Refusal :=
  if s.busReset then .next s
  else .next ({ s with busReset := true }.abandonRequest.emptyHolds).finish

/-- UPSTREAM_RESET_RELEASE (R78): the port takes requests again. -/
def execUpstreamResetRelease (s : State) : Host.Outcome State Fault Refusal :=
  if s.busReset then .next { s with busReset := false }.finish else .next s

/-- HOLD_EXPIRY (R123). -/
def execHoldExpiry (s : State) : Host.Outcome State Fault Refusal :=
  if s.hold.any (fun e => decide (e.expiry ≤ s.time.seconds)) then .next s.expireHolds.finish else .next s

/-- RETRY_TIMER_EXPIRY (R141). -/
def execRetryTimerExpiry (entry : Fin 16) (s : State) : Host.Outcome State Fault Refusal :=
  if (s.force.get entry).retry = .due then .next (s.retryExpire entry).finish else .next s

/-- MEMORY_ANSWER (R154); with no transfer in flight it is a late answer and is ignored (R155). -/
def execMemoryAnswer (done : Bool) (data : Data) (s : State) : Host.Outcome State Fault Refusal :=
  match s.port.state with
  | .busy _ => .next (s.answered done data).finish
  | .idle | .settling => .next s

/-- DOWNSTREAM_TIMEOUT (R154). -/
def execDownstreamTimeout (s : State) : Host.Outcome State Fault Refusal :=
  if s.port.timeout = .due then .next s.timedOut.finish else .next s

/-- SETTLING_END (R155). -/
def execSettlingEnd (s : State) : Host.Outcome State Fault Refusal :=
  if s.port.state = .settling ∧ s.port.settleDue = true then .next s.settled.finish else .next s

/-- REPORT_AGING_EXPIRY (R153). -/
def execReportAgingExpiry (s : State) : Host.Outcome State Fault Refusal :=
  if s.port.aging = .due then .next s.reportAged.finish else .next s

end Sys2Proof.Machine
end

