-- ==== Sys2Proof/Machine/Field.lean ====
section
/-!
DEFINITION. The commands of the field inputs and of the zones' timers (chapters 1 to 3). An event that is not due changes nothing
(log 5, log 6).
-/
namespace Sys2Proof.Machine

/-- CHANNEL_SAMPLE (R27, R28): taken when the channel is the next of the running scan. -/
def execChannelSample (ch : Fin 8) (code : BitVec 12) (s : State) : Host.Outcome State Fault Refusal :=
  match s.scan with
  | c :: rest =>
    if c = ch ∧ s.mode = .run then .next ({ s with scan := rest }.chanSample ch code).finish else .next s
  | [] => .next s

/-- WARM_UP_EXPIRY (R31). -/
def execWarmUpExpiry (ch : Fin 8) (s : State) : Host.Outcome State Fault Refusal :=
  if (s.chans.get ch).timer = .due then .next (s.warmUpExpire ch).finish else .next s

/-- SPILL_SAMPLE (R42, R43): taken when the line was sampled at the last 100 ms tick. -/
def execSpillSample (line : Fin 12) (high : Bool) (s : State) : Host.Outcome State Fault Refusal :=
  if (s.spills.get line).due then .next (s.spillSample line high).finish else .next s

/-- TACH_PULSE (R48): counted in RUN once the first window has opened, saturating. -/
def execTachPulse (tach : Fin 8) (s : State) : Host.Outcome State Fault Refusal :=
  if s.mode = .run ∧ s.windowOpen = true then
    .next (s.setTach tach { s.tachs.get tach with count := min 65535 ((s.tachs.get tach).count + 1) })
  else .next s

/-- WINDOW_EVENT (R48): taken when the tach's window closes at the last 1 s tick. -/
def execWindowEvent (tach : Fin 8) (s : State) : Host.Outcome State Fault Refusal :=
  if (s.tachs.get tach).due then .next (s.tachWindow tach).finish else .next s

/-- DELAY_TIMER_EXPIRY (R52, R53). -/
def execDelayTimerExpiry (tach : Fin 8) (s : State) : Host.Outcome State Fault Refusal :=
  if (s.tachs.get tach).timer = .due then .next (s.delayExpire tach).finish else .next s

/-- REFRESH_EXPIRY (R11). -/
def execRefreshExpiry (zone : Fin 4) (s : State) : Host.Outcome State Fault Refusal :=
  if (s.zones.get zone).refresh = .due then .next (s.refreshExpire zone).finish else .next s

/-- PURGE_EXPIRY (R17). -/
def execPurgeExpiry (zone : Fin 4) (s : State) : Host.Outcome State Fault Refusal :=
  if (s.zones.get zone).purge = .due then .next (s.purgeExpire zone).finish else .next s

end Sys2Proof.Machine
end

