-- ==== Sys2Proof/WellFormed.lean ====
section
/-!
DEFINITION. What a command's operands must satisfy. Field widths are in the types; three checks remain.
-/
namespace Sys2Proof

/-- The data of a write of width `w` holds nothing above the width (spec 00 section 7.1). -/
def Width.fits (w : Width) (d : Data) : Bool :=
  match w with
  | .w1 => d.toNat < 256
  | .w2 => d.toNat < 65536
  | .w4 => true

/-- The number of parameter bytes a maintenance command needs after its code (R188);
`none` for an unknown code. WRITE_STAGE needs as many more as its length parameter says. -/
def frameNeeds (code : Byte) (params : List Byte) : Option Nat :=
  match code.toNat with
  | 0x01 | 0x02 | 0x03 | 0x11 => some 0
  | 0x04 => some 4
  | 0x10 => some (4 + ((params.getD 2 0).toNat + 256 * (params.getD 3 0).toNat))
  | 0x12 => some 3
  | 0x13 | 0x14 => some 1
  | _ => none

/-- A frame that spells no command: an unknown code, or too few parameter bytes (R188 case 1). -/
def badFrame (frame : List Byte) : Bool :=
  match frame with
  | [] => false
  | code :: params =>
    match frameNeeds code params with
    | none => true
    | some n => params.length < n

/-- The well-formed commands. -/
def Instr.wf : Instr → Bool
  | .hostWrite _ w d => w.fits d
  | .writeStage _ length bytes => length.toNat ≤ bytes.length
  | .unknownCommand frame => badFrame frame
  | .supplyRise _ | .brownOut | .brownOutEnd _ | .resetAssert | .resetRelease _ | .loadingEnd _
  | .storeWriteComplete _ | .tick1ms _ | .tick100ms | .tick1s | .pulseBoundary | .channelSample _ _
  | .warmUpExpiry _ | .spillSample _ _ | .tachPulse _ | .windowEvent _ | .delayTimerExpiry _
  | .refreshExpiry _ | .purgeExpiry _ | .hostRead _ _ | .claimSettlement _ | .placementEnters
  | .upstreamReset | .upstreamResetRelease | .holdExpiry | .retryTimerExpiry _ | .memoryAnswer _ _
  | .downstreamTimeout | .settlingEnd | .reportAgingExpiry | .commissioningLineChange | .status
  | .readLog | .readStore | .readImage _ _ _ | .commit | .testReading _ _ | .endTest _
  | .acknowledge _ => true

end Sys2Proof
end

