-- ==== Sys2Proof/Machine/Maintain.lean ====
section
/-!
DEFINITION. The commissioning line and the commands of the maintenance port (chapter 12).
-/
namespace Sys2Proof.Machine

/-- The bytes of a reply frame: the reply code, then OK's data or REJECTED's check code (R187). -/
def Reply.bytes : Reply → List Byte
  | .none => [0x00#8]
  | .ok data => 0x01#8 :: data
  | .busy => [0x02#8]
  | .denied => [0x03#8]
  | .rejected code => [0x04#8, BitVec.ofNat 8 code]
  | .badCommand => [0x05#8]

/-- The byte clocked out at a place of the reply: zero beyond the end of the frame (R187). -/
def Reply.clocked (r : Reply) (n : Nat) : Byte := r.bytes.getD n 0#8

/-- A 2-byte parameter of a frame, least significant byte first (spec 00 section 7.1). -/
def frameHalf (params : List Byte) (off : Nat) : Half := BitVec.ofNat 16 (leValue ((params.drop off).take 2))

/-- The command a frame spells by its code byte and parameters; none for an empty or a bad frame (R188). Whether the store can be read is
no part of a frame; a frame's READ_IMAGE reads it (log 16, log 31). -/
def commandOf (frame : List Byte) : Option Instr :=
  match frame with
  | [] => none
  | code :: params =>
    if badFrame frame then none
    else match code.toNat with
      | 0x01 => some .status
      | 0x02 => some .readLog
      | 0x03 => some .readStore
      | 0x04 => some (.readImage (frameHalf params 0) (frameHalf params 2) true)
      | 0x10 =>
        some (.writeStage (frameHalf params 0) (frameHalf params 2) ((params.drop 4).take (frameHalf params 2).toNat))
      | 0x11 => some .commit
      | 0x12 => some (.testReading (params.getD 0 0#8) (frameHalf params 1))
      | 0x13 => some (.endTest (params.getD 0 0#8))
      | 0x14 => some (.acknowledge (params.getD 0 0#8))
      | _ => none

/-- An offset and a length that reach beyond what a command may name (R188). -/
def badRange (offset length : Half) : Bool :=
  length == 0#16 || decide (256 < length.toNat) || decide (Config.imageSize < offset.toNat + length.toNat)

/-- The mode's code in STATUS (R190). LOADING has none: STATUS is BUSY then. -/
def Mode.code : Mode → Nat
  | .loading => 0 | .run => 1 | .fallback => 3

/-- A cell of READ_STORE (R190). -/
def CellRec.bytes (k : CellRec) : List Byte := leBytes 2 k.value.toNat ++ [bits4 k.valid k.written false false]

/-- A line of READ_STORE (R190). -/
def Line.bytes (l : Line) : List Byte :=
  leBytes 3 ((l.tag.map BitVec.toNat).getD 0) ++ [bits4 l.tag.isSome l.pinned l.filling false]
    ++ l.cells.items.flatMap CellRec.bytes

namespace State

/-- A reply becomes the pending reply (R187). -/
def reply (s : State) (r : Reply) : State := { s with maint := { s.maint with reply := r } }

/-- The commissioning line as the maintenance unit holds it. -/
def lineAsserted (s : State) : Bool := s.maint.line

/-- BUSY: the mode is LOADING, or a store write is in progress (R188 case 2). -/
def busyNow (s : State) : Bool := decide (s.mode = .loading) || s.maint.storing

/-- A command whose parameters are all there, decided in the order of R188: BUSY, DENIED, BAD_COMMAND, or carried out. Without power
nothing is decided (log 14). -/
def gated (s : State) (needsLine outOfRange : Bool) (carried : State) : State :=
  if !s.alive then s
  else if s.busyNow then s.reply .busy
  else if needsLine && !s.lineAsserted then s.reply .denied
  else if outOfRange then s.reply .badCommand
  else carried

/-- The data of STATUS (R190). The rules give no codes to its bytes for the commissioning line and for store busy: 1 for asserted and for
busy, 0 for released and for idle, are the model's choice, as is R172's code for the unacknowledged flag here (log 45). -/
def statusBytes (s : State) : List Byte :=
  leBytes 1 s.mode.code ++ [flagByte s.lineAsserted]
    ++ s.zones.items.flatMap (fun r => leBytes 1 r.state.code ++ leBytes 2 r.causes.word ++ [flagByte r.unack])
    ++ (indices 8).flatMap (fun c => leBytes 1 (s.channelState c).code)
    ++ leBytes 1 (s.posted.filter (fun p => p.origin == .host)).length
    ++ leBytes 1 (s.posted.filter (fun p => p.origin == .release)).length
    ++ leBytes 1 (s.hold.filter (fun e => e.origin == .host)).length
    ++ leBytes 1 (s.hold.filter (fun e => e.origin == .part)).length
    ++ [flagByte s.store.busy] ++ leBytes 4 s.time.seconds ++ leBytes 2 s.log.nextSeq.toNat

/-- The data of READ_LOG (R190). -/
def logBytes (s : State) : List Byte := leBytes 1 s.log.records.length ++ s.log.records.flatMap Record.bytes

/-- The data of READ_STORE (R115, R190). -/
def storeBytes (s : State) : List Byte :=
  s.store.lines.items.flatMap Line.bytes ++ s.store.lru.flatMap (fun i => leBytes 1 i.val)

/-- The data of READ_IMAGE (R190): zeros where the store cannot be read. -/
def imageBytes (s : State) (offset length : Half) (readable : Bool) : List Byte :=
  (List.range length.toNat).map (fun i => if readable then s.nv.read (offset.toNat + i) else 0#8)

/-- COMMIT's outcome for a check result of the staging buffer (R192): REJECTED with the code, or the store write begins. -/
def commitOn (s : State) (verdict : Option Nat) : State :=
  match verdict with
  | some code => s.reply (.rejected code)
  | none => ({ s with maint := { s.maint with storing := true, reply := .ok [] } }.mark itemHeader).finish

/-- COMMIT carried out (R192): REJECTED with the check code, or OK and the store write begins. -/
def commitStaged (s : State) : State := s.commitOn s.staging.imageCheck

/-- A test reading begun (R35). -/
def startTest (s : State) (c : Fin 8) (v : Nat) : State := ((s.beginTest c v).reply (.ok [])).finish

/-- A test reading ended (R36). -/
def stopTest (s : State) (c : Fin 8) : State := ((s.endTestOf c).reply (.ok [])).finish

/-- A zone acknowledged by the maintenance tool (R20, R191). -/
def acknowledgeFrom (s : State) (z : Fin 4) : State := ((s.zoneAcknowledge z).reply (.ok [])).finish

/-- A sampled change of the commissioning line taken (R189): a release ends every test reading (R36). -/
def takeLine (s : State) (level : Bool) : State :=
  let s := { s with maint := { s.maint with line := level, lineDue := none } }
  if level then s else s.endAllTests.finish

end State

/-- A channel number as a byte parameter gives it. -/
def channelOf (b : Byte) : Fin 8 := ⟨b.toNat % 8, Nat.mod_lt _ (by decide)⟩

/-- A zone number as a byte parameter gives it. -/
def zoneOf (b : Byte) : Fin 4 := ⟨b.toNat % 4, Nat.mod_lt _ (by decide)⟩

/-- COMMISSIONING_LINE_CHANGE (R189). -/
def execCommissioningLineChange (s : State) : Host.Outcome State Fault Refusal :=
  match s.maint.lineDue with
  | some level => .next (s.takeLine level)
  | none => .next s

/-- STATUS (R190). -/
def execStatus (s : State) : Host.Outcome State Fault Refusal :=
  .next (s.gated false false (s.reply (.ok s.statusBytes)))

/-- READ_LOG (R190). -/
def execReadLog (s : State) : Host.Outcome State Fault Refusal :=
  .next (s.gated false false (s.reply (.ok s.logBytes)))

/-- READ_STORE (R115, R190). -/
def execReadStore (s : State) : Host.Outcome State Fault Refusal :=
  .next (s.gated false false (s.reply (.ok s.storeBytes)))

/-- READ_IMAGE (R190). -/
def execReadImage (offset length : Half) (readable : Bool) (s : State) : Host.Outcome State Fault Refusal :=
  .next (s.gated false (badRange offset length) (s.reply (.ok (s.imageBytes offset length readable))))

/-- WRITE_STAGE (R191). A frame shorter than its length says is BAD_COMMAND (R188 case 1). -/
def execWriteStage (offset length : Half) (bytes : List Byte) (s : State) : Host.Outcome State Fault Refusal :=
  if bytes.length < length.toNat then .next (if s.alive then s.reply .badCommand else s)
  else
    .next (s.gated true (badRange offset length)
      ({ s with staging := s.staging.writeAll offset.toNat (bytes.take length.toNat) }.reply (.ok [])))

/-- COMMIT (R192). -/
def execCommit (s : State) : Host.Outcome State Fault Refusal := .next (s.gated true false s.commitStaged)

/-- TEST_READING (R35, R191). -/
def execTestReading (channel : Byte) (concentration : Half) (s : State) : Host.Outcome State Fault Refusal :=
  .next (s.gated true
    (decide (7 < channel.toNat) || (s.cfg.channels.get (channelOf channel)).zone.isNone || decide (1000 < concentration.toNat))
    (s.startTest (channelOf channel) concentration.toNat))

/-- END_TEST (R36, R191). -/
def execEndTest (channel : Byte) (s : State) : Host.Outcome State Fault Refusal :=
  .next (s.gated true (decide (7 < channel.toNat)) (s.stopTest (channelOf channel)))

/-- ACKNOWLEDGE (R20, R191). -/
def execAcknowledge (zone : Byte) (s : State) : Host.Outcome State Fault Refusal :=
  .next (s.gated true (decide (3 < zone.toNat)) (s.acknowledgeFrom (zoneOf zone)))

/-- A command that a frame spells, run (R188). -/
def runFrame (c : Instr) (s : State) : Host.Outcome State Fault Refusal :=
  match c with
  | .status => execStatus s
  | .readLog => execReadLog s
  | .readStore => execReadStore s
  | .readImage offset length readable => execReadImage offset length readable s
  | .writeStage offset length bytes => execWriteStage offset length bytes s
  | .commit => execCommit s
  | .testReading channel concentration => execTestReading channel concentration s
  | .endTest channel => execEndTest channel s
  | .acknowledge zone => execAcknowledge zone s
  | _ => .next s

/-- UNKNOWN_COMMAND (R188 case 1): BAD_COMMAND, before any other case; a period with no bytes in takes no command (R187). A frame that
spells a command is that command (log 31). -/
def execUnknownCommand (frame : List Byte) (s : State) : Host.Outcome State Fault Refusal :=
  match commandOf frame with
  | some c => runFrame c s
  | none => if s.alive ∧ frame ≠ [] then .next (s.reply .badCommand) else .next s

end Sys2Proof.Machine
end

