-- ==== Sys2Proof/Machine/Power.lean ====
section
/-!
DEFINITION. The commands of the supply, RESET, LOADING and the store write.
-/
namespace Sys2Proof.Machine

/-- SUPPLY_RISE (R184): a power-up restart, unless RESET holds the part. A supply that is on already falls and rises (log 13). -/
def execSupplyRise (pins : BitVec 8) (s : State) : Host.Outcome State Fault Refusal :=
  if s.resetLine then .next (s.dark .on true) else .next (s.powerUp pins)

/-- BROWN_OUT (R186). -/
def execBrownOut (s : State) : Host.Outcome State Fault Refusal :=
  if s.supply = .on then .next (s.dark .low s.resetLine) else .next s

/-- BROWN_OUT_END (R184): a power-up restart, unless RESET holds the part (log 13). -/
def execBrownOutEnd (pins : BitVec 8) (s : State) : Host.Outcome State Fault Refusal :=
  if s.supply = .low then
    if s.resetLine then .next (s.dark .on true) else .next (s.powerUp pins)
  else .next s

/-- RESET_ASSERT (R186): as the start of a brown-out. -/
def execResetAssert (s : State) : Host.Outcome State Fault Refusal :=
  if s.resetLine then .next s else .next (s.dark s.supply true)

/-- RESET_RELEASE (R184): a power-up restart, if the supply is there (log 13). -/
def execResetRelease (pins : BitVec 8) (s : State) : Host.Outcome State Fault Refusal :=
  if s.resetLine then
    if s.supply = .on then .next (s.powerUp pins) else .next (s.dark s.supply false)
  else .next s

/-- LOADING_END (R184): the image is checked; RUN or FALLBACK begins. -/
def execLoadingEnd (readable : Bool) (s : State) : Host.Outcome State Fault Refusal :=
  if s.alive ∧ s.mode = .loading then .next (s.endLoading (s.nv.check readable)) else .next s

/-- STORE_WRITE_COMPLETE (R185, R192): the commit restart begins. A store that reads back wrong holds free bytes (log 15). -/
def execStoreWriteComplete (readBack : Bool) (s : State) : Host.Outcome State Fault Refusal :=
  if s.alive ∧ s.maint.storing = true then
    if readBack then .next (s.commitRestart { image := s.staging, torn := none })
    else .next ({ s with choices := s.choices + 1 }.commitRestart { s.nv with torn := some s.choices })
  else .next s

end Sys2Proof.Machine
end

