-- ==== Sys2Proof/Machine/Ticks.lean ====
section
/-!
DEFINITION. The ticks of the time base and the pulse boundary (R1, R164). The ticks are counted: the 1 ms ticks make the 100 ms tick due,
and the 100 ms ticks the 1 s tick, so that every 1 s tick is also a 100 ms tick and a 1 ms tick; each is taken by its own command
(log 4). A tick makes timers due; their expiries are commands of their own (log 5).
-/
namespace Sys2Proof.Machine

/-- The 1 ms ticks to a 100 ms tick, in the words of R1; a sender may leave a due 100 ms tick untaken (log 4). -/
def shortTicksPerTenth : Nat := 10

/-- The 100 ms ticks of a 1 s tick (R1). -/
def tenthsPerSecond : Nat := 10

/-- A tick counted towards the next longer one: the count after it, and whether that tick has come (R1). -/
def countTick (n count : Nat) : Nat × Bool := if n ≤ count + 1 then (0, true) else (count + 1, false)

/-- The 1 ms tick at the time base: it is counted towards the 100 ms tick (R1), and raises the pulse phase (R164); at a boundary a pulse
boundary is due (log 6). -/
def TimeBase.advance (t : TimeBase) : TimeBase :=
  let counted := countTick shortTicksPerTenth t.shortTicks
  let phase := (t.phase + 1) % 1000
  { t with
    shortTicks := counted.1
    tenthDue := t.tenthDue || counted.2
    phase := phase
    pulseDue := t.pulseDue || isPulseBoundary phase }

/-- The 100 ms tick at the time base: taken, and counted towards the 1 s tick (R1). -/
def TimeBase.tenth (t : TimeBase) : TimeBase :=
  let counted := countTick tenthsPerSecond t.tenths
  { t with tenthDue := false, tenths := counted.1, secondDue := t.secondDue || counted.2 }

/-- The 1 s tick at the time base: taken; the seconds since power-up rise and the pulse phase returns to 0, a boundary (R1, R164). -/
def TimeBase.second (t : TimeBase) : TimeBase :=
  { t with secondDue := false, seconds := t.seconds + 1, phase := 0, pulseDue := true }

/-- The commissioning line sampled (R187, R189): the first sample is no change; a level other than the one held is a change to take. -/
def Maintenance.sample (m : Maintenance) (level : Bool) : Maintenance :=
  if m.sampled then { m with lineDue := if m.line = level then none else some level }
  else { m with line := level, sampled := true }

namespace State

/-- The items that each 1 s tick marks: the header, the channel and tach records, and the hold mirror while the queue is not empty (R130,
R170). -/
def tickMarks (s : State) : State :=
  let s := s.markAll (itemHeader :: (indices 8).map itemChannel ++ (indices 8).map itemTach)
  if s.hold.isEmpty then s else s.mark itemHold

/-- The 100 ms tick at the blocks, in RUN: the converter scan begins (R27), spill lines are sampled (R42) and refresh timers count (R11). -/
def tenthInRun (s : State) : State := { s with scan := s.usedChannels }.tickSpills.tickRefresh

/-- The 1 s tick at the blocks, in RUN. -/
def secondInRun (s : State) : State := s.tickWarmUp.tickPurge.tickTachs.tickRetry.tickMarks

end State

/-- TICK_1MS (R1, R153 to R155, R164, R189). -/
def execTick1ms (commissioning : Bool) (s : State) : Host.Outcome State Fault Refusal :=
  if s.time.running then
    .next { s with time := s.time.advance, maint := s.maint.sample commissioning }.tickPort
  else .next s

/-- TICK_100MS (R1), at the 1 ms tick that makes it due: counted towards the 1 s tick, and in RUN taken by the blocks. One that is not due
changes nothing (log 4). -/
def execTick100ms (s : State) : Host.Outcome State Fault Refusal :=
  if s.time.running ∧ s.time.tenthDue then
    let s := { s with time := s.time.tenth }
    if s.mode = .run then .next s.tenthInRun else .next s
  else .next s

/-- TICK_1S (R1), at the 100 ms tick that makes it due: the seconds rise; in RUN the 1 s timers count, tach windows open or close, and
report items are marked. One that is not due changes nothing (log 4). -/
def execTick1s (s : State) : Host.Outcome State Fault Refusal :=
  if s.time.running ∧ s.time.secondDue then
    let s := { s with time := s.time.second }
    if s.mode = .run then .next s.secondInRun.finish else .next s
  else .next s

/-- PULSE_BOUNDARY (R164). -/
def execPulseBoundary (s : State) : Host.Outcome State Fault Refusal := .next s.pulse

end Sys2Proof.Machine
end

