-- ==== Sys2Proof/Machine/Dispatch.lean ====
section
/-!
DEFINITION. One arm for each command: the call of its meaning.
-/
namespace Sys2Proof.Machine

def exec (i : Instr) (s : State) : Host.Outcome State Fault Refusal :=
  match i with
  | .supplyRise pins => Sys2Proof.Machine.execSupplyRise pins s
  | .brownOut => Sys2Proof.Machine.execBrownOut s
  | .brownOutEnd pins => Sys2Proof.Machine.execBrownOutEnd pins s
  | .resetAssert => Sys2Proof.Machine.execResetAssert s
  | .resetRelease pins => Sys2Proof.Machine.execResetRelease pins s
  | .loadingEnd readable => Sys2Proof.Machine.execLoadingEnd readable s
  | .storeWriteComplete readBack => Sys2Proof.Machine.execStoreWriteComplete readBack s
  | .tick1ms commissioning => Sys2Proof.Machine.execTick1ms commissioning s
  | .tick100ms => Sys2Proof.Machine.execTick100ms s
  | .tick1s => Sys2Proof.Machine.execTick1s s
  | .pulseBoundary => Sys2Proof.Machine.execPulseBoundary s
  | .channelSample ch code => Sys2Proof.Machine.execChannelSample ch code s
  | .warmUpExpiry ch => Sys2Proof.Machine.execWarmUpExpiry ch s
  | .spillSample line high => Sys2Proof.Machine.execSpillSample line high s
  | .tachPulse tach => Sys2Proof.Machine.execTachPulse tach s
  | .windowEvent tach => Sys2Proof.Machine.execWindowEvent tach s
  | .delayTimerExpiry tach => Sys2Proof.Machine.execDelayTimerExpiry tach s
  | .refreshExpiry zone => Sys2Proof.Machine.execRefreshExpiry zone s
  | .purgeExpiry zone => Sys2Proof.Machine.execPurgeExpiry zone s
  | .hostRead addr width => Sys2Proof.Machine.execHostRead addr width s
  | .hostWrite addr width data => Sys2Proof.Machine.execHostWrite addr width data s
  | .claimSettlement who => Sys2Proof.Machine.execClaimSettlement who s
  | .placementEnters => Sys2Proof.Machine.execPlacementEnters s
  | .upstreamReset => Sys2Proof.Machine.execUpstreamReset s
  | .upstreamResetRelease => Sys2Proof.Machine.execUpstreamResetRelease s
  | .holdExpiry => Sys2Proof.Machine.execHoldExpiry s
  | .retryTimerExpiry entry => Sys2Proof.Machine.execRetryTimerExpiry entry s
  | .memoryAnswer done data => Sys2Proof.Machine.execMemoryAnswer done data s
  | .downstreamTimeout => Sys2Proof.Machine.execDownstreamTimeout s
  | .settlingEnd => Sys2Proof.Machine.execSettlingEnd s
  | .reportAgingExpiry => Sys2Proof.Machine.execReportAgingExpiry s
  | .commissioningLineChange => Sys2Proof.Machine.execCommissioningLineChange s
  | .status => Sys2Proof.Machine.execStatus s
  | .readLog => Sys2Proof.Machine.execReadLog s
  | .readStore => Sys2Proof.Machine.execReadStore s
  | .readImage offset length readable => Sys2Proof.Machine.execReadImage offset length readable s
  | .writeStage offset length bytes => Sys2Proof.Machine.execWriteStage offset length bytes s
  | .commit => Sys2Proof.Machine.execCommit s
  | .testReading channel concentration => Sys2Proof.Machine.execTestReading channel concentration s
  | .endTest channel => Sys2Proof.Machine.execEndTest channel s
  | .acknowledge zone => Sys2Proof.Machine.execAcknowledge zone s
  | .unknownCommand frame => Sys2Proof.Machine.execUnknownCommand frame s

end Sys2Proof.Machine
end

