-- ==== Sys2Proof/Safety.lean ====
section
/-!
DEFINITION. What counts as a sound state of the part and as a safe one, in the terms the statements use.
-/
namespace Sys2Proof.Machine

/-- The records' sequences rise by one, modulo 65536, from oldest to newest, up to the next sequence (R176). -/
def consecutive : List Record → Half → Bool
  | [], _ => true
  | [r], next => r.seq + 1#16 == next
  | r :: q :: rest, next => (r.seq + 1#16 == q.seq) && consecutive (q :: rest) next

/-- The log holds at most 32 records, of consecutive sequences (R176). -/
def EventLog.sound (l : EventLog) : Prop :=
  l.records.length ≤ Config.logCapacity ∧ consecutive l.records l.nextSeq = true

/-- The LRU order contains each of the 16 line numbers exactly once, and no two lines hold one tag (R101). -/
def CellStore.sound (c : CellStore) : Prop :=
  c.lru.Perm (indices 16) ∧ ∀ i j g, (c.lines.get i).tag = some g → (c.lines.get j).tag = some g → i = j

/-- What an append gives the event log (R176). -/
structure LogEntry where
  kind : EventKind
  zone : Option (Fin 4)
  subject : Option Nat
  value : Option Nat
  deriving DecidableEq, Repr

/-- The log after an append at a time: a repeated refusal is counted on the newest record (R178); anything else joins as a record of its
own, the oldest of 32 leaving first (R176, R179). -/
def EventLog.add (now : Nat) (l : EventLog) (e : LogEntry) : EventLog :=
  let own : EventLog :=
    { l with
      records := (if 32 ≤ l.records.length then l.records.drop 1 else l.records) ++
        [{ seq := l.nextSeq, kind := e.kind, zone := e.zone, time := now, subject := e.subject, value := e.value, repeats := 1,
           gap := decide (32 ≤ l.records.length) }]
      nextSeq := l.nextSeq + 1#16 }
  match l.records.getLast? with
  | none => own
  | some r =>
    if (e.kind = .writeRefused ∨ e.kind = .writeAbsorbed) ∧ r.kind = e.kind ∧ r.zone = e.zone ∧ r.subject = e.subject then
      if r.repeats < 255 then { l with records := l.records.dropLast ++ [{ r with repeats := r.repeats + 1 }] } else l
    else own

/-- The records of one event at zone `z`: CAUSE_SET or CAUSE_CLEAR for each cause that changes, in number order, then ZONE_STATE for a
change of state (R5, R16, R18; the order among them is the model's, log 19). -/
def zoneRecords (z : Fin 4) (old new : Causes) (was now : ZoneState) : List LogEntry :=
  (Cause.all.filter (fun c => old.has c != new.has c)).map
      (fun c => { kind := if new.has c then .causeSet else .causeClear, zone := some z, subject := some c.number, value := none }) ++
    if was = now then [] else [{ kind := .zoneState, zone := some z, subject := some was.code, value := some now.code }]

/-- A zone's record `r` after an event that leaves it the causes `cs`: the state settled once (R16), the flag set at a cause that sets and
at a rise (R5, R18), the purge timer started at entry into PURGE and stopped at any other change (R16, R17). -/
def ZoneRec.settledBy (cfg : ZoneCfg) (r : ZoneRec) (cs : Causes) : ZoneRec :=
  let state := settleState r.state cs
  { r with
    state := state
    causes := cs
    unack := r.unack || Causes.anySet r.causes cs || isRise r.state state
    purge := if state = r.state then r.purge else if state = .purge then Timer.start cfg.purgeTime else .stopped }

/-- A field of `n` bytes of a layout, least significant byte first. -/
def fieldOf (bs : List Byte) (off n : Nat) : Nat := leValue ((bs.drop off).take n)

/-! ### The image as R182 lays it out and R183 checks it -/

/-- The 2-byte field at an offset, least significant byte first (R182). -/
def Memory.two (m : Memory) (o : Nat) : Nat := m.byteAt o + 256 * m.byteAt (o + 1)

/-- The 4-byte field at an offset, least significant byte first (R182). -/
def Memory.four (m : Memory) (o : Nat) : Nat := m.two o + 65536 * m.two (o + 2)

/-- The codes of R182, for each kind of field. -/
def WinClass.code : WinClass → Nat
  | .open_ => 0 | .checked => 1 | .watched => 2 | .barred => 3

/-- The watch functions' codes (R182). -/
def WatchFn.code : WatchFn → Nat
  | .acknowledge => 0 | .heartbeat => 1 | .logClear => 2

/-- The refusal styles' codes (R182). -/
def Style.code : Style → Nat
  | .report => 0 | .absorb => 1

/-- The verdicts' codes (R182). -/
def BoundsRule.code : BoundsRule → Nat
  | .clamp => 0 | .hold => 1 | .refuse => 2

/-- The unknown actions' codes (R182). -/
def UnknownAction.code : UnknownAction → Nat
  | .boundsOnly => 0 | .refuse => 1

/-- The senses' codes (R182). -/
def Sense.code : Sense → Nat
  | .floor => 0 | .ceiling => 1 | .exact_ => 2

/-- The release modes' codes (R182). -/
def ReleaseMode.code : ReleaseMode → Nat
  | .keep => 0 | .restore => 1

/-- The group functions' codes (R182). -/
def GroupFn.code : GroupFn → Nat
  | .lamps => 0 | .sounders => 1 | .cell => 2 | .fixed => 3

/-- Settings are the ones an image lays out, offset by offset (R182). A field that R183 says is not read binds nothing. -/
def Settings.laidOut (cfg : Settings) (m : Memory) : Prop :=
  cfg.imageId.toNat = m.four 2 ∧ (∃ b, cfg.reportBase = some b ∧ b.toNat = m.four 6) ∧
    (∀ i, let w := cfg.windows.get i
      let o := 16 + 12 * i.val
      (w.enabled = true ↔ m.byteAt o = 1) ∧
        (w.enabled = true →
          w.cls.code = m.byteAt (o + 1) ∧ w.style.code = m.byteAt (o + 5) ∧ w.base.toNat = m.four (o + 6) ∧ w.sizeExp = m.byteAt (o + 10) ∧
            (w.cls = .checked → w.zone.val = m.byteAt (o + 2) ∧ w.profile.val = m.byteAt (o + 3)) ∧
            (w.cls = .watched → w.func.code = m.byteAt (o + 4) ∧ (w.func ≠ .logClear → w.zone.val = m.byteAt (o + 2))))) ∧
    (∀ p, let c := cfg.profiles.get p
      let o := 208 + 32 * p.val
      (∀ l, let b := c.levels.get l
        b.low.toNat = m.two (o + 5 * l.val) ∧ b.high.toNat = m.two (o + 5 * l.val + 2) ∧ b.rule.code = m.byteAt (o + 5 * l.val + 4)) ∧
        c.fall.toNat = m.two (o + 20) ∧ c.rise.toNat = m.two (o + 22) ∧ c.unknown.code = m.byteAt (o + 24) ∧
        c.holdLimit = m.two (o + 25)) ∧
    (∀ z, let c := cfg.zones.get z
      let o := 464 + 16 * z.val
      c.alert = m.two o ∧ c.vent = m.two (o + 2) ∧ c.high = m.two (o + 4) ∧ c.hysteresis = m.two (o + 6) ∧
        c.purgeTime = m.two (o + 8) ∧ c.refreshPeriod = m.two (o + 10)) ∧
    (∀ n, let c := cfg.channels.get n
      let o := 528 + 16 * n.val
      (c.zone = none ↔ m.byteAt o = 0xFF) ∧ (∀ z, c.zone = some z → z.val = m.byteAt o) ∧ c.rawZero = m.two (o + 1) ∧
        c.span = m.two (o + 3) ∧ c.openLimit = m.two (o + 5) ∧ c.overLimit = m.two (o + 7) ∧ c.warmUp = m.two (o + 9)) ∧
    (∀ l, let c := cfg.spills.get l
      let o := 656 + 4 * l.val
      (c.zone = none ↔ m.byteAt o = 0xFF) ∧ (∀ z, c.zone = some z → z.val = m.byteAt o) ∧ (c.wetHigh = true ↔ m.byteAt (o + 1) = 1) ∧
        c.debounce = m.byteAt (o + 2)) ∧
    (∀ t, let c := cfg.tachs.get t
      let o := 704 + 8 * t.val
      (c.binding = none ↔ m.byteAt o = 0xFF) ∧ (∀ e, c.binding = some e → e.val = m.byteAt o) ∧ c.pulses = m.byteAt (o + 1) ∧
        c.proofSpeed = m.two (o + 2) ∧ c.proofDelay = m.two (o + 4)) ∧
    (∀ e, let o := 768 + 12 * e.val
      (cfg.forces.get e = none ↔ m.byteAt o = 0) ∧
        ∀ f, cfg.forces.get e = some f →
          f.zone.val = m.byteAt (o + 1) ∧ f.sense.code = m.byteAt (o + 2) ∧ f.release.code = m.byteAt (o + 3) ∧ f.cell.toNat = m.four (o + 4) ∧
            f.forced.toNat = m.two (o + 8)) ∧
    cfg.pins.map BitVec.toNat = ((indices 8).map (fun i => m.four (960 + 4 * i.val))).filter (fun a => a != 0xFFFFFFFF) ∧
    (∀ g, (cfg.groups.get g).code = m.byteAt (992 + g.val)) ∧
    (∀ i, m.byteAt (992 + i.val / 4) = 2 → (cfg.cellAddrs.get i).toNat = m.four (994 + 4 * i.val)) ∧
    ∀ i, (cfg.fixedLevels.get i = true ↔ m.byteAt (1026 + i.val) = 1)

/-- One bit shifted into the CRC register, by the generator polynomial 04C1_1DB7h (R182). -/
def crcShift (r : BitVec 32) (bit : Bool) : BitVec 32 := if r.msb = bit then r <<< 1 else (r <<< 1) ^^^ 0x04C11DB7#32

/-- The CRC-32 as R182 words it: each byte least significant bit first, the initial value FFFF_FFFFh, the register reflected and then
inverted. -/
def crcOver (bs : List Byte) : BitVec 32 :=
  ~~~((bs.flatMap (fun b => (List.range 8).map (fun i => b.getLsbD i))).foldl crcShift 0xFFFFFFFF#32).reverse

/-- Window `i` of the image is enabled and contains an address (R61). -/
def Memory.windowHas (m : Memory) (i : Fin 16) (a : Nat) : Prop :=
  let o := 16 + 12 * i.val
  m.byteAt o = 1 ∧ m.four (o + 6) ≤ a ∧ a < m.four (o + 6) + 2 ^ m.byteAt (o + 10)

/-- An address is even, has its most significant byte zero, and is governed by window `i` of the image, which is CHECKED: the report window
at the image's own report base stands above the image's windows, and a lower-numbered window above a higher (R62, R183). -/
def Memory.checkedCell (m : Memory) (a : Nat) (i : Fin 16) : Prop :=
  a < 2 ^ 24 ∧ a % 2 = 0 ∧ ¬(m.four 6 ≤ a ∧ a < m.four 6 + 1024) ∧ m.windowHas i a ∧ (∀ j, j < i → ¬m.windowHas j a) ∧
    m.byteAt (16 + 12 * i.val + 1) = 1

/-- An image passes the check with a code, in the words of R183's table. -/
def Memory.passes (m : Memory) : Nat → Prop
  | 1 => m.four 2044 = (crcOver ((List.range 2044).map m.read)).toNat
  | 2 => m.two 0 = 1
  | 3 => ∀ i : Fin 16,
      let o := 16 + 12 * i.val
      m.byteAt o ≤ 1 ∧
        (m.byteAt o = 1 → 3 ≤ m.byteAt (o + 10) ∧ m.byteAt (o + 10) ≤ 20 ∧ m.four (o + 6) < 2 ^ 24 ∧ m.four (o + 6) % 2 ^ m.byteAt (o + 10) = 0)
  | 4 => ∀ i : Fin 16,
      let o := 16 + 12 * i.val
      m.byteAt o = 1 → m.byteAt (o + 1) ≤ 3 ∧ m.byteAt (o + 5) ≤ 1 ∧
        (m.byteAt (o + 1) = 1 → m.byteAt (o + 2) ≤ 3 ∧ m.byteAt (o + 3) ≤ 7) ∧
        (m.byteAt (o + 1) = 2 → m.byteAt (o + 4) ≤ 2 ∧ (m.byteAt (o + 4) ≠ 2 → m.byteAt (o + 2) ≤ 3))
  | 5 => m.four 6 < 2 ^ 24 ∧ m.four 6 % 1024 = 0
  | 6 => ∀ p : Fin 8,
      let o := 208 + 32 * p.val
      (∀ l : Fin 4, m.two (o + 5 * l.val) ≤ m.two (o + 5 * l.val + 2) ∧ m.byteAt (o + 5 * l.val + 4) ≤ 2) ∧ m.byteAt (o + 24) ≤ 1 ∧
        1 ≤ m.two (o + 25) ∧ m.two (o + 25) ≤ 3600
  | 7 => ∀ z : Fin 4,
      let o := 464 + 16 * z.val
      0 < m.two o ∧ m.two o < m.two (o + 2) ∧ m.two (o + 2) < m.two (o + 4) ∧ m.two (o + 4) ≤ 1000 ∧ m.two (o + 6) ≤ m.two o ∧
        10 ≤ m.two (o + 8) ∧ m.two (o + 8) ≤ 3600 ∧ m.two (o + 10) ≤ 600
  | 8 => ∀ c : Fin 8,
      let o := 528 + 16 * c.val
      m.byteAt o ≠ 0xFF → m.byteAt o ≤ 3 ∧ 1 ≤ m.two (o + 3) ∧ m.two (o + 3) ≤ 4095 ∧ m.two (o + 5) < m.two (o + 7) ∧
        m.two (o + 7) ≤ 4095 ∧ m.two (o + 9) ≤ 900
  | 9 => ∀ l : Fin 12,
      let o := 656 + 4 * l.val
      m.byteAt o ≠ 0xFF → m.byteAt o ≤ 3 ∧ m.byteAt (o + 1) ≤ 1 ∧ 1 ≤ m.byteAt (o + 2) ∧ m.byteAt (o + 2) ≤ 50
  | 10 => ∀ t : Fin 8,
      let o := 704 + 8 * t.val
      1 ≤ m.byteAt (o + 1) ∧ m.byteAt (o + 1) ≤ 8 ∧
        (m.byteAt o ≠ 0xFF → m.byteAt o ≤ 15 ∧ m.byteAt (768 + 12 * m.byteAt o) = 1 ∧ 1 ≤ m.two (o + 2) ∧ m.two (o + 2) ≤ 6000 ∧
          5 ≤ m.two (o + 4) ∧ m.two (o + 4) ≤ 120)
  | 11 =>
      let o := fun (e : Fin 16) => 768 + 12 * e.val
      (∀ e, m.byteAt (o e) ≤ 1 ∧
        (m.byteAt (o e) = 1 → m.byteAt (o e + 2) ≤ 2 ∧ m.byteAt (o e + 3) ≤ 1 ∧
          ∃ i, m.checkedCell (m.four (o e + 4)) i ∧ m.byteAt (16 + 12 * i.val + 2) = m.byteAt (o e + 1) ∧
            ∀ l, l = 2 ∨ l = 3 →
              let b := 208 + 32 * m.byteAt (16 + 12 * i.val + 3) + 5 * l
              m.two b ≤ m.two (o e + 8) ∧ m.two (o e + 8) ≤ m.two (b + 2))) ∧
        (∀ z : Fin 4, ((indices 16).filter (fun e => m.byteAt (o e) == 1 && m.byteAt (o e + 1) == z.val)).length ≤ 8) ∧
        ∀ d e, m.byteAt (o d) = 1 → m.byteAt (o e) = 1 → m.four (o d + 4) = m.four (o e + 4) → d = e
  | 12 => ∀ i : Fin 8, m.four (960 + 4 * i.val) ≠ 0xFFFFFFFF → ∃ j, m.checkedCell (m.four (960 + 4 * i.val)) j
  | 13 => (∀ g : Fin 2, m.byteAt (992 + g.val) ≤ 3) ∧
      (∀ i : Fin 8, let a := m.four (994 + 4 * i.val)
        m.byteAt (992 + i.val / 4) = 2 → a < 2 ^ 24 ∧ a % 2 = 0 ∧
          ∃ j : Fin 8, m.four (960 + 4 * j.val) ≠ 0xFFFFFFFF ∧ m.four (960 + 4 * j.val) / 8 = a / 8) ∧
      ∀ i : Fin 8, m.byteAt (1026 + i.val) ≤ 1
  | _ => True

/-- A window contains an address: it is enabled, and the address lies from its base to base + size − 1 (R61, R62). -/
def Window.contains (w : Window) (a : Addr) : Prop :=
  w.enabled = true ∧ w.base.toNat ≤ a.toNat ∧ a.toNat < w.base.toNat + 2 ^ w.sizeExp

/-- A timer after a number of ticks of its unit (R2). -/
def Timer.ticks : Nat → Timer → Timer
  | 0, t => t
  | n + 1, t => Timer.ticks n t.tick

namespace State

/-- The posted queue holds at most 8 entries (R69). -/
def postedSound (s : State) : Prop := s.posted.length ≤ Config.postedCapacity

/-- The hold queue holds at most 8 entries, no two for one cell (R118). -/
def holdSound (s : State) : Prop := s.hold.length ≤ Config.holdCapacity ∧ (s.hold.map HoldEntry.cell).Nodup

/-- The sweep queue holds at most one pending request per zone (R134). -/
def sweepsSound (s : State) : Prop := (s.requests.map SweepRequest.zone).Nodup

/-- The queues, the log and the cell store keep the limits the rules give them. -/
def sound (s : State) : Prop :=
  s.log.sound ∧ s.postedSound ∧ s.holdSound ∧ s.sweepsSound ∧ s.store.sound

/-- The two addressed buffers are in canonical form (log 36). -/
def buffersSound (s : State) : Prop := s.nv.image.wf = true ∧ s.staging.wf = true

/-- The three kinds of fail-safe line stand as the zones call for (R160, R161, R162), and every signal line shows what its group's
function gives it (R163 to R168). -/
def linesFollow (s : State) : Prop :=
  (∀ z, s.lines.fanRun.get z = (s.zones.get z).state.forcing) ∧
    (s.lines.charger = true ↔ ∃ z, (s.zones.get z).state = .lockout) ∧
    (s.lines.attention = true ↔ ∃ z, (s.zones.get z).unack = true) ∧
    ∀ i, (s.lines.signals.get i).pattern = s.linePattern i

/-- Every fail-safe line is released and every signal line stands at its hold level (R169). -/
def linesReleased (s : State) : Prop :=
  (∀ z, s.lines.fanRun.get z = true) ∧ s.lines.charger = true ∧ s.lines.attention = true ∧
    ∀ i, s.lines.signals.get i = { pattern := .steady (s.lines.hold.get i), level := s.lines.hold.get i }

/-- The part runs: powered, not held in RESET, and in RUN. -/
def running (s : State) : Prop := s.alive = true ∧ s.mode = .run

/-- A signal line that shows a steady level stands at it (R163). -/
def steadyLines (s : State) : Prop :=
  ∀ i b, (s.lines.signals.get i).pattern = .steady b → (s.lines.signals.get i).level = b

/-- An item of the report region is due to be written as it stands or newer: its mark is set, or the writer has just taken it (R170,
R173). -/
def toWrite (s : State) (i : Fin 67) : Prop := s.marks.get i = true ∨ ∃ snapshot, s.writer = .writing i snapshot 0

/-- The output lines stand as R160 to R169 ask: in RUN as the zones, cells and settings call for, otherwise released and at rest. -/
def linesSafe (s : State) : Prop :=
  (s.running → s.linesFollow) ∧ (¬s.running → s.linesReleased) ∧ s.steadyLines

/-- No notice stands between blocks, and the port has nothing it could take: what every step ends in. -/
def quiet (s : State) : Prop := s.agenda = [] ∧ (s.hostWaiting = [] ∨ s.portOpen = false)

/-- The port can take a request, none waits before it, and no notice stands (R58). -/
def hostReady (s : State) : Prop := s.agenda = [] ∧ s.hostWaiting = [] ∧ s.portOpen = true

/-- Each zone's reading is the one its channels give (R6, R37), and settings apply in RUN alone (R4, R25). -/
def readingsFollow (s : State) : Prop :=
  (∀ z, (s.zones.get z).reading = s.gasReading z) ∧ (s.mode ≠ .run → s.cfg = Settings.unset)

/-- The settings in force keep what the image checks ask of them (R183), check by check: windows (3), the report base (5), profiles (6),
zones (7), used channels (8), used spill lines (9), tachs (10), force entries (11), pins (12) and CELL lines (13). Checks 1 and 2 are of
the image alone; check 4 and the codes of the others are in the settings' types. -/
def settingsChecked (s : State) : Prop :=
  s.mode = .run →
    (∀ i, let w := s.cfg.windows.get i
      w.enabled = true → 3 ≤ w.sizeExp ∧ w.sizeExp ≤ 20 ∧ w.base.toNat % 2 ^ w.sizeExp = 0) ∧
    (∃ b, s.cfg.reportBase = some b ∧ b.toNat % 1024 = 0) ∧
    (∀ p, let c := s.cfg.profiles.get p
      1 ≤ c.holdLimit ∧ c.holdLimit ≤ 3600 ∧ ∀ l, (c.levels.get l).low.toNat ≤ (c.levels.get l).high.toNat) ∧
    (∀ z, let c := s.cfg.zones.get z
      0 < c.alert ∧ c.alert < c.vent ∧ c.vent < c.high ∧ c.high ≤ 1000 ∧ c.hysteresis ≤ c.alert ∧ 10 ≤ c.purgeTime ∧
        c.purgeTime ≤ 3600 ∧ c.refreshPeriod ≤ 600) ∧
    (∀ n, let c := s.cfg.channels.get n
      c.zone.isSome = true → 1 ≤ c.span ∧ c.span ≤ 4095 ∧ c.openLimit < c.overLimit ∧ c.overLimit ≤ 4095 ∧ c.warmUp ≤ 900) ∧
    (∀ l, let c := s.cfg.spills.get l
      c.zone.isSome = true → 1 ≤ c.debounce ∧ c.debounce ≤ 50) ∧
    (∀ t, let c := s.cfg.tachs.get t
      1 ≤ c.pulses ∧ c.pulses ≤ 8 ∧
        ∀ e, c.binding = some e → (s.cfg.forces.get e).isSome = true ∧ 1 ≤ c.proofSpeed ∧ c.proofSpeed ≤ 6000 ∧ 5 ≤ c.proofDelay ∧
          c.proofDelay ≤ 120) ∧
    (∀ e f, s.cfg.forces.get e = some f →
      f.cell.toNat % 2 = 0 ∧ (∀ e' f', s.cfg.forces.get e' = some f' → f'.cell = f.cell → e' = e) ∧
        ∃ w, s.cfg.checkedAt f.cell = some w ∧ w.zone = f.zone ∧
          ∀ l : Fin 4, 2 ≤ l.val →
            let b := (s.cfg.profiles.get w.profile).levels.get l
            b.low.toNat ≤ f.forced.toNat ∧ f.forced.toNat ≤ b.high.toNat) ∧
    (∀ z, ((indices 16).filter (fun e => (s.cfg.forces.get e).map ForceCfg.zone == some z)).length ≤ 8) ∧
    (∀ a ∈ s.cfg.pins, a.toNat % 2 = 0 ∧ (s.cfg.checkedAt a).isSome = true) ∧
    ∀ i : Fin 8, s.cfg.groups.get (lineGroup i) = .cell →
      (s.cfg.cellAddrs.get i).toNat % 2 = 0 ∧ ∃ a ∈ s.cfg.pins, groupOf a = groupOf (s.cfg.cellAddrs.get i)

/-- Outside RUN no settings apply and every zone is in VENT by START or CONFIG, with no cause that could move it on and its purge timer
stopped (R14, R23). -/
def heldInVent (s : State) : Prop :=
  s.mode ≠ .run →
    s.cfg = Settings.unset ∧
      ∀ z, let r := s.zones.get z
        r.state = .vent ∧ (r.causes.start = true ∨ r.causes.config = true) ∧ r.causes.anyLockout = false ∧ r.purge = .stopped

/-- The maintenance unit carries commands out: powered, not in LOADING, no store write in progress (R188). -/
def served (s : State) : Prop := s.alive = true ∧ s.mode ≠ .loading ∧ s.maint.storing = false

/-- Two states agree on the transit path, the checker, the cell store, the hold queue, the force engine, the port and the output lines. -/
def samePath (s t : State) : Prop :=
  t.upstream = s.upstream ∧ t.hostWaiting = s.hostWaiting ∧ t.responses = s.responses ∧ t.posted = s.posted ∧
    t.waiting = s.waiting ∧ t.checker = s.checker ∧ t.store = s.store ∧ t.hold = s.hold ∧ t.force = s.force ∧
    t.sweep = s.sweep ∧ t.requests = s.requests ∧ t.port = s.port ∧ t.lines = s.lines

/-- The values the rules give the part at the start of LOADING after a power-up restart: no scan, window, claim, notice, item, level change
or expiry stands over from before it (R27, R56, R116, R173). That the counts of ticks begin at 0, that the commissioning line is held
released and a channel in WARMUP, is the model's choice (logs 4, 17 and 39). -/
def poweredUp (t : State) : Prop :=
  t.alive = true ∧ t.mode = .loading ∧
    t.time = { running := true, seconds := 0, shortTicks := 0, tenthDue := false, tenths := 0, secondDue := false, phase := 0,
               pulseDue := false } ∧
    t.cfg = Settings.unset ∧
    (∀ z, let r := t.zones.get z
      r.state = .vent ∧ r.causes = { Causes.empty with start := true } ∧ r.unack = true ∧ r.reading = none ∧ r.peak = none ∧
        r.purge = .stopped ∧ r.refresh = .stopped) ∧
    (∀ c, let r := t.chans.get c
      r.sample = .warmup ∧ r.test = none ∧ r.warm = false ∧ r.filter = [] ∧ r.bad = 0 ∧ r.good = 0 ∧ r.raw = none ∧
        r.timer = .stopped) ∧
    (∀ l, let r := t.spills.get l
      r.wet = false ∧ r.run = 0 ∧ r.last = none ∧ r.due = false) ∧
    (∀ i, let r := t.tachs.get i
      r.state = .idle ∧ r.required = false ∧ r.timer = .stopped ∧ r.count = 0 ∧ r.speed = none ∧ r.due = false) ∧
    t.scan = [] ∧ t.windowOpen = false ∧ t.agenda = [] ∧ t.upstream = .idle ∧ t.posted = [] ∧ t.waiting = [] ∧ t.checker = .idle ∧ t.hold = [] ∧
    (∀ i, t.store.lines.get i = Line.empty) ∧ t.store.lru = indices 16 ∧ t.store.fill = none ∧ t.store.list = [] ∧
    t.store.checkerClaim = none ∧ t.store.engineClaim = none ∧
    (∀ e, let r := t.force.get e
      r.state = .idle ∧ r.prior = none ∧ r.last = none ∧ r.attempts = 0 ∧ r.retry = .stopped ∧ r.fromFailed = false) ∧
    t.sweep = none ∧ t.requests = [] ∧ t.port.state = .idle ∧ t.port.timeout = .stopped ∧ t.port.aging = .stopped ∧
    t.port.aged = false ∧ t.port.settleDue = false ∧ t.writer = .idle ∧ t.lastItem = none ∧ (∀ i, t.marks.get i = false) ∧ t.linesReleased ∧
    t.log.records = [{ seq := 0#16, kind := .restart, zone := none, time := 0, subject := none, value := some 1, repeats := 1,
                       gap := false }] ∧
    t.log.nextSeq = 1#16 ∧ t.log.lastClear = .none ∧ t.log.clearedThrough = 0#16 ∧ t.log.commitCount = 0 ∧ t.log.latch = false ∧
    (∀ a, t.staging.read a = 0#8) ∧ t.maint.reply = .none ∧ t.maint.storing = false ∧ t.maint.line = false ∧
    t.maint.sampled = false ∧ t.maint.lineDue = none

/-- A posted entry but for its progress: in flight or not, noted as a predecessor or not. -/
def still (p : Posted) : Posted := { p with inFlight := false, ahead := false }

/-- Two posted queues hold the same entries in the same order, but for their progress. -/
def samePosted (l m : List Posted) : Prop := l.map still = m.map still

/-! ### What an event does to its zone and to the log -/

/-- The log after some appends, one after another, at the current seconds. -/
def logged (s : State) (es : List LogEntry) : EventLog := es.foldl (EventLog.add s.time.seconds) s.log

/-- The records of the event that takes zone `z` from `s` to `u`. -/
def zoneSaid (s u : State) (z : Fin 4) : List LogEntry :=
  zoneRecords z (s.zones.get z).causes (u.zones.get z).causes (s.zones.get z).state (u.zones.get z).state

/-- A notice that a change of zone `z` from `old` to `new` gives (R15, R19); the fifth of R19 is the setting of the lines at the end of the
step (log 20). -/
def noticeDue (z : Fin 4) (old new : ZoneState) (n : Notice) : Prop :=
  (n = .levelChange z new.level ∧ old.level ≠ new.level) ∨ (n = .forcingChange z ∧ old.forcing ≠ new.forcing) ∨
    (n = .sweepRequest z .apply ∧ old.forcing = false ∧ new.forcing = true) ∨
    (n = .sweepRequest z .release ∧ old.forcing = true ∧ new.forcing = false)

/-- From `s` to `u` the blocks are given the notices of zone `z`'s change of state, each once, and no other of R19's first four; their
order is free (log 8). -/
def notified (s u : State) (z : Fin 4) : Prop :=
  ∃ given : List Notice, u.agenda = s.agenda ++ given ∧ given.Nodup ∧
    ∀ n, n ∈ given ↔ noticeDue z (s.zones.get z).state (u.zones.get z).state n

/-- Two states agree on the zones but for `z`. -/
def otherZones (s u : State) (z : Fin 4) : Prop := ∀ y, y ≠ z → u.zones.get y = s.zones.get y

/-- Zone `z` after a channel's event at it (R37): `moved` where the channel's state changed, `warmed` at the end of its warm-up. The reading is the
one the channels give, and where it changes the peak and the hydrogen causes follow it (R6, R7); START clears at the end of the last
warm-up (R8); SENSOR_LOST is evaluated where a channel's state changed or START cleared (R10); the zone is settled once. An event that
changes none of these reports nothing. -/
def gasZone (s u : State) (z : Fin 4) (moved warmed : Bool) : Prop :=
  let old := s.zones.get z
  let reading := u.gasReading z
  let changed := decide (reading ≠ old.reading)
  let ends := warmed && old.causes.start && u.zoneWarm z
  let hydrogen := if changed then old.causes.hydrogen (s.cfg.zones.get z) reading else old.causes
  let lost :=
    if u.zoneReads z then false
    else if u.zoneChannels z ≠ [] ∧ (old.causes.start = false ∨ ends = true) then true
    else old.causes.sensorLost
  u.zones.get z =
    if moved || warmed || changed then
      ZoneRec.settledBy (s.cfg.zones.get z)
        { old with reading := reading, peak := if changed then maxReading old.peak reading else old.peak }
        { hydrogen with
          start := old.causes.start && !ends
          sensorLost := if moved || ends then lost else old.causes.sensorLost }
    else old

/-- A channel's event at its zone: that zone takes the report, with the notices of its change of state, and no other zone changes. -/
def gasReported (s u : State) (z : Fin 4) (moved warmed : Bool) : Prop :=
  s.otherZones u z ∧ s.gasZone u z moved warmed ∧ s.notified u z

/-- The fan proof unit's report to its zone: VENT_UNPROVEN and FAN_FAULT follow the required tachs as they now stand, by the table of R12,
and the zone is settled once, with its notices (R12, R19, R55). -/
def fanReported (s u : State) (z : Fin 4) : Prop :=
  let old := s.zones.get z
  let required := ((u.zoneTachs z).map u.tachs.get).filter TachRec.required
  s.otherZones u z ∧ s.notified u z ∧
    ∃ cs : Causes, u.zones.get z = ZoneRec.settledBy (s.cfg.zones.get z) old cs ∧
      cs = { old.causes with ventUnproven := cs.ventUnproven, fanFault := cs.fanFault } ∧
      (cs.fanFault = true ↔ ∃ r ∈ required, r.state = .failed) ∧
      ((∃ r ∈ required, r.state = .proven) ∨ required = [] → cs.ventUnproven = false) ∧
      (required ≠ [] → (∀ r ∈ required, r.state = .failed) → cs.ventUnproven = true) ∧
      (required ≠ [] → (∀ r ∈ required, r.state ≠ .proven) → (∃ r ∈ required, r.state ≠ .failed) →
        cs.ventUnproven = old.causes.ventUnproven)

/-- The required conditions of the tachs `ts` of zone `z` evaluated anew (R50, R51): each takes its own step, and where any changes the
zone takes one report (R55). -/
def requiredAnew (s u : State) (z : Fin 4) (ts : List (Fin 8)) : Prop :=
  (∀ i, u.tachs.get i = if i ∈ ts then requireStep (s.cfg.tachs.get i) (s.tachs.get i) (s.tachRequired i) else s.tachs.get i) ∧
    ((∀ i ∈ ts, s.tachRequired i = (s.tachs.get i).required) → u.zones = s.zones ∧ u.log = s.log ∧ u.agenda = s.agenda) ∧
    ((∃ i ∈ ts, s.tachRequired i ≠ (s.tachs.get i).required) → s.fanReported u z ∧ u.log = s.logged (s.zoneSaid u z))

/-- An acknowledge of zone `z` (R20 to R22): the flag clears, the peak restarts from the reading, SPILL clears where every line of the zone
is DRY, LOCKOUT is left only with no LOCKOUT-class cause, to VENT or PURGE; any other state is settled. The purge timer starts at entry into
PURGE, stops at any other change of state, and otherwise stays (R16, R17). ACKNOWLEDGED is logged first; a change of state gives its notices
(R19). -/
def acknowledged (s u : State) (z : Fin 4) : Prop :=
  let old := s.zones.get z
  let n := u.zones.get z
  s.otherZones u z ∧ n.unack = isRise old.state n.state ∧ n.peak = old.reading ∧ n.reading = old.reading ∧ n.refresh = old.refresh ∧
    n.causes = (if s.zoneDry z then { old.causes with spill := false } else old.causes) ∧
    (old.state = .lockout → n.causes.anyLockout = true → n.state = .lockout) ∧
    (old.state = .lockout → n.causes.anyLockout = false → n.causes.anyVent = true → n.state = .vent) ∧
    (old.state = .lockout → n.causes.anyLockout = false → n.causes.anyVent = false →
      n.state = .purge ∧ n.purge = Timer.start (s.cfg.zones.get z).purgeTime) ∧
    (old.state ≠ .lockout → n.state = settleState old.state n.causes) ∧
    n.purge =
      (if n.state = old.state then old.purge else if n.state = .purge then Timer.start (s.cfg.zones.get z).purgeTime else .stopped) ∧
    s.notified u z ∧ u.log = s.logged ({ kind := .acknowledged, zone := some z, subject := none, value := none } :: s.zoneSaid u z)

/-- A restart of zone `z`'s refresh timer (R11): with a period of 0 nothing happens; HOST_LOST clears if present, and the zone is
settled, with its notices (R19). -/
def refreshed (s u : State) (z : Fin 4) : Prop :=
  let old := s.zones.get z
  let period := (s.cfg.zones.get z).refreshPeriod
  s.otherZones u z ∧ s.notified u z ∧
    u.zones.get z =
      if period = 0 then old
      else if old.causes.hostLost then
        ZoneRec.settledBy (s.cfg.zones.get z) { old with refresh := .running period } { old.causes with hostLost := false }
      else { old with refresh := .running period }

/-- The observation a WATCHED write makes as it enters the posted queue (R67, R68). -/
def observed (s u : State) (watch : Option Observation) : Prop :=
  match watch with
  | none => u.zones = s.zones ∧ u.log = s.log
  | some (.acknowledge z) => s.acknowledged u z
  | some (.heartbeat z) => s.refreshed u z ∧ u.log = s.logged (s.zoneSaid u z)
  | some (.logClear seq) => u.zones = s.zones ∧ u.log = (s.logClear seq).log

/-- The record of a refusal by a window's style (R65). -/
def refusalSaid (style : Style) (z : Option (Fin 4)) (a : Addr) (v : Half) : LogEntry :=
  { kind := match style with | .report => .writeRefused | .absorb => .writeAbsorbed, zone := z, subject := some a.toNat,
    value := some v.toNat }

/-- A record about a checked cell of a zone and a value for it. -/
def cellSaid (kind : EventKind) (z : Fin 4) (a : Addr) (v : Half) : LogEntry :=
  { kind := kind, zone := some z, subject := some a.toNat, value := some v.toNat }

/-- A record of the force engine about an entry (R140, R141). -/
def forceSaid (kind : EventKind) (e : Fin 16) (f : ForceCfg) : LogEntry :=
  { kind := kind, zone := some f.zone, subject := some e.val, value := some f.forced.toNat }

/-- The records of a verdict of its own (R91 to R93). -/
def verdictSaid (a : Addr) (v : Half) (z : Fin 4) (style : Style) : Verdict → List LogEntry
  | .pass _ | .kept => []
  | .held => [cellSaid .holdEntered z a v]
  | .full => [cellSaid .holdFull z a v, refusalSaid style (some z) a v]
  | .refused => [refusalSaid style (some z) a v]

/-- What becomes of a judged write (R66, R88 to R94): `v` is the value the host wrote to cell `a`, `d` the verdict reached in `s`. Where
the restart of the refresh timer logs, it comes before or after the verdict's own records (log 8). That a passing value waits in a queue
with room, behind placements that have not yet entered, is the model's choice (log 10). -/
def verdictTaken (s u : State) (a : Addr) (v : Half) (z : Fin 4) (p : Fin 8) (style : Style) (d : Verdict) : Prop :=
  let room := s.posted.length < 8 ∧ s.waiting.filter (fun q => !q.isHoldOf a) = []
  (d.setsRequest = true → ∀ e f, s.forceOn a = some (e, f) → (u.force.get e).last = some v) ∧ s.refreshed u z ∧
    (u.log = s.logged (verdictSaid a v z style d ++ s.zoneSaid u z) ∨ u.log = s.logged (s.zoneSaid u z ++ verdictSaid a v z style d)) ∧
    match d with
    | .pass v' =>
      u.hold = s.hold.filter (fun h => h.cell != a) ∧
        (room →
          samePosted u.posted (s.posted ++ [{ addr := a, width := .w2, data := cellData v', origin := .host, checked := true,
                                               zone := some z, inFlight := false, ahead := false }]) ∧
            u.responses = s.responses ++ [{ kind := if v' = v then .done else .altered, data := none }] ∧ u.upstream = .idle) ∧
        (¬room →
          samePosted u.posted s.posted ∧ u.responses = s.responses ∧ u.upstream = .placing ∧
            u.waiting = s.waiting.filter (fun q => !q.isHoldOf a) ++
              [{ source := .host (if v' = v then .done else .altered) none, addr := a, width := .w2, data := cellData v',
                 checked := true, zone := some z }])
    | .kept =>
      samePosted u.posted s.posted ∧ u.hold = s.hold ∧ u.responses = s.responses ++ [{ kind := .held, data := none }] ∧
        u.upstream = .idle
    | .held =>
      samePosted u.posted s.posted ∧ u.responses = s.responses ++ [{ kind := .held, data := none }] ∧ u.upstream = .idle ∧
        u.hold = s.hold.filter (fun h => h.cell != a) ++
          [{ cell := a, value := v, zone := z, profile := p, origin := .host, entered := s.time.seconds,
             expiry := s.time.seconds + (s.cfg.profiles.get p).holdLimit, releasing := false }]
    | .full | .refused =>
      samePosted u.posted s.posted ∧ u.hold = s.hold ∧ u.upstream = .idle ∧
        u.responses = s.responses ++ [{ kind := match style with | .report => .refused | .absorb => .done, data := none }]

/-- What comes of the checker's lookup for a held write, from `s` to `u`, with the cell store at `c` (R83, R84, R103): a hit reaches the
verdict at that event; otherwise the lookup has become a claim, and the write awaits it. -/
def lookedUp (s u : State) (c : CellStore) (a : Addr) (v : Half) (z : Fin 4) (p : Fin 8) (style : Style) : Prop :=
  let found := c.lookup s.queued .checker a
  (∀ n, found.1 = some n → u.checker = .idle ∧ u.store.checkerClaim = c.checkerClaim ∧
    s.verdictTaken u a v z p style (s.judge a v z p (some n))) ∧
  (found.1 = none → u.checker = .awaiting a v z p style false ∧ u.store = found.2 ∧ u.upstream = s.upstream ∧
    u.responses = s.responses ∧ u.posted = s.posted ∧ u.waiting = s.waiting ∧ u.hold = s.hold ∧ u.zones = s.zones ∧
    u.force = s.force ∧ u.log = s.log ∧ u.agenda = s.agenda)

/-- The cell store after a fill read's completion (R107, R108). -/
def filled (s : State) (done : Bool) (data : Data) : CellStore :=
  if done then s.store.readDone s.queued (cellValue data) else s.store.readFault s.queued

/-- The state with the record of a fill read's completion logged: FILL_FAULT where it faulted (R108). -/
def fillSaid (s : State) (x : Transfer) (done : Bool) : State :=
  { s with
    log := if done then s.log
      else s.logged [{ kind := .fillFault, zone := (s.cfg.checkedAt x.addr).map Window.zone, subject := some x.addr.toNat, value := none }] }

/-- What the completion of a fill's read `x` does, from `s` to `u` (R103, R107, R108, R113, R117). Where it settles an abandoned claim of the
checker, the claim is gone, and a lookup held back behind it is made at this event. -/
def fillTaken (s u : State) (x : Transfer) (done : Bool) (data : Data) : Prop :=
  let c := s.filled done data
  let v := s.fillSaid x done
  let frees := ∃ k value, c.checkerClaim = some k ∧ k.abandoned = true ∧ k.stage = .settled value
  let same := u.posted = s.posted ∧ u.hold = s.hold ∧ u.responses = s.responses ∧ u.checker = s.checker ∧ u.log = v.log
  (¬frees → u.store = c ∧ same) ∧
  (frees →
    ((∀ a w z p style, s.checker ≠ .awaiting a w z p style true) → u.store = { c with checkerClaim := none } ∧ same) ∧
    ∀ a w z p style, s.checker = .awaiting a w z p style true → v.lookedUp u { c with checkerClaim := none } a w z p style)

/-- The force engine's operation waits for the delivery of the posted entry `p` to the cell of entry `e` (R137). -/
def awaitsDelivery (s : State) (p : Posted) (e : Fin 16) (f : ForceCfg) : Prop :=
  (∃ w, s.sweep = some w ∧ w.work = .delivery) ∧ s.sweepEntry = some e ∧ s.cfg.forces.get e = some f ∧ p.delivering f.cell = true

/-- A failed attempt of the force engine at entry `e`, with the cell store left as `store` (R140): counted, and the cell is looked up
afresh; the third makes the entry FAILED, logs FORCE_FAILED, sets its zone's flag, starts the retry timer and ends the work on the
entry. -/
def attemptCounted (s u : State) (store : CellStore) (e : Fin 16) (f : ForceCfg) : Prop :=
  let n := (s.force.get e).attempts + 1
  (u.force.get e).attempts = n ∧
    (n < 3 → ∃ v : State, v.store = store ∧ v.force = s.force.set e { s.force.get e with attempts := n } ∧ v.sweep = s.sweep ∧
      v.cfg = s.cfg ∧ v.zones = s.zones ∧ v.posted = s.posted ∧ v.log = s.log ∧ v.agenda = s.agenda ∧ u = v.engineLookup e f) ∧
    (3 ≤ n →
      (u.force.get e).state = .failed ∧ (u.force.get e).retry = .running 5 ∧ (u.zones.get f.zone).unack = true ∧
        u.log = s.logged [forceSaid .forceFailed e f] ∧ u.store = store ∧
        u.sweep = s.sweep.map (fun w => { w with work := .boundary, entry := e.val + 1 }) ∧ u.agenda = s.agenda ++ [.engineGo])

/-- What a force apply that reaches entry `e` cancels, from `s` to `v` (R71, R73, R112, R124, R137): the waiting host write for the cell is
withdrawn and answered HELD; the flagged posted entries for the cell that are not in flight leave the queue, and the cell store corrects
its belief by the value still queued; the hold entry for the cell leaves. The entry is APPLYING; one that was IDLE notifies the fan proof
unit and takes its last request from the first that exists of the hold entry, the withdrawn write and the newest removed posted entry.
Beside a hold entry of origin PART that is R124's order and R71's, not that of R137's list (DEDUCED, log 44). -/
def cancelled (s v : State) (e : Fin 16) (f : ForceCfg) : Prop :=
  let old := s.force.get e
  let withdrawn := s.waiting.find? (fun q => q.isHostWrite f.cell)
  let bound := fun (p : Posted) => p.checked && p.addr == f.cell && !p.inFlight
  v.posted = s.posted.filter (fun p => !bound p) ∧ v.hold = s.hold.filter (fun h => h.cell != f.cell) ∧
    v.waiting = s.waiting.filter (fun q => !q.isHostWrite f.cell && !q.isHoldOf f.cell) ∧
    v.responses = s.responses ++ (if withdrawn.isSome then [{ kind := .held, data := none }] else []) ∧
    v.upstream = (if withdrawn.isSome then .idle else s.upstream) ∧
    v.store = (if s.posted.any bound then s.store.correct v.queued f.cell (v.queued f.cell) else s.store) ∧
    v.agenda = s.agenda ++ (if old.state = .idle then [.entryIdle e] else []) ∧ v.log = s.log ∧ v.zones = s.zones ∧ v.cfg = s.cfg ∧
    v.sweep = s.sweep ∧ v.requests = s.requests ∧ v.checker = s.checker ∧ v.port = s.port ∧
    ∃ last, v.force = s.force.set e
        { old with state := .applying, attempts := 0, retry := .stopped, last := last, fromFailed := decide (old.state ≠ .idle) } ∧
      (old.state ≠ .idle → last = old.last) ∧
      (old.state = .idle →
        (∀ h, s.hold.find? (fun h => h.cell == f.cell) = some h → last = some h.value) ∧
          ((∀ h ∈ s.hold, h.cell ≠ f.cell) → ∀ q, withdrawn = some q → last = some (cellValue q.data)) ∧
          ((∀ h ∈ s.hold, h.cell ≠ f.cell) → withdrawn = none →
            (∀ before p, s.posted.filter bound = before ++ [p] → last = some (cellValue p.data)) ∧
              (s.posted.filter bound = [] → last = none)))

/-- What the outcome of the transfer `x` does at its requester (R72, R75, R103, R107, R108, R111, R137, R139, R140, R156, R173, R174). -/
def outcomeTaken (s : State) (x : Transfer) (done : Bool) (data : Data) (u : State) : Prop :=
  match x.who with
  | .transit =>
    if x.write then
      ∀ p rest, s.posted = p :: rest →
        ∃ v : State, v.posted = rest ∧ v.hold = s.hold ∧ v.responses = s.responses ∧ v.force = s.force ∧ v.sweep = s.sweep ∧
          v.log = (if done then s.log
            else s.logged [{ kind := .writeFault, zone := p.zone, subject := some p.addr.toNat,
                             value := some (lowHalf p.width p.data).toNat }]) ∧
          v.store = (if done = false ∧ p.checked = true then s.store.invalidate { s with posted := rest }.queued p.addr else s.store) ∧
          (∀ e f, s.awaitsDelivery p e f → u = v.engineLookup e f) ∧ ((∀ e f, ¬s.awaitsDelivery p e f) → u = v)
    else
      (∀ a w z, s.upstream = .reading a w z true →
        u.upstream = .idle ∧ u.posted = s.posted ∧
          u.responses = s.responses ++
            [if done then { kind := .done, data := some (w.cut data) } else { kind := .refused, data := none }] ∧
          u.log = if done then s.log
            else s.logged [{ kind := .readFault, zone := z, subject := some a.toNat, value := none }]) ∧
        ((∀ a w z, s.upstream ≠ .reading a w z true) → u.responses = s.responses ∧ u.log = s.log ∧ u.upstream = s.upstream)
  | .fill => s.fillTaken u x done data
  | .engine =>
    ∀ e f, s.sweepEntry = some e → s.cfg.forces.get e = some f →
      u.posted = s.posted ∧ u.hold = s.hold ∧ u.responses = s.responses ∧
        (done = true → (u.force.get e).state = .active ∧ (u.force.get e).attempts = 0 ∧ u.store = s.store ∧
          u.log = if (s.force.get e).fromFailed then s.logged [forceSaid .forceRecovered e f] else s.log) ∧
        (done = false → s.attemptCounted u (s.store.invalidate s.queued f.cell) e f)
  | .report =>
    u.posted = s.posted ∧ u.hold = s.hold ∧ u.responses = s.responses ∧
      ∀ i snapshot off, s.writer = .writing i snapshot off →
        (done = true → u.log = { s.log with latch := false } ∧
          (off + 4 < (Item.at i).size → u.writer = .writing i snapshot (off + 4)) ∧
          ((Item.at i).size ≤ off + 4 → u.writer = { s with writer := .idle }.chooseItem.writer)) ∧
        (done = false → (s.mode = .run → u.toWrite i) ∧ (s.mode ≠ .run → u.writer = .idle) ∧
          u.log = if s.log.latch then s.log
            else { s.logged [{ kind := .reportFault, zone := none, subject := some x.addr.toNat, value := none }] with latch := true })

/-- Two states agree on the field inputs' records. -/
def sameField (s t : State) : Prop :=
  t.chans = s.chans ∧ t.scan = s.scan ∧ t.spills = s.spills ∧ t.tachs = s.tachs ∧ t.windowOpen = s.windowOpen

/-- Two states agree on power, mode, settings, the store, the hold levels and the two bus inputs. -/
def samePower (s t : State) : Prop :=
  t.supply = s.supply ∧ t.resetLine = s.resetLine ∧ t.mode = s.mode ∧ t.cfg = s.cfg ∧ t.nv = s.nv ∧
    t.lines.hold = s.lines.hold

end State
end Sys2Proof.Machine

namespace Sys2Proof

/-! ## Which commands may write what -/

/-- The command that is run: a frame that spells a command is that command (log 31). -/
def Instr.taken : Instr → Instr
  | .unknownCommand frame => (Machine.commandOf frame).getD (.unknownCommand frame)
  | c => c

/-- The commands of power, RESET, LOADING and the store write. -/
def Instr.isPower : Instr → Bool
  | .supplyRise _ | .brownOut | .brownOutEnd _ | .resetAssert | .resetRelease _ | .loadingEnd _ | .storeWriteComplete _ => true
  | _ => false

/-- The ticks and the pulse boundary. -/
def Instr.isTick : Instr → Bool
  | .tick1ms _ | .tick100ms | .tick1s | .pulseBoundary => true
  | _ => false

/-- The events and commands that reach a channel record (section 2, R35, R36, R38). -/
def Instr.isChannel : Instr → Bool
  | .channelSample _ _ | .warmUpExpiry _ | .testReading _ _ | .endTest _ | .commissioningLineChange => true
  | _ => false

/-- The commands of the maintenance port (R188). -/
def Instr.isMaintenance : Instr → Bool
  | .status | .readLog | .readStore | .readImage _ _ _ | .writeStage _ _ _ | .commit | .testReading _ _ | .endTest _
  | .acknowledge _ | .unknownCommand _ => true
  | _ => false

end Sys2Proof
end

