-- ==== Sys2Proof/Certificates/Slice0/Obligations.lean ====
section
/-!
DEFINITION. The statements about the part, for the provers. Each cites the rules of spec/ it formalises.
Where a command's own effect is followed by the end of its step, the statement gives the state before that end, `u`, and the outcome
`u.finish`; what the end leaves alone is stated of the outcome itself.
-/
open Sys2Proof Sys2Proof.Machine

/-! ## The queue and the step -/

/-- A step runs the command at the front of the queue, on the state with the queue's rest; on an empty queue the part idles (the model's
choice, log 2). -/
def Obligations.StepRunsFront : Prop :=
  (∀ (s : State) (c : Instr) (rest : List Instr), s.pending = c :: rest → step s = exec c { s with pending := rest }) ∧
    ∀ s : State, s.pending = [] → step s = .next s

/-- Every command is answered by a next state, and leaves the queue of waiting commands as it is. -/
def Obligations.CommandsAnswer : Prop := ∀ (c : Instr) (s : State), ∃ t : State, exec c s = .next t ∧ t.pending = s.pending

/-- An event whose cause is not there changes nothing (the model's choice, log 4, log 5, log 6, log 13). -/
def Obligations.NotDueChangesNothing : Prop :=
  ∀ s : State,
    (s.supply ≠ .on → exec .brownOut s = .next s) ∧
    (∀ p, s.supply ≠ .low → exec (.brownOutEnd p) s = .next s) ∧
    (s.resetLine = true → exec .resetAssert s = .next s) ∧
    (∀ p, s.resetLine = false → exec (.resetRelease p) s = .next s) ∧
    (∀ r, s.mode ≠ .loading → exec (.loadingEnd r) s = .next s) ∧
    (∀ r, s.maint.storing = false → exec (.storeWriteComplete r) s = .next s) ∧
    (s.time.tenthDue = false → exec .tick100ms s = .next s) ∧
    (s.time.secondDue = false → exec .tick1s s = .next s) ∧
    (s.time.pulseDue = false → exec .pulseBoundary s = .next s) ∧
    (∀ c code, s.scan.head? ≠ some c → exec (.channelSample c code) s = .next s) ∧
    (∀ c, (s.chans.get c).timer ≠ .due → exec (.warmUpExpiry c) s = .next s) ∧
    (∀ l h, (s.spills.get l).due = false → exec (.spillSample l h) s = .next s) ∧
    (∀ i, s.windowOpen = false → exec (.tachPulse i) s = .next s) ∧
    (∀ i, (s.tachs.get i).due = false → exec (.windowEvent i) s = .next s) ∧
    (∀ i, (s.tachs.get i).timer ≠ .due → exec (.delayTimerExpiry i) s = .next s) ∧
    (∀ z, (s.zones.get z).refresh ≠ .due → exec (.refreshExpiry z) s = .next s) ∧
    (∀ z, (s.zones.get z).purge ≠ .due → exec (.purgeExpiry z) s = .next s) ∧
    (∀ w, s.store.claimOf w = none → exec (.claimSettlement w) s = .next s) ∧
    (s.waiting = [] ∨ 8 ≤ s.posted.length → exec .placementEnters s = .next s) ∧
    ((∀ e ∈ s.hold, s.time.seconds < e.expiry) → exec .holdExpiry s = .next s) ∧
    (∀ e, (s.force.get e).retry ≠ .due → exec (.retryTimerExpiry e) s = .next s) ∧
    (s.port.timeout ≠ .due → exec .downstreamTimeout s = .next s) ∧
    (s.port.settleDue = false → exec .settlingEnd s = .next s) ∧
    (s.port.aging ≠ .due → exec .reportAgingExpiry s = .next s) ∧
    (s.maint.lineDue = none → exec .commissioningLineChange s = .next s)

/-! ## Invariants -/

/-- Every step keeps the limits of the queues, the log and the cell store (R69, R101, R118, R134, R176). -/
def Obligations.StepKeepsSound : Prop := ∀ s t : State, s.sound → step s = .next t → t.sound

/-- Every step leaves the output lines as the zones, cells and settings call for: the safe actions in a hazard, and whenever the part
does not run (R160 to R169). A signal line whose pattern changes in a step takes at once the level the new pattern has at the current phase
(R164). What a line is to show in RUN is by the tables of its group's function: the lamps, the sounders, the cell it follows, active for a
valid value other than 0 and at its hold level where the cell is invalid, and the fixed levels (R163, R165 to R168). -/
def Obligations.StepKeepsLines : Prop :=
  (∀ s t : State, s.linesSafe → step s = .next t →
    t.linesSafe ∧
      (t.running → ∀ i, (t.lines.signals.get i).pattern ≠ (s.lines.signals.get i).pattern →
        (t.lines.signals.get i).level = (t.lines.signals.get i).pattern.level t.time.phase)) ∧
  ∀ (s : State) (i : Fin 8) (g : Fin 2) (z : Fin 4), g.val = i.val / 4 → z.val = i.val % 4 →
    let zone := s.zones.get z
    let shows := s.linePattern i
    let a := s.cfg.cellAddrs.get i
    (s.cfg.groups.get g = .lamps →
      (zone.state = .clear → shows = .steady false) ∧ (zone.state = .alert ∨ zone.state = .purge → shows = .steady true) ∧
        (zone.state = .vent → shows = if zone.unack then .slow else .steady true) ∧
        (zone.state = .lockout → shows = if zone.unack then .fast else .slow)) ∧
    (s.cfg.groups.get g = .sounders →
      (zone.state = .vent ∨ zone.state = .lockout → shows = .steady zone.unack) ∧
        (zone.state = .clear ∨ zone.state = .alert ∨ zone.state = .purge → shows = .steady false)) ∧
    (s.cfg.groups.get g = .cell → s.store.sound →
      (∀ (line : Fin 16) (k : Fin 4), (s.store.lines.get line).tag = some (groupOf a) → k.val = a.toNat / 2 % 4 →
        let cell := (s.store.lines.get line).cells.get k
        shows = .steady (if cell.valid then decide (cell.value ≠ 0#16) else s.lines.hold.get i)) ∧
        ((∀ line, (s.store.lines.get line).tag ≠ some (groupOf a)) → shows = .steady (s.lines.hold.get i))) ∧
    (s.cfg.groups.get g = .fixed → shows = .steady (s.cfg.fixedLevels.get i))

/-- Every step keeps the two buffers in canonical form (log 36). -/
def Obligations.StepKeepsBuffers : Prop := ∀ s t : State, s.buffersSound → step s = .next t → t.buffersSound

/-- Every step leaves each zone's reading as its channels give it: the greatest of the test concentrations of its channels in TEST and of the
means, rounded down, of the filters of its LIVE channels that hold a sample; absent where there is none (R6, R26, R29, R37). -/
def Obligations.StepKeepsReadings : Prop :=
  (∀ s t : State, s.readingsFollow → step s = .next t → t.readingsFollow) ∧
  ∀ (s : State) (z : Fin 4),
    let gives := fun (c : Fin 8) (v : Nat) =>
      let r := s.chans.get c
      (s.cfg.channels.get c).zone = some z ∧
        (r.test = some v ∨ (r.test = none ∧ r.sample = .live ∧ r.filter ≠ [] ∧ v = r.filter.sum / r.filter.length))
    (s.gasReading z = none ↔ ∀ c v, ¬gives c v) ∧
      ∀ v, s.gasReading z = some v ↔ (∃ c, gives c v) ∧ ∀ c w, gives c w → w ≤ v

/-- Every step keeps the settings in force within what the image checks ask, check by check: windows, report base, profiles, zones,
channels, spill lines, tachs, force entries, pins and CELL lines (R4, R25, R41, R47, R61, R82, R102, R131, R163, R183). -/
def Obligations.StepKeepsSettings : Prop := ∀ s t : State, s.settingsChecked → step s = .next t → t.settingsChecked

/-- Every step ends with no notice left between blocks and no request left that the port could take (R58, log 7). -/
def Obligations.StepKeepsQuiet : Prop := ∀ s t : State, s.quiet → step s = .next t → t.quiet

/-- The invariants hold right after reset. -/
def Obligations.ResetMeetsInvariants : Prop :=
  State.reset.sound ∧ State.reset.linesSafe ∧ State.reset.buffersSound ∧ State.reset.readingsFollow ∧
    State.reset.settingsChecked ∧ State.reset.quiet ∧ State.reset.heldInVent

/-! ## Reset, restarts and power -/

/-- The state after reset holds what the rules give it: no scan stands (R27), the first tach window has not opened (R56), no claim stands
(R116), and the writer is to begin with the header (R173) (R1, R23, R38, R45, R79, R98, R128, R147, R158, R169, R181, R184, R187). That the
counts of ticks begin at 0, that the commissioning line is held released before its first sample, and that a channel is in WARMUP before
RUN begins are the model's choice (logs 4, 17 and 39). -/
def Obligations.ResetState : Prop := State.reset.poweredUp ∧ State.reset.pending = []

/-- The rise of the supply (with the supply on, a fall and a rise: the model's choice, log 13), the end of a brown-out and the release of
RESET begin a power-up restart: every block at its power-up values, with no scan (R27), no tach window (R56), no claim (R116) and no item
started (R173) from before it, the hold levels sampled from the pins, the non-volatile store as it was, or torn where a store write was cut
off, and no response given to what is abandoned (R98, R163, R184, R186). The model's choices: the counts of ticks begin at 0 (log 4), a
request presented while the part was dark still waits on the host's side (log 11), the responses already given are kept, a record of the
model's (log 12), the commissioning line is not yet sampled and is held released until it is (log 17), and a channel stands in WARMUP before
RUN begins (log 39). -/
def Obligations.PowerUpRestart : Prop :=
  ∀ (s : State) (pins : BitVec 8) (c : Instr),
    (c = .supplyRise pins ∧ s.resetLine = false) ∨ (c = .brownOutEnd pins ∧ s.supply = .low ∧ s.resetLine = false) ∨
      (c = .resetRelease pins ∧ s.resetLine = true ∧ s.supply = .on) →
    ∃ t : State, exec c s = .next t ∧ t.poweredUp ∧ (∀ i, t.lines.hold.get i = pins.getLsb i) ∧ (s.maint.storing = false → t.nv = s.nv) ∧
      (s.maint.storing = true → ∀ r, t.nv.check r = some 1) ∧
      t.busReset = s.busReset ∧ t.hostWaiting = s.hostWaiting ∧ t.responses = s.responses ∧ t.maint.line = false ∧ t.maint.sampled = false

/-- At a brown-out and at the assertion of RESET, and while either lasts, the part holds no state: the log, the staging buffer, every queue
and every record are lost, every fail-safe line is released, the signal lines rest at their hold levels, and a store write in progress
leaves the store torn (R186). The model's choices: which of the two holds the part where a supply event meets RESET, or a release of RESET
meets a low supply (log 13), that the lost record of a channel reads as WARMUP (log 39), and that the responses already given are kept, a
record of the model's (log 12). -/
def Obligations.PowerBreaks : Prop :=
  ∀ (s : State) (pins : BitVec 8) (c : Instr),
    (c = .brownOut ∧ s.supply = .on) ∨ (c = .resetAssert ∧ s.resetLine = false) ∨ (c = .supplyRise pins ∧ s.resetLine = true) ∨
      (c = .brownOutEnd pins ∧ s.supply = .low ∧ s.resetLine = true) ∨
      (c = .resetRelease pins ∧ s.resetLine = true ∧ s.supply ≠ .on) →
    ∃ t : State, exec c s = .next t ∧ t.alive = false ∧ t.time.running = false ∧ t.linesReleased ∧ t.lines.hold = s.lines.hold ∧
      t.log.records = [] ∧ (∀ a, t.staging.read a = 0#8) ∧ t.posted = [] ∧ t.waiting = [] ∧ t.hold = [] ∧
      (∀ z, t.zones.get z = ZoneRec.initial) ∧ (∀ c, t.chans.get c = ChanRec.initial false) ∧ t.scan = [] ∧
      (∀ l, t.spills.get l = SpillRec.initial) ∧ (∀ i, t.tachs.get i = TachRec.initial) ∧ t.windowOpen = false ∧
      (∀ e, t.force.get e = ForceRec.initial) ∧ t.sweep = none ∧ t.requests = [] ∧ t.cfg = Settings.unset ∧
      (∀ i, t.store.lines.get i = Line.empty) ∧ t.store.lru = indices 16 ∧ t.store.fill = none ∧ t.store.list = [] ∧ t.store.checkerClaim = none ∧
      t.store.engineClaim = none ∧ t.checker = .idle ∧ t.upstream = .idle ∧ t.port = Downstream.initial ∧ t.writer = .idle ∧
      t.lastItem = none ∧ (∀ i, t.marks.get i = false) ∧ t.agenda = [] ∧ t.maint.reply = .none ∧
      t.maint.storing = false ∧ t.nv.image = s.nv.image ∧
      (s.maint.storing = false → t.nv = s.nv) ∧ (s.maint.storing = true → ∀ r, t.nv.check r = some 1) ∧
      t.responses = s.responses

/-- The completion of the store write begins a commit restart: a power-up restart that keeps the time base, the log, the warm flags, the
hold levels and the commissioning line, counts itself and logs RESTART with value 2. No scan and no notice stands over from before it, no
tach window is open, no item is marked and the writer is to begin with the header (R27, R56, R173). The store holds the staging buffer, or
fails its check where it reads back wrong (R38, R181, R185, R192). The model's choices: until RUN begins a channel that keeps its warm flag
stands in WARMUP (log 39), a request that waits on the host's side still waits (log 11), and the responses already given are kept (log 12).
-/
def Obligations.CommitRestart : Prop :=
  ∀ (s : State) (readBack : Bool), s.alive = true → s.maint.storing = true →
    ∃ t : State, exec (.storeWriteComplete readBack) s = .next t ∧ t.alive = true ∧ t.mode = .loading ∧ t.cfg = Settings.unset ∧
      t.time = s.time ∧ t.lines.hold = s.lines.hold ∧ t.linesReleased ∧
      (∀ c, t.chans.get c = ChanRec.initial (s.chans.get c).warm) ∧ (∀ z, t.zones.get z = ZoneRec.initial) ∧
      (∀ l, t.spills.get l = SpillRec.initial) ∧ (∀ i, t.tachs.get i = TachRec.initial) ∧
      (∀ e, t.force.get e = ForceRec.initial) ∧ t.upstream = .idle ∧ t.posted = [] ∧ t.waiting = [] ∧ t.hold = [] ∧
      t.checker = .idle ∧ t.store = CellStore.initial ∧ t.sweep = none ∧ t.requests = [] ∧ t.port = Downstream.initial ∧
      t.scan = [] ∧ t.windowOpen = false ∧ t.agenda = [] ∧ (∀ i, t.marks.get i = false) ∧ t.writer = .idle ∧ t.lastItem = none ∧
      (∀ a, t.staging.read a = 0#8) ∧ t.maint.storing = false ∧ t.maint.reply = .none ∧
      t.maint.line = s.maint.line ∧ t.maint.sampled = s.maint.sampled ∧ t.hostWaiting = s.hostWaiting ∧ t.responses = s.responses ∧
      (∃ r, t.log.records = (if 32 ≤ s.log.records.length then s.log.records.drop 1 else s.log.records) ++ [r] ∧
        r.seq = s.log.nextSeq ∧ r.kind = .restart ∧ r.zone = none ∧ r.subject = none ∧ r.value = some 2 ∧
        r.time = s.time.seconds) ∧
      t.log.nextSeq = s.log.nextSeq + 1#16 ∧ t.log.commitCount = min 65535 (s.log.commitCount + 1) ∧
      t.log.lastClear = s.log.lastClear ∧ t.log.clearedThrough = s.log.clearedThrough ∧ t.log.latch = false ∧
      (readBack = true → t.nv = { image := s.staging, torn := none }) ∧ (readBack = false → ∀ r, t.nv.check r = some 1)

/-- LOADING ends in RUN where the image passes every check: each block takes its settings, every item is due to be written, a writer
that has started none begins with the header (R173), the channels that need no warm-up are LIVE, START stands in the zones whose
channels are not all warm and in no other, and an apply sweep is requested for each zone in zone order, with no other notice given. A
zone whose channels are all warm, or which has none, goes to PURGE as START clears, its purge timer started, its flag still set: its
channels are LIVE, so SENSOR_LOST does not set. CHANNEL_LIVE is logged for each channel that is LIVE, then the records of each such
zone; their order is the model's choice (log 19). The cell store holds the pinned groups in the order the image first names them, from
line 0 up, with a prefill from cell 0 requested for each. The settings are those the image lays out, field by field, and each channel's
record is as R30 and R38 have it (R8, R10, R16, R23, R30, R38, R61, R102, R136, R173, R175, R182, R184). An unused channel's sample
state is the model's choice (log 39). -/
def Obligations.LoadingEndsInRun : Prop :=
  ∀ (s : State) (readable : Bool), s.alive = true → s.mode = .loading → s.nv.check readable = none →
    ∃ u : State, exec (.loadingEnd readable) s = .next u.finish ∧ u.mode = .run ∧ u.cfg = Settings.ofImage s.nv.image ∧
      u.finish.mode = .run ∧ u.finish.cfg = u.cfg ∧ u.finish.chans = u.chans ∧ (∀ i, u.toWrite i) ∧
      u.cfg.laidOut s.nv.image ∧
      (∀ c, u.chans.get c = State.chanAtRun (u.cfg.channels.get c) (s.chans.get c)) ∧
      (∀ c,
        let cfg := u.cfg.channels.get c
        let kept := (s.chans.get c).warm
        let new := u.chans.get c
        new.test = none ∧ new.filter = [] ∧ new.bad = 0 ∧ new.good = 0 ∧ new.raw = none ∧
          (cfg.zone = none → new.warm = false ∧ new.timer = .stopped ∧ new.sample = .warmup) ∧
          (cfg.zone ≠ none → kept = true ∨ cfg.warmUp = 0 → new.sample = .live ∧ new.warm = true ∧ new.timer = .stopped) ∧
          (cfg.zone ≠ none → kept = false → cfg.warmUp ≠ 0 →
            new.sample = .warmup ∧ new.warm = false ∧ new.timer = .running cfg.warmUp)) ∧
      (∀ z, (u.zones.get z).refresh = Timer.start (u.cfg.zones.get z).refreshPeriod) ∧
      ((∀ z, s.zones.get z = ZoneRec.initial) →
        ∀ z, (u.zones.get z).causes.start = !u.zoneWarm z ∧
          (u.zoneWarm z = false → u.zones.get z = { ZoneRec.initial with refresh := (u.zones.get z).refresh }) ∧
          (u.zoneWarm z = true → u.zones.get z =
            { ZoneRec.initial with state := .purge, causes := Causes.empty, purge := Timer.start (u.cfg.zones.get z).purgeTime,
                                   refresh := (u.zones.get z).refresh })) ∧
      u.log = s.logged
        (((indices 8).filter (fun c => decide ((u.chans.get c).sample = .live))).map (fun c =>
            { kind := .channelLive, zone := (u.cfg.channels.get c).zone, subject := some c.val, value := none }) ++
          (indices 4).flatMap (fun z => s.zoneSaid u z)) ∧
      (s.writer = .idle → s.lastItem = none →
        ∃ snapshot, u.writer = .writing itemHeader snapshot 0 ∧ u.lastItem = some itemHeader) ∧
      ((∀ z, s.zones.get z = ZoneRec.initial) → u.agenda = s.agenda ++ (indices 4).map (fun z => .sweepRequest z .apply)) ∧
      let groups := (u.cfg.pins.map groupOf).eraseDups
      groups.length ≤ 8 ∧
        u.store = CellStore.settleFills u.queued
          { CellStore.initial with
            lines := Tab.ofFn (fun i => match groups[i.val]? with
              | some g => { Line.empty with tag := some g, pinned := true }
              | none => Line.empty)
            list := groups.map (fun g => { group := g, start := 0, who := .nobody }) }

/-- LOADING ends in FALLBACK where a check fails: no settings apply, every zone is in VENT by CONFIG alone (the zones stand as a
restart leaves them), CONFIG_FALLBACK carries the
check code, and every fail-safe line stays released. A store that cannot be read or was cut off fails check 1; any other is checked by its
image. Outside
RUN every step leaves every zone in VENT by START or CONFIG and no settings in force (R14, R23, R169, R183, R184, R186). -/
def Obligations.LoadingEndsInFallback : Prop :=
  (∀ (s : State) (readable : Bool) (code : Nat), s.alive = true → s.mode = .loading → s.nv.check readable = some code →
    ∃ u : State, exec (.loadingEnd readable) s = .next u.finish ∧ u.mode = .fallback ∧ u.cfg = Settings.unset ∧
      u.finish.mode = .fallback ∧ u.finish.linesReleased ∧
      (∀ z, (u.zones.get z).causes = { Causes.empty with config := true }) ∧
      ((∀ z, s.zones.get z = ZoneRec.initial) →
        ∀ z, u.zones.get z = { ZoneRec.initial with causes := { Causes.empty with config := true } } ∧
          (u.zones.get z).state = .vent) ∧
      (∃ r, u.log.records.getLast? = some r ∧ r.kind = .configFallback ∧ r.zone = none ∧ r.subject = none ∧
        r.value = some code ∧ r.time = s.time.seconds) ∧
      s.samePath u) ∧
  (∀ (nv : NvStore) (readable : Bool), readable = false ∨ nv.torn.isSome = true → nv.check readable = some 1) ∧
  (∀ nv : NvStore, nv.torn = none → nv.check true = nv.image.imageCheck) ∧
  ∀ s t : State, s.heldInVent → step s = .next t → t.heldInVent

/-! ## Time -/

/-- A timer of n units, started, expires at the n-th tick and not before (R2). -/
def Obligations.TimerExpiresAtItsCount : Prop :=
  ∀ n k : Nat, 0 < n →
    (k < n → Timer.ticks k (Timer.start n) = .running (n - k)) ∧ Timer.ticks n (Timer.start n) = .due

/-- The 1 ms tick is counted, makes the 100 ms tick due at every tenth, raises the pulse phase, counts the port's timers, makes SETTLING due
to end and samples the commissioning line. The 100 ms tick is counted, makes the 1 s tick due at every tenth, and in RUN begins a converter
scan of the used channels in ascending number, samples every used spill line and counts the refresh timers. Neither changes anything
else. A pulse boundary sets every signal line to the level its pattern has at the phase, and leaves the other lines and the other blocks
(R1, R11, R27, R42, R153 to R155, R164, R189). The slow and the fast pattern are active at the phases R164 gives. That the ticks of one
instant are commands one after another, that a due tick left untaken until the next is lost, and that the phase wraps by itself at 1000 are
the model's choice (log 4), as are the samples and boundaries made due for commands of their own (log 6), the first sample that is no
change, and a pending change that the line takes back (log 17). -/
def Obligations.ShortTicks : Prop :=
  (∀ (s : State) (level : Bool), s.time.running = true →
     exec (.tick1ms level) s = .next
       { s with
         time := { s.time with shortTicks := if s.time.shortTicks + 1 < 10 then s.time.shortTicks + 1 else 0,
                               tenthDue := s.time.tenthDue || decide (10 ≤ s.time.shortTicks + 1),
                               phase := (s.time.phase + 1) % 1000,
                               pulseDue := s.time.pulseDue || decide ((s.time.phase + 1) % 1000 % 125 = 0) }
         maint :=
           if s.maint.sampled then { s.maint with lineDue := if s.maint.line = level then none else some level }
           else { s.maint with line := level, sampled := true }
         port := { s.port with timeout := s.port.timeout.tick, aging := s.port.aging.tick,
                               settleDue := s.port.settleDue || decide (s.port.state = .settling) } }) ∧
  (∀ s : State, s.time.running = true → s.time.tenthDue = true →
     let time : TimeBase :=
       { s.time with tenthDue := false, tenths := if s.time.tenths + 1 < 10 then s.time.tenths + 1 else 0,
                     secondDue := s.time.secondDue || decide (10 ≤ s.time.tenths + 1) }
     (s.mode = .run →
       exec .tick100ms s = .next
         { s with
           time := time
           scan := (indices 8).filter (fun c => (s.cfg.channels.get c).zone.isSome)
           spills := s.spills.mapIdx (fun l r => if (s.cfg.spills.get l).zone.isSome then { r with due := true } else r)
           zones := s.zones.map (fun r => { r with refresh := r.refresh.tick }) }) ∧
     (s.mode ≠ .run → exec .tick100ms s = .next { s with time := time })) ∧
  (∀ s : State, s.time.pulseDue = true →
     ∃ t : State, exec .pulseBoundary s = .next t ∧ t.time = { s.time with pulseDue := false } ∧
       (∀ i, t.lines.signals.get i =
         { s.lines.signals.get i with level := (s.lines.signals.get i).pattern.level s.time.phase }) ∧
       t = { s with time := t.time, lines := { s.lines with signals := t.lines.signals } }) ∧
  (∀ (b : Bool) (phase : Nat), (Pattern.steady b).level phase = b) ∧
  ∀ phase : Nat, phase < 1000 →
    (Pattern.slow.level phase = true ↔ phase < 500) ∧
      (Pattern.fast.level phase = true ↔
        phase < 125 ∨ (250 ≤ phase ∧ phase < 375) ∨ (500 ≤ phase ∧ phase < 625) ∨ (750 ≤ phase ∧ phase < 875))

/-- The 1 s tick raises the seconds and returns the pulse phase to 0. In RUN it counts the warm-up, purge, delay and retry timers, opens
or closes the tach windows, and marks the header, the channel and tach records and, while the hold queue is not empty, its mirror (R17,
R30, R48, R49, R130, R141, R164, R170). It is due from every tenth 100 ms tick, which is itself due from a 1 ms tick, so the 1 ms and 100 ms
timers have counted at that tick (R1); that it is taken by a command of its own is the model's choice (log 4), as are the windows and
boundaries made due (log 6). -/
def Obligations.Tick1s : Prop :=
  ∀ s : State, s.time.running = true → s.time.secondDue = true →
    let time : TimeBase := { s.time with secondDue := false, seconds := s.time.seconds + 1, phase := 0, pulseDue := true }
    (s.mode ≠ .run → exec .tick1s s = .next { s with time := time }) ∧
    (s.mode = .run →
      ∃ u : State, exec .tick1s s = .next u.finish ∧
        u.finish.time = time ∧
        (∀ c, u.finish.chans.get c = { s.chans.get c with timer := (s.chans.get c).timer.tick }) ∧
        u.finish.windowOpen = true ∧ (∀ i, (u.finish.tachs.get i).due = ((s.tachs.get i).due || s.windowOpen)) ∧
        (∀ z, u.zones.get z = { s.zones.get z with purge := (s.zones.get z).purge.tick }) ∧
        (∀ i, (u.tachs.get i).timer = (s.tachs.get i).timer.tick) ∧
        (∀ e, u.force.get e = { s.force.get e with retry := (s.force.get e).retry.tick }) ∧
        u.toWrite itemHeader ∧ (∀ c, u.toWrite (itemChannel c)) ∧ (∀ i, u.toWrite (itemTach i)) ∧
        (∀ z, (s.zones.get z).purge.active = true → u.toWrite (itemZone z)) ∧ (s.hold ≠ [] → u.toWrite itemHold) ∧
        u.hold = s.hold ∧ u.posted = s.posted ∧ u.log = s.log)

/-! ## Zones -/

/-- Each hydrogen cause after a reading change, by its own threshold and the release point below it (R7). -/
def Obligations.HydrogenTable : Prop :=
  ∀ (cs : Causes) (cfg : ZoneCfg) (r : Nat),
    let each := fun (threshold : Nat) (before after : Bool) =>
      (threshold ≤ r → after = true) ∧ (threshold - cfg.hysteresis ≤ r → r < threshold → after = before) ∧
        (r < threshold - cfg.hysteresis → after = false)
    let seen := cs.hydrogen cfg (some r)
    let gone := cs.hydrogen cfg none
    each cfg.alert cs.h2Alert seen.h2Alert ∧ each cfg.vent cs.h2Vent seen.h2Vent ∧ each cfg.high cs.h2High seen.h2High ∧
      gone.h2Alert = false ∧ gone.h2Vent = false ∧ gone.h2High = false

/-- One zone event: the causes are those given, the state is settled once by the first case of R16 that holds, the flag sets at a cause
that sets and at a rise, the purge timer starts at entry into PURGE, other zones stay. CAUSE_SET and CAUSE_CLEAR are logged for the
causes that change and ZONE_STATE for a change of state (R5, R16 to R18; the order among an event's records is the model's, log 19). -/
def Obligations.ZoneEventSettles : Prop :=
  ∀ (s : State) (z : Fin 4) (r : ZoneRec) (cs : Causes),
    let u := s.zoneEvent z r cs
    let n := u.zones.get z
    n.causes = cs ∧ n.reading = r.reading ∧ n.peak = r.peak ∧ n.refresh = r.refresh ∧
      (cs.anyLockout = true → n.state = .lockout) ∧
      (cs.anyLockout = false → r.state = .lockout → n.state = .lockout) ∧
      (cs.anyLockout = false → r.state ≠ .lockout → cs.anyVent = true → n.state = .vent) ∧
      (cs.anyLockout = false → cs.anyVent = false → r.state = .vent → n.state = .purge) ∧
      (cs.anyLockout = false → cs.anyVent = false → r.state = .purge → n.state = .purge) ∧
      (cs.anyLockout = false → cs.anyVent = false → (r.state = .clear ∨ r.state = .alert) →
        n.state = if cs.h2Alert then .alert else .clear) ∧
      n.unack = (r.unack || Causes.anySet (s.zones.get z).causes cs || isRise r.state n.state) ∧
      (n.state = r.state → n.purge = r.purge) ∧
      (n.state ≠ r.state → n.state = .purge → n.purge = Timer.start (s.cfg.zones.get z).purgeTime) ∧
      (n.state ≠ r.state → n.state ≠ .purge → n.purge = .stopped) ∧
      (n.state ≠ r.state → ∃ e, u.log.records.getLast? = some e ∧ e.kind = .zoneState ∧ e.zone = some z ∧
        e.subject = some r.state.code ∧ e.value = some n.state.code) ∧
      u.log = s.logged (zoneRecords z (s.zones.get z).causes cs r.state n.state) ∧
      (∀ y, y ≠ z → u.zones.get y = s.zones.get y) ∧ s.samePath u ∧ s.sameField u

/-- A change of a zone's state gives its notices: a level change where the level moves, a forcing change and an apply or release sweep
request where the zone enters or leaves the forcing states, each once, and no other of R19's first four; so at every zone event and
acknowledge, and at the purge timer's change of state. R19's fifth notice, the state change to the output line unit at every change, stands
as no entry of the agenda: the lines are set at the end of the step, after every notice (DEDUCED, log 20). The state fixes the level and
whether it is forcing (R15, R19). -/
def Obligations.ZoneMoveNotices : Prop :=
  (∀ (s : State) (z : Fin 4) (new : ZoneState), (s.zones.get z).state ≠ new →
     let old := (s.zones.get z).state
     ∃ given, (s.zoneMove z new).agenda = s.agenda ++ given ∧
       ∀ n, n ∈ given ↔
         (n = .levelChange z new.level ∧ old.level ≠ new.level) ∨ (n = .forcingChange z ∧ old.forcing ≠ new.forcing) ∨
           (n = .sweepRequest z .apply ∧ old.forcing = false ∧ new.forcing = true) ∨
           (n = .sweepRequest z .release ∧ old.forcing = true ∧ new.forcing = false)) ∧
  (∀ (s : State) (z : Fin 4) (r : ZoneRec) (cs : Causes), r.state = (s.zones.get z).state → s.notified (s.zoneEvent z r cs) z) ∧
  (∀ (s : State) (z : Fin 4), s.notified (s.zoneAcknowledge z) z) ∧
  (∀ (s : State) (z : Fin 4) (new : ZoneState), s.notified (s.zoneMove z new) z) ∧
  (ZoneState.clear.level = 0 ∧ ZoneState.clear.forcing = false) ∧ (ZoneState.alert.level = 1 ∧ ZoneState.alert.forcing = false) ∧
    (ZoneState.vent.level = 2 ∧ ZoneState.vent.forcing = true) ∧ (ZoneState.purge.level = 2 ∧ ZoneState.purge.forcing = true) ∧
    (ZoneState.lockout.level = 3 ∧ ZoneState.lockout.forcing = true) ∧
    ∀ (s : State) (z : Fin 4), s.zoneLevel z = (s.zones.get z).state.level

/-- An acknowledge through the maintenance port, from the tool with the line asserted: the zone takes it, and no other, and the reply is
OK. The flag clears, the peak restarts from the reading, SPILL clears where every line of the zone is DRY, LOCKOUT is left only with no
LOCKOUT-class cause, to VENT or PURGE; the purge timer starts at entry into PURGE, stops at any other change of state and otherwise stays;
ACKNOWLEDGED is logged, then CAUSE_CLEAR and ZONE_STATE, and a change of state gives its notices (R16, R17, R19 to R22, R188, R191). -/
def Obligations.AcknowledgeZone : Prop :=
  ∀ (s : State) (zone : Byte), s.served → s.maint.line = true → zone.toNat ≤ 3 →
    ∃ u : State, exec (.acknowledge zone) s = .next u.finish ∧ u.finish.maint = { s.maint with reply := .ok [] } ∧ s.samePath u ∧
      s.sameField u ∧ s.acknowledged u (zoneOf zone)

/-- The refresh timer's expiry sets HOST_LOST, leaves the timer at rest and settles the zone once; the purge timer's expiry takes a zone
in PURGE to ALERT if H2_ALERT is present and to CLEAR if not, with no cause changed and a release sweep requested. Each logs what changes
and gives the notices of the change of state (R5, R11, R16 to R19). -/
def Obligations.ZoneTimersExpire : Prop :=
  ∀ (s : State) (z : Fin 4),
    let old := s.zones.get z
    (old.refresh = .due →
      ∃ u : State, exec (.refreshExpiry z) s = .next u.finish ∧ s.samePath u ∧ s.sameField u ∧ s.otherZones u z ∧
        u.zones.get z =
          ZoneRec.settledBy (s.cfg.zones.get z) { old with refresh := .rested } { old.causes with hostLost := true } ∧
        s.notified u z ∧ u.log = s.logged (s.zoneSaid u z)) ∧
    (old.purge = .due → old.state = .purge →
      ∃ u : State, exec (.purgeExpiry z) s = .next u.finish ∧ s.samePath u ∧ s.sameField u ∧ s.otherZones u z ∧
        u.zones.get z = { old with state := if old.causes.h2Alert then .alert else .clear, purge := .stopped } ∧
        .sweepRequest z .release ∈ u.agenda ∧ s.notified u z ∧ u.log = s.logged (s.zoneSaid u z))

/-! ## Gas channels, spill lines and tachs -/

/-- A channel's sample: the raw code is stored and classified, the counts change, and the sample state and the filter follow; the scan
goes on to the next channel and no other channel changes (R27 to R29, R32 to R34). CHANNEL_LIVE or CHANNEL_FAULT is logged where the
sample makes the channel LIVE or FAULT (R40). The zone takes the channel's report: reading, peak, hydrogen causes and SENSOR_LOST, its
settled state and the notices of its change (R5 to R7, R10, R16, R19, R37). The order of the records of one zone event is the model's choice (log 19). -/
def Obligations.ChannelSample : Prop :=
  ∀ (s : State) (ch : Fin 8) (code : BitVec 12) (rest : List (Fin 8)), s.mode = .run → s.scan = ch :: rest →
    ∃ u : State, exec (.channelSample ch code) s = .next u.finish ∧ u.finish.scan = rest ∧ u.finish.chans = u.chans ∧
      (∀ c, c ≠ ch → u.chans.get c = s.chans.get c) ∧ u.spills = s.spills ∧ u.tachs = s.tachs ∧ s.samePath u ∧
      let cfg := s.cfg.channels.get ch
      let old := s.chans.get ch
      let new := u.chans.get ch
      let good := cfg.openLimit ≤ code.toNat ∧ code.toNat ≤ cfg.overLimit
      let v := min 1000 ((code.toNat - cfg.rawZero) * 100 / cfg.span)
      let own : List LogEntry :=
        if good ∧ old.sample = .fault ∧ old.good = 9 ∧ old.warm = true then
          [{ kind := .channelLive, zone := cfg.zone, subject := some ch.val, value := none }]
        else if ¬good ∧ old.sample ≠ .fault ∧ old.bad = 2 then
          [{ kind := .channelFault, zone := cfg.zone, subject := some ch.val, value := some code.toNat }]
        else []
      new.raw = some code ∧ new.test = old.test ∧ new.timer = old.timer ∧ new.warm = old.warm ∧
        (good → new.bad = 0 ∧ new.good = min 10 (old.good + 1) ∧
          (old.sample = .live → new.sample = .live ∧
            new.filter = (if old.filter.length < 4 then old.filter else old.filter.drop 1) ++ [v]) ∧
          (old.sample = .warmup → new.sample = .warmup ∧ new.filter = old.filter) ∧
          (old.sample = .fault → old.good ≠ 9 → new.sample = .fault ∧ new.filter = old.filter) ∧
          (old.sample = .fault → old.good = 9 → old.warm = true → new.sample = .live ∧ new.filter = [v]) ∧
          (old.sample = .fault → old.good = 9 → old.warm = false → new.sample = .warmup ∧ new.filter = [])) ∧
        (¬good → new.good = 0 ∧ new.bad = min 3 (old.bad + 1) ∧
          (old.sample ≠ .fault → old.bad = 2 → new.sample = .fault ∧ new.filter = []) ∧
          (old.sample = .fault ∨ old.bad ≠ 2 → new.sample = old.sample ∧ new.filter = old.filter)) ∧
        (cfg.zone = none → u.zones = s.zones ∧ u.log = s.logged own) ∧
        ∀ z, cfg.zone = some z →
          s.gasReported u z (decide (s.channelState ch ≠ u.channelState ch)) false ∧ u.log = s.logged (own ++ s.zoneSaid u z)

/-- The end of a channel's warm-up: the warm flag sets, the timer stops, and the channel becomes LIVE or FAULT by its bad count, with its
record CHANNEL_LIVE or CHANNEL_FAULT (R31, R40). The zone takes the report: START clears once every channel of the zone is warm,
SENSOR_LOST is evaluated, and the state is settled, with its notices (R8, R10, R16, R19, R37).
The order of the records of one zone event is the model's choice (log 19). -/
def Obligations.WarmUpExpires : Prop :=
  ∀ (s : State) (ch : Fin 8), (s.chans.get ch).timer = .due →
    ∃ u : State, exec (.warmUpExpiry ch) s = .next u.finish ∧ u.finish.chans = u.chans ∧
      (∀ c, c ≠ ch → u.chans.get c = s.chans.get c) ∧ u.spills = s.spills ∧ u.tachs = s.tachs ∧ s.samePath u ∧
      let zone := (s.cfg.channels.get ch).zone
      let old := s.chans.get ch
      let new := u.chans.get ch
      let own : List LogEntry :=
        if old.sample = .warmup ∧ old.bad = 0 then [{ kind := .channelLive, zone := zone, subject := some ch.val, value := none }]
        else if old.sample = .warmup then
          [{ kind := .channelFault, zone := zone, subject := some ch.val, value := old.raw.map BitVec.toNat }]
        else []
      new.warm = true ∧ new.timer = .stopped ∧ new.test = old.test ∧ new.bad = old.bad ∧ new.good = old.good ∧ new.raw = old.raw ∧
        (old.sample = .warmup → old.bad = 0 → new.sample = .live ∧ new.filter = []) ∧
        (old.sample = .warmup → old.bad ≠ 0 → new.sample = .fault ∧ new.filter = []) ∧
        (old.sample ≠ .warmup → new.sample = old.sample ∧ new.filter = old.filter) ∧
        (zone = none → u.zones = s.zones ∧ u.log = s.logged own) ∧
        ∀ z, zone = some z →
          s.gasReported u z (decide (s.channelState ch ≠ u.channelState ch)) true ∧ u.log = s.logged (own ++ s.zoneSaid u z)

/-- A spill line's sample by the table of R43; a line that turns WET logs SPILL_WET and sets SPILL in its zone, which is settled and gives
its notices, a line that turns DRY logs SPILL_DRY and reports nothing to the zone, and a sample that changes no state logs nothing (R5,
R9, R16, R19, R42, R43). -/
def Obligations.SpillSample : Prop :=
  ∀ (s : State) (l : Fin 12) (high : Bool), (s.spills.get l).due = true →
    let cfg := s.cfg.spills.get l
    let old := s.spills.get l
    let wet := decide (high = cfg.wetHigh)
    let turns := wet ≠ old.wet ∧ cfg.debounce ≤ old.run + 1
    ∃ u : State, exec (.spillSample l high) s = .next u.finish ∧ u.finish.spills = u.spills ∧ s.samePath u ∧
      u.chans = s.chans ∧ u.tachs = s.tachs ∧ (∀ m, m ≠ l → u.spills.get m = s.spills.get m) ∧
      u.spills.get l =
        { wet := if turns then wet else old.wet, run := if wet = old.wet ∨ turns then 0 else old.run + 1, last := some wet,
          due := false } ∧
      (¬turns → u.zones = s.zones ∧ u.log = s.log) ∧
      (turns → wet = false → u.zones = s.zones ∧ u.log = (s.append .spillDry cfg.zone (some l.val) none).log) ∧
      (turns → wet = true → cfg.zone = none → u.zones = s.zones ∧ u.log = (s.append .spillWet none (some l.val) none).log) ∧
      (turns → wet = true → ∀ z, cfg.zone = some z →
        s.otherZones u z ∧
          u.zones.get z =
            ZoneRec.settledBy (s.cfg.zones.get z) (s.zones.get z) { (s.zones.get z).causes with spill := true } ∧
          ((s.zones.get z).causes.spill = false → (u.zones.get z).unack = true) ∧ s.notified u z ∧
          u.log = s.logged ({ kind := .spillWet, zone := some z, subject := some l.val, value := none } :: s.zoneSaid u z))

/-- A tach pulse is counted, saturating, and changes nothing else. A window event measures the speed, clears the count, and moves the proof
state and the delay timer by the tables of R52 to R54; no other tach changes before the step's end; a tach that recovers logs FAN_PROVEN,
and a change of state is reported to its zone (R48, R51 to R55). The required condition holds while the bound entry is not IDLE and its zone
is forcing; it is evaluated anew at a forcing change of the zone and as the entry leaves or returns to IDLE. The force engine goes on only
where no forcing change waits, and no notice that an entry has left IDLE: so a zone's tachs cease to be required before its release sweep
returns an entry to IDLE, and become required one entry at a time (R50, R51). The order of the records of one zone event is the model's
choice (log 19). -/
def Obligations.TachCounts : Prop :=
  (∀ (s : State) (i : Fin 8), s.mode = .run → s.windowOpen = true →
     exec (.tachPulse i) s = .next
       { s with tachs := s.tachs.set i { s.tachs.get i with count := min 65535 ((s.tachs.get i).count + 1) } }) ∧
  (∀ (s : State) (i : Fin 8), (s.tachs.get i).due = true →
     let cfg := s.cfg.tachs.get i
     let old := s.tachs.get i
     let speed := min 65535 (old.count * 60 / cfg.pulses)
     let reaches := cfg.proofSpeed ≤ speed
     let own : List LogEntry :=
       if old.state = .failed ∧ reaches then
         [{ kind := .fanProven, zone := s.tachZone i, subject := some i.val, value := some speed }]
       else []
     ∃ u : State, exec (.windowEvent i) s = .next u.finish ∧ s.samePath u ∧ u.chans = s.chans ∧ u.spills = s.spills ∧
       (u.finish.tachs.get i).count = 0 ∧ (u.finish.tachs.get i).speed = some speed ∧ (u.finish.tachs.get i).due = false ∧
       (∀ j, j ≠ i → u.tachs.get j = s.tachs.get j) ∧
       let new := u.tachs.get i
       new.required = old.required ∧
         (old.state = .idle → new.state = .idle ∧ new.timer = old.timer) ∧
         (old.state = .proving → reaches → new.state = .proven ∧ new.timer = .stopped) ∧
         (old.state = .proving → ¬reaches → new.state = .proving ∧ new.timer = old.timer) ∧
         (old.state = .proven → reaches → new.state = .proven ∧ new.timer = .stopped) ∧
         (old.state = .proven → ¬reaches → old.timer = .stopped → new.state = .proven ∧ new.timer = Timer.start cfg.proofDelay) ∧
         (old.state = .proven → ¬reaches → old.timer ≠ .stopped → new.state = .proven ∧ new.timer = old.timer) ∧
         (old.state = .failed → reaches → new.state = .proven ∧ new.timer = .stopped) ∧
         (old.state = .failed → ¬reaches → new.state = .failed ∧ new.timer = old.timer) ∧
         (new.state = old.state ∨ s.tachZone i = none → u.zones = s.zones ∧ u.log = s.logged own) ∧
         ∀ z, s.tachZone i = some z → new.state ≠ old.state →
           s.fanReported u z ∧ u.log = s.logged (own ++ s.zoneSaid u z)) ∧
  (∀ (s : State) (i : Fin 8), s.tachRequired i = true ↔
     ∃ e f, (s.cfg.tachs.get i).binding = some e ∧ s.cfg.forces.get e = some f ∧ (s.force.get e).state ≠ .idle ∧
       (s.zones.get f.zone).state.forcing = true) ∧
  (∀ (cfg : TachCfg) (r : TachRec),
     (r.required = false → r.state = .idle →
       requireStep cfg r true = { r with required := true, state := .proving, timer := Timer.start cfg.proofDelay }) ∧
       (r.required = true → requireStep cfg r false = { r with required := false, state := .idle, timer := .stopped }) ∧
       requireStep cfg r r.required = r) ∧
  (∀ (s : State) (z : Fin 4), s.requiredAnew (s.takeNotice (.forcingChange z)) z (s.zoneTachs z)) ∧
  (∀ (s u : State) (n : Notice), s.pickNotice = some (n, u) →
    (∃ z, .forcingChange z ∈ s.agenda) ∨ (∃ e, .entryIdle e ∈ s.agenda ∧ (s.force.get e).state ≠ .idle) → n ≠ .engineGo) ∧
  ∀ (s : State) (e : Fin 16) (f : ForceCfg), s.cfg.forces.get e = some f →
    s.requiredAnew (s.takeNotice (.entryIdle e)) f.zone
      ((indices 8).filter (fun i => (s.cfg.tachs.get i).binding == some e))

/-- The proof delay's expiry fails the tach and logs FAN_FAILED; where the tach is bound, its zone's FAN_FAULT and VENT_UNPROVEN follow its
required tachs by the table of R12, and the zone is settled (R5, R12, R16, R52, R53, R55). The order of the records of one zone event is the
model's choice (log 19). -/
def Obligations.DelayTimerExpires : Prop :=
  ∀ (s : State) (i : Fin 8), (s.tachs.get i).timer = .due → ((s.tachs.get i).state = .proving ∨ (s.tachs.get i).state = .proven) →
    let said : LogEntry :=
      { kind := .fanFailed, zone := s.tachZone i, subject := some i.val, value := (s.tachs.get i).speed }
    ∃ u : State, exec (.delayTimerExpiry i) s = .next u.finish ∧ s.samePath u ∧ u.chans = s.chans ∧ u.spills = s.spills ∧
      (∀ j, j ≠ i → u.tachs.get j = s.tachs.get j) ∧
      u.tachs.get i = { s.tachs.get i with state := .failed, timer := .stopped } ∧
      (s.tachZone i = none → u.zones = s.zones ∧ u.log = s.logged [said]) ∧
      ∀ z, s.tachZone i = some z → s.fanReported u z ∧ u.log = s.logged (said :: s.zoneSaid u z)

/-! ## The transit path and the write check -/

/-- A misaligned request, read or write, is answered REFUSED at once whatever its address, and MISALIGNED is logged with no zone, the
address as subject and the width as value, in a record of its own; nothing is posted, no zone, refresh timer or hold entry changes
(R60). -/
def Obligations.MisalignedIsRefused : Prop :=
  ∀ (s : State) (a : Addr) (w : Width) (d : Data) (c : Instr), s.hostReady → a.toNat % w.bytes ≠ 0 →
    c = .hostRead a w ∨ c = .hostWrite a w d →
    ∃ t : State, exec c s = .next t ∧ t.responses = s.responses ++ [{ kind := .refused, data := none }] ∧ t.upstream = .idle ∧
      State.samePosted t.posted s.posted ∧ t.waiting = s.waiting ∧ t.zones = s.zones ∧ t.hold = s.hold ∧ t.force = s.force ∧
      t.log.records = (if 32 ≤ s.log.records.length then s.log.records.drop 1 else s.log.records) ++
        [{ seq := s.log.nextSeq, kind := .misaligned, zone := none, time := s.time.seconds, subject := some a.toNat,
           value := some w.bytes, repeats := 1, gap := decide (32 ≤ s.log.records.length) }] ∧
      t.log.nextSeq = s.log.nextSeq + 1#16

/-- An aligned read is taken with the entries of the posted queue as its predecessors, and waits for plant memory's answer: no response
yet, nothing logged, no zone touched (R58, R63, R75). -/
def Obligations.HostReadWaits : Prop :=
  ∀ (s : State) (a : Addr) (w : Width), s.hostReady → a.toNat % w.bytes = 0 →
    ∃ (t : State) (flying : Bool), exec (.hostRead a w) s = .next t ∧ t.upstream = .reading a w (s.cfg.zoneAt a) flying ∧
      State.samePosted t.posted s.posted ∧ (∀ p ∈ t.posted, p.ahead = true) ∧ t.responses = s.responses ∧ t.log = s.log ∧
      t.zones = s.zones ∧ t.hold = s.hold ∧ t.waiting = s.waiting

/-- An aligned write to an OPEN address, by an OPEN window or by none, enters the posted queue unflagged and is answered DONE; where
there is no room it waits, unanswered (R58, R63, R64, R70). That it waits too in a queue with room, behind placements that have not yet
entered, is the model's choice (log 10). -/
def Obligations.OpenWriteIsPosted : Prop :=
  ∀ (s : State) (a : Addr) (w : Width) (d : Data), s.hostReady → a.toNat % w.bytes = 0 →
    s.cfg.governing a = .nothing ∨ (∃ win, s.cfg.governing a = .window win ∧ win.cls = .open_) →
    ∃ t : State, exec (.hostWrite a w d) s = .next t ∧ t.log = s.log ∧ t.zones = s.zones ∧ t.hold = s.hold ∧ t.force = s.force ∧
      (s.posted.length < 8 ∧ s.waiting = [] →
        State.samePosted t.posted (s.posted ++ [{ addr := a, width := w, data := w.cut d, origin := .host, checked := false,
                                                  zone := none, inFlight := false, ahead := false }]) ∧
          t.responses = s.responses ++ [{ kind := .done, data := none }] ∧ t.upstream = .idle ∧ t.waiting = []) ∧
      (¬(s.posted.length < 8 ∧ s.waiting = []) →
        State.samePosted t.posted s.posted ∧ t.responses = s.responses ∧ t.upstream = .placing ∧
          t.waiting = s.waiting ++ [{ source := .host .done none, addr := a, width := w, data := w.cut d, checked := false,
                                      zone := none }])

/-- An aligned write through a WATCHED window enters the posted queue, is answered DONE, and makes the window's observation: an
acknowledge of the window's zone, a restart of its refresh timer, or a log clear with the sequence the data carries. One that finds no
room waits unanswered, with its observation, which is not made until it enters: no acknowledge, no refresh restart, no log clear (R11,
R20, R67, R68, R70, R180). That it waits too in a queue with room, behind placements that have not yet entered, is the model's choice
(log 10). -/
def Obligations.WatchedWriteIsObserved : Prop :=
  ∀ (s : State) (a : Addr) (w : Width) (d : Data) (win : Window), s.hostReady → a.toNat % w.bytes = 0 →
    s.cfg.governing a = .window win → win.cls = .watched →
    let zone := if win.func = .logClear then none else some win.zone
    let observation : Observation := match win.func with
      | .acknowledge => .acknowledge win.zone
      | .heartbeat => .heartbeat win.zone
      | .logClear => .logClear (lowHalf w d)
    (s.posted.length < 8 ∧ s.waiting = [] →
      ∃ u : State, exec (.hostWrite a w d) s = .next u.settle.conclude ∧
        u.posted = s.posted ++ [{ addr := a, width := w, data := w.cut d, origin := .host, checked := false, zone := zone,
                                  inFlight := false, ahead := false }] ∧
        u.responses = s.responses ++ [{ kind := .done, data := none }] ∧ u.upstream = .idle ∧ u.waiting = [] ∧ u.hold = s.hold ∧
        u.force = s.force ∧ s.sameField u ∧ s.observed u (some observation)) ∧
      (¬(s.posted.length < 8 ∧ s.waiting = []) →
        ∃ t : State, exec (.hostWrite a w d) s = .next t ∧ State.samePosted t.posted s.posted ∧ t.responses = s.responses ∧
          t.upstream = .placing ∧
          t.waiting = s.waiting ++ [{ source := .host .done (some observation), addr := a, width := w, data := w.cut d,
                                      checked := false, zone := zone }] ∧
          t.zones = s.zones ∧ t.log = s.log ∧ t.hold = s.hold ∧ t.force = s.force ∧ s.sameField t)

/-- A write refused by its class or its width, at once and by the window's style: REPORT answers REFUSED and logs WRITE_REFUSED, ABSORB
answers DONE and logs WRITE_ABSORBED; the zone is the window's where it is CHECKED. Nothing is posted, held or judged, and no refresh
timer restarts (R63, R65). What governs an address is the report window, 1 KB at its base, where one is in force and contains it; otherwise
the enabled window of lowest number that contains it; otherwise none (R62). -/
def Obligations.RefusedByClassOrWidth : Prop :=
  (∀ (s : State) (a : Addr) (w : Width) (d : Data) (style : Style) (zone : Option (Fin 4)), s.hostReady → a.toNat % w.bytes = 0 →
    (s.cfg.governing a = .report ∧ style = .report ∧ zone = none) ∨
      (∃ win, s.cfg.governing a = .window win ∧ win.style = style ∧
        ((win.cls = .barred ∧ zone = none) ∨ (win.cls = .checked ∧ w ≠ .w2 ∧ zone = some win.zone))) →
    ∃ t : State, exec (.hostWrite a w d) s = .next t ∧ t.upstream = .idle ∧ State.samePosted t.posted s.posted ∧
      t.waiting = s.waiting ∧ t.zones = s.zones ∧ t.hold = s.hold ∧ t.force = s.force ∧ t.checker = s.checker ∧
      t.responses = s.responses ++ [{ kind := match style with | .report => .refused | .absorb => .done, data := none }] ∧
      t.log = (s.append (match style with | .report => .writeRefused | .absorb => .writeAbsorbed) zone (some a.toNat)
        (some (lowHalf w d).toNat)).log) ∧
  ∀ (cfg : Settings) (a : Addr),
    let inReport := ∃ b, cfg.reportBase = some b ∧ b.toNat ≤ a.toNat ∧ a.toNat < b.toNat + 1024
    (inReport → cfg.governing a = .report) ∧
      (¬inReport → ∀ i, (cfg.windows.get i).contains a → (∀ j, j < i → ¬(cfg.windows.get j).contains a) →
        cfg.governing a = .window (cfg.windows.get i)) ∧
      (¬inReport → (∀ i, ¬(cfg.windows.get i).contains a) → cfg.governing a = .nothing)

/-- A 2-byte write to a checked cell. Where its profile has no step limit, or the cell store knows the value, the verdict is reached at once
with its outcome and its records, and the zone's refresh timer restarts; where HOST_LOST stands the restart clears it, and whether its
records come before or after the verdict's is free (log 8). Where the store does not know it, the write waits for the claim the lookup
makes: no verdict, no response, nothing posted or held, no refresh timer restarted. Where an abandoned claim of the checker is still
unsettled the write waits too, and its lookup is not made yet (R63, R66, R83, R84, R94, R103). That a passing value waits in a queue with
room behind placements not yet entered is the model's choice (log 10). -/
def Obligations.CheckedWriteIsJudged : Prop :=
  (∀ (s : State) (a : Addr) (d : Data) (win : Window) (current : Option Half), s.hostReady → a.toNat % 2 = 0 →
     s.cfg.governing a = .window win → win.cls = .checked → (s.zones.get win.zone).causes.hostLost = false →
     ((s.cfg.profiles.get win.profile).stepped = false ∧ current = none) ∨
       ((s.cfg.profiles.get win.profile).stepped = true ∧ (∀ k, s.store.checkerClaim = some k → k.unsettled = false) ∧
         (s.store.lookup s.queued .checker a).1 = current ∧ current.isSome = true) →
     ∃ t : State, exec (.hostWrite a .w2 d) s = .next t ∧ t.checker = .idle ∧
       s.verdictTaken t a (cellValue d) win.zone win.profile win.style (s.judge a (cellValue d) win.zone win.profile current) ∧
       (∀ z, z ≠ win.zone → t.zones.get z = s.zones.get z) ∧
       t.zones.get win.zone =
         { s.zones.get win.zone with
           refresh := if (s.cfg.zones.get win.zone).refreshPeriod = 0 then (s.zones.get win.zone).refresh
             else .running (s.cfg.zones.get win.zone).refreshPeriod }) ∧
  (∀ (s : State) (a : Addr) (d : Data) (win : Window) (current : Option Half), s.hostReady → a.toNat % 2 = 0 →
     s.cfg.governing a = .window win → win.cls = .checked →
     ((s.cfg.profiles.get win.profile).stepped = false ∧ current = none) ∨
       ((s.cfg.profiles.get win.profile).stepped = true ∧ (∀ k, s.store.checkerClaim = some k → k.unsettled = false) ∧
         (s.store.lookup s.queued .checker a).1 = current ∧ current.isSome = true) →
     ∃ u : State, exec (.hostWrite a .w2 d) s = .next u.settle.conclude ∧ u.checker = .idle ∧
       s.verdictTaken u a (cellValue d) win.zone win.profile win.style (s.judge a (cellValue d) win.zone win.profile current)) ∧
  (∀ (s : State) (a : Addr) (d : Data) (win : Window), s.hostReady → a.toNat % 2 = 0 →
     s.cfg.governing a = .window win → win.cls = .checked → (s.cfg.profiles.get win.profile).stepped = true →
     (∀ k, s.store.checkerClaim = some k → k.unsettled = false) → (s.store.lookup s.queued .checker a).1 = none →
     ∃ t : State, exec (.hostWrite a .w2 d) s = .next t ∧
       t.checker = .awaiting a (cellValue d) win.zone win.profile win.style false ∧ t.upstream = .judging ∧
       t.responses = s.responses ∧ State.samePosted t.posted s.posted ∧ t.hold = s.hold ∧ t.zones = s.zones ∧ t.log = s.log ∧
       ∃ k, t.store.checkerClaim = some k ∧ k.cell = a ∧ k.abandoned = false) ∧
  ∀ (s : State) (a : Addr) (d : Data) (win : Window) (k : Claim), s.hostReady → a.toNat % 2 = 0 →
    s.cfg.governing a = .window win → win.cls = .checked → (s.cfg.profiles.get win.profile).stepped = true →
    s.store.checkerClaim = some k → k.stage = .listed ∨ k.stage = .joined →
    ∃ t : State, exec (.hostWrite a .w2 d) s = .next t ∧
      t.checker = .awaiting a (cellValue d) win.zone win.profile win.style true ∧ t.upstream = .judging ∧
      t.store.checkerClaim = some k ∧ t.store.list = s.store.list ∧ t.store.lru = s.store.lru ∧ t.responses = s.responses ∧
      State.samePosted t.posted s.posted ∧ t.hold = s.hold ∧ t.zones = s.zones ∧ t.log = s.log

/-- The verdict, step by step. The bounds pass a value in bounds as it is, and by the level's rule clamp it to the nearer bound, hold it or
refuse it (R85). What is not held or refused goes through the step limits where the profile has any and the current value is known; where it
is unknown the profile's action skips them or refuses (R86, R87). Then a force on the cell moves it by its sense, or keeps it where that
leaves the bounds (R88, R89). A held write is kept by the force on its cell, or enters the hold queue where its cell has an entry or there
is room, or finds it full (R91, R92). So a value that passes lies within the bounds of the level it is judged at and satisfies the sense of
an entry under force (R90, R133). -/
def Obligations.PassedValuesAreInBounds : Prop :=
  ∀ (s : State) (a : Addr) (v : Half) (z : Fin 4) (p : Fin 8) (current : Option Half),
    let profile := s.cfg.profiles.get p
    let b := profile.levels.get (s.zoneLevel z)
    let d := s.judge a v z p current
    let inside := fun (x : Half) => b.low.toNat ≤ x.toNat ∧ x.toNat ≤ b.high.toNat
    let forced := fun (x : Half) =>
      match s.forceOn a with
      | none => Verdict.pass x
      | some (_, f) => if inside (f.sense.move f.forced x) then .pass (f.sense.move f.forced x) else .kept
    let bounded := fun (x : Half) =>
      (profile.fall = 0#16 → profile.rise = 0#16 → d = forced x) ∧
        (profile.fall ≠ 0#16 ∨ profile.rise ≠ 0#16 →
          (∀ n, current = some n → d = forced (profile.step b n x)) ∧
            (current = none → profile.unknown = .boundsOnly → d = forced x) ∧
            (current = none → profile.unknown = .refuse → d = .refused))
    (inside v → bounded v) ∧
      (v.toNat < b.low.toNat → b.rule = .clamp → bounded b.low) ∧
      (b.low.toNat ≤ v.toNat → b.high.toNat < v.toNat → b.rule = .clamp → bounded b.high) ∧
      (¬inside v → b.rule = .refuse → d = .refused) ∧
      (¬inside v → b.rule = .hold →
        ((∃ e f, s.forceOn a = some (e, f)) → d = .kept) ∧
          (s.forceOn a = none → ((∃ h ∈ s.hold, h.cell = a) ∨ s.hold.length < 8) → d = .held) ∧
          (s.forceOn a = none → (∀ h ∈ s.hold, h.cell ≠ a) → 8 ≤ s.hold.length → d = .full)) ∧
      (∀ (f x : Half), Sense.floor.move f x = (if x.toNat < f.toNat then f else x) ∧
        Sense.ceiling.move f x = (if f.toNat < x.toNat then f else x) ∧ Sense.exact_.move f x = f) ∧
      (∀ e f, s.forceOn a = some (e, f) → s.cfg.forces.get e = some f ∧ f.cell = a ∧
        ((s.force.get e).state = .applying ∨ (s.force.get e).state = .active ∨ (s.force.get e).state = .failed)) ∧
      (s.forceOn a = none → ∀ e f, s.cfg.forces.get e = some f → f.cell = a →
        (s.force.get e).state = .idle ∨ (s.force.get e).state = .releasing) ∧
      (b.low.toNat ≤ b.high.toNat → ∀ v', d = .pass v' →
        inside v' ∧ ∀ e f, s.forceOn a = some (e, f) → f.sense.satisfied f.forced v' = true)

/-- The step limits: a value below the current value less the fall limit becomes exactly that, or 0 where it would be negative; one above
the current value plus the rise limit becomes exactly that; a limit of 0 limits nothing; then the bounds, which win, wherever the current
value lies. So from a current value within the bounds a value moves by at most the limits, and a value already within limits and bounds
passes unchanged (R86). -/
def Obligations.StepLimits : Prop :=
  ∀ (p : Profile) (b : LevelBounds) (n v : Half), b.low.toNat ≤ b.high.toNat →
    let r := p.step b n v
    let bounded := fun (x : Nat) => max b.low.toNat (min b.high.toNat x)
    let below := p.fall ≠ 0#16 ∧ v.toNat < n.toNat - p.fall.toNat
    let above := p.rise ≠ 0#16 ∧ n.toNat + p.rise.toNat < v.toNat
    (b.low.toNat ≤ r.toNat ∧ r.toNat ≤ b.high.toNat) ∧
      (below → r.toNat = bounded (n.toNat - p.fall.toNat)) ∧ (above → r.toNat = bounded (n.toNat + p.rise.toNat)) ∧
      (¬below → ¬above → r.toNat = bounded v.toNat) ∧
      (b.low.toNat ≤ n.toNat → n.toNat ≤ b.high.toNat → p.fall ≠ 0#16 → n.toNat - p.fall.toNat ≤ r.toNat) ∧
      (b.low.toNat ≤ n.toNat → n.toNat ≤ b.high.toNat → p.rise ≠ 0#16 → r.toNat ≤ n.toNat + p.rise.toNat) ∧
      (b.low.toNat ≤ v.toNat → v.toNat ≤ b.high.toNat → (p.fall ≠ 0#16 → n.toNat - p.fall.toNat ≤ v.toNat) →
        (p.rise ≠ 0#16 → v.toNat ≤ n.toNat + p.rise.toNat) → r = v)

/-- What satisfies a sense, and what a release writes by its mode: the last request if one stands, else under RESTORE the prior value and
under KEEP nothing (R133, R143). -/
def Obligations.SenseTable : Prop :=
  (∀ f n : Half, (Sense.floor.satisfied f n = true ↔ f.toNat ≤ n.toNat) ∧ (Sense.ceiling.satisfied f n = true ↔ n.toNat ≤ f.toNat) ∧
    (Sense.exact_.satisfied f n = true ↔ n = f)) ∧
    ∀ (m : ReleaseMode) (r : ForceRec),
      (∀ v, r.last = some v → releaseValue m r = some v) ∧
        (r.last = none → releaseValue .restore r = r.prior ∧ releaseValue .keep r = none)

/-- A claimant takes its settlement: the write checker reaches its verdict with the value it carries; the force engine keeps the value as
the prior value if it holds none and becomes ACTIVE where the value satisfies its sense, with FORCE_RECOVERED where it was FAILED, presents
its force write where it does not, and counts a failed attempt where the claim settled as unknown, and looks the cell up afresh; the third
makes the entry FAILED with FORCE_FAILED (R83, R113, R138 to R141). That the prior value may be one a host write under force put into the
cell, where none was held before, is the model's choice (log 43), and so is that a passing value waits in a queue with room behind
placements not yet entered (log 10). A lookup held back behind an abandoned claim waits for no settlement of its own: it is made at the
event at which a fill's read settles that claim, and a hit reaches the verdict there (R103, R113, R117); that the fill has gone on first
within that event is DEDUCED (log 9). -/
def Obligations.ClaimSettlement : Prop :=
  ∀ (s : State) (k : Claim) (value : Option Half), k.stage = .settled value →
    (∀ a v z p style, s.store.checkerClaim = some k → k.abandoned = false → s.checker = .awaiting a v z p style false →
      ∃ u : State, exec (.claimSettlement .checker) s = .next u.finish ∧ u.checker = .idle ∧ u.store.checkerClaim = none ∧
        s.verdictTaken u a v z p style (s.judge a v z p value)) ∧
    (∀ x done data a v z p style, s.port.state = .busy x → x.who = .fill → s.checker = .awaiting a v z p style true →
      (s.filled done data).checkerClaim = some k → k.abandoned = true →
      let made := fun (u : State) =>
        (s.fillSaid x done).lookedUp u { s.filled done data with checkerClaim := none } a v z p style
      (∃ u : State, exec (.memoryAnswer done data) s = .next u.finish ∧ made u) ∧
        (done = false → s.port.timeout = .due → ∃ u : State, exec .downstreamTimeout s = .next u.finish ∧ made u)) ∧
    (∀ e f, s.store.engineClaim = some k → s.sweepEntry = some e → s.cfg.forces.get e = some f →
      ∃ u : State, exec (.claimSettlement .engine) s = .next u.finish ∧ u.posted = s.posted ∧ u.hold = s.hold ∧
        u.responses = s.responses ∧ (∀ e', e' ≠ e → u.force.get e' = s.force.get e') ∧
        (∀ n, value = some n →
          u.store.engineClaim = none ∧ (u.force.get e).prior = (match (s.force.get e).prior with | some q => some q | none => some n) ∧
            (f.sense.satisfied f.forced n = true → (u.force.get e).state = .active ∧
              u.log = if (s.force.get e).fromFailed then s.logged [State.forceSaid .forceRecovered e f] else s.log) ∧
            (f.sense.satisfied f.forced n = false →
              (u.force.get e).state = (s.force.get e).state ∧ u.sweep = s.sweep.map (fun w => { w with work := .writing }) ∧
                u.log = s.log)) ∧
        (value = none → s.attemptCounted u { s.store with engineClaim := none } e f))

/-- The placement at the head of the waiting list enters a queue with room as its newest entry: a flagged one is written through to the
cell store, a host's is answered and makes its observation, a hold entry leaves the hold queue, a force entry's release ends in IDLE (R11,
R20, R67, R68, R70, R74, R110, R122, R144). -/
def Obligations.PlacementEnters : Prop :=
  ∀ (s : State) (p : Placement) (rest : List Placement), s.waiting = p :: rest → s.posted.length < 8 →
    ∃ u : State, exec .placementEnters s = .next u.finish ∧ u.waiting = rest ∧
      u.posted = s.posted ++ [{ addr := p.addr, width := p.width, data := p.data,
                                origin := match p.source with | .host _ _ => .host | .hold | .engine _ => .release,
                                checked := p.checked, zone := p.zone, inFlight := false, ahead := false }] ∧
      u.store = (if p.checked then s.store.writeThrough p.addr (cellValue p.data) else s.store) ∧
      (∀ kind watch, p.source = .host kind watch →
        u.responses = s.responses ++ [{ kind := kind, data := none }] ∧ u.upstream = .idle ∧ u.hold = s.hold ∧ u.force = s.force ∧
          s.observed u watch) ∧
      (p.source = .hold → u.hold = s.hold.filter (fun h => h.cell != p.addr) ∧ u.responses = s.responses ∧ u.force = s.force ∧
        u.zones = s.zones ∧ u.log = s.log) ∧
      (∀ e, p.source = .engine e →
        (u.force.get e).state = .idle ∧ (u.force.get e).prior = none ∧ (u.force.get e).last = none ∧ u.hold = s.hold ∧
          u.responses = s.responses ∧ u.zones = s.zones ∧ u.log = s.log ∧ .entryIdle e ∈ u.agenda)

/-- An upstream reset abandons the request the port holds and gives no response: a host write that waits for space leaves the waiting list,
a judgement under way returns to IDLE, its claim staying as an abandoned one unless it has settled, a read is dropped. The hold queue is
emptied, its RELEASING entries leaving the waiting list, with one HOLD_DISCARDED that counts what it removed. The posted queue, the other
waiting placements, the zones and the force entries stay (R24, R78, R97, R117, R127, R157). Its release lets the port take requests again
(R78). An assertion while the input is asserted, and a release while it is not, change nothing (DEDUCED, log 22), and a request that waits
on the host's side still waits: the model's choice (log 11). -/
def Obligations.UpstreamResets : Prop :=
  ∀ s : State,
    (s.busReset = false →
      ∃ u : State, exec .upstreamReset s = .next u.finish ∧ u.busReset = true ∧ u.upstream = .idle ∧ u.responses = s.responses ∧
        u.hold = [] ∧ u.zones = s.zones ∧ u.force = s.force ∧ u.sweep = s.sweep ∧ u.requests = s.requests ∧ u.port = s.port ∧
        s.sameField u ∧ u.agenda = s.agenda ∧ u.hostWaiting = s.hostWaiting ∧ State.samePosted u.posted s.posted ∧
        u.waiting = s.waiting.filter (fun q => match q.source with
          | .host _ _ => !decide (s.upstream = .placing)
          | .hold => false
          | .engine _ => true) ∧
        u.checker = (if s.upstream = .judging then .idle else s.checker) ∧
        (∀ a v z p style, s.upstream = .judging → s.checker = .awaiting a v z p style false →
          u.store = s.store.abandon ∧
            (∀ k, s.store.checkerClaim = some k →
              (k.stage = .listed ∨ k.stage = .joined → u.store.checkerClaim = some { k with abandoned := true }) ∧
                ∀ value, k.stage = .settled value → u.store.checkerClaim = none) ∧
            u.store.lines = s.store.lines ∧ u.store.lru = s.store.lru ∧ u.store.fill = s.store.fill ∧
            u.store.engineClaim = s.store.engineClaim) ∧
        ((∀ a v z p style, s.upstream = .judging → s.checker ≠ .awaiting a v z p style false) → u.store = s.store) ∧
        u.log = (if s.hold = [] then s.log
          else s.logged [{ kind := .holdDiscarded, zone := none, subject := none, value := some s.hold.length }]) ∧
        (s.agenda = [] →
          u.finish.busReset = true ∧ u.finish.upstream = .idle ∧ u.finish.responses = s.responses ∧ u.finish.hold = [] ∧
            u.finish.zones = s.zones ∧ u.finish.force = s.force ∧ u.finish.waiting = u.waiting ∧ u.finish.checker = u.checker ∧
            u.finish.hostWaiting = s.hostWaiting ∧ State.samePosted u.finish.posted s.posted ∧ u.finish.log = u.log)) ∧
    (s.busReset = true →
      exec .upstreamResetRelease s = .next { s with busReset := false }.finish ∧
        (s.alive = true → s.mode ≠ .loading → s.upstream = .idle → { s with busReset := false }.portOpen = true) ∧
        (s.agenda = [] → s.hostWaiting = [] →
          let t := { s with busReset := false }.finish
          t.busReset = false ∧ (s.upstream = .idle → t.upstream = .idle) ∧ t.hold = s.hold ∧ t.zones = s.zones ∧ t.log = s.log ∧
            t.responses = s.responses)) ∧
    (s.busReset = true → exec .upstreamReset s = .next s) ∧ (s.busReset = false → exec .upstreamResetRelease s = .next s)

/-! ## The cell store, the hold queue and the force engine -/

/-- The cell store. A write-through makes a held cell believed with the written value, marks it where its fill has not settled it, and
changes neither the order nor another line; a cell no line holds changes nothing (R110). A lookup of a believed cell gives its value and
moves its line to the head of the order; any other becomes a claim, which joins the fill of its line that has not yet settled its cell or
goes to the end of the fill list (R103, R104). The request at the head is examined anew: a claim on a believed cell settles, a request with
nothing to fill ends, and otherwise a fill starts, on its line or on the least recently used line that is neither pinned nor filling, and
every listed claim it will reach joins it (R104, R105). A fill skips believed cells, takes a queued value, or presents a read; its
completion stores and settles, a FAULT ends the fill and settles what it has not reached as unknown; the fills run on until a read is
presented or nothing waits (R106 to R109, R113). A cell made invalid has a repair requested where its line is pinned and no request without
claimant stands for it (R111). That the request of an abandoned claim settles or starts its fill with no move of the LRU order, and counts
at a repair as a request without claimant, is read from R104, R113 and R117 by the model (DEDUCED, log 23). -/
def Obligations.WriteThrough : Prop :=
  (∀ (c : CellStore) (a : Addr) (v : Half),
    (c.find (groupOf a) = none → c.writeThrough a v = c) ∧
    ∀ i, c.find (groupOf a) = some i →
      let t := c.writeThrough a v
      let k := t.cell i (cellIndex a)
      k.valid = true ∧ k.value = v ∧ k.written = ((c.cell i (cellIndex a)).written || c.unsettled i (cellIndex a)) ∧
        t.lru = c.lru ∧ t.fill = c.fill ∧ t.list = c.list ∧ t.checkerClaim = c.checkerClaim ∧ t.engineClaim = c.engineClaim ∧
        (∀ j, (t.lines.get j).tag = (c.lines.get j).tag) ∧ (∀ j, j ≠ i → t.lines.get j = c.lines.get j) ∧
        ∀ m, m ≠ cellIndex a → t.cell i m = c.cell i m) ∧
  (∀ (q : Addr → Option Half) (c : CellStore) (who : Claimant) (a : Addr),
    (∀ i, c.find (groupOf a) = some i → (c.cell i (cellIndex a)).valid = true →
      c.lookup q who a = (some (c.cell i (cellIndex a)).value, { c with lru := i :: c.lru.filter (fun j => j != i) })) ∧
    (∀ i, c.find (groupOf a) = some i → (c.cell i (cellIndex a)).valid = false →
      c.lookup q who a = (none, (({ c with lru := i :: c.lru.filter (fun j => j != i) } : CellStore).addClaim who a).settleFills q)) ∧
    (c.find (groupOf a) = none → c.lookup q who a = (none, (c.addClaim who a).settleFills q)) ∧
    let joins := ∃ f, c.fill = some f ∧ (c.lines.get f.line).tag = some (groupOf a) ∧ f.pos ≤ (cellIndex a).val
    (joins → (c.addClaim who a).list = c.list ∧
      (c.addClaim who a).claimOf who = some { cell := a, stage := .joined, abandoned := false }) ∧
    (¬joins → (c.addClaim who a).list = c.list ++ [{ group := groupOf a, start := cellIndex a,
                                                     who := match who with | .checker => .checker | .engine => .engine }] ∧
      (c.addClaim who a).claimOf who = some { cell := a, stage := .listed, abandoned := false })) ∧
  (∀ c : CellStore,
    (∀ i, c.victim = some i → ∃ newer older, c.lru = newer ++ i :: older ∧ (c.lines.get i).pinned = false ∧
      (c.lines.get i).filling = false ∧ ∀ j ∈ older, (c.lines.get j).pinned = true ∨ (c.lines.get j).filling = true) ∧
    (c.victim = none → ∀ j ∈ c.lru, (c.lines.get j).pinned = true ∨ (c.lines.get j).filling = true)) ∧
  (∀ (c : CellStore) (r : FillRequest),
    let nothing := fun (i : Fin 16) => ∀ k : Fin 4, r.start.val ≤ k.val → (c.cell i k).valid = true
    (∀ i, c.find r.group = some i → (r.who = .checker ∨ r.who = .engine) →
      ((c.cell i r.start).valid = true → c.startRequest r = (c.settleRequest r (c.cell i r.start).value).touch i) ∧
        ((c.cell i r.start).valid = false → c.startRequest r = (c.touch i).beginFill i r.group r.start)) ∧
    (∀ i, c.find r.group = some i → r.who = .nobody →
      (nothing i → c.startRequest r = c) ∧ (¬nothing i → c.startRequest r = c.beginFill i r.group r.start)) ∧
    (∀ i, c.find r.group = some i → r.who = .abandoned →
      let d := if (c.cell i r.start).valid then c.settleRequest r (c.cell i r.start).value else c
      (nothing i → c.startRequest r = d) ∧ (¬nothing i → c.startRequest r = d.beginFill i r.group r.start)) ∧
    (∀ i, c.find r.group = none → c.victim = some i →
      ∃ d : CellStore, c.startRequest r = (d.touch i).beginFill i r.group r.start ∧ d.lru = c.lru ∧ d.list = c.list ∧
        d.checkerClaim = c.checkerClaim ∧ d.engineClaim = c.engineClaim ∧ (d.lines.get i).tag = some r.group ∧
        (∀ k, (d.cell i k).valid = false ∧ (d.cell i k).written = false) ∧ ∀ j, j ≠ i → d.lines.get j = c.lines.get j)) ∧
  (∀ (c : CellStore) (i : Fin 16) (g : Addr) (start : Fin 4),
    let t := c.beginFill i g start
    t.fill = some { line := i, pos := start.val, reading := false } ∧ (t.lines.get i).filling = true ∧ t.lru = c.lru ∧
      t.list = c.list.filter (fun r => !(decide (r.who ≠ .nobody) && decide (r.group = g) && decide (start.val ≤ r.start.val))) ∧
      ∀ who k, c.claimOf who = some k →
        t.claimOf who = some (if k.stage = .listed ∧ groupOf k.cell = g ∧ start.val ≤ (cellIndex k.cell).val
          then { k with stage := .joined } else k)) ∧
  (∀ (q : Addr → Option Half) (c : CellStore) (f : Fill) (h : f.pos < 4), c.fill = some f →
    let g := ((c.lines.get f.line).tag).getD 0#24
    let a := cellAt g f.pos
    let k := c.cell f.line ⟨f.pos, h⟩
    let next : Option Fill := some { f with pos := f.pos + 1, reading := false }
    (f.reading = false →
      (k.valid = true → c.advance q = some ({ c with fill := next }.settleCell a (some k.value))) ∧
        (∀ v, k.valid = false → q a = some v →
          c.advance q =
            some ({ c.setCell f.line ⟨f.pos, h⟩ { k with valid := true, value := v } with fill := next }.settleCell a (some v))) ∧
        (k.valid = false → q a = none → c.advance q = some { c with fill := some { f with reading := true } })) ∧
    (f.reading = true → c.advance q = none ∧ c.readAddress = some a) ∧
    (∀ v, k.written = false →
      c.readDone q v =
        ({ c.setCell f.line ⟨f.pos, h⟩ { k with valid := true, value := v } with fill := next }.settleCell a (some v)).settleFills q) ∧
    (∀ v, k.written = true → c.readDone q v = ({ c with fill := next }.settleCell a (some k.value)).settleFills q) ∧
    c.readFault q =
      (((c.settleCell a (if k.written then some k.value else none)).settleLater g (f.pos + 1)).endFill f).settleFills q) ∧
  (∀ (c : CellStore) (a g : Addr) (pos : Nat) (v : Option Half) (who : Claimant) (k : Claim), c.claimOf who = some k →
    (c.settleCell a v).claimOf who =
        some (if k.stage = .joined ∧ k.cell = a then { k with stage := .settled v } else k) ∧
      (c.settleLater g pos).claimOf who =
        some (if k.stage = .joined ∧ groupOf k.cell = g ∧ pos ≤ (cellIndex k.cell).val then { k with stage := .settled none } else k)) ∧
  (∀ (c : CellStore) (f : Fill),
    (c.endFill f).fill = none ∧ ((c.endFill f).lines.get f.line).filling = false ∧
      (∀ k, (c.endFill f).cell f.line k = { c.cell f.line k with written := false }) ∧
      ∀ j, j ≠ f.line → (c.endFill f).lines.get j = c.lines.get j) ∧
  (∀ (q : Addr → Option Half) (c : CellStore),
    (c.settleFills q).advance q = none ∧
      (∀ f, c.fill = some f → 4 ≤ f.pos → f.reading = false → c.advance q = some (c.endFill f)) ∧
      (∀ r rest, c.fill = none → c.list = r :: rest → c.advance q = some ({ c with list := rest }.startRequest r)) ∧
      (c.fill = none → c.list = [] → c.advance q = none)) ∧
  ∀ (q : Addr → Option Half) (c : CellStore) (a : Addr),
    (c.find (groupOf a) = none → c.invalidate q a = c) ∧
    ∀ i, c.find (groupOf a) = some i →
      let d := c.setCell i (cellIndex a) { c.cell i (cellIndex a) with valid := false, written := false }
      let unclaimed := ∃ r ∈ c.list, (r.who = .nobody ∨ r.who = .abandoned) ∧ r.group = groupOf a
      ((c.lines.get i).pinned = true → ¬unclaimed →
        c.invalidate q a =
          ({ d with list := c.list ++ [{ group := groupOf a, start := cellIndex a, who := .nobody }] } : CellStore).settleFills q) ∧
        ((c.lines.get i).pinned = false ∨ unclaimed → c.invalidate q a = d.settleFills q)

/-- Every hold entry whose expiry time is reached is removed with a HOLD_EXPIRED of its own, in queue order, a RELEASING one with its waiting
placement; its value is never written. The other placements stay, in their order (R123). -/
def Obligations.HoldExpires : Prop :=
  ∀ s : State, s.holdSound → (∃ e ∈ s.hold, e.expiry ≤ s.time.seconds) →
    ∃ u : State, exec .holdExpiry s = .next u.finish ∧ u.hold = s.hold.filter (fun e => decide (s.time.seconds < e.expiry)) ∧
      u.posted = s.posted ∧ u.responses = s.responses ∧ u.zones = s.zones ∧ u.force = s.force ∧ u.store = s.store ∧
      u.waiting = s.waiting.filter (fun q => !s.hold.any (fun e => decide (e.expiry ≤ s.time.seconds) && q.isHoldOf e.cell)) ∧
      u.log = s.logged ((s.hold.filter (fun e => decide (e.expiry ≤ s.time.seconds))).map
        (fun e => State.cellSaid .holdExpired e.zone e.cell e.value))

/-- A level change at the hold queue: the WAITING entries of its zone, and no others, are judged again in queue order at the new level; a
value the bounds give is released, entering the posted queue at once or waiting as a placement, HOLD leaves the entry, REFUSE removes it
with HOLD_DISCARDED (R121, R122). That a released value waits in a queue with room, behind placements that have not yet entered, is the
model's choice (log 10). -/
def Obligations.Rejudgement : Prop :=
  (∀ (s : State) (z level : Fin 4),
    s.takeNotice (.levelChange z level) =
      (s.hold.filter (fun e => decide (e.zone = z) && !e.releasing)).foldl (fun s e => s.rejudgeEntry level e) s) ∧
  (∀ (s : State) (z level : Fin 4) (h : HoldEntry), s.holdSound → h ∈ s.hold → h.zone ≠ z ∨ h.releasing = true →
    h ∈ (s.takeNotice (.levelChange z level)).hold) ∧
  ∀ (s : State) (level : Fin 4) (e : HoldEntry),
    let b := (s.cfg.profiles.get e.profile).levels.get level
    let t := s.rejudgeEntry level e
    (b.judge e.value = .hold → t = s) ∧
    (b.judge e.value = .refuse →
      t.hold = s.hold.filter (fun h => h.cell != e.cell) ∧ t.posted = s.posted ∧ t.responses = s.responses ∧
        t.log = s.logged [State.cellSaid .holdDiscarded e.zone e.cell e.value]) ∧
    ∀ v, b.judge e.value = .value v →
      t.log = s.log ∧ t.responses = s.responses ∧
      (s.posted.length < 8 ∧ s.waiting = [] →
        t.hold = s.hold.filter (fun h => h.cell != e.cell) ∧ t.store = s.store.writeThrough e.cell v ∧ t.waiting = [] ∧
          t.posted = s.posted ++ [{ addr := e.cell, width := .w2, data := cellData v, origin := .release, checked := true,
                                    zone := some e.zone, inFlight := false, ahead := false }]) ∧
      (¬(s.posted.length < 8 ∧ s.waiting = []) →
        t.posted = s.posted ∧ t.store = s.store ∧
          t.hold = s.hold.map (fun h => if h.cell = e.cell then { h with value := v, releasing := true } else h) ∧
          t.waiting = s.waiting ++ [{ source := .hold, addr := e.cell, width := .w2, data := cellData v, checked := true,
                                      zone := some e.zone }])

/-- A sweep request by the cases of R135: it restarts a stopped sweep of its zone and kind, stops a running one of the other kind, joins
the queue, merges with a pending one of its kind, replaces a pending one of the other kind, or is dropped where it is a release with
nothing to release (R134, R135). A free engine takes the oldest pending apply, or else the oldest pending release. At an entry boundary the
sweep works the next entry in a state its kind acts on, in ascending number, and ends at its stop mark or after the last entry (R136). -/
def Obligations.SweepRequestCases : Prop :=
  (∀ (s : State) (z : Fin 4) (k : SweepKind),
    let t := s.takeSweepRequest z k
    let others := s.requests.filter (fun r => r.zone != z)
    let clashes := (∃ w, s.sweep = some w ∧ w.zone = z ∧ w.kind = k ∧ w.stop = true) ∨
      (∃ w, s.sweep = some w ∧ w.zone = z ∧ w.kind ≠ k ∧ w.stop = false)
    (∀ w, s.sweep = some w → w.zone = z → w.kind = k → w.stop = true →
      t.sweep = some { w with stop := false } ∧ t.requests = others) ∧
    (∀ w, s.sweep = some w → w.zone = z → w.kind ≠ k → w.stop = false →
      t.sweep = some { w with stop := true } ∧ t.requests = others ++ [{ zone := z, kind := k }]) ∧
    (¬clashes → t.sweep = s.sweep ∧
      (s.pendingSweep z = none → t.requests = others ++ [{ zone := z, kind := k }]) ∧
      (∀ r, s.pendingSweep z = some r → r.kind = k → t.requests = s.requests) ∧
      (∀ r, s.pendingSweep z = some r → r.kind = .release → k = .apply →
        t.requests = others ++ [{ zone := z, kind := .apply }]) ∧
      (∀ r, s.pendingSweep z = some r → r.kind = .apply → k = .release →
        ((∃ e ∈ s.zoneEntries z, (s.force.get e).state ≠ .idle) → t.requests = others ++ [{ zone := z, kind := .release }]) ∧
          ((∀ e ∈ s.zoneEntries z, (s.force.get e).state = .idle) → t.requests = others)))) ∧
  (∀ (s : State) (z : Fin 4) (k : SweepKind),
    (s.mode = .run → s.takeNotice (.sweepRequest z k) = (s.takeSweepRequest z k).notify .engineGo) ∧
      (s.mode ≠ .run → s.takeNotice (.sweepRequest z k) = s)) ∧
  (∀ (s : State) (r : SweepRequest), s.sweep = none →
    ((∃ before after, s.requests = before ++ r :: after ∧ r.kind = .apply ∧ ∀ q ∈ before, q.kind = .release) ∨
        (∃ after, s.requests = r :: after ∧ ∀ q ∈ s.requests, q.kind = .release)) →
      s.takeNotice .engineGo =
        { s with sweep := some { zone := r.zone, kind := r.kind, entry := 0, stop := false, work := .boundary }
                 requests := s.requests.filter (fun q => q.zone != r.zone) }.notify .engineGo) ∧
  (∀ s : State, s.sweep = none → s.requests = [] → s.takeNotice .engineGo = s) ∧
  ∀ (s : State) (w : Sweep), s.sweep = some w →
    let worked := fun (e : Fin 16) (f : ForceCfg) =>
      s.cfg.forces.get e = some f ∧ f.zone = w.zone ∧ w.entry ≤ e.val ∧
        match w.kind with
        | .apply => (s.force.get e).state = .idle ∨ (s.force.get e).state = .failed
        | .release => (s.force.get e).state = .active ∨ (s.force.get e).state = .failed
    (w.work ≠ .boundary → s.takeNotice .engineGo = s) ∧
      (w.work = .boundary → w.stop = true ∨ (∀ e f, ¬worked e f) →
        s.takeNotice .engineGo = { s with sweep := none }.notify .engineGo) ∧
      ∀ e f, w.work = .boundary → w.stop = false → worked e f → (∀ e' f', e'.val < e.val → ¬worked e' f') →
        s.takeNotice .engineGo =
          match w.kind with
          | .apply => { s with sweep := some { w with entry := e.val } }.forceApply e f
          | .release => { s with sweep := some { w with entry := e.val } }.forceRelease e f

/-- A force apply that reaches an entry takes it out of IDLE or FAILED and cancels what is still bound for its cell: no hold entry, no
waiting host write or hold release, and no flagged posted entry but one in flight remains; a withdrawn host write is answered HELD, and the
cell store corrects its belief of the cell by the value still queued; an entry that was IDLE takes as its last request the hold entry, else
the withdrawn write, else the newest removed posted entry, one that was FAILED keeps its own (R71, R73, R74, R112, R124, R137). Beside a
hold entry of origin PART that is R124's order and R71's, where R137's list has the withdrawn write first (DEDUCED, log 44). That a cell
already invalid becomes valid by the value in flight is the model's choice (log 41). It waits for a delivery to its cell that is in flight,
and otherwise looks its cell up at once: a hit decides at once, a miss waits for the claim (R137 to R139). A release makes an entry
RELEASING, stops its retry timer and judges the release value by bounds alone: a value is placed, HOLD sends it to the hold queue as the
part's own entry, REFUSE drops it; the entry is IDLE once its value has entered, or at once where nothing is placed (R119, R132, R143,
R144). That the value waits in a queue with room, behind placements that have not yet entered, is the model's choice (log 10). -/
def Obligations.ForceApplyCancelsWrites : Prop :=
  (∀ (s : State) (e : Fin 16) (f : ForceCfg), (s.force.get e).state = .idle ∨ (s.force.get e).state = .failed →
    let u := s.forceApply e f
    ((u.force.get e).state = .applying ∨ (u.force.get e).state = .active) ∧ (u.force.get e).attempts = 0 ∧
      (u.force.get e).retry = .stopped ∧ (∀ h ∈ u.hold, h.cell ≠ f.cell) ∧
      (∀ p ∈ u.posted, p.checked = true → p.addr = f.cell → p.inFlight = true) ∧
      (∀ q ∈ u.waiting, q.isHostWrite f.cell = false ∧ q.isHoldOf f.cell = false) ∧
      ((s.force.get e).state = .failed → (u.force.get e).last = (s.force.get e).last) ∧
      ((s.force.get e).state = .idle →
        (u.force.get e).last = takenRequest (s.holdOf f.cell) (s.waiting.find? (fun p => p.isHostWrite f.cell))
          (s.posted.filter (fun p => p.removable f.cell))) ∧
      u.zones = s.zones ∧ (∀ e', e' ≠ e → u.force.get e' = s.force.get e') ∧
      ∃ v : State, s.cancelled v e f ∧
        ((∃ p ∈ s.posted, p.checked = true ∧ p.addr = f.cell ∧ p.inFlight = true) →
          u = { v with sweep := v.sweep.map (fun w => { w with work := .delivery }) }) ∧
        ((∀ p ∈ s.posted, p.checked = true → p.addr = f.cell → p.inFlight = false) → u = v.engineLookup e f)) ∧
  (∀ (s : State) (a : Addr),
    ((∀ p ∈ s.posted, p.checked = true → p.addr ≠ a) → s.queued a = none) ∧
      ∀ before p after, s.posted = before ++ p :: after → p.checked = true → p.addr = a →
        (∀ q ∈ after, q.checked = true → q.addr ≠ a) → s.queued a = some (cellValue p.data)) ∧
  (∀ (q : Addr → Option Half) (c : CellStore) (a : Addr),
    c.correct q a none = c.invalidate q a ∧
      ∀ v, (c.find (groupOf a) = none → c.correct q a (some v) = c) ∧
        ∀ i, c.find (groupOf a) = some i →
          c.correct q a (some v) = c.setCell i (cellIndex a) { c.cell i (cellIndex a) with valid := true, value := v }) ∧
  (∀ (s : State) (e : Fin 16) (f : ForceCfg),
    let found := s.store.lookup s.queued .engine f.cell
    (∀ n, found.1 = some n → s.engineLookup e f = { s with store := found.2 }.engineValue e f n) ∧
      (found.1 = none →
        s.engineLookup e f = { s with store := found.2, sweep := s.sweep.map (fun w => { w with work := .claim }) })) ∧
  ∀ (s : State) (e : Fin 16) (f : ForceCfg),
    let old := s.force.get e
    let u := s.forceRelease e f
    let boundary := s.sweep.map (fun w => { w with work := .boundary, entry := e.val + 1 })
    let idle := u.force.get e = { old with state := .idle, prior := none, last := none, retry := .stopped } ∧ u.sweep = boundary ∧
      u.agenda = s.agenda ++ [.entryIdle e, .engineGo] ∧ u.waiting = s.waiting
    u.zones = s.zones ∧ u.responses = s.responses ∧ (∀ e', e' ≠ e → u.force.get e' = s.force.get e') ∧
      (releaseValue f.release old = none → idle ∧ u.posted = s.posted ∧ u.hold = s.hold ∧ u.log = s.log) ∧
      ∀ v w, releaseValue f.release old = some v → s.cfg.checkedAt f.cell = some w →
        let b := (s.cfg.profiles.get w.profile).levels.get (s.zoneLevel f.zone)
        (∀ v', b.judge v = .value v' →
          u.hold = s.hold ∧ u.log = s.log ∧
          (s.posted.length < 8 ∧ s.waiting = [] →
            idle ∧ u.store = s.store.writeThrough f.cell v' ∧
              u.posted = s.posted ++ [{ addr := f.cell, width := .w2, data := cellData v', origin := .release, checked := true,
                                        zone := some f.zone, inFlight := false, ahead := false }]) ∧
          (¬(s.posted.length < 8 ∧ s.waiting = []) →
            u.force.get e = { old with state := .releasing, retry := .stopped } ∧ u.posted = s.posted ∧ u.store = s.store ∧
              u.sweep = s.sweep.map (fun x => { x with work := .placing }) ∧ u.agenda = s.agenda ∧
              u.waiting = s.waiting ++ [{ source := .engine e, addr := f.cell, width := .w2, data := cellData v', checked := true,
                                          zone := some f.zone }])) ∧
        (b.judge v = .refuse →
          idle ∧ u.posted = s.posted ∧ u.hold = s.hold ∧ u.log = s.logged [State.cellSaid .holdDiscarded f.zone f.cell v]) ∧
        (b.judge v = .hold → u.posted = s.posted ∧ u.store = s.store ∧
          u.force.get e = { old with state := .idle, prior := none, last := none, retry := .stopped } ∧ u.sweep = boundary ∧
          u.agenda = s.agenda ++ [.entryIdle e, .engineGo] ∧
          ((∃ h ∈ s.hold, h.cell = f.cell) →
            u.hold = s.hold ∧ u.log = s.logged [State.cellSaid .holdDiscarded f.zone f.cell v]) ∧
          ((∀ h ∈ s.hold, h.cell ≠ f.cell) → s.hold.length < 8 →
            u.log = s.logged [State.cellSaid .holdEntered f.zone f.cell v] ∧
              u.hold = s.hold ++ [{ cell := f.cell, value := v, zone := f.zone, profile := w.profile, origin := .part,
                                    entered := s.time.seconds,
                                    expiry := s.time.seconds + (s.cfg.profiles.get w.profile).holdLimit, releasing := false }]) ∧
          ((∀ h ∈ s.hold, h.cell ≠ f.cell) → 8 ≤ s.hold.length →
            u.hold = s.hold ∧ u.log = s.logged [State.cellSaid .holdFull f.zone f.cell v]))

/-- The retry timer's expiry leaves it at rest and, while the entry's zone is forcing, requests an apply sweep for the zone, taken by
the cases of R135 (R131, R135, R141). -/
def Obligations.RetryTimerExpires : Prop :=
  ∀ (s : State) (e : Fin 16), (s.force.get e).retry = .due →
    ∃ u : State, exec (.retryTimerExpiry e) s = .next u.finish ∧
      u.force = s.force.set e { s.force.get e with retry := .rested } ∧ u.zones = s.zones ∧ u.posted = s.posted ∧
      u.hold = s.hold ∧ u.responses = s.responses ∧ u.log = s.log ∧
      ∀ f, s.cfg.forces.get e = some f →
        ((s.zones.get f.zone).state.forcing = false ∨ s.mode ≠ .run →
          u.requests = s.requests ∧ u.sweep = s.sweep ∧ u.agenda = s.agenda) ∧
          ((s.zones.get f.zone).state.forcing = true → s.mode = .run →
            u.requests = (s.takeSweepRequest f.zone .apply).requests ∧ u.sweep = (s.takeSweepRequest f.zone .apply).sweep ∧
              u.agenda = s.agenda ++ [.engineGo] ∧
              (s.sweep = none → s.pendingSweep f.zone = none → u.requests = s.requests ++ [{ zone := f.zone, kind := .apply }]))

/-! ## The downstream port -/

/-- A transfer in flight completes at memory's answer, which stops the timeout and frees the port, or at the timeout, which is a FAULT and
sends the port to SETTLING; the outcome is taken at its requester; a force write that faults makes its cell invalid and counts a failed
attempt. A fill read that settles an abandoned claim of the write checker ends it, and the lookup held back behind it is made at that event
(R103, R113, R117), the fill having gone on first (DEDUCED, log 9). An answer with no transfer in flight is late and changes nothing (R72,
R75, R107, R108, R111, R139, R140, R150, R154 to R156, R173, R174). That a FAULT marks the unused area's item again, as any other, is the
model's choice (log 42). -/
def Obligations.TransferCompletes : Prop :=
  (∀ (s : State) (x : Transfer), s.port.state = .busy x →
    (∀ done data, ∃ u : State, exec (.memoryAnswer done data) s = .next u.finish ∧ u.port.state = .idle ∧
      u.port.timeout = .stopped ∧ s.outcomeTaken x done data u) ∧
    (s.port.timeout = .due → ∃ u : State, exec .downstreamTimeout s = .next u.finish ∧ u.port.state = .settling ∧
      u.port.timeout = .stopped ∧ u.port.settleDue = false ∧ s.outcomeTaken x false 0#32 u)) ∧
  ∀ (s : State) (done : Bool) (data : Data), s.port.state = .idle ∨ s.port.state = .settling →
    exec (.memoryAnswer done data) s = .next s

/-- Each requester presents its transfer: the force engine its force write, the fill the read at its position, the transit unit its oldest
posted entry or a read whose predecessors have left, the report writer the next four bytes of its snapshot. The arbiter grants the
presented transfer of highest rank where the port is IDLE and starts the timeout, and grants nothing while it is not; the ranks are the
force engine and the fills, an aged report write, the transit stream, the report writer. A grant writes a force write through to the cell
store, puts a transit transfer in flight, and stops and clears the aging of a report write; a report write left waiting starts its aging
timer; nothing else changes. Whether the grant comes before or after a force engine that has a settlement to take is free (log 9).
SETTLING ends in IDLE, and an aging timer that expires marks the report write (R72, R75, R106, R110, R139, R150 to R153, R155, R173). -/
def Obligations.PortGrants : Prop :=
  (∀ s : State, s.port.state ≠ .idle → s.arbitrate.port.state = s.port.state ∧ s.arbitrate.store = s.store ∧
    s.arbitrate = { s with port := { s.port with
      aging := if s.reportTransfer.isSome = true ∧ s.reportInFlight = false ∧ s.port.aging = .stopped ∧ s.port.aged = false
        then .running 20 else s.port.aging } }) ∧
  (∀ s : State, s.presented = [] → s.arbitrate = s) ∧
  (∀ (s : State) (x : Transfer) (rest : List Transfer), s.port.state = .idle → s.presented = x :: rest → s.engineComing = false →
    s.arbitrate.port.state = .busy x ∧ s.arbitrate.port.timeout = .running 1 ∧
    s.arbitrate = { s with
      port := { s.port with
        state := .busy x
        timeout := .running 1
        aging := if x.who = .report then .stopped
          else if s.reportTransfer.isSome = true ∧ s.port.aging = .stopped ∧ s.port.aged = false then .running 20 else s.port.aging
        aged := s.port.aged && decide (x.who ≠ .report) }
      store := if x.who = .engine then s.store.writeThrough x.addr (cellValue x.data) else s.store
      posted := if x.who = .transit ∧ x.write = true then
          (match s.posted with | p :: more => { p with inFlight := true } :: more | [] => [])
        else s.posted
      upstream := if x.who = .transit ∧ x.write = false then
          (match s.upstream with | .reading a w z _ => .reading a w z true | held => held)
        else s.upstream }) ∧
  (∀ (s : State) (x : Transfer) (rest : List Transfer), s.port.state = .idle → s.presented = x :: rest → s.engineComing = true →
    s.arbitrate.port.state = .busy x ∨ s.arbitrate.port.state = .idle) ∧
  (∀ s : State, s.presented = s.engineTransfer.toList ++ s.fillTransfer.toList ++
    (if s.port.aged then s.reportTransfer.toList else []) ++ s.transitTransfer.toList ++ s.reportTransfer.toList) ∧
  (∀ s : State,
    let oldest : Option Transfer := s.posted.head?.map (fun p =>
      { who := .transit, write := true, addr := p.addr, width := p.width, data := p.data })
    (∀ a w z flying, s.upstream = .reading a w z flying →
      ((∃ p ∈ s.posted, p.ahead = true) → s.transitTransfer = oldest) ∧
        ((∀ p ∈ s.posted, p.ahead = false) →
          s.transitTransfer = some { who := .transit, write := false, addr := a, width := w, data := 0#32 })) ∧
      ((∀ a w z flying, s.upstream ≠ .reading a w z flying) → s.transitTransfer = oldest)) ∧
  (∀ s : State,
    (∀ w e f, s.sweep = some w → w.work = .writing → s.sweepEntry = some e → s.cfg.forces.get e = some f →
      s.engineTransfer = some { who := .engine, write := true, addr := f.cell, width := .w2, data := cellData f.forced }) ∧
      ((∀ w, s.sweep = some w → w.work ≠ .writing) → s.engineTransfer = none) ∧
      (∀ a, s.store.readAddress = some a →
        s.fillTransfer = some { who := .fill, write := false, addr := a, width := .w2, data := 0#32 }) ∧
      (s.store.readAddress = none → s.fillTransfer = none) ∧
      (∀ k, s.store.fill = some k → k.reading = true →
        s.store.readAddress = some (cellAt (((s.store.lines.get k.line).tag).getD 0#24) k.pos)) ∧
      ((∀ k, s.store.fill = some k → k.reading = false) → s.store.readAddress = none) ∧
      (∀ i snapshot off b, s.writer = .writing i snapshot off → s.cfg.reportBase = some b →
        s.reportTransfer = some { who := .report, write := true, addr := b + BitVec.ofNat 24 ((Item.at i).offset + off), width := .w4,
                                  data := BitVec.ofNat 32 (leValue ((snapshot.drop off).take 4)) }) ∧
      (s.writer = .idle ∨ s.cfg.reportBase = none → s.reportTransfer = none)) ∧
  (∀ s : State, s.port.state = .settling → s.port.settleDue = true →
    exec .settlingEnd s = .next { s with port := { s.port with state := .idle, settleDue := false } }.finish) ∧
  ∀ s : State, s.port.aging = .due →
    exec .reportAgingExpiry s = .next { s with port := { s.port with aging := .stopped, aged := true } }.finish

/-! ## The report region and the event log -/

/-- The layout of a record: sixteen bytes, multi-byte fields least significant byte first, with the codes of the kinds; READ_LOG returns
each record in it, and the record's log slot holds it (R177). -/
def Obligations.RecordLayout : Prop :=
  (∀ r : Record, r.bytes.length = 16 ∧
    leValue (r.bytes.take 2) = r.seq.toNat ∧ r.bytes[2]? = some (BitVec.ofNat 8 r.kind.code) ∧
    r.bytes[3]? = some (match r.zone with | some z => BitVec.ofNat 8 z.val | none => 0xFF#8) ∧
    leValue ((r.bytes.drop 4).take 4) = r.time % 2 ^ 32 ∧ leValue ((r.bytes.drop 8).take 4) = r.subject.getD 0 % 2 ^ 32 ∧
    leValue ((r.bytes.drop 12).take 2) = r.value.getD 0 % 2 ^ 16 ∧ r.bytes[14]? = some (BitVec.ofNat 8 r.repeats) ∧
    ∃ flags, r.bytes[15]? = some flags ∧ flags.getLsbD 0 = r.gap ∧ flags.getLsbD 1 = r.subject.isSome ∧
      flags.getLsbD 2 = r.value.isSome ∧ flags.toNat < 8) ∧
  [EventKind.zoneState, .causeSet, .causeClear, .acknowledged, .channelFault, .channelLive, .testBegin, .testEnd, .spillWet, .spillDry,
    .fanFailed, .fanProven, .forceFailed, .forceRecovered, .writeRefused, .writeAbsorbed, .misaligned, .holdEntered, .holdFull,
    .holdDiscarded, .writeFault, .readFault, .fillFault, .reportFault, .holdExpired, .restart, .configFallback].map EventKind.code =
    [1, 2, 3, 4, 5, 6, 7, 8, 9, 10, 11, 12, 13, 14, 32, 33, 34, 35, 36, 37, 38, 39, 40, 41, 42, 64, 65] ∧
  (∀ s : State, s.logBytes = BitVec.ofNat 8 s.log.records.length :: s.log.records.flatMap Record.bytes) ∧
  ∀ (s : State) (r : Record), s.log.sound → r ∈ s.log.records →
    s.itemBytes (.slot ⟨r.seq.toNat % 32, Nat.mod_lt _ (by decide)⟩) = r.bytes

/-- An append: a refusal that repeats the newest record's kind, zone and subject is counted on it, saturating at 255, removes nothing and
marks its slot, unless the count was 255 already; any other append joins as the newest record with the next sequence, the oldest of 32
leaving first and the gap flag telling so, and marks the header and its slot (R176, R178, R179). That the header is marked before the slot
is the model's choice (log 20). -/
def Obligations.LogAppend : Prop :=
  ∀ (s : State) (kind : EventKind) (zone : Option (Fin 4)) (subject value : Option Nat),
    let t := s.append kind zone subject value
    (∀ before r, s.log.records = before ++ [r] → (kind = .writeRefused ∨ kind = .writeAbsorbed) → r.kind = kind → r.zone = zone →
      r.subject = subject →
      (r.repeats < 255 →
        t = { s with log := { s.log with records := before ++ [{ r with repeats := r.repeats + 1 }] } }.mark (itemSlot r.seq)) ∧
        (255 ≤ r.repeats → t = s)) ∧
    ((kind ≠ .writeRefused ∧ kind ≠ .writeAbsorbed) ∨ s.log.records = [] ∨
        (∃ before r, s.log.records = before ++ [r] ∧ (r.kind ≠ kind ∨ r.zone ≠ zone ∨ r.subject ≠ subject)) →
      let own : State := { s with
        log := { s.log with
          records := (if 32 ≤ s.log.records.length then s.log.records.drop 1 else s.log.records) ++
            [{ seq := s.log.nextSeq, kind := kind, zone := zone, time := s.time.seconds, subject := subject, value := value,
               repeats := 1, gap := decide (32 ≤ s.log.records.length) }]
          nextSeq := s.log.nextSeq + 1#16 } }
      t = (own.mark itemHeader).mark (itemSlot s.log.nextSeq)) ∧
    (s.log.sound → s.log.records.length = 32 → ∀ r, s.log.records.head? = some r → s.log.nextSeq = r.seq + 32#16) ∧
    t.log = s.log.add s.time.seconds { kind := kind, zone := zone, subject := subject, value := value } ∧
    t.zones = s.zones ∧ t.posted = s.posted ∧ t.hold = s.hold ∧ t.responses = s.responses

/-- A log clear: EMPTY on an empty log, CLEARED where the sequence is the newest record's, which removes every record, STALE otherwise; the
header is marked whatever the result, no record is appended, and the next sequence and the fault latch stay (R180). -/
def Obligations.LogClear : Prop :=
  ∀ (s : State) (seq : Half),
    let t := s.logClear seq
    (s.log.records = [] → t = { s with log := { s.log with lastClear := .empty } }.mark itemHeader) ∧
    (∀ before r, s.log.records = before ++ [r] → r.seq = seq →
      t = { s with log := { s.log with records := [], clearedThrough := seq, lastClear := .cleared } }.mark itemHeader) ∧
    ∀ before r, s.log.records = before ++ [r] → r.seq ≠ seq →
      t = { s with log := { s.log with lastClear := .stale } }.mark itemHeader

/-- The items tile the 1 KB region in ascending offset (R170). A mark in RUN sets the item's mark, and an IDLE writer takes at once the
first marked item after the one it last started, clears its mark and keeps its bytes as they stand; outside RUN nothing is marked (R170,
R173, R175). The layouts of the header, of the zone, channel, tach and spill line records and of the hold queue mirror, least significant
byte first, with zeros in every byte that has no field (R130, R171, R172). That a value whose presence bit is clear reads 0 in the channel
and tach records is the model's choice (log 40), and that a hold entry whose expiry has not been taken yet shows 1 second and such a
purge, refresh or delay timer 0 (log 5). -/
def Obligations.ReportRegion : Prop :=
  (Item.at 0).offset = 0 ∧
  (∀ i j : Fin 67, i.val + 1 = j.val → (Item.at j).offset = (Item.at i).offset + (Item.at i).size) ∧
  (Item.at 66).offset + (Item.at 66).size = 1024 ∧
  (∀ (s : State) (i : Item), (s.itemBytes i).length = i.size) ∧
  (∀ (s : State) (i : Fin 67), s.mode = .run → s.writer = .idle →
    (State.writerOrder s.lastItem).find? (fun j => s.marks.get j) = some i →
    s.chooseItem.writer = .writing i (s.itemBytes (Item.at i)) 0 ∧ s.chooseItem.marks = s.marks.set i false ∧
      s.chooseItem.lastItem = some i) ∧
  (∀ i : Fin 67, State.writerOrder none = indices 67 ∧
    State.writerOrder (some i) = (indices 67).filter (fun j => decide (i.val < j.val)) ++
      (indices 67).filter (fun j => decide (j.val ≤ i.val))) ∧
  (∀ (s : State) (i : Fin 67),
    (s.mode ≠ .run → s.mark i = s) ∧
      (s.mode = .run → s.writer ≠ .idle → s.mark i = { s with marks := s.marks.set i true }) ∧
      (s.mode = .run → s.writer = .idle → s.mark i = { s with marks := s.marks.set i true }.chooseItem)) ∧
  (∀ s : State,
    let h := s.itemBytes .header
    fieldOf h 0 2 = 0x0341 ∧ fieldOf h 2 1 = (if s.maint.storing then 2 else 1) ∧
      fieldOf h 3 1 = (match s.log.lastClear with | .none => 0 | .cleared => 1 | .stale => 2 | .empty => 3) ∧
      fieldOf h 4 4 = s.cfg.imageId.toNat ∧ fieldOf h 8 4 = s.time.seconds % 2 ^ 32 ∧ fieldOf h 12 2 = s.log.commitCount % 2 ^ 16 ∧
      fieldOf h 14 2 = (s.log.nextSeq - 1#16).toNat ∧ fieldOf h 16 2 = s.log.clearedThrough.toNat ∧
      fieldOf h 18 1 = s.log.records.length % 2 ^ 8 ∧ fieldOf h 19 1 = s.posted.length % 2 ^ 8 ∧
      fieldOf h 20 1 = s.hold.length % 2 ^ 8 ∧ h.drop 21 = List.replicate 43 0#8) ∧
  (∀ (s : State) (z : Fin 4),
    let r := s.zones.get z
    let b := s.itemBytes (.zone z)
    fieldOf b 0 1 = (match r.state with | .clear => 0 | .alert => 1 | .vent => 2 | .purge => 3 | .lockout => 4) ∧
      fieldOf b 1 1 = r.state.level.val ∧ fieldOf b 2 1 = (if r.unack then 1 else 0) ∧
      fieldOf b 3 1 = (if r.reading.isSome then 1 else 0) + (if r.peak.isSome then 2 else 0) ∧
      (∀ c, (fieldOf b 4 2).testBit c.number = r.causes.has c) ∧ fieldOf b 4 2 < 1024 ∧
      fieldOf b 6 2 = r.reading.getD 0 % 2 ^ 16 ∧ fieldOf b 8 2 = r.peak.getD 0 % 2 ^ 16 ∧ fieldOf b 10 2 = r.purge.shown % 2 ^ 16 ∧
      fieldOf b 12 2 = (if r.refresh = .stopped then 0xFFFF else r.refresh.shown % 2 ^ 16) ∧ b.drop 14 = List.replicate 18 0#8) ∧
  (∀ (s : State) (c : Fin 8),
    let r := s.chans.get c
    let b := s.itemBytes (.channel c)
    fieldOf b 0 1 = (match s.channelState c with | .off => 0 | .warmup => 1 | .live => 2 | .fault => 3 | .test => 4) ∧
      fieldOf b 1 1 = (if r.warm then 1 else 0) + (if r.filter ≠ [] then 2 else 0) + (if r.test.isSome then 4 else 0) +
        (if r.raw.isSome then 8 else 0) ∧
      fieldOf b 2 2 = r.filter.sum / r.filter.length % 2 ^ 16 ∧ fieldOf b 4 2 = r.test.getD 0 % 2 ^ 16 ∧
      fieldOf b 6 2 = (r.raw.map BitVec.toNat).getD 0) ∧
  (∀ (s : State) (t : Fin 8),
    let r := s.tachs.get t
    let b := s.itemBytes (.tach t)
    fieldOf b 0 1 = (match r.state with | .idle => 0 | .proving => 1 | .proven => 2 | .failed => 3) ∧
      fieldOf b 1 1 = (match (s.cfg.tachs.get t).binding with | some e => e.val | none => 0xFF) ∧
      fieldOf b 2 1 = (if r.required then 1 else 0) + (if r.speed.isSome then 2 else 0) ∧
      fieldOf b 3 1 = r.timer.shown % 2 ^ 8 ∧ fieldOf b 4 2 = r.speed.getD 0 % 2 ^ 16 ∧ b.drop 6 = [0#8, 0#8]) ∧
  (∀ (s : State) (l : Fin 12),
    let r := s.spills.get l
    let b := s.itemBytes (.spill l)
    fieldOf b 0 1 = (match (s.cfg.spills.get l).zone with | some z => z.val | none => 0xFF) ∧
      fieldOf b 1 1 = (if r.wet then 1 else 0) ∧
      fieldOf b 2 1 = (match r.last with | some true => 1 | some false => 0 | none => 0xFF) ∧ fieldOf b 3 1 = r.run % 2 ^ 8) ∧
  (∀ (s : State) (k : Nat), s.hold.length ≤ 8 → k < 8 →
    let b := ((s.itemBytes .hold).drop (8 * k)).take 8
    (∀ e, s.hold[k]? = some e →
      fieldOf b 0 3 = e.cell.toNat ∧ fieldOf b 3 1 = e.zone.val ∧ fieldOf b 4 2 = e.value.toNat ∧
        fieldOf b 6 2 = max 1 (e.expiry - s.time.seconds) % 2 ^ 16) ∧
      (s.hold[k]? = none → b = List.replicate 8 0#8)) ∧
  ∀ s : State, s.itemBytes .unused = List.replicate 80 0#8

/-! ## The maintenance port -/

/-- A change of the commissioning line is taken: an assertion moves nothing else; a release ends every test reading at once and leaves the
rest of each channel's record. TEST_END is logged for each channel whose test ends, and each zone takes one report with its new reading
and states (R5 to R7, R10, R16, R19, R36, R37, R189). That the records come in ascending channel number and the reports in ascending zone
number is the model's choice (log 18), and so is the order of the records of one zone event (log 19). -/
def Obligations.CommissioningLineChange : Prop :=
  ∀ (s : State) (level : Bool), s.maint.lineDue = some level →
    ∃ t : State, exec .commissioningLineChange s = .next t ∧ t.maint = { s.maint with line := level, lineDue := none } ∧
      (level = true → t = { s with maint := { s.maint with line := level, lineDue := none } }) ∧
      (level = false → ∀ c, t.chans.get c = { s.chans.get c with test := none }) ∧
      (level = false →
        let testing := (indices 8).filter (fun c => (s.chans.get c).test.isSome)
        ∃ u : State, t = u.finish ∧ u.chans = t.chans ∧ s.samePath u ∧ u.scan = s.scan ∧ u.spills = s.spills ∧ u.tachs = s.tachs ∧
          u.cfg = s.cfg ∧
          (∀ z, s.gasZone u z (testing.any (fun c => (s.cfg.channels.get c).zone == some z)) false) ∧
          (∃ given, u.agenda = s.agenda ++ given ∧
            ∀ n, n ∈ given ↔ ∃ z, State.noticeDue z (s.zones.get z).state (u.zones.get z).state n) ∧
          u.log = s.logged
            (testing.map (fun c => { kind := .testEnd, zone := (s.cfg.channels.get c).zone, subject := some c.val, value := none }) ++
              (indices 4).flatMap (fun z => s.zoneSaid u z)))

/-- The order in which a maintenance command is decided: BAD_COMMAND for a frame that spells none, BUSY in LOADING or while storing,
DENIED where the line is needed and released, BAD_COMMAND where a parameter is out of range; a command refused so changes nothing but
the reply. A frame spells a command by its code and its parameters, least significant byte first; a reply is its code, then its data
(R187, R188). That a frame spelling a command is run as that command is the model's choice (log 31), and that a frame's READ_IMAGE reads a
readable store (log 16), and that the line counts as released until it is first sampled (log 17). -/
def Obligations.MaintenanceOrder : Prop :=
  (∀ s : State, s.alive = true →
    (∀ frame, badFrame frame = true → exec (.unknownCommand frame) s = .next (s.reply .badCommand)) ∧
    (∀ frame c, commandOf frame = some c → exec (.unknownCommand frame) s = exec c s) ∧
    (∀ o n bs, bs.length < n.toNat → exec (.writeStage o n bs) s = .next (s.reply .badCommand)) ∧
    (∀ c : Instr, c.isMaintenance = true → c.wf = true → (∀ f, c ≠ .unknownCommand f) → s.mode = .loading ∨ s.maint.storing = true →
      exec c s = .next (s.reply .busy)) ∧
    (s.mode ≠ .loading → s.maint.storing = false →
      (s.maint.line = false →
        (∀ o n bs, n.toNat ≤ bs.length → exec (.writeStage o n bs) s = .next (s.reply .denied)) ∧
          exec .commit s = .next (s.reply .denied) ∧ (∀ c v, exec (.testReading c v) s = .next (s.reply .denied)) ∧
          (∀ c, exec (.endTest c) s = .next (s.reply .denied)) ∧ ∀ z, exec (.acknowledge z) s = .next (s.reply .denied)) ∧
      (∀ o n r, badRange o n = true → exec (.readImage o n r) s = .next (s.reply .badCommand)) ∧
      (s.maint.line = true →
        (∀ o n bs, n.toNat ≤ bs.length → badRange o n = true → exec (.writeStage o n bs) s = .next (s.reply .badCommand)) ∧
          (∀ c v, 7 < c.toNat ∨ 1000 < v.toNat ∨ (s.cfg.channels.get (channelOf c)).zone = none →
            exec (.testReading c v) s = .next (s.reply .badCommand)) ∧
          (∀ c, 7 < c.toNat → exec (.endTest c) s = .next (s.reply .badCommand)) ∧
          ∀ z, 3 < z.toNat → exec (.acknowledge z) s = .next (s.reply .badCommand)))) ∧
  (∀ frame, badFrame frame = true ↔
    ∃ (code : Byte) (params : List Byte), frame = code :: params ∧
      let needs := fun (n : Nat) => params.length < n
      ((code.toNat ∈ [0x01, 0x02, 0x03, 0x11] ∧ needs 0) ∨ (code = 0x04#8 ∧ needs 4) ∨
        (code = 0x10#8 ∧ needs (4 + leValue [params.getD 2 0#8, params.getD 3 0#8])) ∨ (code = 0x12#8 ∧ needs 3) ∨
        (code.toNat ∈ [0x13, 0x14] ∧ needs 1) ∨ code.toNat ∉ [0x01, 0x02, 0x03, 0x04, 0x10, 0x11, 0x12, 0x13, 0x14])) ∧
  (∀ (rest bs : List Byte) (b0 b1 b2 b3 : Byte),
    let two := fun (lo hi : Byte) => (hi ++ lo : Half)
    commandOf (0x01 :: rest) = some .status ∧ commandOf (0x02 :: rest) = some .readLog ∧ commandOf (0x03 :: rest) = some .readStore ∧
      commandOf (0x04 :: b0 :: b1 :: b2 :: b3 :: rest) = some (.readImage (two b0 b1) (two b2 b3) true) ∧
      ((two b2 b3).toNat = bs.length →
        commandOf (0x10 :: b0 :: b1 :: b2 :: b3 :: (bs ++ rest)) = some (.writeStage (two b0 b1) (two b2 b3) bs)) ∧
      commandOf (0x11 :: rest) = some .commit ∧ commandOf (0x12 :: b0 :: b1 :: b2 :: rest) = some (.testReading b0 (two b1 b2)) ∧
      commandOf (0x13 :: b0 :: rest) = some (.endTest b0) ∧ commandOf (0x14 :: b0 :: rest) = some (.acknowledge b0)) ∧
  Reply.none.bytes = [0x00] ∧ (∀ data, (Reply.ok data).bytes = 0x01 :: data) ∧ Reply.busy.bytes = [0x02] ∧
    Reply.denied.bytes = [0x03] ∧ (∀ code, (Reply.rejected code).bytes = [0x04, BitVec.ofNat 8 code]) ∧
    Reply.badCommand.bytes = [0x05] ∧ ∀ (r : Reply) (n : Nat), r.bytes.length ≤ n → r.clocked n = 0#8

/-- The read commands reply OK with a snapshot and change no state of the part: STATUS with the mode, the line and each zone's state,
causes and flag in order, the channels' states, the counts of the posted and the hold queue by origin and store busy; READ_LOG; READ_STORE
with the tag, flags and cells of each line and the LRU order, 272 bytes; READ_IMAGE with the bytes of the store, or zeros where it cannot
be read (R109, R115, R190). That STATUS shows the line asserted, a zone unacknowledged and the store busy by 1, and otherwise 0, is the
model's choice (log 45). -/
def Obligations.ReadCommands : Prop :=
  ∀ s : State, s.served →
    exec .status s = .next (s.reply (.ok s.statusBytes)) ∧ s.statusBytes.length = 37 ∧
    s.statusBytes[0]? = some (if s.mode = .run then 1#8 else 3#8) ∧
    s.statusBytes[1]? = some (if s.maint.line then 1#8 else 0#8) ∧
    (∀ z : Fin 4,
      s.statusBytes[2 + 4 * z.val]? = some (BitVec.ofNat 8 (s.zones.get z).state.code) ∧
      leValue ((s.statusBytes.drop (3 + 4 * z.val)).take 2) = (s.zones.get z).causes.word ∧
      s.statusBytes[5 + 4 * z.val]? = some (if (s.zones.get z).unack then 1#8 else 0#8)) ∧
    (∀ c : Fin 8, s.statusBytes[18 + c.val]? = some (BitVec.ofNat 8 (s.channelState c).code)) ∧
    s.statusBytes[26]? = some (BitVec.ofNat 8 (s.posted.filter (fun p => p.origin == .host)).length) ∧
    s.statusBytes[27]? = some (BitVec.ofNat 8 (s.posted.filter (fun p => p.origin == .release)).length) ∧
    s.statusBytes[28]? = some (BitVec.ofNat 8 (s.hold.filter (fun e => e.origin == .host)).length) ∧
    s.statusBytes[29]? = some (BitVec.ofNat 8 (s.hold.filter (fun e => e.origin == .part)).length) ∧
    s.statusBytes[30]? = some (if s.store.fill.isSome = true ∨ s.store.list ≠ [] then 1#8 else 0#8) ∧
    leValue (s.statusBytes.drop 31 |>.take 4) = s.time.seconds % 2 ^ 32 ∧
    leValue (s.statusBytes.drop 35) = s.log.nextSeq.toNat ∧
    exec .readLog s = .next (s.reply (.ok s.logBytes)) ∧
    exec .readStore s = .next (s.reply (.ok s.storeBytes)) ∧ (s.store.lru.length = 16 → s.storeBytes.length = 272) ∧
    (∀ i : Fin 16,
      let line := s.store.lines.get i
      let b := (s.storeBytes.drop (16 * i.val)).take 16
      fieldOf b 0 3 = (match line.tag with | some g => g.toNat | none => 0) ∧
        b[3]? = some ((if line.tag.isSome then 1#8 else 0#8) + (if line.pinned then 2#8 else 0#8) +
          (if line.filling then 4#8 else 0#8)) ∧
        ∀ k : Fin 4,
          fieldOf b (4 + 3 * k.val) 2 = (line.cells.get k).value.toNat ∧
            b[6 + 3 * k.val]? = some ((if (line.cells.get k).valid then 1#8 else 0#8) +
              (if (line.cells.get k).written then 2#8 else 0#8))) ∧
    (∀ k i, s.store.lru[k]? = some i → s.storeBytes[256 + k]? = some (BitVec.ofNat 8 i.val)) ∧
    ∀ o n r, badRange o n = false →
      exec (.readImage o n r) s = .next (s.reply (.ok (s.imageBytes o n r))) ∧ (s.imageBytes o n r).length = n.toNat ∧
        ∀ i, i < n.toNat → (s.imageBytes o n r)[i]? = some (if r then s.nv.read (o.toNat + i) else 0#8)

/-- WRITE_STAGE copies its bytes into the staging buffer at its offset, byte for byte, leaves every other byte and the rest of the part,
and replies OK (R188, R191). -/
def Obligations.WriteStage : Prop :=
  ∀ (s : State) (o n : Half) (bs : List Byte), s.served → s.maint.line = true → n.toNat ≤ bs.length → badRange o n = false →
    s.staging.wf = true →
    ∃ m : Memory, exec (.writeStage o n bs) s = .next { s with staging := m, maint := { s.maint with reply := .ok [] } } ∧
      m.wf = true ∧
      (∀ i, i < n.toNat → some (m.read (o.toNat + i)) = bs[i]?) ∧
      ∀ a, a < o.toNat ∨ o.toNat + n.toNat ≤ a → m.read a = s.staging.read a

/-- COMMIT checks the staging buffer: REJECTED with the check code changes nothing else; a good buffer replies OK, begins the store write
and, in RUN, marks the header, with the staging buffer and the store as they were. The check code of an image is the first, from 1 to 13, of
a check it does not pass, by the table of R183 over the layout of R182; the CRC-32 is that of R182 and gives its check value (R182, R183,
R192). -/
def Obligations.Commit : Prop :=
  (∀ s : State, s.served → s.maint.line = true →
    (∀ code, s.staging.imageCheck = some code → exec .commit s = .next (s.reply (.rejected code))) ∧
    (s.staging.imageCheck = none →
      let u := State.mark { s with maint := { s.maint with storing := true, reply := .ok [] } } itemHeader
      exec .commit s = .next u.finish ∧ u.finish.maint = { s.maint with storing := true, reply := .ok [] } ∧
        u.finish.staging = s.staging ∧ u.finish.nv = s.nv ∧ s.samePath u ∧ s.sameField u ∧ u.zones = s.zones ∧ u.log = s.log ∧
        (s.mode = .run → u.toWrite itemHeader))) ∧
  (∀ (m : Memory) (code : Nat), m.imageCheck = some code ↔
    1 ≤ code ∧ code ≤ 13 ∧ ¬m.passes code ∧ ∀ c, 1 ≤ c → c < code → m.passes c) ∧
  (∀ m : Memory, m.imageCheck = none ↔ ∀ c, 1 ≤ c → c ≤ 13 → m.passes c) ∧
  crcOver [0x31, 0x32, 0x33, 0x34, 0x35, 0x36, 0x37, 0x38, 0x39] = 0xCBF43926#32

/-- TEST_READING gives a used channel its test concentration, logged by TEST_BEGIN with the zone, the channel and the concentration;
END_TEST takes it away from a channel in TEST, logged by TEST_END with the zone and the channel, and does nothing to another. The reply is
OK. No other field of the channel and no other channel changes, and the zone takes the channel's report (R5 to R7, R10, R16, R35 to R37,
R188, R191). The order of the records of one zone event is the model's choice (log 19). -/
def Obligations.TestReadings : Prop :=
  ∀ (s : State) (c : Byte), s.served → s.maint.line = true → c.toNat ≤ 7 →
    let ch := channelOf c
    let old := s.chans.get ch
    (∀ (v : Half) (z : Fin 4), (s.cfg.channels.get ch).zone = some z → v.toNat ≤ 1000 →
      ∃ u : State, exec (.testReading c v) s = .next u.finish ∧ u.finish.maint = { s.maint with reply := .ok [] } ∧
        u.finish.chans = u.chans ∧ u.chans = s.chans.set ch { old with test := some v.toNat } ∧ u.channelState ch = .test ∧
        s.samePath u ∧ u.spills = s.spills ∧ u.tachs = s.tachs ∧
        s.gasReported u z (decide (s.channelState ch ≠ .test)) false ∧
        u.log = s.logged ({ kind := .testBegin, zone := some z, subject := some ch.val, value := some v.toNat } :: s.zoneSaid u z)) ∧
    ∃ u : State, exec (.endTest c) s = .next u.finish ∧ u.finish.maint = { s.maint with reply := .ok [] } ∧
      u.finish.chans = u.chans ∧ u.chans = s.chans.set ch { old with test := none } ∧ s.samePath u ∧ u.spills = s.spills ∧
      u.tachs = s.tachs ∧ (old.test = none → u.zones = s.zones ∧ u.log = s.log) ∧
      (old.test.isSome = true → (s.cfg.channels.get ch).zone = none → u.zones = s.zones ∧
        u.log = s.logged [{ kind := .testEnd, zone := none, subject := some ch.val, value := none }]) ∧
      ∀ z, old.test.isSome = true → (s.cfg.channels.get ch).zone = some z →
        s.gasReported u z true false ∧
          u.log = s.logged ({ kind := .testEnd, zone := some z, subject := some ch.val, value := none } :: s.zoneSaid u z)

/-! ## What no other command writes -/

/-- Only the commands of power, LOADING and the store write change the supply, the RESET line, the mode, the settings, the non-volatile
store or the hold levels. But for power and LOADING: the time base moves at ticks alone and the seconds at the 1 s tick alone; channel
records at their own events, test readings and the warm-up count alone; readings at the channels' events alone; spill records at their
samples and the 100 ms tick alone; tach counts and speeds at pulses and windows alone; the staging buffer at WRITE_STAGE alone; the host
bus reset at its own two events alone; the maintenance unit at its commands, the 1 ms tick and the line alone (R1, R26, R37, R42, R48,
R78, R163, R182, R184, R187, R191). A frame that spells a command counts as that command (log 31). -/
def Obligations.OnlyTheirOwnEventsWrite : Prop :=
  ∀ (i : Instr) (s t : State), i.isPower = false → exec i s = .next t →
    let c := i.taken
    s.samePower t ∧
      (c.isTick = false → t.time = s.time) ∧ (c ≠ .tick1s → t.time.seconds = s.time.seconds) ∧
      (c.isChannel = false → c ≠ .tick1s → t.chans = s.chans) ∧
      (c.isChannel = false → ∀ z, (t.zones.get z).reading = (s.zones.get z).reading) ∧
      ((∀ l h, c ≠ .spillSample l h) → c ≠ .tick100ms → t.spills = s.spills) ∧
      ((∀ i, c ≠ .tachPulse i) → (∀ i, c ≠ .windowEvent i) →
        ∀ i, (t.tachs.get i).count = (s.tachs.get i).count ∧ (t.tachs.get i).speed = (s.tachs.get i).speed) ∧
      ((∀ o n bs, c ≠ .writeStage o n bs) → t.staging = s.staging) ∧
      (c ≠ .upstreamReset → c ≠ .upstreamResetRelease → t.busReset = s.busReset) ∧
      (c.isMaintenance = false → (∀ b, c ≠ .tick1ms b) → c ≠ .commissioningLineChange → t.maint = s.maint)
end

