-- ==== Sys2Proof/Laws/Tab.lean ====
section
/-!
SUPPORT. The laws of fixed-size tables.
-/
namespace Sys2Proof.Tab

variable {α β : Type} {n : Nat}

@[simp] theorem get_set_self (t : Tab α n) (i : Fin n) (a : α) : (t.set i a).get i = a := by
  simp [get, set]

theorem get_set_of_ne (t : Tab α n) {i j : Fin n} (h : i ≠ j) (a : α) : (t.set i a).get j = t.get j := by
  have h' : i.val ≠ j.val := fun e => h (Fin.ext e)
  simp [get, set, h']

theorem get_set (t : Tab α n) (i j : Fin n) (a : α) : (t.set i a).get j = if i = j then a else t.get j := by
  by_cases h : i = j
  · subst h; simp
  · simp [h, get_set_of_ne t h]

@[simp] theorem get_map (f : α → β) (t : Tab α n) (i : Fin n) : (t.map f).get i = f (t.get i) := by
  simp [get, map]

@[simp] theorem get_ofFn (f : Fin n → α) (i : Fin n) : (ofFn f).get i = f i := by
  simp [get, ofFn]

@[simp] theorem get_replicate (a : α) (i : Fin n) : (replicate n a).get i = a := by
  simp [get, replicate]

@[simp] theorem get_mapIdx (f : Fin n → α → β) (t : Tab α n) (i : Fin n) : (t.mapIdx f).get i = f i (t.get i) := by
  simp [mapIdx]

/-- Two tables that agree at every number are one table. -/
theorem ext_get {t u : Tab α n} (h : ∀ i, t.get i = u.get i) : t = u := by
  obtain ⟨a, ha⟩ := t
  obtain ⟨b, hb⟩ := u
  have : a = b := by
    apply List.ext_getElem (by rw [ha, hb])
    intro k h1 h2
    exact h ⟨k, by omega⟩
  subst this
  rfl

/-- Writing what is there changes nothing. -/
@[simp] theorem set_get_self (t : Tab α n) (i : Fin n) : t.set i (t.get i) = t := by
  apply ext_get
  intro j
  rw [get_set]
  split
  · next h => rw [h]
  · rfl

end Sys2Proof.Tab
end

