-- ==== Sys2Proof/Laws/Cells.lean ====
section
/-!
SUPPORT. Every operation of the cell store keeps it sound: the LRU order lists each line once, and no two lines hold one tag (R101).
-/
namespace Sys2Proof.Machine.CellStore

/-- Two stores with the same order and the same tags are sound together. -/
theorem sound_of_same {c d : CellStore} (h : c.sound) (hl : d.lru = c.lru)
    (ht : ∀ i, (d.lines.get i).tag = (c.lines.get i).tag) : d.sound := by
  refine ⟨hl ▸ h.1, fun i j g hi hj => h.2 i j g ?_ ?_⟩
  · rw [← ht]; exact hi
  · rw [← ht]; exact hj

/-- Two stores with the same lines and the same order are sound together. -/
theorem sound_of_eq {c d : CellStore} (h : c.sound) (hl : d.lines = c.lines) (ho : d.lru = c.lru) : d.sound :=
  sound_of_same h ho (fun i => by rw [hl])

theorem touch_perm {l : List (Fin 16)} (h : l.Perm (indices 16)) (i : Fin 16) :
    (i :: l.filter (fun j => j != i)).Perm (indices 16) := by
  have hn : l.Nodup := h.nodup_iff.2 (List.nodup_finRange 16)
  rw [List.perm_ext_iff_of_nodup ?_ (List.nodup_finRange 16)]
  · intro a
    simp only [List.mem_cons, List.mem_filter, bne_iff_ne, ne_eq, List.mem_finRange, iff_true]
    by_cases ha : a = i
    · exact Or.inl ha
    · exact Or.inr ⟨h.mem_iff.2 (List.mem_finRange a), ha⟩
  · rw [List.nodup_cons]
    exact ⟨by simp, hn.filter _⟩

theorem touch_sound {c : CellStore} (h : c.sound) (i : Fin 16) : (c.touch i).sound :=
  ⟨touch_perm h.1 i, h.2⟩

/-- A line changed without its tag keeps the store sound. -/
theorem setLine_sound {c : CellStore} (h : c.sound) (i : Fin 16) {l : Line} (ht : l.tag = (c.lines.get i).tag) :
    (c.setLine i l).sound := by
  refine sound_of_same (c := c) h rfl (fun j => ?_)
  simp only [setLine, Tab.get_set]
  split
  · next e => rw [ht, e]
  · rfl

theorem setCell_sound {c : CellStore} (h : c.sound) (i : Fin 16) (k : Fin 4) (r : CellRec) : (c.setCell i k r).sound :=
  setLine_sound h i rfl

/-- `find` answers a line that holds the tag. -/
theorem find_some {c : CellStore} {g : Addr} {i : Fin 16} (h : c.find g = some i) : (c.lines.get i).tag = some g := by
  have := List.find?_some h
  simpa using this

/-- Where `find` answers none, no line holds the tag. -/
theorem find_none {c : CellStore} {g : Addr} (h : c.find g = none) (i : Fin 16) : (c.lines.get i).tag ≠ some g := by
  have := List.find?_eq_none.1 h i (List.mem_finRange i)
  simpa using this

/-- A tag that no line holds can be given to a line. -/
theorem retag_sound {c : CellStore} (h : c.sound) {g : Addr} (hg : c.find g = none) (i : Fin 16) {l : Line}
    (ht : l.tag = some g) : (c.setLine i l).sound := by
  refine ⟨h.1, fun a b x ha hb => ?_⟩
  simp only [setLine, Tab.get_set] at ha hb
  by_cases hia : i = a <;> by_cases hib : i = b
  · rw [← hia, ← hib]
  · rw [if_pos hia, ht] at ha
    rw [if_neg hib] at hb
    exact absurd (by rw [hb, ← ha]) (find_none hg b)
  · rw [if_pos hib, ht] at hb
    rw [if_neg hia] at ha
    exact absurd (by rw [ha, ← hb]) (find_none hg a)
  · rw [if_neg hia] at ha
    rw [if_neg hib] at hb
    exact h.2 a b x ha hb

theorem onClaims_sound {c : CellStore} (h : c.sound) (p : Claim → Bool) (g : ClaimStage) : (c.onClaims p g).sound := h

theorem endFill_sound {c : CellStore} (h : c.sound) (f : Fill) : (c.endFill f).sound :=
  setLine_sound (c := c) h f.line (l := { c.lines.get f.line with filling := false, cells := _ }) rfl

theorem beginFill_sound {c : CellStore} (h : c.sound) (i : Fin 16) (g : Addr) (k : Fin 4) : (c.beginFill i g k).sound :=
  setLine_sound (c := c) h i (l := { c.lines.get i with filling := true }) rfl

theorem settleRequest_sound {c : CellStore} (h : c.sound) (r : FillRequest) (v : Half) : (c.settleRequest r v).sound := by
  unfold settleRequest; split <;> exact h

theorem startRequest_sound {c : CellStore} (h : c.sound) (r : FillRequest) : (c.startRequest r).sound := by
  unfold startRequest
  split
  · next i hi =>
    dsimp only
    split
    · split
      · exact touch_sound (settleRequest_sound h _ _) _
      · exact beginFill_sound (touch_sound h _) _ _ _
    · split
      · exact touch_sound (settleRequest_sound h _ _) _
      · exact beginFill_sound (touch_sound h _) _ _ _
    · split
      · exact h
      · exact beginFill_sound h _ _ _
    · split <;> split
      · exact settleRequest_sound h _ _
      · exact beginFill_sound (settleRequest_sound h _ _) _ _ _
      · exact h
      · exact beginFill_sound h _ _ _
  · next hn =>
    split
    · exact beginFill_sound (touch_sound (retag_sound h hn _ rfl) _) _ _ _
    · exact h

theorem advance_sound {q : Addr → Option Half} {c c' : CellStore} (h : c.sound) (ha : c.advance q = some c') : c'.sound := by
  unfold advance at ha
  split at ha
  · split at ha
    · cases ha
    · cases ha
      apply startRequest_sound
      exact sound_of_eq h rfl rfl
  · split at ha
    · cases ha
    · split at ha
      · dsimp only at ha
        split at ha
        · cases ha; exact h
        · split at ha
          · cases ha; exact setCell_sound h _ _ _
          · cases ha; exact h
      · cases ha; exact endFill_sound h _

theorem runFills_sound (q : Addr → Option Half) (n : Nat) {c : CellStore} (h : c.sound) : (runFills q n c).sound := by
  induction n generalizing c with
  | zero => exact h
  | succ n ih =>
    unfold runFills
    split
    · next c' hc => exact ih (advance_sound h hc)
    · exact h

theorem settleFills_sound {c : CellStore} (h : c.sound) (q : Addr → Option Half) : (c.settleFills q).sound :=
  runFills_sound q _ h

theorem addClaim_sound {c : CellStore} (h : c.sound) (who : Claimant) (a : Addr) : (c.addClaim who a).sound := by
  cases who <;> simp only [addClaim] <;> (repeat' split) <;> exact h

theorem lookup_sound {c : CellStore} (h : c.sound) (q : Addr → Option Half) (who : Claimant) (a : Addr) :
    (c.lookup q who a).2.sound := by
  unfold lookup
  split
  · dsimp only
    split
    · exact touch_sound h _
    · exact settleFills_sound (addClaim_sound (touch_sound h _) _ _) _
  · exact settleFills_sound (addClaim_sound h _ _) _

theorem writeThrough_sound {c : CellStore} (h : c.sound) (a : Addr) (v : Half) : (c.writeThrough a v).sound := by
  unfold writeThrough
  split
  · exact setCell_sound h _ _ _
  · exact h

theorem repair_sound {c : CellStore} (h : c.sound) (i : Fin 16) (g : Addr) (k : Fin 4) : (c.repair i g k).sound := by
  unfold repair; split <;> exact h

theorem invalidate_sound {c : CellStore} (h : c.sound) (q : Addr → Option Half) (a : Addr) : (c.invalidate q a).sound := by
  unfold invalidate
  split
  · exact settleFills_sound (repair_sound (setCell_sound h _ _ _) _ _ _) _
  · exact h

theorem correct_sound {c : CellStore} (h : c.sound) (q : Addr → Option Half) (a : Addr) (v : Option Half) :
    (c.correct q a v).sound := by
  unfold correct
  split
  · split
    · exact setCell_sound h _ _ _
    · exact h
  · exact invalidate_sound h _ _

theorem readDone_sound {c : CellStore} (h : c.sound) (q : Addr → Option Half) (v : Half) : (c.readDone q v).sound := by
  unfold readDone
  split
  · next f _ =>
    split
    · apply settleFills_sound
      apply onClaims_sound
      exact sound_of_eq (setCell_sound h f.line _ _) rfl rfl
    · exact h
  · exact h

theorem readFault_sound {c : CellStore} (h : c.sound) (q : Addr → Option Half) : (c.readFault q).sound := by
  unfold readFault
  split
  · split
    · exact settleFills_sound (endFill_sound (onClaims_sound (onClaims_sound h _ _) _ _) _) _
    · exact h
  · exact h

theorem dropClaim_sound {c : CellStore} (h : c.sound) (who : Claimant) : (c.dropClaim who).sound := by
  cases who <;> exact h

theorem abandon_sound {c : CellStore} (h : c.sound) : c.abandon.sound := h

theorem initial_sound : CellStore.initial.sound :=
  ⟨List.Perm.refl _, fun i j g hi => by simp [CellStore.initial, Line.empty] at hi⟩

theorem pin_sound {c : CellStore} (h : c.sound) (a : Addr) : (c.pin a).sound := by
  unfold pin
  split
  · exact h
  · next hn =>
    split
    · exact retag_sound h hn _ rfl
    · exact h

theorem pins_sound (pins : List Addr) {c : CellStore} (h : c.sound) : (pins.foldl pin c).sound := by
  induction pins generalizing c with
  | nil => exact h
  | cons a rest ih => exact ih (pin_sound h a)

theorem atRun_sound (q : Addr → Option Half) (pins : List Addr) : (atRun q pins).sound := by
  apply settleFills_sound
  exact sound_of_eq (pins_sound pins initial_sound) rfl rfl

end Sys2Proof.Machine.CellStore
end

