-- ==== Sys2Proof/Laws/State.lean ====
section
/-!
SUPPORT. What each named update of the state leaves alone, field by field, and the field it writes.
Each `_frame` theorem is a conjunction, so that simp takes it as one rewrite rule for each field.
-/
namespace Sys2Proof.Machine.State

/-- `chooseItem` writes marks and writer and lastItem alone. -/
@[simp] theorem chooseItem_frame (s : State) :
      (s.chooseItem).pending = s.pending ∧ (s.chooseItem).supply = s.supply ∧ (s.chooseItem).resetLine = s.resetLine ∧
      (s.chooseItem).busReset = s.busReset ∧
      (s.chooseItem).mode = s.mode ∧ (s.chooseItem).time = s.time ∧ (s.chooseItem).cfg = s.cfg ∧ (s.chooseItem).zones = s.zones ∧
      (s.chooseItem).chans = s.chans ∧ (s.chooseItem).scan = s.scan ∧ (s.chooseItem).spills = s.spills ∧ (s.chooseItem).tachs = s.tachs ∧
      (s.chooseItem).windowOpen = s.windowOpen ∧ (s.chooseItem).upstream = s.upstream ∧ (s.chooseItem).hostWaiting = s.hostWaiting ∧
      (s.chooseItem).responses = s.responses ∧
      (s.chooseItem).posted = s.posted ∧ (s.chooseItem).waiting = s.waiting ∧ (s.chooseItem).checker = s.checker ∧
      (s.chooseItem).store = s.store ∧
      (s.chooseItem).hold = s.hold ∧ (s.chooseItem).force = s.force ∧ (s.chooseItem).sweep = s.sweep ∧
      (s.chooseItem).requests = s.requests ∧
      (s.chooseItem).port = s.port ∧ (s.chooseItem).lines = s.lines ∧ (s.chooseItem).log = s.log ∧ (s.chooseItem).maint = s.maint ∧
      (s.chooseItem).staging = s.staging ∧ (s.chooseItem).nv = s.nv ∧ (s.chooseItem).agenda = s.agenda ∧
      (s.chooseItem).choices = s.choices := by
  unfold chooseItem; split <;> (try split) <;> (try split) <;> simp

/-- `mark` writes marks and writer and lastItem alone. -/
@[simp] theorem mark_frame (s : State) (i : Fin 67) :
      (s.mark i).pending = s.pending ∧ (s.mark i).supply = s.supply ∧ (s.mark i).resetLine = s.resetLine ∧
      (s.mark i).busReset = s.busReset ∧
      (s.mark i).mode = s.mode ∧ (s.mark i).time = s.time ∧ (s.mark i).cfg = s.cfg ∧ (s.mark i).zones = s.zones ∧
      (s.mark i).chans = s.chans ∧ (s.mark i).scan = s.scan ∧ (s.mark i).spills = s.spills ∧ (s.mark i).tachs = s.tachs ∧
      (s.mark i).windowOpen = s.windowOpen ∧ (s.mark i).upstream = s.upstream ∧ (s.mark i).hostWaiting = s.hostWaiting ∧
      (s.mark i).responses = s.responses ∧
      (s.mark i).posted = s.posted ∧ (s.mark i).waiting = s.waiting ∧ (s.mark i).checker = s.checker ∧ (s.mark i).store = s.store ∧
      (s.mark i).hold = s.hold ∧ (s.mark i).force = s.force ∧ (s.mark i).sweep = s.sweep ∧ (s.mark i).requests = s.requests ∧
      (s.mark i).port = s.port ∧ (s.mark i).lines = s.lines ∧ (s.mark i).log = s.log ∧ (s.mark i).maint = s.maint ∧
      (s.mark i).staging = s.staging ∧ (s.mark i).nv = s.nv ∧ (s.mark i).agenda = s.agenda ∧ (s.mark i).choices = s.choices := by
  unfold mark; split <;> simp

/-- `markEvery` writes marks and writer and lastItem alone. -/
@[simp] theorem markEvery_frame (s : State) :
      (s.markEvery).pending = s.pending ∧ (s.markEvery).supply = s.supply ∧ (s.markEvery).resetLine = s.resetLine ∧
      (s.markEvery).busReset = s.busReset ∧
      (s.markEvery).mode = s.mode ∧ (s.markEvery).time = s.time ∧ (s.markEvery).cfg = s.cfg ∧ (s.markEvery).zones = s.zones ∧
      (s.markEvery).chans = s.chans ∧ (s.markEvery).scan = s.scan ∧ (s.markEvery).spills = s.spills ∧ (s.markEvery).tachs = s.tachs ∧
      (s.markEvery).windowOpen = s.windowOpen ∧ (s.markEvery).upstream = s.upstream ∧ (s.markEvery).hostWaiting = s.hostWaiting ∧
      (s.markEvery).responses = s.responses ∧
      (s.markEvery).posted = s.posted ∧ (s.markEvery).waiting = s.waiting ∧ (s.markEvery).checker = s.checker ∧
      (s.markEvery).store = s.store ∧
      (s.markEvery).hold = s.hold ∧ (s.markEvery).force = s.force ∧ (s.markEvery).sweep = s.sweep ∧ (s.markEvery).requests = s.requests ∧
      (s.markEvery).port = s.port ∧ (s.markEvery).lines = s.lines ∧ (s.markEvery).log = s.log ∧ (s.markEvery).maint = s.maint ∧
      (s.markEvery).staging = s.staging ∧ (s.markEvery).nv = s.nv ∧ (s.markEvery).agenda = s.agenda ∧
      (s.markEvery).choices = s.choices := by
  simp [markEvery]

/-- `markAll` writes marks and writer and lastItem alone. -/
@[simp] theorem markAll_frame (s : State) (is : List (Fin 67)) :
      (s.markAll is).pending = s.pending ∧ (s.markAll is).supply = s.supply ∧ (s.markAll is).resetLine = s.resetLine ∧
      (s.markAll is).busReset = s.busReset ∧
      (s.markAll is).mode = s.mode ∧ (s.markAll is).time = s.time ∧ (s.markAll is).cfg = s.cfg ∧ (s.markAll is).zones = s.zones ∧
      (s.markAll is).chans = s.chans ∧ (s.markAll is).scan = s.scan ∧ (s.markAll is).spills = s.spills ∧ (s.markAll is).tachs = s.tachs ∧
      (s.markAll is).windowOpen = s.windowOpen ∧ (s.markAll is).upstream = s.upstream ∧ (s.markAll is).hostWaiting = s.hostWaiting ∧
      (s.markAll is).responses = s.responses ∧
      (s.markAll is).posted = s.posted ∧ (s.markAll is).waiting = s.waiting ∧ (s.markAll is).checker = s.checker ∧
      (s.markAll is).store = s.store ∧
      (s.markAll is).hold = s.hold ∧ (s.markAll is).force = s.force ∧ (s.markAll is).sweep = s.sweep ∧
      (s.markAll is).requests = s.requests ∧
      (s.markAll is).port = s.port ∧ (s.markAll is).lines = s.lines ∧ (s.markAll is).log = s.log ∧ (s.markAll is).maint = s.maint ∧
      (s.markAll is).staging = s.staging ∧ (s.markAll is).nv = s.nv ∧ (s.markAll is).agenda = s.agenda ∧
      (s.markAll is).choices = s.choices := by
  induction is generalizing s with
  | nil => simp [markAll]
  | cons i is ih =>
    have h := ih (s.mark i)
    simp only [mark_frame] at h
    simpa [markAll] using h

/-- `notify` writes agenda alone. -/
@[simp] theorem notify_frame (s : State) (n : Notice) :
      (s.notify n).pending = s.pending ∧ (s.notify n).supply = s.supply ∧ (s.notify n).resetLine = s.resetLine ∧
      (s.notify n).busReset = s.busReset ∧
      (s.notify n).mode = s.mode ∧ (s.notify n).time = s.time ∧ (s.notify n).cfg = s.cfg ∧ (s.notify n).zones = s.zones ∧
      (s.notify n).chans = s.chans ∧ (s.notify n).scan = s.scan ∧ (s.notify n).spills = s.spills ∧ (s.notify n).tachs = s.tachs ∧
      (s.notify n).windowOpen = s.windowOpen ∧ (s.notify n).upstream = s.upstream ∧ (s.notify n).hostWaiting = s.hostWaiting ∧
      (s.notify n).responses = s.responses ∧
      (s.notify n).posted = s.posted ∧ (s.notify n).waiting = s.waiting ∧ (s.notify n).checker = s.checker ∧ (s.notify n).store = s.store ∧
      (s.notify n).hold = s.hold ∧ (s.notify n).force = s.force ∧ (s.notify n).sweep = s.sweep ∧ (s.notify n).requests = s.requests ∧
      (s.notify n).port = s.port ∧ (s.notify n).lines = s.lines ∧ (s.notify n).log = s.log ∧ (s.notify n).marks = s.marks ∧
      (s.notify n).writer = s.writer ∧ (s.notify n).lastItem = s.lastItem ∧ (s.notify n).maint = s.maint ∧
      (s.notify n).staging = s.staging ∧
      (s.notify n).nv = s.nv ∧ (s.notify n).choices = s.choices := by
  simp [notify]

/-- `nextOrder` writes choices alone. -/
@[simp] theorem nextOrder_frame (s : State) :
      (s.nextOrder.2).pending = s.pending ∧ (s.nextOrder.2).supply = s.supply ∧ (s.nextOrder.2).resetLine = s.resetLine ∧
      (s.nextOrder.2).busReset = s.busReset ∧
      (s.nextOrder.2).mode = s.mode ∧ (s.nextOrder.2).time = s.time ∧ (s.nextOrder.2).cfg = s.cfg ∧ (s.nextOrder.2).zones = s.zones ∧
      (s.nextOrder.2).chans = s.chans ∧ (s.nextOrder.2).scan = s.scan ∧ (s.nextOrder.2).spills = s.spills ∧
      (s.nextOrder.2).tachs = s.tachs ∧
      (s.nextOrder.2).windowOpen = s.windowOpen ∧ (s.nextOrder.2).upstream = s.upstream ∧ (s.nextOrder.2).hostWaiting = s.hostWaiting ∧
      (s.nextOrder.2).responses = s.responses ∧
      (s.nextOrder.2).posted = s.posted ∧ (s.nextOrder.2).waiting = s.waiting ∧ (s.nextOrder.2).checker = s.checker ∧
      (s.nextOrder.2).store = s.store ∧
      (s.nextOrder.2).hold = s.hold ∧ (s.nextOrder.2).force = s.force ∧ (s.nextOrder.2).sweep = s.sweep ∧
      (s.nextOrder.2).requests = s.requests ∧
      (s.nextOrder.2).port = s.port ∧ (s.nextOrder.2).lines = s.lines ∧ (s.nextOrder.2).log = s.log ∧ (s.nextOrder.2).marks = s.marks ∧
      (s.nextOrder.2).writer = s.writer ∧ (s.nextOrder.2).lastItem = s.lastItem ∧ (s.nextOrder.2).maint = s.maint ∧
      (s.nextOrder.2).staging = s.staging ∧
      (s.nextOrder.2).nv = s.nv ∧ (s.nextOrder.2).agenda = s.agenda := by
  simp [nextOrder]

/-- `appendRecord` writes log and marks and writer and lastItem alone. -/
@[simp] theorem appendRecord_frame (s : State) (k : EventKind) (z : Option (Fin 4)) (u v : Option Nat) :
      (s.appendRecord k z u v).pending = s.pending ∧ (s.appendRecord k z u v).supply = s.supply ∧
      (s.appendRecord k z u v).resetLine = s.resetLine ∧ (s.appendRecord k z u v).busReset = s.busReset ∧
      (s.appendRecord k z u v).mode = s.mode ∧ (s.appendRecord k z u v).time = s.time ∧ (s.appendRecord k z u v).cfg = s.cfg ∧
      (s.appendRecord k z u v).zones = s.zones ∧
      (s.appendRecord k z u v).chans = s.chans ∧ (s.appendRecord k z u v).scan = s.scan ∧ (s.appendRecord k z u v).spills = s.spills ∧
      (s.appendRecord k z u v).tachs = s.tachs ∧
      (s.appendRecord k z u v).windowOpen = s.windowOpen ∧ (s.appendRecord k z u v).upstream = s.upstream ∧
      (s.appendRecord k z u v).hostWaiting = s.hostWaiting ∧ (s.appendRecord k z u v).responses = s.responses ∧
      (s.appendRecord k z u v).posted = s.posted ∧ (s.appendRecord k z u v).waiting = s.waiting ∧
      (s.appendRecord k z u v).checker = s.checker ∧ (s.appendRecord k z u v).store = s.store ∧
      (s.appendRecord k z u v).hold = s.hold ∧ (s.appendRecord k z u v).force = s.force ∧ (s.appendRecord k z u v).sweep = s.sweep ∧
      (s.appendRecord k z u v).requests = s.requests ∧
      (s.appendRecord k z u v).port = s.port ∧ (s.appendRecord k z u v).lines = s.lines ∧ (s.appendRecord k z u v).maint = s.maint ∧
      (s.appendRecord k z u v).staging = s.staging ∧
      (s.appendRecord k z u v).nv = s.nv ∧ (s.appendRecord k z u v).agenda = s.agenda ∧ (s.appendRecord k z u v).choices = s.choices := by
  simp [appendRecord]

/-- `countRepeat` writes log and marks and writer and lastItem alone. -/
@[simp] theorem countRepeat_frame (s : State) (r : Record) :
      (s.countRepeat r).pending = s.pending ∧ (s.countRepeat r).supply = s.supply ∧ (s.countRepeat r).resetLine = s.resetLine ∧
      (s.countRepeat r).busReset = s.busReset ∧
      (s.countRepeat r).mode = s.mode ∧ (s.countRepeat r).time = s.time ∧ (s.countRepeat r).cfg = s.cfg ∧
      (s.countRepeat r).zones = s.zones ∧
      (s.countRepeat r).chans = s.chans ∧ (s.countRepeat r).scan = s.scan ∧ (s.countRepeat r).spills = s.spills ∧
      (s.countRepeat r).tachs = s.tachs ∧
      (s.countRepeat r).windowOpen = s.windowOpen ∧ (s.countRepeat r).upstream = s.upstream ∧
      (s.countRepeat r).hostWaiting = s.hostWaiting ∧ (s.countRepeat r).responses = s.responses ∧
      (s.countRepeat r).posted = s.posted ∧ (s.countRepeat r).waiting = s.waiting ∧ (s.countRepeat r).checker = s.checker ∧
      (s.countRepeat r).store = s.store ∧
      (s.countRepeat r).hold = s.hold ∧ (s.countRepeat r).force = s.force ∧ (s.countRepeat r).sweep = s.sweep ∧
      (s.countRepeat r).requests = s.requests ∧
      (s.countRepeat r).port = s.port ∧ (s.countRepeat r).lines = s.lines ∧ (s.countRepeat r).maint = s.maint ∧
      (s.countRepeat r).staging = s.staging ∧
      (s.countRepeat r).nv = s.nv ∧ (s.countRepeat r).agenda = s.agenda ∧ (s.countRepeat r).choices = s.choices := by
  unfold countRepeat; split <;> simp

/-- `append` writes log and marks and writer and lastItem alone. -/
@[simp] theorem append_frame (s : State) (k : EventKind) (z : Option (Fin 4)) (u v : Option Nat) :
      (s.append k z u v).pending = s.pending ∧ (s.append k z u v).supply = s.supply ∧ (s.append k z u v).resetLine = s.resetLine ∧
      (s.append k z u v).busReset = s.busReset ∧
      (s.append k z u v).mode = s.mode ∧ (s.append k z u v).time = s.time ∧ (s.append k z u v).cfg = s.cfg ∧
      (s.append k z u v).zones = s.zones ∧
      (s.append k z u v).chans = s.chans ∧ (s.append k z u v).scan = s.scan ∧ (s.append k z u v).spills = s.spills ∧
      (s.append k z u v).tachs = s.tachs ∧
      (s.append k z u v).windowOpen = s.windowOpen ∧ (s.append k z u v).upstream = s.upstream ∧
      (s.append k z u v).hostWaiting = s.hostWaiting ∧ (s.append k z u v).responses = s.responses ∧
      (s.append k z u v).posted = s.posted ∧ (s.append k z u v).waiting = s.waiting ∧ (s.append k z u v).checker = s.checker ∧
      (s.append k z u v).store = s.store ∧
      (s.append k z u v).hold = s.hold ∧ (s.append k z u v).force = s.force ∧ (s.append k z u v).sweep = s.sweep ∧
      (s.append k z u v).requests = s.requests ∧
      (s.append k z u v).port = s.port ∧ (s.append k z u v).lines = s.lines ∧ (s.append k z u v).maint = s.maint ∧
      (s.append k z u v).staging = s.staging ∧
      (s.append k z u v).nv = s.nv ∧ (s.append k z u v).agenda = s.agenda ∧ (s.append k z u v).choices = s.choices := by
  unfold append; split <;> first | (split <;> simp) | simp

/-- `setZone` writes zones and marks and writer and lastItem alone. -/
@[simp] theorem setZone_frame (s : State) (z : Fin 4) (r : ZoneRec) :
      (s.setZone z r).pending = s.pending ∧ (s.setZone z r).supply = s.supply ∧ (s.setZone z r).resetLine = s.resetLine ∧
      (s.setZone z r).busReset = s.busReset ∧
      (s.setZone z r).mode = s.mode ∧ (s.setZone z r).time = s.time ∧ (s.setZone z r).cfg = s.cfg ∧ (s.setZone z r).chans = s.chans ∧
      (s.setZone z r).scan = s.scan ∧ (s.setZone z r).spills = s.spills ∧ (s.setZone z r).tachs = s.tachs ∧
      (s.setZone z r).windowOpen = s.windowOpen ∧
      (s.setZone z r).upstream = s.upstream ∧ (s.setZone z r).hostWaiting = s.hostWaiting ∧ (s.setZone z r).responses = s.responses ∧
      (s.setZone z r).posted = s.posted ∧
      (s.setZone z r).waiting = s.waiting ∧ (s.setZone z r).checker = s.checker ∧ (s.setZone z r).store = s.store ∧
      (s.setZone z r).hold = s.hold ∧
      (s.setZone z r).force = s.force ∧ (s.setZone z r).sweep = s.sweep ∧ (s.setZone z r).requests = s.requests ∧
      (s.setZone z r).port = s.port ∧
      (s.setZone z r).lines = s.lines ∧ (s.setZone z r).log = s.log ∧ (s.setZone z r).maint = s.maint ∧
      (s.setZone z r).staging = s.staging ∧
      (s.setZone z r).nv = s.nv ∧ (s.setZone z r).agenda = s.agenda ∧ (s.setZone z r).choices = s.choices := by
  unfold setZone; dsimp only; split <;> simp

/-- `setChan` writes chans alone. -/
@[simp] theorem setChan_frame (s : State) (c : Fin 8) (r : ChanRec) :
      (s.setChan c r).pending = s.pending ∧ (s.setChan c r).supply = s.supply ∧ (s.setChan c r).resetLine = s.resetLine ∧
      (s.setChan c r).busReset = s.busReset ∧
      (s.setChan c r).mode = s.mode ∧ (s.setChan c r).time = s.time ∧ (s.setChan c r).cfg = s.cfg ∧ (s.setChan c r).zones = s.zones ∧
      (s.setChan c r).scan = s.scan ∧ (s.setChan c r).spills = s.spills ∧ (s.setChan c r).tachs = s.tachs ∧
      (s.setChan c r).windowOpen = s.windowOpen ∧
      (s.setChan c r).upstream = s.upstream ∧ (s.setChan c r).hostWaiting = s.hostWaiting ∧ (s.setChan c r).responses = s.responses ∧
      (s.setChan c r).posted = s.posted ∧
      (s.setChan c r).waiting = s.waiting ∧ (s.setChan c r).checker = s.checker ∧ (s.setChan c r).store = s.store ∧
      (s.setChan c r).hold = s.hold ∧
      (s.setChan c r).force = s.force ∧ (s.setChan c r).sweep = s.sweep ∧ (s.setChan c r).requests = s.requests ∧
      (s.setChan c r).port = s.port ∧
      (s.setChan c r).lines = s.lines ∧ (s.setChan c r).log = s.log ∧ (s.setChan c r).marks = s.marks ∧ (s.setChan c r).writer = s.writer ∧
      (s.setChan c r).lastItem = s.lastItem ∧ (s.setChan c r).maint = s.maint ∧ (s.setChan c r).staging = s.staging ∧
      (s.setChan c r).nv = s.nv ∧
      (s.setChan c r).agenda = s.agenda ∧ (s.setChan c r).choices = s.choices := by
  simp [setChan]

/-- `setTach` writes tachs alone. -/
@[simp] theorem setTach_frame (s : State) (t : Fin 8) (r : TachRec) :
      (s.setTach t r).pending = s.pending ∧ (s.setTach t r).supply = s.supply ∧ (s.setTach t r).resetLine = s.resetLine ∧
      (s.setTach t r).busReset = s.busReset ∧
      (s.setTach t r).mode = s.mode ∧ (s.setTach t r).time = s.time ∧ (s.setTach t r).cfg = s.cfg ∧ (s.setTach t r).zones = s.zones ∧
      (s.setTach t r).chans = s.chans ∧ (s.setTach t r).scan = s.scan ∧ (s.setTach t r).spills = s.spills ∧
      (s.setTach t r).windowOpen = s.windowOpen ∧
      (s.setTach t r).upstream = s.upstream ∧ (s.setTach t r).hostWaiting = s.hostWaiting ∧ (s.setTach t r).responses = s.responses ∧
      (s.setTach t r).posted = s.posted ∧
      (s.setTach t r).waiting = s.waiting ∧ (s.setTach t r).checker = s.checker ∧ (s.setTach t r).store = s.store ∧
      (s.setTach t r).hold = s.hold ∧
      (s.setTach t r).force = s.force ∧ (s.setTach t r).sweep = s.sweep ∧ (s.setTach t r).requests = s.requests ∧
      (s.setTach t r).port = s.port ∧
      (s.setTach t r).lines = s.lines ∧ (s.setTach t r).log = s.log ∧ (s.setTach t r).marks = s.marks ∧ (s.setTach t r).writer = s.writer ∧
      (s.setTach t r).lastItem = s.lastItem ∧ (s.setTach t r).maint = s.maint ∧ (s.setTach t r).staging = s.staging ∧
      (s.setTach t r).nv = s.nv ∧
      (s.setTach t r).agenda = s.agenda ∧ (s.setTach t r).choices = s.choices := by
  simp [setTach]

/-- `setSpill` writes spills and marks and writer and lastItem alone. -/
@[simp] theorem setSpill_frame (s : State) (l : Fin 12) (r : SpillRec) :
      (s.setSpill l r).pending = s.pending ∧ (s.setSpill l r).supply = s.supply ∧ (s.setSpill l r).resetLine = s.resetLine ∧
      (s.setSpill l r).busReset = s.busReset ∧
      (s.setSpill l r).mode = s.mode ∧ (s.setSpill l r).time = s.time ∧ (s.setSpill l r).cfg = s.cfg ∧ (s.setSpill l r).zones = s.zones ∧
      (s.setSpill l r).chans = s.chans ∧ (s.setSpill l r).scan = s.scan ∧ (s.setSpill l r).tachs = s.tachs ∧
      (s.setSpill l r).windowOpen = s.windowOpen ∧
      (s.setSpill l r).upstream = s.upstream ∧ (s.setSpill l r).hostWaiting = s.hostWaiting ∧ (s.setSpill l r).responses = s.responses ∧
      (s.setSpill l r).posted = s.posted ∧
      (s.setSpill l r).waiting = s.waiting ∧ (s.setSpill l r).checker = s.checker ∧ (s.setSpill l r).store = s.store ∧
      (s.setSpill l r).hold = s.hold ∧
      (s.setSpill l r).force = s.force ∧ (s.setSpill l r).sweep = s.sweep ∧ (s.setSpill l r).requests = s.requests ∧
      (s.setSpill l r).port = s.port ∧
      (s.setSpill l r).lines = s.lines ∧ (s.setSpill l r).log = s.log ∧ (s.setSpill l r).maint = s.maint ∧
      (s.setSpill l r).staging = s.staging ∧
      (s.setSpill l r).nv = s.nv ∧ (s.setSpill l r).agenda = s.agenda ∧ (s.setSpill l r).choices = s.choices := by
  unfold setSpill; dsimp only; split <;> simp

/-- `setForce` writes force alone. -/
@[simp] theorem setForce_frame (s : State) (e : Fin 16) (r : ForceRec) :
      (s.setForce e r).pending = s.pending ∧ (s.setForce e r).supply = s.supply ∧ (s.setForce e r).resetLine = s.resetLine ∧
      (s.setForce e r).busReset = s.busReset ∧
      (s.setForce e r).mode = s.mode ∧ (s.setForce e r).time = s.time ∧ (s.setForce e r).cfg = s.cfg ∧ (s.setForce e r).zones = s.zones ∧
      (s.setForce e r).chans = s.chans ∧ (s.setForce e r).scan = s.scan ∧ (s.setForce e r).spills = s.spills ∧
      (s.setForce e r).tachs = s.tachs ∧
      (s.setForce e r).windowOpen = s.windowOpen ∧ (s.setForce e r).upstream = s.upstream ∧ (s.setForce e r).hostWaiting = s.hostWaiting ∧
      (s.setForce e r).responses = s.responses ∧
      (s.setForce e r).posted = s.posted ∧ (s.setForce e r).waiting = s.waiting ∧ (s.setForce e r).checker = s.checker ∧
      (s.setForce e r).store = s.store ∧
      (s.setForce e r).hold = s.hold ∧ (s.setForce e r).sweep = s.sweep ∧ (s.setForce e r).requests = s.requests ∧
      (s.setForce e r).port = s.port ∧
      (s.setForce e r).lines = s.lines ∧ (s.setForce e r).log = s.log ∧ (s.setForce e r).marks = s.marks ∧
      (s.setForce e r).writer = s.writer ∧
      (s.setForce e r).lastItem = s.lastItem ∧ (s.setForce e r).maint = s.maint ∧ (s.setForce e r).staging = s.staging ∧
      (s.setForce e r).nv = s.nv ∧
      (s.setForce e r).agenda = s.agenda ∧ (s.setForce e r).choices = s.choices := by
  simp [setForce]

/-- `setPosted` writes posted and marks and writer and lastItem alone. -/
@[simp] theorem setPosted_frame (s : State) (q : List Posted) :
      (s.setPosted q).pending = s.pending ∧ (s.setPosted q).supply = s.supply ∧ (s.setPosted q).resetLine = s.resetLine ∧
      (s.setPosted q).busReset = s.busReset ∧
      (s.setPosted q).mode = s.mode ∧ (s.setPosted q).time = s.time ∧ (s.setPosted q).cfg = s.cfg ∧ (s.setPosted q).zones = s.zones ∧
      (s.setPosted q).chans = s.chans ∧ (s.setPosted q).scan = s.scan ∧ (s.setPosted q).spills = s.spills ∧
      (s.setPosted q).tachs = s.tachs ∧
      (s.setPosted q).windowOpen = s.windowOpen ∧ (s.setPosted q).upstream = s.upstream ∧ (s.setPosted q).hostWaiting = s.hostWaiting ∧
      (s.setPosted q).responses = s.responses ∧
      (s.setPosted q).waiting = s.waiting ∧ (s.setPosted q).checker = s.checker ∧ (s.setPosted q).store = s.store ∧
      (s.setPosted q).hold = s.hold ∧
      (s.setPosted q).force = s.force ∧ (s.setPosted q).sweep = s.sweep ∧ (s.setPosted q).requests = s.requests ∧
      (s.setPosted q).port = s.port ∧
      (s.setPosted q).lines = s.lines ∧ (s.setPosted q).log = s.log ∧ (s.setPosted q).maint = s.maint ∧
      (s.setPosted q).staging = s.staging ∧
      (s.setPosted q).nv = s.nv ∧ (s.setPosted q).agenda = s.agenda ∧ (s.setPosted q).choices = s.choices := by
  unfold setPosted; dsimp only; split <;> simp

/-- `replaceHold` writes hold and marks and writer and lastItem alone. -/
@[simp] theorem replaceHold_frame (s : State) (q : List HoldEntry) :
      (s.replaceHold q).pending = s.pending ∧ (s.replaceHold q).supply = s.supply ∧ (s.replaceHold q).resetLine = s.resetLine ∧
      (s.replaceHold q).busReset = s.busReset ∧
      (s.replaceHold q).mode = s.mode ∧ (s.replaceHold q).time = s.time ∧ (s.replaceHold q).cfg = s.cfg ∧
      (s.replaceHold q).zones = s.zones ∧
      (s.replaceHold q).chans = s.chans ∧ (s.replaceHold q).scan = s.scan ∧ (s.replaceHold q).spills = s.spills ∧
      (s.replaceHold q).tachs = s.tachs ∧
      (s.replaceHold q).windowOpen = s.windowOpen ∧ (s.replaceHold q).upstream = s.upstream ∧
      (s.replaceHold q).hostWaiting = s.hostWaiting ∧ (s.replaceHold q).responses = s.responses ∧
      (s.replaceHold q).posted = s.posted ∧ (s.replaceHold q).waiting = s.waiting ∧ (s.replaceHold q).checker = s.checker ∧
      (s.replaceHold q).store = s.store ∧
      (s.replaceHold q).force = s.force ∧ (s.replaceHold q).sweep = s.sweep ∧ (s.replaceHold q).requests = s.requests ∧
      (s.replaceHold q).port = s.port ∧
      (s.replaceHold q).lines = s.lines ∧ (s.replaceHold q).log = s.log ∧ (s.replaceHold q).maint = s.maint ∧
      (s.replaceHold q).staging = s.staging ∧
      (s.replaceHold q).nv = s.nv ∧ (s.replaceHold q).agenda = s.agenda ∧ (s.replaceHold q).choices = s.choices := by
  unfold replaceHold; dsimp only; split <;> simp

/-- `setHold` writes hold and marks and writer and lastItem alone. -/
@[simp] theorem setHold_frame (s : State) (q : List HoldEntry) :
      (s.setHold q).pending = s.pending ∧ (s.setHold q).supply = s.supply ∧ (s.setHold q).resetLine = s.resetLine ∧
      (s.setHold q).busReset = s.busReset ∧
      (s.setHold q).mode = s.mode ∧ (s.setHold q).time = s.time ∧ (s.setHold q).cfg = s.cfg ∧ (s.setHold q).zones = s.zones ∧
      (s.setHold q).chans = s.chans ∧ (s.setHold q).scan = s.scan ∧ (s.setHold q).spills = s.spills ∧ (s.setHold q).tachs = s.tachs ∧
      (s.setHold q).windowOpen = s.windowOpen ∧ (s.setHold q).upstream = s.upstream ∧ (s.setHold q).hostWaiting = s.hostWaiting ∧
      (s.setHold q).responses = s.responses ∧
      (s.setHold q).posted = s.posted ∧ (s.setHold q).waiting = s.waiting ∧ (s.setHold q).checker = s.checker ∧
      (s.setHold q).store = s.store ∧
      (s.setHold q).force = s.force ∧ (s.setHold q).sweep = s.sweep ∧ (s.setHold q).requests = s.requests ∧ (s.setHold q).port = s.port ∧
      (s.setHold q).lines = s.lines ∧ (s.setHold q).log = s.log ∧ (s.setHold q).maint = s.maint ∧ (s.setHold q).staging = s.staging ∧
      (s.setHold q).nv = s.nv ∧ (s.setHold q).agenda = s.agenda ∧ (s.setHold q).choices = s.choices := by
  unfold setHold; split <;> simp

/-- `setStore` writes store alone. -/
@[simp] theorem setStore_frame (s : State) (c : CellStore) :
      (s.setStore c).pending = s.pending ∧ (s.setStore c).supply = s.supply ∧ (s.setStore c).resetLine = s.resetLine ∧
      (s.setStore c).busReset = s.busReset ∧
      (s.setStore c).mode = s.mode ∧ (s.setStore c).time = s.time ∧ (s.setStore c).cfg = s.cfg ∧ (s.setStore c).zones = s.zones ∧
      (s.setStore c).chans = s.chans ∧ (s.setStore c).scan = s.scan ∧ (s.setStore c).spills = s.spills ∧ (s.setStore c).tachs = s.tachs ∧
      (s.setStore c).windowOpen = s.windowOpen ∧ (s.setStore c).upstream = s.upstream ∧ (s.setStore c).hostWaiting = s.hostWaiting ∧
      (s.setStore c).responses = s.responses ∧
      (s.setStore c).posted = s.posted ∧ (s.setStore c).waiting = s.waiting ∧ (s.setStore c).checker = s.checker ∧
      (s.setStore c).hold = s.hold ∧
      (s.setStore c).force = s.force ∧ (s.setStore c).sweep = s.sweep ∧ (s.setStore c).requests = s.requests ∧
      (s.setStore c).port = s.port ∧
      (s.setStore c).lines = s.lines ∧ (s.setStore c).log = s.log ∧ (s.setStore c).marks = s.marks ∧ (s.setStore c).writer = s.writer ∧
      (s.setStore c).lastItem = s.lastItem ∧ (s.setStore c).maint = s.maint ∧ (s.setStore c).staging = s.staging ∧
      (s.setStore c).nv = s.nv ∧
      (s.setStore c).agenda = s.agenda ∧ (s.setStore c).choices = s.choices := by
  simp [setStore]

/-- `respond` writes responses alone. -/
@[simp] theorem respond_frame (s : State) (k : ResponseKind) (d : Option Data) :
      (s.respond k d).pending = s.pending ∧ (s.respond k d).supply = s.supply ∧ (s.respond k d).resetLine = s.resetLine ∧
      (s.respond k d).busReset = s.busReset ∧
      (s.respond k d).mode = s.mode ∧ (s.respond k d).time = s.time ∧ (s.respond k d).cfg = s.cfg ∧ (s.respond k d).zones = s.zones ∧
      (s.respond k d).chans = s.chans ∧ (s.respond k d).scan = s.scan ∧ (s.respond k d).spills = s.spills ∧
      (s.respond k d).tachs = s.tachs ∧
      (s.respond k d).windowOpen = s.windowOpen ∧ (s.respond k d).upstream = s.upstream ∧ (s.respond k d).hostWaiting = s.hostWaiting ∧
      (s.respond k d).posted = s.posted ∧
      (s.respond k d).waiting = s.waiting ∧ (s.respond k d).checker = s.checker ∧ (s.respond k d).store = s.store ∧
      (s.respond k d).hold = s.hold ∧
      (s.respond k d).force = s.force ∧ (s.respond k d).sweep = s.sweep ∧ (s.respond k d).requests = s.requests ∧
      (s.respond k d).port = s.port ∧
      (s.respond k d).lines = s.lines ∧ (s.respond k d).log = s.log ∧ (s.respond k d).marks = s.marks ∧ (s.respond k d).writer = s.writer ∧
      (s.respond k d).lastItem = s.lastItem ∧ (s.respond k d).maint = s.maint ∧ (s.respond k d).staging = s.staging ∧
      (s.respond k d).nv = s.nv ∧
      (s.respond k d).agenda = s.agenda ∧ (s.respond k d).choices = s.choices := by
  simp [respond]

/-- `answerHost` writes responses and upstream alone. -/
@[simp] theorem answerHost_frame (s : State) (k : ResponseKind) (d : Option Data) :
      (s.answerHost k d).pending = s.pending ∧ (s.answerHost k d).supply = s.supply ∧ (s.answerHost k d).resetLine = s.resetLine ∧
      (s.answerHost k d).busReset = s.busReset ∧
      (s.answerHost k d).mode = s.mode ∧ (s.answerHost k d).time = s.time ∧ (s.answerHost k d).cfg = s.cfg ∧
      (s.answerHost k d).zones = s.zones ∧
      (s.answerHost k d).chans = s.chans ∧ (s.answerHost k d).scan = s.scan ∧ (s.answerHost k d).spills = s.spills ∧
      (s.answerHost k d).tachs = s.tachs ∧
      (s.answerHost k d).windowOpen = s.windowOpen ∧ (s.answerHost k d).hostWaiting = s.hostWaiting ∧
      (s.answerHost k d).posted = s.posted ∧ (s.answerHost k d).waiting = s.waiting ∧
      (s.answerHost k d).checker = s.checker ∧ (s.answerHost k d).store = s.store ∧ (s.answerHost k d).hold = s.hold ∧
      (s.answerHost k d).force = s.force ∧
      (s.answerHost k d).sweep = s.sweep ∧ (s.answerHost k d).requests = s.requests ∧ (s.answerHost k d).port = s.port ∧
      (s.answerHost k d).lines = s.lines ∧
      (s.answerHost k d).log = s.log ∧ (s.answerHost k d).marks = s.marks ∧ (s.answerHost k d).writer = s.writer ∧
      (s.answerHost k d).lastItem = s.lastItem ∧
      (s.answerHost k d).maint = s.maint ∧ (s.answerHost k d).staging = s.staging ∧ (s.answerHost k d).nv = s.nv ∧
      (s.answerHost k d).agenda = s.agenda ∧
      (s.answerHost k d).choices = s.choices := by
  simp [answerHost]

/-- `setWork` writes sweep alone. -/
@[simp] theorem setWork_frame (s : State) (w : SweepWork) :
      (s.setWork w).pending = s.pending ∧ (s.setWork w).supply = s.supply ∧ (s.setWork w).resetLine = s.resetLine ∧
      (s.setWork w).busReset = s.busReset ∧
      (s.setWork w).mode = s.mode ∧ (s.setWork w).time = s.time ∧ (s.setWork w).cfg = s.cfg ∧ (s.setWork w).zones = s.zones ∧
      (s.setWork w).chans = s.chans ∧ (s.setWork w).scan = s.scan ∧ (s.setWork w).spills = s.spills ∧ (s.setWork w).tachs = s.tachs ∧
      (s.setWork w).windowOpen = s.windowOpen ∧ (s.setWork w).upstream = s.upstream ∧ (s.setWork w).hostWaiting = s.hostWaiting ∧
      (s.setWork w).responses = s.responses ∧
      (s.setWork w).posted = s.posted ∧ (s.setWork w).waiting = s.waiting ∧ (s.setWork w).checker = s.checker ∧
      (s.setWork w).store = s.store ∧
      (s.setWork w).hold = s.hold ∧ (s.setWork w).force = s.force ∧ (s.setWork w).requests = s.requests ∧ (s.setWork w).port = s.port ∧
      (s.setWork w).lines = s.lines ∧ (s.setWork w).log = s.log ∧ (s.setWork w).marks = s.marks ∧ (s.setWork w).writer = s.writer ∧
      (s.setWork w).lastItem = s.lastItem ∧ (s.setWork w).maint = s.maint ∧ (s.setWork w).staging = s.staging ∧ (s.setWork w).nv = s.nv ∧
      (s.setWork w).agenda = s.agenda ∧ (s.setWork w).choices = s.choices := by
  simp [setWork]

/-- `reply` writes maint alone. -/
@[simp] theorem reply_frame (s : State) (r : Reply) :
      (s.reply r).pending = s.pending ∧ (s.reply r).supply = s.supply ∧ (s.reply r).resetLine = s.resetLine ∧
      (s.reply r).busReset = s.busReset ∧
      (s.reply r).mode = s.mode ∧ (s.reply r).time = s.time ∧ (s.reply r).cfg = s.cfg ∧ (s.reply r).zones = s.zones ∧
      (s.reply r).chans = s.chans ∧ (s.reply r).scan = s.scan ∧ (s.reply r).spills = s.spills ∧ (s.reply r).tachs = s.tachs ∧
      (s.reply r).windowOpen = s.windowOpen ∧ (s.reply r).upstream = s.upstream ∧ (s.reply r).hostWaiting = s.hostWaiting ∧
      (s.reply r).responses = s.responses ∧
      (s.reply r).posted = s.posted ∧ (s.reply r).waiting = s.waiting ∧ (s.reply r).checker = s.checker ∧ (s.reply r).store = s.store ∧
      (s.reply r).hold = s.hold ∧ (s.reply r).force = s.force ∧ (s.reply r).sweep = s.sweep ∧ (s.reply r).requests = s.requests ∧
      (s.reply r).port = s.port ∧ (s.reply r).lines = s.lines ∧ (s.reply r).log = s.log ∧ (s.reply r).marks = s.marks ∧
      (s.reply r).writer = s.writer ∧ (s.reply r).lastItem = s.lastItem ∧ (s.reply r).staging = s.staging ∧ (s.reply r).nv = s.nv ∧
      (s.reply r).agenda = s.agenda ∧ (s.reply r).choices = s.choices := by
  simp [reply]

/-! ## What each update writes -/

/-- Outside RUN no mark is kept (R175). -/
theorem mark_of_not_run {s : State} (h : s.mode ≠ .run) (i : Fin 67) : s.mark i = s := if_neg h

@[simp] theorem notify_agenda (s : State) (n : Notice) : (s.notify n).agenda = s.agenda ++ [n] := rfl

@[simp] theorem setZone_zones (s : State) (z : Fin 4) (r : ZoneRec) : (s.setZone z r).zones = s.zones.set z r := by
  unfold setZone; dsimp only; split <;> simp

@[simp] theorem setChan_chans (s : State) (c : Fin 8) (r : ChanRec) : (s.setChan c r).chans = s.chans.set c r := rfl

@[simp] theorem setTach_tachs (s : State) (t : Fin 8) (r : TachRec) : (s.setTach t r).tachs = s.tachs.set t r := rfl

@[simp] theorem setSpill_spills (s : State) (l : Fin 12) (r : SpillRec) : (s.setSpill l r).spills = s.spills.set l r := by
  unfold setSpill; dsimp only; split <;> simp

@[simp] theorem setForce_force (s : State) (e : Fin 16) (r : ForceRec) : (s.setForce e r).force = s.force.set e r := rfl

@[simp] theorem setPosted_posted (s : State) (q : List Posted) : (s.setPosted q).posted = q := by
  unfold setPosted; dsimp only; split <;> simp

@[simp] theorem replaceHold_hold (s : State) (q : List HoldEntry) : (s.replaceHold q).hold = q := by
  unfold replaceHold; dsimp only; split <;> simp

@[simp] theorem setHold_hold (s : State) (q : List HoldEntry) : (s.setHold q).hold = q := by
  unfold setHold; split <;> simp_all

@[simp] theorem setStore_store (s : State) (c : CellStore) : (s.setStore c).store = c := rfl

@[simp] theorem respond_responses (s : State) (k : ResponseKind) (d : Option Data) :
    (s.respond k d).responses = s.responses ++ [{ kind := k, data := d }] := rfl

@[simp] theorem answerHost_responses (s : State) (k : ResponseKind) (d : Option Data) :
    (s.answerHost k d).responses = s.responses ++ [{ kind := k, data := d }] := rfl

@[simp] theorem answerHost_upstream (s : State) (k : ResponseKind) (d : Option Data) : (s.answerHost k d).upstream = .idle := rfl

@[simp] theorem setWork_sweep (s : State) (w : SweepWork) :
    (s.setWork w).sweep = s.sweep.map (fun x => { x with work := w }) := rfl

@[simp] theorem reply_maint (s : State) (r : Reply) : (s.reply r).maint = { s.maint with reply := r } := rfl

@[simp] theorem nextOrder_fst (s : State) : s.nextOrder.1 = Config.order s.choices := rfl

@[simp] theorem nextOrder_choices (s : State) : s.nextOrder.2.choices = s.choices + 1 := rfl

end Sys2Proof.Machine.State
end

