-- ==== Sys2Proof/Laws/Inside.lean ====
section
/-!
SUPPORT. What the blocks can do to the state inside a step. `Inside s t` says it once: power, mode, time, settings, field inputs,
maintenance and buffers stay, and a sound state stays sound. Every operation has one lemma.
-/
namespace Sys2Proof.Machine

/-! ## The log -/

theorem consecutive_append (l : List Record) (r : Record) {n : Half} (h : consecutive l n = true) (hr : r.seq = n) :
    consecutive (l ++ [r]) (n + 1#16) = true := by
  induction l with
  | nil => simp [consecutive, hr]
  | cons a rest ih =>
    cases rest with
    | nil => simp_all [consecutive]
    | cons b rest => simp_all [consecutive]

theorem consecutive_drop (l : List Record) {n : Half} (h : consecutive l n = true) : consecutive (l.drop 1) n = true := by
  match l with
  | [] => rfl
  | [_] => rfl
  | _ :: _ :: _ => simp_all [consecutive]

theorem consecutive_replaceLast (l : List Record) {n : Half} (r : Record) (h : consecutive l n = true)
    (hr : ∃ q, l.getLast? = some q ∧ r.seq = q.seq) : consecutive (l.dropLast ++ [r]) n = true := by
  obtain ⟨q, hq, he⟩ := hr
  induction l with
  | nil => simp at hq
  | cons a rest ih =>
    cases rest with
    | nil => simp_all [consecutive]
    | cons b rest =>
      have hq' : (b :: rest).getLast? = some q := by simpa using hq
      have h' : consecutive (b :: rest) n = true := by simp_all [consecutive]
      have := ih h' hq'
      cases rest with
      | nil => simp_all [consecutive]
      | cons c rest => simp_all [consecutive]

namespace State

/-- What happens between the start and the end of a step's command, outside the command's own first effect. -/
structure Inside (s t : State) : Prop where
  pending : t.pending = s.pending
  hostWaiting : t.hostWaiting = s.hostWaiting
  supply : t.supply = s.supply
  resetLine : t.resetLine = s.resetLine
  busReset : t.busReset = s.busReset
  mode : t.mode = s.mode
  time : t.time = s.time
  cfg : t.cfg = s.cfg
  chans : t.chans = s.chans
  scan : t.scan = s.scan
  spills : t.spills = s.spills
  windowOpen : t.windowOpen = s.windowOpen
  maint : t.maint = s.maint
  staging : t.staging = s.staging
  nv : t.nv = s.nv
  holdLevels : t.lines.hold = s.lines.hold
  readings : ∀ z, (t.zones.get z).reading = (s.zones.get z).reading
  counts : ∀ i, (t.tachs.get i).count = (s.tachs.get i).count
  speeds : ∀ i, (t.tachs.get i).speed = (s.tachs.get i).speed
  windows : ∀ i, (t.tachs.get i).due = (s.tachs.get i).due
  sound : s.sound → t.sound
  steady : s.steadyLines → t.steadyLines

namespace Inside

theorem refl (s : State) : Inside s s :=
  ⟨rfl, rfl, rfl, rfl, rfl, rfl, rfl, rfl, rfl, rfl, rfl, rfl, rfl, rfl, rfl, rfl, fun _ => rfl, fun _ => rfl, fun _ => rfl,
    fun _ => rfl, id, id⟩

theorem trans {s t u : State} (h : Inside s t) (k : Inside t u) : Inside s u :=
  ⟨k.pending.trans h.pending, k.hostWaiting.trans h.hostWaiting, k.supply.trans h.supply, k.resetLine.trans h.resetLine, k.busReset.trans h.busReset,
    k.mode.trans h.mode, k.time.trans h.time, k.cfg.trans h.cfg, k.chans.trans h.chans, k.scan.trans h.scan,
    k.spills.trans h.spills, k.windowOpen.trans h.windowOpen, k.maint.trans h.maint, k.staging.trans h.staging,
    k.nv.trans h.nv, k.holdLevels.trans h.holdLevels, fun z => (k.readings z).trans (h.readings z),
    fun i => (k.counts i).trans (h.counts i), fun i => (k.speeds i).trans (h.speeds i),
    fun i => (k.windows i).trans (h.windows i), fun x => k.sound (h.sound x),
    fun x => k.steady (h.steady x)⟩

/-- A fold whose every step is inside. -/
theorem foldl {α : Type} (f : State → α → State) (h : ∀ s a, Inside s (f s a)) (l : List α) (s : State) :
    Inside s (l.foldl f s) := by
  induction l generalizing s with
  | nil => exact refl s
  | cons a rest ih => exact (h s a).trans (ih _)

end Inside

open Inside

/-! ## Plain updates -/

theorem inside_upstream (s : State) (u : Upstream) : Inside s { s with upstream := u } :=
  ⟨rfl, rfl, rfl, rfl, rfl, rfl, rfl, rfl, rfl, rfl, rfl, rfl, rfl, rfl, rfl, rfl, fun _ => rfl, fun _ => rfl, fun _ => rfl,
    fun _ => rfl, id, id⟩

theorem inside_waiting (s : State) (l : List Placement) : Inside s { s with waiting := l } :=
  ⟨rfl, rfl, rfl, rfl, rfl, rfl, rfl, rfl, rfl, rfl, rfl, rfl, rfl, rfl, rfl, rfl, fun _ => rfl, fun _ => rfl, fun _ => rfl,
    fun _ => rfl, id, id⟩

theorem inside_checker (s : State) (c : Judgement) : Inside s { s with checker := c } :=
  ⟨rfl, rfl, rfl, rfl, rfl, rfl, rfl, rfl, rfl, rfl, rfl, rfl, rfl, rfl, rfl, rfl, fun _ => rfl, fun _ => rfl, fun _ => rfl,
    fun _ => rfl, id, id⟩

theorem inside_sweep (s : State) (w : Option Sweep) : Inside s { s with sweep := w } :=
  ⟨rfl, rfl, rfl, rfl, rfl, rfl, rfl, rfl, rfl, rfl, rfl, rfl, rfl, rfl, rfl, rfl, fun _ => rfl, fun _ => rfl, fun _ => rfl,
    fun _ => rfl, id, id⟩

theorem inside_port (s : State) (p : Downstream) : Inside s { s with port := p } :=
  ⟨rfl, rfl, rfl, rfl, rfl, rfl, rfl, rfl, rfl, rfl, rfl, rfl, rfl, rfl, rfl, rfl, fun _ => rfl, fun _ => rfl, fun _ => rfl,
    fun _ => rfl, id, id⟩

theorem inside_agenda (s : State) (a : List Notice) : Inside s { s with agenda := a } :=
  ⟨rfl, rfl, rfl, rfl, rfl, rfl, rfl, rfl, rfl, rfl, rfl, rfl, rfl, rfl, rfl, rfl, fun _ => rfl, fun _ => rfl, fun _ => rfl,
    fun _ => rfl, id, id⟩

theorem inside_choices (s : State) (n : Nat) : Inside s { s with choices := n } :=
  ⟨rfl, rfl, rfl, rfl, rfl, rfl, rfl, rfl, rfl, rfl, rfl, rfl, rfl, rfl, rfl, rfl, fun _ => rfl, fun _ => rfl, fun _ => rfl,
    fun _ => rfl, id, id⟩

theorem inside_writer (s : State) (w : Writer) : Inside s { s with writer := w } :=
  ⟨rfl, rfl, rfl, rfl, rfl, rfl, rfl, rfl, rfl, rfl, rfl, rfl, rfl, rfl, rfl, rfl, fun _ => rfl, fun _ => rfl, fun _ => rfl,
    fun _ => rfl, id, id⟩

theorem inside_force (s : State) (f : Tab ForceRec 16) : Inside s { s with force := f } :=
  ⟨rfl, rfl, rfl, rfl, rfl, rfl, rfl, rfl, rfl, rfl, rfl, rfl, rfl, rfl, rfl, rfl, fun _ => rfl, fun _ => rfl, fun _ => rfl,
    fun _ => rfl, id, id⟩

theorem inside_marks (s : State) (m : Tab Bool 67) : Inside s { s with marks := m } :=
  ⟨rfl, rfl, rfl, rfl, rfl, rfl, rfl, rfl, rfl, rfl, rfl, rfl, rfl, rfl, rfl, rfl, fun _ => rfl, fun _ => rfl, fun _ => rfl,
    fun _ => rfl, id, id⟩

theorem inside_posted {s : State} {q : List Posted} (h : s.posted.length ≤ 8 → q.length ≤ 8) :
    Inside s { s with posted := q } :=
  ⟨rfl, rfl, rfl, rfl, rfl, rfl, rfl, rfl, rfl, rfl, rfl, rfl, rfl, rfl, rfl, rfl, fun _ => rfl, fun _ => rfl, fun _ => rfl,
    fun _ => rfl, fun x => ⟨x.1, h x.2.1, x.2.2⟩, id⟩

theorem inside_requests {s : State} {q : List SweepRequest}
    (h : (s.requests.map SweepRequest.zone).Nodup → (q.map SweepRequest.zone).Nodup) : Inside s { s with requests := q } :=
  ⟨rfl, rfl, rfl, rfl, rfl, rfl, rfl, rfl, rfl, rfl, rfl, rfl, rfl, rfl, rfl, rfl, fun _ => rfl, fun _ => rfl, fun _ => rfl,
    fun _ => rfl, fun x => ⟨x.1, x.2.1, x.2.2.1, h x.2.2.2.1, x.2.2.2.2⟩, id⟩

theorem inside_log {s : State} {l : EventLog} (h : s.log.sound → l.sound) : Inside s { s with log := l } :=
  ⟨rfl, rfl, rfl, rfl, rfl, rfl, rfl, rfl, rfl, rfl, rfl, rfl, rfl, rfl, rfl, rfl, fun _ => rfl, fun _ => rfl, fun _ => rfl,
    fun _ => rfl, fun x => ⟨h x.1, x.2⟩, id⟩

theorem inside_setStore {s : State} {c : CellStore} (h : s.store.sound → c.sound) : Inside s (s.setStore c) :=
  ⟨rfl, rfl, rfl, rfl, rfl, rfl, rfl, rfl, rfl, rfl, rfl, rfl, rfl, rfl, rfl, rfl, fun _ => rfl, fun _ => rfl, fun _ => rfl,
    fun _ => rfl, fun x => ⟨x.1, x.2.1, x.2.2.1, x.2.2.2.1, h x.2.2.2.2⟩, id⟩

theorem inside_chooseItem (s : State) : Inside s s.chooseItem := by
  unfold chooseItem
  split
  · exact refl s
  · split
    · split
      · exact refl s
      · exact ⟨rfl, rfl, rfl, rfl, rfl, rfl, rfl, rfl, rfl, rfl, rfl, rfl, rfl, rfl, rfl, rfl, fun _ => rfl, fun _ => rfl,
          fun _ => rfl, fun _ => rfl, id, id⟩
    · exact refl s

theorem inside_mark (s : State) (i : Fin 67) : Inside s (s.mark i) := by
  unfold mark; split
  · exact (inside_marks s _).trans (inside_chooseItem _)
  · exact refl s

theorem inside_markAll (s : State) (is : List (Fin 67)) : Inside s (s.markAll is) := Inside.foldl _ inside_mark is s

theorem inside_notify (s : State) (n : Notice) : Inside s (s.notify n) := inside_agenda s _

theorem inside_setForce (s : State) (e : Fin 16) (r : ForceRec) : Inside s (s.setForce e r) := inside_force s _

theorem inside_setWork (s : State) (w : SweepWork) : Inside s (s.setWork w) := inside_sweep s _

theorem inside_respond (s : State) (k : ResponseKind) (d : Option Data) : Inside s (s.respond k d) :=
  ⟨rfl, rfl, rfl, rfl, rfl, rfl, rfl, rfl, rfl, rfl, rfl, rfl, rfl, rfl, rfl, rfl, fun _ => rfl, fun _ => rfl, fun _ => rfl,
    fun _ => rfl, id, id⟩

theorem inside_answerHost (s : State) (k : ResponseKind) (d : Option Data) : Inside s (s.answerHost k d) :=
  (inside_respond s k d).trans (inside_upstream _ _)

theorem inside_zones {s : State} {zs : Tab ZoneRec 4} (h : ∀ z, (zs.get z).reading = (s.zones.get z).reading) :
    Inside s { s with zones := zs } :=
  ⟨rfl, rfl, rfl, rfl, rfl, rfl, rfl, rfl, rfl, rfl, rfl, rfl, rfl, rfl, rfl, rfl, h, fun _ => rfl, fun _ => rfl,
    fun _ => rfl, id, id⟩

theorem inside_setZone {s : State} {z : Fin 4} {r : ZoneRec} (h : r.reading = (s.zones.get z).reading) :
    Inside s (s.setZone z r) := by
  have h1 : Inside s { s with zones := s.zones.set z r } := by
    apply inside_zones
    intro y
    rw [Tab.get_set]
    split
    · next e => rw [h, e]
    · rfl
  unfold setZone; dsimp only; split
  · exact h1.trans (inside_mark _ _)
  · exact h1

theorem inside_setTach {s : State} {t : Fin 8} {r : TachRec} (hc : r.count = (s.tachs.get t).count)
    (hs : r.speed = (s.tachs.get t).speed) (hd : r.due = (s.tachs.get t).due) : Inside s (s.setTach t r) := by
  have key : ∀ {β : Type} (p : TachRec → β), p r = p (s.tachs.get t) → ∀ i, p ((s.tachs.set t r).get i) = p (s.tachs.get i) := by
    intro β p hp i
    rw [Tab.get_set]
    split
    · next e => rw [hp, e]
    · rfl
  exact ⟨rfl, rfl, rfl, rfl, rfl, rfl, rfl, rfl, rfl, rfl, rfl, rfl, rfl, rfl, rfl, rfl, fun _ => rfl, key TachRec.count hc,
    key TachRec.speed hs, key TachRec.due hd, id, id⟩

theorem inside_setPosted {s : State} {q : List Posted} (h : s.posted.length ≤ 8 → q.length ≤ 8) : Inside s (s.setPosted q) := by
  unfold setPosted; dsimp only; split
  · exact (inside_posted h).trans (inside_mark _ _)
  · exact inside_posted h

theorem inside_hold {s : State} {q : List HoldEntry} (h : s.holdSound → q.length ≤ 8 ∧ (q.map HoldEntry.cell).Nodup) :
    Inside s { s with hold := q } :=
  ⟨rfl, rfl, rfl, rfl, rfl, rfl, rfl, rfl, rfl, rfl, rfl, rfl, rfl, rfl, rfl, rfl, fun _ => rfl, fun _ => rfl, fun _ => rfl,
    fun _ => rfl, fun x => ⟨x.1, x.2.1, h x.2.2.1, x.2.2.2⟩, id⟩

theorem inside_replaceHold {s : State} {q : List HoldEntry} (h : s.holdSound → q.length ≤ 8 ∧ (q.map HoldEntry.cell).Nodup) :
    Inside s (s.replaceHold q) := by
  unfold replaceHold; dsimp only
  split
  · exact ((inside_hold h).trans (inside_mark _ _)).trans (inside_mark _ _)
  · exact (inside_hold h).trans (inside_mark _ _)

theorem inside_setHold {s : State} {q : List HoldEntry} (h : s.holdSound → q.length ≤ 8 ∧ (q.map HoldEntry.cell).Nodup) :
    Inside s (s.setHold q) := by
  unfold setHold
  split
  · exact refl s
  · exact inside_replaceHold h

/-- Entries taken out of the hold queue. -/
theorem inside_filterHold (s : State) (p : HoldEntry → Bool) : Inside s (s.setHold (s.hold.filter p)) :=
  inside_setHold fun h =>
    ⟨Nat.le_trans (List.length_filter_le _ _) h.1, h.2.sublist (List.Sublist.map _ List.filter_sublist)⟩

/-! ## The event log -/

theorem inside_appendRecord (s : State) (k : EventKind) (z : Option (Fin 4)) (u v : Option Nat) :
    Inside s (s.appendRecord k z u v) := by
  unfold appendRecord
  dsimp only
  refine Inside.trans ?_ ((inside_mark _ _).trans (inside_mark _ _))
  apply inside_log
  intro h
  refine ⟨?_, ?_⟩
  · have := h.1
    simp only [Config.logCapacity, decide_eq_true_eq] at this ⊢
    split <;> simp only [List.length_append, List.length_drop, List.length_singleton] <;> omega
  · apply consecutive_append _ _ _ rfl
    split
    · exact consecutive_drop _ h.2
    · exact h.2

theorem inside_countRepeat {s : State} {r : Record} (h : s.log.records.getLast? = some r) : Inside s (s.countRepeat r) := by
  unfold countRepeat; split
  · dsimp only
    refine Inside.trans ?_ (inside_mark _ _)
    apply inside_log
    intro hs
    refine ⟨?_, consecutive_replaceLast _ _ hs.2 ⟨r, h, rfl⟩⟩
    have := hs.1
    have hne : s.log.records ≠ [] := by intro e; rw [e] at h; cases h
    have := List.length_pos_iff.2 hne
    simp only [Config.logCapacity, List.length_append, List.length_dropLast, List.length_singleton] at *
    omega
  · exact refl s

theorem inside_append (s : State) (k : EventKind) (z : Option (Fin 4)) (u v : Option Nat) : Inside s (s.append k z u v) := by
  unfold append
  split
  · next r hr =>
    split
    · exact inside_countRepeat hr
    · exact inside_appendRecord s k z u v
  · exact inside_appendRecord s k z u v

theorem inside_logClear (s : State) (n : Half) : Inside s (s.logClear n) := by
  unfold logClear; dsimp only
  refine Inside.trans (inside_log ?_) (inside_mark _ itemHeader)
  split
  · exact id
  · split
    · exact fun _ => ⟨Nat.zero_le _, rfl⟩
    · exact id

/-! ## The zones -/

theorem inside_zoneNotices (s : State) (z : Fin 4) (a b : ZoneState) : Inside s (s.zoneNotices z a b) := by
  unfold zoneNotices; dsimp only; split
  · exact (inside_choices s _).trans (inside_agenda _ _)
  · exact inside_agenda s _

theorem inside_announce (s : State) (z : Fin 4) (a b : ZoneState) : Inside s (s.announce z a b) := by
  unfold announce; split
  · exact refl s
  · exact (inside_append _ _ _ _ _).trans (inside_zoneNotices _ _ _ _)

/-- A move of the state keeps the record's other fields. -/
@[simp] theorem moved_fields (s : State) (z : Fin 4) (r : ZoneRec) (new : ZoneState) :
    (s.moved z r new).state = new ∧ (s.moved z r new).causes = r.causes ∧ (s.moved z r new).reading = r.reading ∧
      (s.moved z r new).peak = r.peak ∧ (s.moved z r new).refresh = r.refresh := by
  unfold moved
  split <;> simp_all

theorem inside_zoneMove (s : State) (z : Fin 4) (new : ZoneState) : Inside s (s.zoneMove z new) := by
  unfold zoneMove; dsimp only
  exact (inside_setZone (by simp)).trans (inside_announce _ _ _ _)

theorem inside_logCauses (s : State) (z : Fin 4) (a b : Causes) : Inside s (s.logCauses z a b) :=
  Inside.foldl _ (fun s _ => inside_append s _ _ _ _) _ s

theorem inside_zoneEvent {s : State} {z : Fin 4} {r : ZoneRec} (cs : Causes) (h : r.reading = (s.zones.get z).reading) :
    Inside s (s.zoneEvent z r cs) := by
  unfold zoneEvent; dsimp only
  exact (inside_setZone (by simpa using h)).trans ((inside_logCauses _ _ _ _).trans (inside_announce _ _ _ _))

theorem inside_zoneCause (s : State) (z : Fin 4) (c : Cause) (b : Bool) : Inside s (s.zoneCause z c b) :=
  inside_zoneEvent _ rfl

theorem inside_zoneAcknowledge (s : State) (z : Fin 4) : Inside s (s.zoneAcknowledge z) := by
  unfold zoneAcknowledge; dsimp only
  refine (inside_setZone ?_).trans ((inside_append _ _ _ _ _).trans ((inside_logCauses _ _ _ _).trans (inside_announce _ _ _ _)))
  simp

theorem inside_refreshRestart (s : State) (z : Fin 4) : Inside s (s.refreshRestart z) := by
  unfold refreshRestart; dsimp only; split
  · exact refl s
  · split
    · exact inside_zoneEvent _ rfl
    · exact inside_setZone (by rfl)

theorem inside_refreshExpire (s : State) (z : Fin 4) : Inside s (s.refreshExpire z) := by
  unfold refreshExpire; dsimp only; split
  · exact inside_zoneEvent _ rfl
  · exact refl s

theorem inside_purgeExpire (s : State) (z : Fin 4) : Inside s (s.purgeExpire z) := by
  unfold purgeExpire; dsimp only; split
  · exact inside_zoneMove _ _ _
  · exact refl s

theorem inside_zoneFlagged (s : State) (z : Fin 4) : Inside s (s.zoneFlagged z) := by
  unfold zoneFlagged
  refine Inside.trans (inside_zones ?_) (inside_mark _ _)
  intro y
  rw [Tab.get_set]
  split
  · next e => rw [e]
  · rfl

/-! ## The fan proof unit -/

theorem inside_fanReport (s : State) (z : Fin 4) : Inside s (s.fanReport z) := inside_zoneEvent _ rfl

theorem inside_requireStep (s : State) (t : Fin 8) (b : Bool) :
    Inside s (s.setTach t (requireStep (s.cfg.tachs.get t) (s.tachs.get t) b)) := by
  apply inside_setTach <;> (unfold requireStep; repeat' split) <;> rfl

theorem inside_fanRecompute (s : State) (z : Fin 4) (ts : List (Fin 8)) : Inside s (s.fanRecompute z ts) := by
  unfold fanRecompute; dsimp only
  have h := Inside.foldl (fun s t => s.setTach t (requireStep (s.cfg.tachs.get t) (s.tachs.get t) (s.tachRequired t)))
    (fun s t => inside_requireStep s t _) ts s
  split
  · exact h.trans (inside_fanReport _ _)
  · exact h

theorem inside_entryMoved (s : State) (e : Fin 16) : Inside s (s.entryMoved e) := by
  unfold entryMoved; split
  · exact inside_fanRecompute _ _ _
  · exact refl s

/-! ## The posted queue -/

theorem inside_observe (s : State) (w : Option Observation) : Inside s (s.observe w) := by
  unfold observe; split
  · exact refl s
  · exact inside_zoneAcknowledge _ _
  · exact inside_refreshRestart _ _
  · exact inside_logClear _ _

theorem inside_entryBoundary (s : State) (e : Fin 16) : Inside s (s.entryBoundary e) :=
  (inside_sweep s _).trans (inside_notify _ _)

theorem inside_releaseDone (s : State) (e : Fin 16) : Inside s (s.releaseDone e) :=
  (inside_setForce s e _).trans ((inside_notify _ _).trans (inside_entryBoundary _ _))

theorem inside_enter {s : State} (p : Placement) (h : s.posted.length < 8) : Inside s (s.enter p) := by
  unfold enter; dsimp only
  have h1 : ∀ e, Inside s (s.setPosted (s.posted ++ [e])) := fun e => inside_setPosted fun _ => by simp; omega
  have h2 : ∀ e, Inside s
      (if p.checked = true then (s.setPosted (s.posted ++ [e])).setStore
        ((s.setPosted (s.posted ++ [e])).store.writeThrough p.addr (cellValue p.data))
      else s.setPosted (s.posted ++ [e])) := by
    intro e
    split
    · exact (h1 e).trans (inside_setStore fun hc => CellStore.writeThrough_sound hc _ _)
    · exact h1 e
  split
  · exact (h2 _).trans ((inside_answerHost _ _ _).trans (inside_observe _ _))
  · exact (h2 _).trans (inside_filterHold _ _)
  · exact (h2 _).trans (inside_releaseDone _ _)

theorem inside_place (s : State) (p : Placement) : Inside s (s.place p) := by
  unfold place; split
  · next h => exact inside_enter p h.1
  · exact inside_waiting s _

theorem inside_enterNext (s : State) : Inside s s.enterNext := by
  unfold enterNext; split
  · split
    · next h => exact (inside_waiting s _).trans (inside_enter (s := { s with waiting := _ }) _ h)
    · exact refl s
  · exact refl s

/-! ## The hold queue -/

theorem inside_dropHold (s : State) (a : Addr) : Inside s (s.dropHold a) :=
  (inside_filterHold s _).trans (inside_waiting _ _)

theorem length_filter_lt_of_find {l : List HoldEntry} {a : Addr} (h : (l.find? (fun h => h.cell == a)).isSome = true) :
    (l.filter (fun h => h.cell != a)).length < l.length := by
  obtain ⟨x, hx⟩ := Option.isSome_iff_exists.1 h
  have hm := List.mem_of_find?_eq_some hx
  have hp : x.cell = a := by simpa using List.find?_some hx
  apply List.length_filter_lt_length_iff_exists.2
  exact ⟨x, hm, by simp [hp]⟩

theorem inside_joinHold {s : State} (a : Addr) (v : Half) (z : Fin 4) (p : Fin 8) (o : HoldOrigin)
    (h : (s.holdOf a).isSome = true ∨ s.hold.length < 8) : Inside s (s.joinHold a v z p o) := by
  unfold joinHold; dsimp only
  refine (inside_replaceHold ?_).trans ((inside_waiting _ _).trans (inside_append _ _ _ _ _))
  intro hs
  have hf := List.length_filter_le (fun h : HoldEntry => h.cell != a) s.hold
  refine ⟨?_, ?_⟩
  · have h1 := hs.1
    simp only [Config.holdCapacity] at h1
    simp only [List.length_append, List.length_singleton]
    rcases h with h | h
    · have := length_filter_lt_of_find h
      omega
    · omega
  · rw [List.map_append, List.nodup_append]
    refine ⟨hs.2.sublist (List.Sublist.map _ List.filter_sublist), by simp, ?_⟩
    intro x hx y hy
    simp only [List.map_cons, List.map_nil, List.mem_singleton] at hy
    obtain ⟨e, he, rfl⟩ := List.mem_map.1 hx
    have := (List.mem_filter.1 he).2
    rw [hy]
    simpa using this

theorem inside_holdPart (s : State) (a : Addr) (v : Half) (z : Fin 4) (p : Fin 8) : Inside s (s.holdPart a v z p) := by
  unfold holdPart
  split
  · exact inside_append _ _ _ _ _
  · split
    · next h => exact inside_joinHold _ _ _ _ _ (Or.inr h)
    · exact inside_append _ _ _ _ _

theorem inside_releaseHold (s : State) (e : HoldEntry) (v : Half) : Inside s (s.releaseHold e v) := by
  unfold releaseHold; dsimp only
  refine (inside_setHold ?_).trans (inside_place _ _)
  intro h
  refine ⟨by simpa using h.1, ?_⟩
  rw [List.map_map]
  have : (HoldEntry.cell ∘ fun h : HoldEntry => if h.cell = e.cell then { h with value := v, releasing := true } else h)
      = HoldEntry.cell := by
    funext x
    simp only [Function.comp]
    split <;> rfl
  rw [this]
  exact h.2

theorem inside_rejudgeEntry (s : State) (l : Fin 4) (e : HoldEntry) : Inside s (s.rejudgeEntry l e) := by
  unfold rejudgeEntry; split
  · exact inside_releaseHold _ _ _
  · exact refl s
  · exact (inside_dropHold _ _).trans (inside_append _ _ _ _ _)

theorem inside_rejudgeZone (s : State) (z : Fin 4) (l : Fin 4) : Inside s (s.rejudgeZone z l) :=
  Inside.foldl _ (fun s e => inside_rejudgeEntry s l e) _ s

theorem inside_expireOne (s : State) (e : HoldEntry) :
    Inside s ((s.dropHold e.cell).append .holdExpired (some e.zone) (some e.cell.toNat) (some e.value.toNat)) :=
  (inside_dropHold s e.cell).trans (inside_append _ _ _ _ _)

theorem inside_expireHolds (s : State) : Inside s s.expireHolds :=
  Inside.foldl
    (fun s (e : HoldEntry) =>
      (s.dropHold e.cell).append .holdExpired (some e.zone) (some e.cell.toNat) (some e.value.toNat))
    inside_expireOne (s.hold.filter (fun e => decide (e.expiry ≤ s.time.seconds))) s

theorem inside_emptyHolds (s : State) : Inside s s.emptyHolds := by
  have h0 : Inside s (s.setHold []) := inside_setHold fun _ => ⟨Nat.zero_le _, List.nodup_nil⟩
  unfold emptyHolds
  extract_lets n s1 s2
  have h : Inside s s2 := h0.trans (inside_waiting _ _)
  split
  · exact h
  · exact h.trans (inside_append _ _ _ _ _)

end State
end Sys2Proof.Machine
end

