-- ==== Sys2Proof/Laws/Zones.lean ====
section
/-!
SUPPORT. What the zone controller's operations leave alone, and what a zone event does to the zone records.
-/
namespace Sys2Proof.Machine.State

@[simp] theorem zoneNotices_frame (s : State) (z : Fin 4) (a b : ZoneState) :
      (s.zoneNotices z a b).pending = s.pending ∧ (s.zoneNotices z a b).supply = s.supply ∧
      (s.zoneNotices z a b).resetLine = s.resetLine ∧ (s.zoneNotices z a b).busReset = s.busReset ∧
      (s.zoneNotices z a b).mode = s.mode ∧ (s.zoneNotices z a b).time = s.time ∧ (s.zoneNotices z a b).cfg = s.cfg ∧
      (s.zoneNotices z a b).zones = s.zones ∧
      (s.zoneNotices z a b).chans = s.chans ∧ (s.zoneNotices z a b).scan = s.scan ∧ (s.zoneNotices z a b).spills = s.spills ∧
      (s.zoneNotices z a b).tachs = s.tachs ∧
      (s.zoneNotices z a b).windowOpen = s.windowOpen ∧ (s.zoneNotices z a b).upstream = s.upstream ∧
      (s.zoneNotices z a b).hostWaiting = s.hostWaiting ∧ (s.zoneNotices z a b).responses = s.responses ∧
      (s.zoneNotices z a b).posted = s.posted ∧ (s.zoneNotices z a b).waiting = s.waiting ∧ (s.zoneNotices z a b).checker = s.checker ∧
      (s.zoneNotices z a b).store = s.store ∧
      (s.zoneNotices z a b).hold = s.hold ∧ (s.zoneNotices z a b).force = s.force ∧ (s.zoneNotices z a b).sweep = s.sweep ∧
      (s.zoneNotices z a b).requests = s.requests ∧
      (s.zoneNotices z a b).port = s.port ∧ (s.zoneNotices z a b).lines = s.lines ∧ (s.zoneNotices z a b).log = s.log ∧
      (s.zoneNotices z a b).marks = s.marks ∧
      (s.zoneNotices z a b).writer = s.writer ∧ (s.zoneNotices z a b).lastItem = s.lastItem ∧ (s.zoneNotices z a b).maint = s.maint ∧
      (s.zoneNotices z a b).staging = s.staging ∧
      (s.zoneNotices z a b).nv = s.nv := by
  unfold zoneNotices; dsimp only; split <;> simp

@[simp] theorem announce_frame (s : State) (z : Fin 4) (a b : ZoneState) :
      (s.announce z a b).pending = s.pending ∧ (s.announce z a b).supply = s.supply ∧ (s.announce z a b).resetLine = s.resetLine ∧
      (s.announce z a b).busReset = s.busReset ∧
      (s.announce z a b).mode = s.mode ∧ (s.announce z a b).time = s.time ∧ (s.announce z a b).cfg = s.cfg ∧
      (s.announce z a b).zones = s.zones ∧
      (s.announce z a b).chans = s.chans ∧ (s.announce z a b).scan = s.scan ∧ (s.announce z a b).spills = s.spills ∧
      (s.announce z a b).tachs = s.tachs ∧
      (s.announce z a b).windowOpen = s.windowOpen ∧ (s.announce z a b).upstream = s.upstream ∧
      (s.announce z a b).hostWaiting = s.hostWaiting ∧ (s.announce z a b).responses = s.responses ∧
      (s.announce z a b).posted = s.posted ∧ (s.announce z a b).waiting = s.waiting ∧ (s.announce z a b).checker = s.checker ∧
      (s.announce z a b).store = s.store ∧
      (s.announce z a b).hold = s.hold ∧ (s.announce z a b).force = s.force ∧ (s.announce z a b).sweep = s.sweep ∧
      (s.announce z a b).requests = s.requests ∧
      (s.announce z a b).port = s.port ∧ (s.announce z a b).lines = s.lines ∧ (s.announce z a b).maint = s.maint ∧
      (s.announce z a b).staging = s.staging ∧
      (s.announce z a b).nv = s.nv := by
  unfold announce; split <;> simp

@[simp] theorem zoneMove_frame (s : State) (z : Fin 4) (new : ZoneState) :
      (s.zoneMove z new).pending = s.pending ∧ (s.zoneMove z new).supply = s.supply ∧ (s.zoneMove z new).resetLine = s.resetLine ∧
      (s.zoneMove z new).busReset = s.busReset ∧
      (s.zoneMove z new).mode = s.mode ∧ (s.zoneMove z new).time = s.time ∧ (s.zoneMove z new).cfg = s.cfg ∧
      (s.zoneMove z new).chans = s.chans ∧
      (s.zoneMove z new).scan = s.scan ∧ (s.zoneMove z new).spills = s.spills ∧ (s.zoneMove z new).tachs = s.tachs ∧
      (s.zoneMove z new).windowOpen = s.windowOpen ∧
      (s.zoneMove z new).upstream = s.upstream ∧ (s.zoneMove z new).hostWaiting = s.hostWaiting ∧
      (s.zoneMove z new).responses = s.responses ∧ (s.zoneMove z new).posted = s.posted ∧
      (s.zoneMove z new).waiting = s.waiting ∧ (s.zoneMove z new).checker = s.checker ∧ (s.zoneMove z new).store = s.store ∧
      (s.zoneMove z new).hold = s.hold ∧
      (s.zoneMove z new).force = s.force ∧ (s.zoneMove z new).sweep = s.sweep ∧ (s.zoneMove z new).requests = s.requests ∧
      (s.zoneMove z new).port = s.port ∧
      (s.zoneMove z new).lines = s.lines ∧ (s.zoneMove z new).maint = s.maint ∧ (s.zoneMove z new).staging = s.staging ∧
      (s.zoneMove z new).nv = s.nv := by
  simp [zoneMove]

@[simp] theorem logCauses_frame (s : State) (z : Fin 4) (a b : Causes) :
      (s.logCauses z a b).pending = s.pending ∧ (s.logCauses z a b).supply = s.supply ∧ (s.logCauses z a b).resetLine = s.resetLine ∧
      (s.logCauses z a b).busReset = s.busReset ∧
      (s.logCauses z a b).mode = s.mode ∧ (s.logCauses z a b).time = s.time ∧ (s.logCauses z a b).cfg = s.cfg ∧
      (s.logCauses z a b).zones = s.zones ∧
      (s.logCauses z a b).chans = s.chans ∧ (s.logCauses z a b).scan = s.scan ∧ (s.logCauses z a b).spills = s.spills ∧
      (s.logCauses z a b).tachs = s.tachs ∧
      (s.logCauses z a b).windowOpen = s.windowOpen ∧ (s.logCauses z a b).upstream = s.upstream ∧
      (s.logCauses z a b).hostWaiting = s.hostWaiting ∧ (s.logCauses z a b).responses = s.responses ∧
      (s.logCauses z a b).posted = s.posted ∧ (s.logCauses z a b).waiting = s.waiting ∧ (s.logCauses z a b).checker = s.checker ∧
      (s.logCauses z a b).store = s.store ∧
      (s.logCauses z a b).hold = s.hold ∧ (s.logCauses z a b).force = s.force ∧ (s.logCauses z a b).sweep = s.sweep ∧
      (s.logCauses z a b).requests = s.requests ∧
      (s.logCauses z a b).port = s.port ∧ (s.logCauses z a b).lines = s.lines ∧ (s.logCauses z a b).maint = s.maint ∧
      (s.logCauses z a b).staging = s.staging ∧
      (s.logCauses z a b).nv = s.nv ∧ (s.logCauses z a b).agenda = s.agenda ∧ (s.logCauses z a b).choices = s.choices := by
  unfold logCauses
  generalize Causes.changes a b = l
  induction l generalizing s with
  | nil => simp
  | cons p rest ih =>
    have h := ih (s.append (if p.2 then .causeSet else .causeClear) (some z) (some p.1.number) none)
    simp only [append_frame] at h
    exact h

@[simp] theorem zoneEvent_frame (s : State) (z : Fin 4) (r : ZoneRec) (cs : Causes) :
      (s.zoneEvent z r cs).pending = s.pending ∧ (s.zoneEvent z r cs).supply = s.supply ∧ (s.zoneEvent z r cs).resetLine = s.resetLine ∧
      (s.zoneEvent z r cs).busReset = s.busReset ∧
      (s.zoneEvent z r cs).mode = s.mode ∧ (s.zoneEvent z r cs).time = s.time ∧ (s.zoneEvent z r cs).cfg = s.cfg ∧
      (s.zoneEvent z r cs).chans = s.chans ∧
      (s.zoneEvent z r cs).scan = s.scan ∧ (s.zoneEvent z r cs).spills = s.spills ∧ (s.zoneEvent z r cs).tachs = s.tachs ∧
      (s.zoneEvent z r cs).windowOpen = s.windowOpen ∧
      (s.zoneEvent z r cs).upstream = s.upstream ∧ (s.zoneEvent z r cs).hostWaiting = s.hostWaiting ∧
      (s.zoneEvent z r cs).responses = s.responses ∧ (s.zoneEvent z r cs).posted = s.posted ∧
      (s.zoneEvent z r cs).waiting = s.waiting ∧ (s.zoneEvent z r cs).checker = s.checker ∧ (s.zoneEvent z r cs).store = s.store ∧
      (s.zoneEvent z r cs).hold = s.hold ∧
      (s.zoneEvent z r cs).force = s.force ∧ (s.zoneEvent z r cs).sweep = s.sweep ∧ (s.zoneEvent z r cs).requests = s.requests ∧
      (s.zoneEvent z r cs).port = s.port ∧
      (s.zoneEvent z r cs).lines = s.lines ∧ (s.zoneEvent z r cs).maint = s.maint ∧ (s.zoneEvent z r cs).staging = s.staging ∧
      (s.zoneEvent z r cs).nv = s.nv := by
  simp [zoneEvent]

@[simp] theorem zoneCause_frame (s : State) (z : Fin 4) (c : Cause) (b : Bool) :
      (s.zoneCause z c b).pending = s.pending ∧ (s.zoneCause z c b).supply = s.supply ∧ (s.zoneCause z c b).resetLine = s.resetLine ∧
      (s.zoneCause z c b).busReset = s.busReset ∧
      (s.zoneCause z c b).mode = s.mode ∧ (s.zoneCause z c b).time = s.time ∧ (s.zoneCause z c b).cfg = s.cfg ∧
      (s.zoneCause z c b).chans = s.chans ∧
      (s.zoneCause z c b).scan = s.scan ∧ (s.zoneCause z c b).spills = s.spills ∧ (s.zoneCause z c b).tachs = s.tachs ∧
      (s.zoneCause z c b).windowOpen = s.windowOpen ∧
      (s.zoneCause z c b).upstream = s.upstream ∧ (s.zoneCause z c b).hostWaiting = s.hostWaiting ∧
      (s.zoneCause z c b).responses = s.responses ∧ (s.zoneCause z c b).posted = s.posted ∧
      (s.zoneCause z c b).waiting = s.waiting ∧ (s.zoneCause z c b).checker = s.checker ∧ (s.zoneCause z c b).store = s.store ∧
      (s.zoneCause z c b).hold = s.hold ∧
      (s.zoneCause z c b).force = s.force ∧ (s.zoneCause z c b).sweep = s.sweep ∧ (s.zoneCause z c b).requests = s.requests ∧
      (s.zoneCause z c b).port = s.port ∧
      (s.zoneCause z c b).lines = s.lines ∧ (s.zoneCause z c b).maint = s.maint ∧ (s.zoneCause z c b).staging = s.staging ∧
      (s.zoneCause z c b).nv = s.nv := by
  simp [zoneCause]

@[simp] theorem zoneAcknowledge_frame (s : State) (z : Fin 4) :
      (s.zoneAcknowledge z).pending = s.pending ∧ (s.zoneAcknowledge z).supply = s.supply ∧
      (s.zoneAcknowledge z).resetLine = s.resetLine ∧ (s.zoneAcknowledge z).busReset = s.busReset ∧
      (s.zoneAcknowledge z).mode = s.mode ∧ (s.zoneAcknowledge z).time = s.time ∧ (s.zoneAcknowledge z).cfg = s.cfg ∧
      (s.zoneAcknowledge z).chans = s.chans ∧
      (s.zoneAcknowledge z).scan = s.scan ∧ (s.zoneAcknowledge z).spills = s.spills ∧ (s.zoneAcknowledge z).tachs = s.tachs ∧
      (s.zoneAcknowledge z).windowOpen = s.windowOpen ∧
      (s.zoneAcknowledge z).upstream = s.upstream ∧ (s.zoneAcknowledge z).hostWaiting = s.hostWaiting ∧
      (s.zoneAcknowledge z).responses = s.responses ∧ (s.zoneAcknowledge z).posted = s.posted ∧
      (s.zoneAcknowledge z).waiting = s.waiting ∧ (s.zoneAcknowledge z).checker = s.checker ∧ (s.zoneAcknowledge z).store = s.store ∧
      (s.zoneAcknowledge z).hold = s.hold ∧
      (s.zoneAcknowledge z).force = s.force ∧ (s.zoneAcknowledge z).sweep = s.sweep ∧ (s.zoneAcknowledge z).requests = s.requests ∧
      (s.zoneAcknowledge z).port = s.port ∧
      (s.zoneAcknowledge z).lines = s.lines ∧ (s.zoneAcknowledge z).maint = s.maint ∧ (s.zoneAcknowledge z).staging = s.staging ∧
      (s.zoneAcknowledge z).nv = s.nv := by
  simp [zoneAcknowledge]

@[simp] theorem refreshRestart_frame (s : State) (z : Fin 4) :
      (s.refreshRestart z).pending = s.pending ∧ (s.refreshRestart z).supply = s.supply ∧ (s.refreshRestart z).resetLine = s.resetLine ∧
      (s.refreshRestart z).busReset = s.busReset ∧
      (s.refreshRestart z).mode = s.mode ∧ (s.refreshRestart z).time = s.time ∧ (s.refreshRestart z).cfg = s.cfg ∧
      (s.refreshRestart z).chans = s.chans ∧
      (s.refreshRestart z).scan = s.scan ∧ (s.refreshRestart z).spills = s.spills ∧ (s.refreshRestart z).tachs = s.tachs ∧
      (s.refreshRestart z).windowOpen = s.windowOpen ∧
      (s.refreshRestart z).upstream = s.upstream ∧ (s.refreshRestart z).hostWaiting = s.hostWaiting ∧
      (s.refreshRestart z).responses = s.responses ∧ (s.refreshRestart z).posted = s.posted ∧
      (s.refreshRestart z).waiting = s.waiting ∧ (s.refreshRestart z).checker = s.checker ∧ (s.refreshRestart z).store = s.store ∧
      (s.refreshRestart z).hold = s.hold ∧
      (s.refreshRestart z).force = s.force ∧ (s.refreshRestart z).sweep = s.sweep ∧ (s.refreshRestart z).requests = s.requests ∧
      (s.refreshRestart z).port = s.port ∧
      (s.refreshRestart z).lines = s.lines ∧ (s.refreshRestart z).maint = s.maint ∧ (s.refreshRestart z).staging = s.staging ∧
      (s.refreshRestart z).nv = s.nv := by
  unfold refreshRestart; dsimp only; split <;> (try split) <;> simp

@[simp] theorem refreshExpire_frame (s : State) (z : Fin 4) :
      (s.refreshExpire z).pending = s.pending ∧ (s.refreshExpire z).supply = s.supply ∧ (s.refreshExpire z).resetLine = s.resetLine ∧
      (s.refreshExpire z).busReset = s.busReset ∧
      (s.refreshExpire z).mode = s.mode ∧ (s.refreshExpire z).time = s.time ∧ (s.refreshExpire z).cfg = s.cfg ∧
      (s.refreshExpire z).chans = s.chans ∧
      (s.refreshExpire z).scan = s.scan ∧ (s.refreshExpire z).spills = s.spills ∧ (s.refreshExpire z).tachs = s.tachs ∧
      (s.refreshExpire z).windowOpen = s.windowOpen ∧
      (s.refreshExpire z).upstream = s.upstream ∧ (s.refreshExpire z).hostWaiting = s.hostWaiting ∧
      (s.refreshExpire z).responses = s.responses ∧ (s.refreshExpire z).posted = s.posted ∧
      (s.refreshExpire z).waiting = s.waiting ∧ (s.refreshExpire z).checker = s.checker ∧ (s.refreshExpire z).store = s.store ∧
      (s.refreshExpire z).hold = s.hold ∧
      (s.refreshExpire z).force = s.force ∧ (s.refreshExpire z).sweep = s.sweep ∧ (s.refreshExpire z).requests = s.requests ∧
      (s.refreshExpire z).port = s.port ∧
      (s.refreshExpire z).lines = s.lines ∧ (s.refreshExpire z).maint = s.maint ∧ (s.refreshExpire z).staging = s.staging ∧
      (s.refreshExpire z).nv = s.nv := by
  unfold refreshExpire; dsimp only; split <;> simp

@[simp] theorem purgeExpire_frame (s : State) (z : Fin 4) :
      (s.purgeExpire z).pending = s.pending ∧ (s.purgeExpire z).supply = s.supply ∧ (s.purgeExpire z).resetLine = s.resetLine ∧
      (s.purgeExpire z).busReset = s.busReset ∧
      (s.purgeExpire z).mode = s.mode ∧ (s.purgeExpire z).time = s.time ∧ (s.purgeExpire z).cfg = s.cfg ∧
      (s.purgeExpire z).chans = s.chans ∧
      (s.purgeExpire z).scan = s.scan ∧ (s.purgeExpire z).spills = s.spills ∧ (s.purgeExpire z).tachs = s.tachs ∧
      (s.purgeExpire z).windowOpen = s.windowOpen ∧
      (s.purgeExpire z).upstream = s.upstream ∧ (s.purgeExpire z).hostWaiting = s.hostWaiting ∧
      (s.purgeExpire z).responses = s.responses ∧ (s.purgeExpire z).posted = s.posted ∧
      (s.purgeExpire z).waiting = s.waiting ∧ (s.purgeExpire z).checker = s.checker ∧ (s.purgeExpire z).store = s.store ∧
      (s.purgeExpire z).hold = s.hold ∧
      (s.purgeExpire z).force = s.force ∧ (s.purgeExpire z).sweep = s.sweep ∧ (s.purgeExpire z).requests = s.requests ∧
      (s.purgeExpire z).port = s.port ∧
      (s.purgeExpire z).lines = s.lines ∧ (s.purgeExpire z).maint = s.maint ∧ (s.purgeExpire z).staging = s.staging ∧
      (s.purgeExpire z).nv = s.nv := by
  unfold purgeExpire; dsimp only; split <;> simp

@[simp] theorem zoneFlagged_frame (s : State) (z : Fin 4) :
      (s.zoneFlagged z).pending = s.pending ∧ (s.zoneFlagged z).supply = s.supply ∧ (s.zoneFlagged z).resetLine = s.resetLine ∧
      (s.zoneFlagged z).busReset = s.busReset ∧
      (s.zoneFlagged z).mode = s.mode ∧ (s.zoneFlagged z).time = s.time ∧ (s.zoneFlagged z).cfg = s.cfg ∧
      (s.zoneFlagged z).chans = s.chans ∧
      (s.zoneFlagged z).scan = s.scan ∧ (s.zoneFlagged z).spills = s.spills ∧ (s.zoneFlagged z).tachs = s.tachs ∧
      (s.zoneFlagged z).windowOpen = s.windowOpen ∧
      (s.zoneFlagged z).upstream = s.upstream ∧ (s.zoneFlagged z).hostWaiting = s.hostWaiting ∧
      (s.zoneFlagged z).responses = s.responses ∧ (s.zoneFlagged z).posted = s.posted ∧
      (s.zoneFlagged z).waiting = s.waiting ∧ (s.zoneFlagged z).checker = s.checker ∧ (s.zoneFlagged z).store = s.store ∧
      (s.zoneFlagged z).hold = s.hold ∧
      (s.zoneFlagged z).force = s.force ∧ (s.zoneFlagged z).sweep = s.sweep ∧ (s.zoneFlagged z).requests = s.requests ∧
      (s.zoneFlagged z).port = s.port ∧
      (s.zoneFlagged z).lines = s.lines ∧ (s.zoneFlagged z).log = s.log ∧ (s.zoneFlagged z).maint = s.maint ∧
      (s.zoneFlagged z).staging = s.staging ∧
      (s.zoneFlagged z).nv = s.nv ∧ (s.zoneFlagged z).agenda = s.agenda ∧ (s.zoneFlagged z).choices = s.choices := by
  simp [zoneFlagged]

/-! ## The zone records -/

theorem zoneMove_zones (s : State) (z : Fin 4) (new : ZoneState) :
    (s.zoneMove z new).zones = s.zones.set z (s.moved z (s.zones.get z) new) := by
  simp [zoneMove]

/-- A zone event writes its own zone's record alone: the fields given, the causes, the flag, and the state settled once (R5, R16, R18). -/
theorem zoneEvent_zones (s : State) (z : Fin 4) (r : ZoneRec) (cs : Causes) :
    (s.zoneEvent z r cs).zones = s.zones.set z
      (s.moved z { r with causes := cs, unack := r.unack || Causes.anySet (s.zones.get z).causes cs }
        (settleState r.state cs)) := by
  simp [zoneEvent]

/-- Another zone's record is left alone (section 1). -/
theorem zoneEvent_other (s : State) {z y : Fin 4} (h : z ≠ y) (r : ZoneRec) (cs : Causes) :
    (s.zoneEvent z r cs).zones.get y = s.zones.get y := by
  rw [zoneEvent_zones, Tab.get_set_of_ne _ h]

/-- The causes an acknowledge leaves (R20 step 3). -/
def ackCauses (s : State) (z : Fin 4) : Causes :=
  if s.zoneDry z then { (s.zones.get z).causes with spill := false } else (s.zones.get z).causes

/-- An acknowledge writes its own zone's record alone: the flag, the peak, SPILL where the lines are DRY, and the state (R20, R21). -/
theorem zoneAcknowledge_zones (s : State) (z : Fin 4) :
    (s.zoneAcknowledge z).zones = s.zones.set z
      (s.moved z { s.zones.get z with unack := false, peak := (s.zones.get z).reading, causes := ackCauses s z }
        (acknowledgedState (s.zones.get z).state (ackCauses s z))) := by
  have hcs : (if (s.zones.get z).causes.spill && s.zoneDry z then (s.zones.get z).causes.put .spill false
      else (s.zones.get z).causes) = ackCauses s z := by
    simp only [ackCauses]
    generalize (s.zones.get z).causes = c
    cases hd : s.zoneDry z <;> cases hs : c.spill <;> simp [Causes.put]
    rw [← hs]
  simp only [zoneAcknowledge, hcs]
  simp

/-! ## Items marked in RUN -/

/-- An item marked stays due to be written: its mark is set, or the writer takes it with the mark (R170, R173). -/
theorem toWrite_choose {s : State} {i : Fin 67} (h : s.toWrite i) : s.chooseItem.toWrite i := by
  unfold chooseItem
  split
  · exact h
  · next hw =>
    split
    · split
      · exact h
      · next j hj =>
        rcases h with h | ⟨x, h⟩
        · by_cases hji : j = i
          · subst hji; exact Or.inr ⟨_, rfl⟩
          · exact Or.inl (by simpa [Tab.get_set_of_ne _ hji] using h)
        · rw [hw] at h; cases h
    · exact h

theorem toWrite_mark_self {s : State} (h : s.mode = .run) (i : Fin 67) : (s.mark i).toWrite i := by
  unfold mark
  rw [if_pos h]
  exact toWrite_choose (Or.inl (Tab.get_set_self _ _ _))

theorem toWrite_mark {s : State} {i : Fin 67} (h : s.toWrite i) (j : Fin 67) : (s.mark j).toWrite i := by
  unfold mark
  split
  · apply toWrite_choose
    rcases h with h | h
    · left
      show ((s.marks.set j true).get i) = true
      rw [Tab.get_set]; split
      · rfl
      · exact h
    · exact Or.inr h
  · exact h

theorem toWrite_markAll {s : State} {i : Fin 67} (h : s.toWrite i) (is : List (Fin 67)) : (s.markAll is).toWrite i := by
  unfold markAll
  induction is generalizing s with
  | nil => exact h
  | cons a rest ih => exact ih (toWrite_mark h a)

theorem toWrite_markAll_mem {s : State} (hm : s.mode = .run) {is : List (Fin 67)} {i : Fin 67} (h : i ∈ is) : (s.markAll is).toWrite i := by
  induction is generalizing s with
  | nil => cases h
  | cons a rest ih =>
    rcases List.mem_cons.1 h with rfl | h
    · exact toWrite_markAll (toWrite_mark_self hm i) rest
    · exact ih (s := s.mark a) (by simpa using hm) h

theorem toWrite_markEvery (s : State) (i : Fin 67) : s.markEvery.toWrite i :=
  toWrite_choose (Or.inl (by simp [Tab.get_replicate]))

theorem toWrite_append {s : State} {i : Fin 67} (h : s.toWrite i) (k z a b) : (s.append k z a b).toWrite i := by
  have hrec : (s.appendRecord k z a b).toWrite i := by
    unfold appendRecord; dsimp only
    refine toWrite_mark (toWrite_mark ?_ _) _
    exact h
  unfold append
  split
  · split
    · unfold countRepeat; split
      · refine toWrite_mark ?_ _
        exact h
      · exact h
    · exact hrec
  · exact hrec

theorem toWrite_setZone {s : State} {i : Fin 67} (h : s.toWrite i) (z r) : (s.setZone z r).toWrite i := by
  unfold setZone; dsimp only; split
  · refine toWrite_mark ?_ _
    exact h
  · exact h

theorem toWrite_zoneEvent {s : State} {i : Fin 67} (h : s.toWrite i) (z r cs) : (s.zoneEvent z r cs).toWrite i := by
  have hann : ∀ {s : State}, s.toWrite i → ∀ a b, (s.announce z a b).toWrite i := by
    intro s h a b
    unfold announce
    split
    · exact h
    · have h1 := toWrite_append h .zoneState (some z) (some a.code) (some b.code)
      unfold toWrite at h1 ⊢
      simpa using h1
  unfold zoneEvent; dsimp only
  apply hann
  unfold logCauses
  generalize Causes.changes _ _ = l
  have h1 := toWrite_setZone h z (s.moved z { r with causes := cs, unack := r.unack || Causes.anySet (s.zones.get z).causes cs }
    (settleState r.state cs))
  generalize s.setZone z _ = u at h1
  induction l generalizing u with
  | nil => exact h1
  | cons a rest ih => simp only [List.foldl_cons]; exact ih _ (toWrite_append h1 _ _ _ _)

end Sys2Proof.Machine.State
end

