-- ==== Sys2Proof/Laws/Blocks.lean ====
section
/-!
SUPPORT. The force engine, the checker, the port, the report writer and the end of a step are inside (see Laws/Inside.lean).
-/
namespace Sys2Proof.Machine.State

open Inside

/-! ## The force engine -/

theorem nodup_otherRequests (s : State) (z : Fin 4) (h : (s.requests.map SweepRequest.zone).Nodup) :
    ((s.otherRequests z).map SweepRequest.zone).Nodup :=
  h.sublist (List.Sublist.map _ List.filter_sublist)

theorem inside_otherRequests (s : State) (z : Fin 4) : Inside s { s with requests := s.otherRequests z } :=
  inside_requests (nodup_otherRequests s z)

theorem inside_pendSweep (s : State) (z : Fin 4) (k : SweepKind) : Inside s (s.pendSweep z k) := by
  apply inside_requests
  intro h
  rw [List.map_append, List.nodup_append]
  refine ⟨nodup_otherRequests s z h, by simp, ?_⟩
  intro x hx y hy
  simp only [List.map_cons, List.map_nil, List.mem_singleton] at hy
  obtain ⟨e, he, rfl⟩ := List.mem_map.1 hx
  have := (List.mem_filter.1 he).2
  rw [hy]
  simpa using this

theorem inside_queueSweep (s : State) (z : Fin 4) (k : SweepKind) : Inside s (s.queueSweep z k) := by
  unfold queueSweep
  split
  · exact inside_pendSweep s z k
  · split
    · exact refl s
    · split
      · exact inside_pendSweep s z _
      · split
        · exact inside_pendSweep s z _
        · exact inside_otherRequests s z

theorem inside_takeSweepRequest (s : State) (z : Fin 4) (k : SweepKind) : Inside s (s.takeSweepRequest z k) := by
  unfold takeSweepRequest
  split
  · exact inside_queueSweep s z k
  · split
    · exact (inside_otherRequests s z).trans (inside_sweep _ _)
    · split
      · exact (inside_pendSweep s z k).trans (inside_sweep _ _)
      · exact inside_queueSweep s z k

theorem inside_requestSweep (s : State) (z : Fin 4) (k : SweepKind) : Inside s (s.requestSweep z k) := by
  unfold requestSweep
  split
  · exact (inside_takeSweepRequest s z k).trans (inside_notify _ _)
  · exact refl s

theorem inside_forceActive (s : State) (e : Fin 16) (f : ForceCfg) (n : Nat) : Inside s (s.forceActive e f n) := by
  unfold forceActive
  extract_lets r s1 s2
  have h1 : Inside s s1 := inside_setForce s e _
  have h2 : Inside s s2 := by
    unfold s2
    split
    · exact h1.trans (inside_append _ _ _ _ _)
    · exact h1
  exact h2.trans (inside_entryBoundary _ _)

theorem inside_engineValue (s : State) (e : Fin 16) (f : ForceCfg) (n : Half) : Inside s (s.engineValue e f n) := by
  unfold engineValue
  extract_lets r s1
  have h1 : Inside s s1 := inside_setForce s e _
  split
  · exact h1.trans (inside_forceActive _ _ _ _)
  · exact h1.trans (inside_setWork _ _)

theorem inside_engineLookup (s : State) (e : Fin 16) (f : ForceCfg) : Inside s (s.engineLookup e f) := by
  unfold engineLookup
  extract_lets found s1
  have h1 : Inside s s1 := inside_setStore fun h => CellStore.lookup_sound h s.queued .engine f.cell
  split
  · exact h1.trans (inside_engineValue _ _ _ _)
  · exact h1.trans (inside_setWork _ _)

theorem inside_attemptFailed (s : State) (e : Fin 16) (f : ForceCfg) : Inside s (s.attemptFailed e f) := by
  unfold attemptFailed; dsimp only
  split
  · exact (inside_setForce s e _).trans (inside_engineLookup _ _ _)
  · exact (inside_setForce s e _).trans
      ((inside_append _ _ _ _ _).trans ((inside_zoneFlagged _ _).trans (inside_entryBoundary _ _)))

theorem inside_withdrawHost (s : State) (a : Addr) : Inside s (s.withdrawHost a) := by
  unfold withdrawHost
  split
  · exact (inside_waiting s _).trans (inside_answerHost _ _ _)
  · exact refl s

theorem inside_removePosted (s : State) (a : Addr) : Inside s (s.removePosted a) := by
  unfold removePosted
  split
  · extract_lets s1
    have h1 : Inside s s1 := inside_setPosted fun h => Nat.le_trans (List.length_filter_le _ _) h
    exact h1.trans (inside_setStore fun h => CellStore.correct_sound h _ _ _)
  · exact refl s

theorem inside_forceApply (s : State) (e : Fin 16) (f : ForceCfg) : Inside s (s.forceApply e f) := by
  unfold forceApply
  extract_lets r idle taken s1 s2 s3
  have h1 : Inside s s1 := (inside_withdrawHost _ _).trans ((inside_removePosted _ _).trans (inside_dropHold _ _))
  have h2 : Inside s s2 := h1.trans (inside_setForce _ _ _)
  have h3 : Inside s s3 := by
    refine h2.trans ?_
    unfold s3
    split
    · exact inside_notify _ _
    · exact refl _
  split
  · exact h3.trans (inside_setWork _ _)
  · exact h3.trans (inside_engineLookup _ _ _)

theorem inside_forceJudge (s : State) (e : Fin 16) (f : ForceCfg) (v : Half) : Inside s (s.forceJudge e f v) := by
  unfold forceJudge
  split
  · exact inside_releaseDone _ _
  · split
    · exact (inside_setWork _ _).trans (inside_place _ _)
    · exact (inside_holdPart _ _ _ _ _).trans (inside_releaseDone _ _)
    · exact (inside_append _ _ _ _ _).trans (inside_releaseDone _ _)

theorem inside_forceRelease (s : State) (e : Fin 16) (f : ForceCfg) : Inside s (s.forceRelease e f) := by
  unfold forceRelease
  extract_lets r s1
  have h1 : Inside s s1 := inside_setForce s e _
  split
  · exact h1.trans (inside_forceJudge _ _ _ _)
  · exact h1.trans (inside_releaseDone _ _)

theorem inside_endSweep (s : State) : Inside s s.endSweep := (inside_sweep s none).trans (inside_notify _ _)

theorem inside_takeSweep (s : State) : Inside s s.takeSweep := by
  unfold takeSweep
  split
  · exact refl s
  · exact (inside_otherRequests s _).trans ((inside_sweep _ _).trans (inside_notify _ _))

theorem inside_engineGo (s : State) : Inside s s.engineGo := by
  unfold engineGo
  split
  · exact inside_takeSweep s
  · split
    · exact refl s
    · split
      · exact inside_endSweep s
      · split
        · exact inside_endSweep s
        · split
          · exact inside_endSweep s
          · extract_lets s1
            have h1 : Inside s s1 := inside_sweep s _
            split
            · exact h1.trans (inside_forceApply _ _ _)
            · exact h1.trans (inside_forceRelease _ _ _)

theorem inside_engineSettles (s : State) (v : Option Half) : Inside s (s.engineSettles v) := by
  unfold engineSettles
  split
  · exact refl s
  · split
    · exact inside_engineValue _ _ _ _
    · exact inside_attemptFailed _ _ _
    · exact refl s

theorem inside_forceWritten (s : State) (done : Bool) : Inside s (s.forceWritten done) := by
  unfold forceWritten
  split
  · exact refl s
  · split
    · exact refl s
    · split
      · exact inside_forceActive _ _ _ _
      · exact (inside_setStore fun h => CellStore.invalidate_sound h _ _).trans (inside_attemptFailed _ _ _)

theorem inside_deliveryDone (s : State) (p : Posted) : Inside s (s.deliveryDone p) := by
  unfold deliveryDone
  split
  · split
    · split
      · exact inside_engineLookup _ _ _
      · exact refl s
    · exact refl s
  · exact refl s

theorem inside_retryExpire (s : State) (e : Fin 16) : Inside s (s.retryExpire e) := by
  unfold retryExpire
  extract_lets r s1
  have h1 : Inside s s1 := inside_setForce s e _
  split
  · split
    · split
      · exact h1.trans (inside_requestSweep _ _ _)
      · exact h1
    · exact h1
  · exact refl s

/-! ## The checker and the upstream port -/

theorem inside_refuse (s : State) (style : Style) (z : Option (Fin 4)) (a : Addr) (v : Half) :
    Inside s (s.refuse style z a v) := by
  unfold refuse; split <;> exact (inside_append _ _ _ _ _).trans (inside_answerHost _ _ _)

theorem inside_keepRequest (s : State) (a : Addr) (v : Half) : Inside s (s.keepRequest a v) := by
  unfold keepRequest; split
  · exact inside_setForce _ _ _
  · exact refl s

theorem keepRequest_hold (s : State) (a : Addr) (v : Half) : (s.keepRequest a v).hold = s.hold := by
  unfold keepRequest; split <;> rfl

/-- A verdict carried out is inside, where a held write finds an entry for its cell or room. -/
theorem inside_carryOut {s : State} (a : Addr) (v : Half) (z : Fin 4) (p : Fin 8) (style : Style) {d : Verdict}
    (h : d = .held → (s.holdOf a).isSome = true ∨ s.hold.length < 8) : Inside s (s.carryOut a v z p style d) := by
  unfold carryOut
  extract_lets s1
  have h1 : Inside s s1 := by
    unfold s1
    split
    · exact inside_keepRequest _ _ _
    · exact refl s
  have hh : s1.hold = s.hold := by
    unfold s1
    split
    · exact keepRequest_hold _ _ _
    · rfl
  split
  · exact h1.trans ((inside_dropHold _ _).trans ((inside_upstream _ _).trans (inside_place _ _)))
  · exact h1.trans (inside_answerHost _ _ _)
  · refine h1.trans ((inside_joinHold _ _ _ _ _ ?_).trans (inside_answerHost _ _ _))
    have := h rfl
    unfold holdOf at this ⊢
    rw [hh]
    exact this
  · exact h1.trans ((inside_append _ _ _ _ _).trans (inside_refuse _ _ _ _ _))
  · exact h1.trans (inside_refuse _ _ _ _ _)

theorem judge_held {s : State} {a : Addr} {v : Half} {z : Fin 4} {p : Fin 8} {n : Option Half}
    (h : s.judge a v z p n = .held) : (s.holdOf a).isSome = true ∨ s.hold.length < 8 := by
  have hf : ∀ b x, s.forceStep a b x ≠ .held := by
    intro b x hx
    unfold forceStep at hx
    split at hx
    · cases hx
    · split at hx <;> cases hx
  unfold judge at h
  dsimp only at h
  split at h
  · split at h
    · cases h
    · split at h
      · next hc =>
        simp only [Bool.or_eq_true, decide_eq_true_eq] at hc
        exact hc
      · cases h
  · cases h
  · split at h
    · exact absurd h (hf _ _)
    · split at h
      · exact absurd h (hf _ _)
      · exact absurd h (hf _ _)
      · cases h

/-- The two halves of a verdict event, in either order, are inside. -/
theorem inside_verdictHalves {s : State} (a : Addr) (v : Half) (z : Fin 4) (p : Fin 8) (style : Style) {d : Verdict}
    (hd : d = .held → (s.holdOf a).isSome = true ∨ s.hold.length < 8) :
    Inside s ((s.carryOut a v z p style d).refreshRestart z) ∧ Inside s ((s.refreshRestart z).carryOut a v z p style d) := by
  refine ⟨(inside_carryOut a v z p style hd).trans (inside_refreshRestart _ _),
    (inside_refreshRestart s z).trans (inside_carryOut a v z p style ?_)⟩
  unfold holdOf
  rw [show (s.refreshRestart z).hold = s.hold by simp]
  exact hd

theorem inside_verdict (s : State) (a : Addr) (v : Half) (z : Fin 4) (p : Fin 8) (style : Style) (n : Option Half) :
    Inside s (s.verdict a v z p style n) := by
  unfold verdict
  extract_lets d s1 k s2
  have h1 : Inside s s1 := inside_checker s _
  have h2 : Inside s s2 := h1.trans (inside_choices _ _)
  have hd : d = .held → (s.holdOf a).isSome = true ∨ s.hold.length < 8 := judge_held
  have v1 := inside_verdictHalves (s := s1) a v z p style hd
  have v2 := inside_verdictHalves (s := s2) a v z p style hd
  split
  · split
    · exact h2.trans v2.1
    · exact h2.trans v2.2
  · exact h1.trans v1.1

theorem inside_checkerLookup (s : State) (a : Addr) (v : Half) (z : Fin 4) (p : Fin 8) (style : Style) :
    Inside s (s.checkerLookup a v z p style) := by
  unfold checkerLookup
  extract_lets found s1
  have h1 : Inside s s1 := inside_setStore fun h => CellStore.lookup_sound h s.queued .checker a
  split
  · exact h1.trans (inside_verdict _ _ _ _ _ _ _)
  · exact h1.trans (inside_checker _ _)

theorem inside_handOver (s : State) (a : Addr) (v : Half) (z : Fin 4) (p : Fin 8) (style : Style) :
    Inside s (s.handOver a v z p style) := by
  unfold handOver
  extract_lets s1
  have h1 : Inside s s1 := inside_upstream s .judging
  split
  · exact h1.trans (inside_verdict _ _ _ _ _ _ _)
  · split
    · exact h1.trans (inside_checker _ _)
    · exact h1.trans (inside_checkerLookup _ _ _ _ _ _)

theorem inside_checkerSettles (s : State) (b : Bool) (v : Option Half) : Inside s (s.checkerSettles b v) := by
  unfold checkerSettles
  split
  · exact refl s
  · split
    · split
      · exact inside_checkerLookup _ _ _ _ _ _
      · exact refl s
    · split
      · exact refl s
      · exact inside_verdict _ _ _ _ _ _ _

/-- An abandoned claim that has settled is taken, and the lookup held back behind it made; or none has, and nothing changes (R103). -/
theorem abandonedSettles_cases (s : State) :
    (∃ k value, s.store.checkerClaim = some k ∧ k.abandoned = true ∧ k.stage = .settled value ∧
      s.abandonedSettles = (s.setStore (s.store.dropClaim .checker)).checkerSettles true value) ∨
    ((∀ k, s.store.checkerClaim = some k → k.abandoned = true → k.unsettled = true) ∧ s.abandonedSettles = s) := by
  unfold abandonedSettles
  cases hc : s.store.checkerClaim with
  | none => exact .inr ⟨fun k h => (nomatch h), rfl⟩
  | some k =>
    obtain ⟨a, stage, ab⟩ := k
    cases ab <;> cases stage
    case true.settled v => exact .inl ⟨_, v, rfl, rfl, rfl, rfl⟩
    all_goals exact .inr ⟨fun k h _ => by cases h; first | rfl | contradiction, rfl⟩

theorem inside_abandonedSettles (s : State) : Inside s s.abandonedSettles := by
  obtain ⟨k, v, -, -, -, h⟩ | ⟨-, h⟩ := abandonedSettles_cases s <;> rw [h]
  · exact (inside_setStore fun x => CellStore.dropClaim_sound x .checker).trans (inside_checkerSettles _ _ _)
  · exact refl s

theorem inside_postHost (s : State) (r : HostRequest) (z : Option (Fin 4)) (w : Option Observation) :
    Inside s (s.postHost r z w) := (inside_upstream s _).trans (inside_place _ _)

theorem inside_takeWrite (s : State) (r : HostRequest) : Inside s (s.takeWrite r) := by
  unfold takeWrite
  split
  · exact inside_refuse _ _ _ _ _
  · exact inside_postHost _ _ _ _
  · split
    · exact inside_postHost _ _ _ _
    · exact inside_postHost _ _ _ _
    · exact inside_refuse _ _ _ _ _
    · split
      · exact inside_handOver _ _ _ _ _ _
      · exact inside_refuse _ _ _ _ _

theorem inside_takeRead (s : State) (r : HostRequest) : Inside s (s.takeRead r) := by
  have h : Inside s { s with posted := s.posted.map (fun p => { p with ahead := true }) } :=
    inside_posted fun h => by rw [List.length_map]; exact h
  exact h.trans (inside_upstream _ _)

theorem inside_takeRequest (s : State) (r : HostRequest) : Inside s (s.takeRequest r) := by
  unfold takeRequest
  split
  · exact (inside_append _ _ _ _ _).trans (inside_answerHost _ _ _)
  · split
    · exact inside_takeWrite _ _
    · exact inside_takeRead _ _

/-- As `Inside`, but for what the host presents, which a step that takes a request shortens. -/
def Ended (s t : State) : Prop := Inside { s with hostWaiting := t.hostWaiting } t

theorem Inside.ended {s t : State} (h : Inside s t) : Ended s t := by
  have e : ({ s with hostWaiting := t.hostWaiting } : State) = s := by rw [h.hostWaiting]
  unfold Ended
  rw [e]
  exact h

theorem Ended.refl (s : State) : Ended s s := Inside.refl s

/-- Two states that differ in what the host presents are sound together. -/
theorem sound_hostWaiting (s : State) (l : List HostRequest) : ({ s with hostWaiting := l } : State).sound ↔ s.sound := Iff.rfl

theorem Ended.trans {s t u : State} (h : Ended s t) (k : Ended t u) : Ended s u :=
  ⟨k.pending.trans h.pending, rfl, k.supply.trans h.supply, k.resetLine.trans h.resetLine, k.busReset.trans h.busReset,
    k.mode.trans h.mode, k.time.trans h.time, k.cfg.trans h.cfg, k.chans.trans h.chans, k.scan.trans h.scan,
    k.spills.trans h.spills, k.windowOpen.trans h.windowOpen, k.maint.trans h.maint, k.staging.trans h.staging,
    k.nv.trans h.nv, k.holdLevels.trans h.holdLevels, fun z => (k.readings z).trans (h.readings z),
    fun i => (k.counts i).trans (h.counts i), fun i => (k.speeds i).trans (h.speeds i),
    fun i => (k.windows i).trans (h.windows i), fun x => k.sound (h.sound x),
    fun x => k.steady (h.steady x)⟩

theorem ended_hostWaiting (s : State) (l : List HostRequest) : Ended s { s with hostWaiting := l } := Inside.refl _

theorem ended_admitOne (s : State) : Ended s s.admitOne := by
  unfold admitOne
  split
  · split
    · exact (ended_hostWaiting s _).trans (inside_takeRequest _ _).ended
    · exact Ended.refl s
  · exact Ended.refl s

/-! ## The report writer and the port -/

theorem inside_reportWritten (s : State) (done : Bool) (a : Addr) : Inside s (s.reportWritten done a) := by
  unfold reportWritten
  split
  · exact refl s
  · split
    · have h1 : Inside s { s with log := { s.log with latch := false } } := inside_log id
      split
      · exact h1.trans (inside_writer _ _)
      · exact h1.trans ((inside_writer _ _).trans (inside_chooseItem _))
    · extract_lets s1 s2
      have h1 : Inside s s1 := (inside_writer s _).trans (inside_mark _ _)
      split
      · exact h1
      · exact h1.trans ((inside_append _ _ _ _ _).trans (inside_log id))

theorem inside_flyPosted (s : State) : Inside s s.flyPosted := by
  unfold flyPosted
  apply inside_posted
  intro h
  split
  · next p rest hp =>
    rw [hp] at h
    exact h
  · exact Nat.zero_le _

theorem inside_grant (s : State) (t : Transfer) : Inside s (s.grant t) := by
  have h1 : Inside s { s with port := { s.port with state := .busy t, timeout := Timer.start 1 } } := inside_port s _
  unfold grant
  split
  · exact h1.trans (inside_setStore fun h => CellStore.writeThrough_sound h _ _)
  · exact h1
  · split
    · exact h1.trans (inside_flyPosted _)
    · exact h1.trans (inside_upstream _ _)
  · exact h1.trans (inside_port _ _)

theorem inside_grantNext (s : State) : Inside s s.grantNext := by
  unfold grantNext
  split
  · split
    · exact refl s
    · split
      · have h1 : Inside s s.nextOrder.2 := inside_choices s _
        split
        · exact h1.trans (inside_grant _ _)
        · exact h1
      · exact inside_grant _ _
  · exact refl s

theorem inside_startAging (s : State) : Inside s s.startAging := by
  unfold startAging
  split
  · exact inside_port s _
  · exact refl s

theorem inside_arbitrate (s : State) : Inside s s.arbitrate := (inside_grantNext s).trans (inside_startAging _)

theorem inside_postedDone (s : State) (done : Bool) : Inside s (s.postedDone done) := by
  unfold postedDone
  split
  · exact refl s
  · next p rest hp =>
    extract_lets s1 s2 s3
    have h1 : Inside s s1 := inside_setPosted fun h => by
      rw [hp] at h
      simp only [List.length_cons] at h
      omega
    have h3 : Inside s s3 := by
      unfold s3
      split
      · exact h1
      · split
        · exact h1.trans ((inside_append _ _ _ _ _).trans (inside_setStore fun h => CellStore.invalidate_sound h _ _))
        · exact h1.trans (inside_append _ _ _ _ _)
    exact h3.trans (inside_deliveryDone _ _)

theorem inside_hostReadDone (s : State) (done : Bool) (d : Data) : Inside s (s.hostReadDone done d) := by
  unfold hostReadDone
  split
  · split
    · exact inside_answerHost _ _ _
    · exact (inside_append _ _ _ _ _).trans (inside_answerHost _ _ _)
  all_goals exact refl s

theorem inside_fillReadDone (s : State) (done : Bool) (a : Addr) (d : Data) : Inside s (s.fillReadDone done a d) := by
  unfold fillReadDone
  extract_lets s0 s1
  refine Inside.trans ?_ (inside_abandonedSettles s1)
  unfold s1
  split
  · exact inside_setStore fun h => CellStore.readDone_sound h _ _
  · exact (inside_append _ _ _ _ _).trans (inside_setStore fun h => CellStore.readFault_sound h _)

theorem inside_handOutcome (s : State) (t : Transfer) (done : Bool) (d : Data) : Inside s (s.handOutcome t done d) := by
  unfold handOutcome
  split
  · exact inside_forceWritten _ _
  · exact inside_fillReadDone _ _ _ _
  · split
    · exact inside_postedDone _ _
    · exact inside_hostReadDone _ _ _
  · exact inside_reportWritten _ _ _

theorem inside_answered (s : State) (done : Bool) (d : Data) : Inside s (s.answered done d) := by
  unfold answered
  split
  · exact (inside_port s _).trans (inside_handOutcome _ _ _ _)
  all_goals exact refl s

theorem inside_timedOut (s : State) : Inside s s.timedOut := by
  unfold timedOut
  split
  · split
    · exact (inside_port s _).trans (inside_handOutcome _ _ _ _)
    · exact refl s
  all_goals exact refl s

theorem inside_settled (s : State) : Inside s s.settled := by
  unfold settled
  split
  · exact inside_port s _
  · exact refl s

theorem inside_reportAged (s : State) : Inside s s.reportAged := by
  unfold reportAged
  split
  · exact inside_port s _
  · exact refl s

/-! ## The end of a step -/

theorem inside_takeNotice (s : State) (n : Notice) : Inside s (s.takeNotice n) := by
  unfold takeNotice
  split
  · exact inside_rejudgeZone _ _ _
  · exact inside_fanRecompute _ _ _
  · exact inside_entryMoved _ _
  · exact inside_requestSweep _ _ _
  · exact inside_engineGo _

/-- The engine's turn is a notice of an agenda that holds the engine's own. -/
theorem engineTurn_mem {s : State} (h : .engineGo ∈ s.agenda) : s.engineTurn ∈ s.agenda := by
  unfold engineTurn
  cases hf : s.agenda.find? s.fanFirst with
  | none => exact h
  | some n => exact List.mem_of_find?_eq_some hf

/-- The engine goes on only where R50 puts no notice before it. -/
theorem engineTurn_fanFirst {s : State} (h : s.engineTurn = .engineGo) : ∀ n ∈ s.agenda, s.fanFirst n = false := by
  unfold engineTurn at h
  cases hf : s.agenda.find? s.fanFirst with
  | none => simpa using hf
  | some n =>
    rw [hf] at h
    have := List.find?_some hf
    rw [show n = .engineGo from h] at this
    cases this

/-- What is picked is picked from the agenda, and nothing but the agenda and the counter of the free orders changes (log 8). -/
theorem pickNotice_spec {s u : State} {k : Notice} (h : s.pickNotice = some (k, u)) :
    u = { s with agenda := u.agenda, choices := u.choices } ∧ s.agenda.Perm (k :: u.agenda) ∧ s.choices ≤ u.choices := by
  unfold pickNotice at h
  split at h
  · cases h
  · next n rest ha =>
    have turn : .engineGo ∈ s.agenda → s.agenda.Perm (s.engineTurn :: s.agenda.erase s.engineTurn) :=
      fun hm => List.perm_cons_erase (engineTurn_mem hm)
    split at h
    · next hn =>
      cases h
      exact ⟨rfl, turn (by rw [ha, hn]; exact List.mem_cons_self), Nat.le_refl _⟩
    split at h
    · next hc =>
      simp only [Bool.and_eq_true, List.contains_iff_mem] at hc
      split at h <;> cases h
      · exact ⟨rfl, by rw [ha], Nat.le_succ _⟩
      · exact ⟨rfl, turn (by rw [ha]; exact List.mem_cons_of_mem _ hc.2), Nat.le_succ _⟩
    · cases h
      exact ⟨rfl, by rw [ha], Nat.le_refl _⟩

theorem inside_pickNotice {s u : State} {k : Notice} (h : s.pickNotice = some (k, u)) : Inside s u := by
  rw [(pickNotice_spec h).1]
  exact (inside_agenda s u.agenda).trans (inside_choices { s with agenda := u.agenda } _)

theorem pickNotice_none {s : State} : s.pickNotice = none ↔ s.agenda = [] := by
  unfold pickNotice
  split
  · next h => simp [h]
  · next h => rw [h]; split <;> (try split) <;> (try split) <;> simp

theorem inside_drain (n : Nat) (s : State) : Inside s (s.drain n) := by
  induction n generalizing s with
  | zero => exact inside_agenda s []
  | succ n ih =>
    unfold drain
    split
    · exact refl s
    · next k u h => exact (inside_pickNotice h).trans ((inside_takeNotice _ _).trans (ih _))

theorem inside_settle (s : State) : Inside s s.settle := inside_drain _ s

theorem ended_admit (n : Nat) (s : State) : Ended s (s.admitWaiting n) := by
  induction n generalizing s with
  | zero => exact Ended.refl s
  | succ n ih =>
    unfold admitWaiting
    split
    · exact Ended.refl s
    · split
      · exact (ended_admitOne s).trans ((inside_settle _).ended.trans (ih _))
      · exact Ended.refl s

/-- What is recomputed keeps a steady line at its level. -/
theorem refreshLines_steady {s : State} (h : s.steadyLines) : s.refreshLines.steadyLines := by
  intro i b
  unfold refreshLines
  dsimp only
  split
  · simp only [runLines, Tab.get_ofFn, lineAfter]
    split
    · exact h i b
    · intro hp
      dsimp only at hp ⊢
      rw [hp]; rfl
  · simp only [Lines.safe, Tab.get_map]
    intro e; injection e

theorem inside_refreshLines (s : State) : Inside s s.refreshLines := by
  refine ⟨rfl, rfl, rfl, rfl, rfl, rfl, rfl, rfl, rfl, rfl, rfl, rfl, rfl, rfl, rfl, ?_, fun _ => rfl, fun _ => rfl,
    fun _ => rfl, fun _ => rfl, id, refreshLines_steady⟩
  unfold refreshLines
  dsimp only
  split <;> rfl

theorem inside_conclude (s : State) : Inside s s.conclude :=
  (inside_arbitrate s).trans (inside_refreshLines _)

theorem ended_finish (s : State) : Ended s s.finish :=
  (inside_settle s).ended.trans ((ended_admit _ _).trans (inside_conclude _).ended)

/-! ## What the end of a step leaves alone -/

@[simp] theorem finish_pending (s : State) : s.finish.pending = s.pending := (ended_finish s).pending
@[simp] theorem finish_supply (s : State) : s.finish.supply = s.supply := (ended_finish s).supply
@[simp] theorem finish_resetLine (s : State) : s.finish.resetLine = s.resetLine := (ended_finish s).resetLine
@[simp] theorem finish_busReset (s : State) : s.finish.busReset = s.busReset := (ended_finish s).busReset
@[simp] theorem finish_mode (s : State) : s.finish.mode = s.mode := (ended_finish s).mode
@[simp] theorem finish_time (s : State) : s.finish.time = s.time := (ended_finish s).time
@[simp] theorem finish_cfg (s : State) : s.finish.cfg = s.cfg := (ended_finish s).cfg
@[simp] theorem finish_chans (s : State) : s.finish.chans = s.chans := (ended_finish s).chans
@[simp] theorem finish_scan (s : State) : s.finish.scan = s.scan := (ended_finish s).scan
@[simp] theorem finish_spills (s : State) : s.finish.spills = s.spills := (ended_finish s).spills
@[simp] theorem finish_windowOpen (s : State) : s.finish.windowOpen = s.windowOpen := (ended_finish s).windowOpen
@[simp] theorem finish_maint (s : State) : s.finish.maint = s.maint := (ended_finish s).maint
@[simp] theorem finish_staging (s : State) : s.finish.staging = s.staging := (ended_finish s).staging
@[simp] theorem finish_nv (s : State) : s.finish.nv = s.nv := (ended_finish s).nv
@[simp] theorem finish_holdLevels (s : State) : s.finish.lines.hold = s.lines.hold := (ended_finish s).holdLevels
@[simp] theorem finish_readings (s : State) (z : Fin 4) : (s.finish.zones.get z).reading = (s.zones.get z).reading :=
  (ended_finish s).readings z
@[simp] theorem finish_alive (s : State) : s.finish.alive = s.alive := by
  unfold alive; rw [finish_supply, finish_resetLine]

end Sys2Proof.Machine.State
end

