-- ==== Sys2Proof/Laws/Crc.lean ====
section
/-!
SUPPORT. The CRC-32 of the image: the model's reflected register and the one that R182 words come to the same.
-/
namespace Sys2Proof.Machine

/-- The reflected CRC register after one bit shifted out. -/
def crcOut (x : BitVec 32) : BitVec 32 := if x.getLsbD 0 then (x >>> 1) ^^^ 0xEDB88320#32 else x >>> 1

/-- A bit as a register. -/
def crcIn (b : Bool) : BitVec 32 := if b then 1#32 else 0#32

theorem getLsbD_rev (x : BitVec 32) (i : Nat) (h : i < 32) : x.reverse.getLsbD i = x.getLsbD (31 - i) := by
  rw [BitVec.getLsbD_reverse, BitVec.getMsbD_eq_getLsbD]; simp [h]

theorem reverse_xor32 (x y : BitVec 32) : (x ^^^ y).reverse = x.reverse ^^^ y.reverse := by
  apply BitVec.eq_of_getLsbD_eq
  intro i hi
  rw [BitVec.getLsbD_xor, getLsbD_rev _ _ hi, getLsbD_rev _ _ hi, getLsbD_rev _ _ hi, BitVec.getLsbD_xor]

theorem reverse_shift32 (x : BitVec 32) : (x <<< 1).reverse = x.reverse >>> 1 := by
  apply BitVec.eq_of_getLsbD_eq
  intro i hi
  rw [getLsbD_rev _ _ hi, BitVec.getLsbD_shiftLeft, BitVec.getLsbD_ushiftRight]
  by_cases h : i = 31
  · subst h; simp
  · rw [getLsbD_rev _ _ (show 1 + i < 32 by omega)]
    simp [show 31 - i < 32 by omega, show ¬(31 - i = 0) by omega, show 31 - i - 1 = 31 - (1 + i) by omega]

theorem crcIn_shift (b : Bool) : crcIn b >>> 1 = 0#32 := by cases b <;> decide

/-- A bit shifted into the register is, reflected, the bit put in and a bit shifted out. -/
theorem crcShift_reverse (r : BitVec 32) (b : Bool) : (crcShift r b).reverse = crcOut (r.reverse ^^^ crcIn b) := by
  have hb : (r.reverse ^^^ crcIn b).getLsbD 0 = (r.msb ^^ b) := by
    rw [BitVec.getLsbD_xor, getLsbD_rev _ _ (by omega), BitVec.msb_eq_getLsbD_last]
    cases b <;> simp [crcIn]
  have hs : (r.reverse ^^^ crcIn b) >>> 1 = r.reverse >>> 1 := by
    rw [BitVec.ushiftRight_xor_distrib, crcIn_shift, BitVec.xor_zero]
  unfold crcShift crcOut
  rw [hb, hs]
  by_cases h : r.msb = b
  · simp [h, reverse_shift32]
  · have : (r.msb ^^ b) = true := by cases hm : r.msb <;> cases b <;> simp_all
    rw [if_neg h, this, if_pos rfl, reverse_xor32, reverse_shift32, show (0x04C11DB7#32).reverse = 0xEDB88320#32 by decide +kernel]

/-- What lies above the lowest bit of what is put in only moves down. -/
theorem crcOut_in (x y : BitVec 32) : crcOut (x ^^^ y) = crcOut (x ^^^ crcIn (y.getLsbD 0)) ^^^ (y >>> 1) := by
  have hl : (x ^^^ crcIn (y.getLsbD 0)).getLsbD 0 = (x ^^^ y).getLsbD 0 := by
    rw [BitVec.getLsbD_xor, BitVec.getLsbD_xor]; cases y.getLsbD 0 <;> simp [crcIn]
  unfold crcOut
  rw [hl, BitVec.ushiftRight_xor_distrib, BitVec.ushiftRight_xor_distrib, crcIn_shift, BitVec.xor_zero]
  split
  · rw [BitVec.xor_assoc, BitVec.xor_assoc, BitVec.xor_comm (y >>> 1)]
  · rfl

/-- One bit of the model's CRC is a bit shifted out. -/
theorem crcBit_out (x : BitVec 32) : crcBit x.toNat = (crcOut x).toNat := by
  unfold crcBit crcOut
  have : x.getLsbD 0 = decide (x.toNat % 2 = 1) := by simp [BitVec.getLsbD, Nat.testBit_zero]
  rw [this]
  by_cases h : x.toNat % 2 = 1
  · simp [h, BitVec.toNat_xor, BitVec.toNat_ushiftRight, Nat.shiftRight_eq_div_pow]
  · simp [h, BitVec.toNat_ushiftRight, Nat.shiftRight_eq_div_pow]

/-- The bits of a byte put in and shifted out one after another. -/
def crcBits (x : BitVec 32) (bits : List Bool) : BitVec 32 := bits.foldl (fun x b => crcOut (x ^^^ crcIn b)) x

/-- Bits of `y` put in at once and shifted out, are put in one by one. -/
theorem crcOut_iterate (n : Nat) (x y : BitVec 32) :
    crcOut^[n] (x ^^^ y) = crcBits x ((List.range n).map (fun i => y.getLsbD i)) ^^^ (y >>> n) := by
  induction n generalizing x y with
  | zero => simp [crcBits]
  | succ n ih =>
    rw [Function.iterate_succ, Function.comp, crcOut_in, ih, List.range_succ_eq_map, List.map_cons, List.map_map]
    congr 1
    · unfold crcBits
      rw [List.foldl_cons]
      congr 1
      apply List.map_congr_left
      intro i _
      rw [BitVec.getLsbD_ushiftRight]; simp [Nat.add_comm]
    · rw [← BitVec.shiftRight_add, Nat.add_comm]

/-- A byte of the model's CRC is its bits, the least significant first. -/
theorem crcByte_bits (x : BitVec 32) (b : Byte) :
    crcByte x.toNat b = (crcBits x ((List.range 8).map (fun i => b.getLsbD i))).toNat := by
  have hx : x.toNat ^^^ b.toNat = (x ^^^ b.setWidth 32).toNat := by
    rw [BitVec.toNat_xor, BitVec.toNat_setWidth, Nat.mod_eq_of_lt (by have := b.isLt; omega)]
  unfold crcByte
  rw [hx]
  simp only [crcBit_out]
  have := crcOut_iterate 8 x (b.setWidth 32)
  rw [show b.setWidth 32 >>> 8 = 0#32 by
    apply BitVec.eq_of_getLsbD_eq; intro i hi; rw [BitVec.getLsbD_ushiftRight, BitVec.getLsbD_setWidth]
    simp, BitVec.xor_zero] at this
  rw [show crcOut^[8] (x ^^^ b.setWidth 32) =
    crcOut (crcOut (crcOut (crcOut (crcOut (crcOut (crcOut (crcOut (x ^^^ b.setWidth 32)))))))) from rfl] at this
  rw [this]
  congr 2

theorem crcRun_cons (r : Nat) (b : Byte) (rest : List Byte) : crcRun r (b :: rest) = crcRun (crcByte r b) rest := by
  show (match crcByte r b with | 0 => crcRun 0 rest | n + 1 => crcRun (n + 1) rest) = _
  generalize crcByte r b = x
  cases x <;> rfl

/-- The model's register is the reflection of the one R182 words. -/
theorem crcRun_bits (bs : List Byte) (r : BitVec 32) :
    crcRun r.reverse.toNat bs =
      ((bs.flatMap (fun b => (List.range 8).map (fun i => b.getLsbD i))).foldl crcShift r).reverse.toNat := by
  have hbits : ∀ (l : List Bool) (r : BitVec 32), crcBits r.reverse l = (l.foldl crcShift r).reverse := by
    intro l
    induction l with
    | nil => intro r; rfl
    | cons b l ih =>
      intro r
      rw [List.foldl_cons, ← ih, crcShift_reverse]; rfl
  induction bs generalizing r with
  | nil => rfl
  | cons b bs ih =>
    rw [crcRun_cons, crcByte_bits, hbits, ih, List.flatMap_cons, List.foldl_append]

/-- The model's CRC-32 is the one R182 words. -/
theorem crc32_eq (bs : List Byte) : crc32 bs = (crcOver bs).toNat := by
  unfold crc32 crcOver
  have := crcRun_bits bs 0xFFFFFFFF#32
  rw [show (0xFFFFFFFF#32 : BitVec 32).reverse.toNat = 0xFFFFFFFF by decide +kernel] at this
  rw [this, BitVec.not_def, BitVec.toNat_xor, BitVec.toNat_allOnes, Nat.xor_comm]

end Sys2Proof.Machine
end

