-- ==== Sys2Proof/Laws/Memory.lean ====
section
/-!
SUPPORT. The laws of the addressed buffers: a write keeps the canonical form, and a read after a write; and the laws of timers.
-/
namespace Sys2Proof.Machine

namespace Memory

theorem wfFrom_mono {lo hi : Nat} {m : Memory} (h : lo ≤ hi) (hm : wfFrom hi m = true) : wfFrom lo m = true := by
  cases m with
  | nil => rfl
  | cons c rest =>
    obtain ⟨k, v⟩ := c
    simp only [wfFrom, Bool.and_eq_true, decide_eq_true_eq] at hm ⊢
    exact ⟨⟨Nat.le_trans h hm.1.1, hm.1.2⟩, hm.2⟩

/-- In canonical form, an offset below the first entry reads as 0. -/
theorem read_of_lt {lo : Nat} {m : Memory} (hm : wfFrom lo m = true) {a : Nat} (h : a < lo) : read m a = 0#8 := by
  induction m generalizing lo with
  | nil => rfl
  | cons c rest ih =>
    obtain ⟨k, v⟩ := c
    simp only [wfFrom, Bool.and_eq_true, decide_eq_true_eq] at hm
    have hk : k ≠ a := by omega
    simp only [read, if_neg hk]
    exact ih hm.2 (by omega)

theorem write_wfFrom {lo : Nat} {m : Memory} (hm : wfFrom lo m = true) {a : Nat} (ha : lo ≤ a) (v : Byte) :
    wfFrom lo (write m a v) = true := by
  induction m generalizing lo with
  | nil =>
    unfold write
    split
    · rfl
    · next h => simp [wfFrom, ha, h]
  | cons c rest ih =>
    obtain ⟨k, w⟩ := c
    have hm' := hm
    simp only [wfFrom, Bool.and_eq_true, decide_eq_true_eq] at hm
    unfold write
    split
    · next hlt =>
      split
      · exact hm'
      · next hv =>
        simp only [wfFrom, Bool.and_eq_true, decide_eq_true_eq]
        exact ⟨⟨ha, hv⟩, ⟨⟨by omega, hm.1.2⟩, hm.2⟩⟩
    · next hlt =>
      split
      · next he =>
        split
        · exact wfFrom_mono (by omega) hm.2
        · next hv =>
          simp only [wfFrom, Bool.and_eq_true, decide_eq_true_eq]
          exact ⟨⟨ha, hv⟩, he ▸ hm.2⟩
      · next he =>
        simp only [wfFrom, Bool.and_eq_true, decide_eq_true_eq]
        exact ⟨hm.1, ih hm.2 (by omega)⟩

/-- A write keeps the canonical form (log 36). -/
theorem write_wf {m : Memory} (hm : m.wf = true) (a : Nat) (v : Byte) : (m.write a v).wf = true :=
  write_wfFrom hm (Nat.zero_le a) v

theorem writeAll_wf {m : Memory} (hm : m.wf = true) (a : Nat) (bs : List Byte) : (m.writeAll a bs).wf = true := by
  induction bs generalizing m a with
  | nil => exact hm
  | cons b rest ih => exact ih (write_wf hm a b) (a + 1)

theorem read_writeFrom {lo : Nat} {m : Memory} (hm : wfFrom lo m = true) {a : Nat} (v : Byte) (b : Nat) :
    read (write m a v) b = if a = b then v else read m b := by
  induction m generalizing lo with
  | nil =>
    unfold write
    split
    · next h => subst h; simp [read]
    · simp [read]
  | cons c rest ih =>
    obtain ⟨k, w⟩ := c
    simp only [wfFrom, Bool.and_eq_true, decide_eq_true_eq] at hm
    have hr := fun x (hx : x < k + 1) => read_of_lt hm.2 hx
    unfold write
    split
    · next hlt =>
      split
      · next hv =>
        subst hv
        by_cases hb : a = b
        · subst hb
          simp only [if_true, read, if_neg (show k ≠ a by omega)]
          exact hr a (by omega)
        · simp [hb]
      · simp [read]
    · next hlt =>
      split
      · next he =>
        subst he
        split
        · next hv =>
          subst hv
          by_cases hb : a = b
          · subst hb; simpa using hr a (by omega)
          · simp [hb, read]
        · by_cases hb : a = b <;> simp [hb, read]
      · next he =>
        simp only [read]
        by_cases hk : k = b
        · have : a ≠ b := by omega
          simp [hk, this]
        · simp only [hk, if_false]
          exact ih hm.2

/-- A read after a write (R182, R191). -/
theorem read_write {m : Memory} (hm : m.wf = true) (a : Nat) (v : Byte) (b : Nat) :
    (m.write a v).read b = if a = b then v else m.read b := read_writeFrom hm v b

/-- A read after a run of writes: the bytes written where they were written, the old bytes elsewhere. -/
theorem read_writeAll {m : Memory} (hm : m.wf = true) (a : Nat) (bs : List Byte) (b : Nat) :
    (m.writeAll a bs).read b = if h : a ≤ b ∧ b < a + bs.length then bs[b - a]'(by omega) else m.read b := by
  induction bs generalizing m a with
  | nil =>
    have : ¬(a ≤ b ∧ b < a + ([] : List Byte).length) := by simp
    simp only [dif_neg this]
    rfl
  | cons c rest ih =>
    have hstep := ih (write_wf hm a c) (a + 1)
    unfold writeAll
    rw [hstep]
    by_cases hb : a = b
    · subst hb
      have h1 : ¬(a + 1 ≤ a ∧ a < a + 1 + rest.length) := by omega
      have h2 : a ≤ a ∧ a < a + (c :: rest).length := by simp
      simp only [dif_neg h1, dif_pos h2, read_write hm, if_true]
      simp
    · by_cases hin : a + 1 ≤ b ∧ b < a + 1 + rest.length
      · have h2 : a ≤ b ∧ b < a + (c :: rest).length := by simp only [List.length_cons]; omega
        simp only [dif_pos hin, dif_pos h2]
        have hi : b - a = (b - (a + 1)) + 1 := by omega
        simp only [hi, List.getElem_cons_succ]
      · have h2 : ¬(a ≤ b ∧ b < a + (c :: rest).length) := by simp only [List.length_cons]; omega
        simp only [dif_neg hin, dif_neg h2, read_write hm, if_neg hb]

/-- The bytes from an offset on, read in one pass over a buffer whose entries start there. -/
def walk : Nat → Nat → Memory → List Byte
  | 0, _, _ => []
  | n + 1, a, [] => 0#8 :: walk n (a + 1) []
  | n + 1, a, (k, v) :: rest => if k = a then v :: walk n (a + 1) rest else 0#8 :: walk n (a + 1) ((k, v) :: rest)

theorem bytes_succ (m : Memory) (a n : Nat) : m.bytes a (n + 1) = m.read a :: m.bytes (a + 1) n := by
  unfold bytes
  rw [List.range_succ_eq_map]
  simp only [List.map_cons, List.map_map, Nat.add_zero, List.cons.injEq, true_and]
  apply List.map_congr_left
  intro i _
  simp only [Function.comp_apply]
  congr 1; omega

theorem bytes_eq_walk (n : Nat) : ∀ (a : Nat) (m : Memory), m.wfFrom a = true → m.bytes a n = walk n a m := by
  induction n with
  | zero => intro a m _; rfl
  | succ n ih =>
    intro a m h
    rw [bytes_succ]
    match m, h with
    | [], h => rw [walk, ih (a + 1) [] rfl]; rfl
    | (k, v) :: rest, h =>
      rw [wfFrom] at h
      simp only [Bool.and_eq_true, decide_eq_true_eq] at h
      obtain ⟨⟨hk, hv⟩, hr⟩ := h
      rw [walk]
      by_cases e : k = a
      · subst e
        rw [if_pos rfl]
        congr 1
        · simp [read]
        · rw [← ih (k + 1) rest hr]
          unfold bytes
          apply List.map_congr_left
          intro i _
          rw [read, if_neg (by omega)]
      · rw [if_neg e, ih (a + 1)]
        · congr 1
          rw [read, if_neg e]
          exact read_of_lt hr (by omega)
        · rw [wfFrom]
          simp only [Bool.and_eq_true, decide_eq_true_eq]
          exact ⟨⟨by omega, hv⟩, hr⟩

end Memory

namespace Timer

/-- A timer of N units started is not due before its N-th tick (R2). -/
theorem tick_running {n : Nat} (h : 1 < n) : (Timer.running n).tick = .running (n - 1) := by
  have : ¬n ≤ 1 := by omega
  simp [tick, this]

@[simp] theorem tick_stopped : Timer.stopped.tick = .stopped := rfl

@[simp] theorem tick_due : Timer.due.tick = .due := rfl

@[simp] theorem tick_rested : Timer.rested.tick = .rested := rfl

end Timer
end Sys2Proof.Machine
end

