-- ==== Sys2Proof/Laws/Field.lean ====
section
/-!
SUPPORT. The operations of the field inputs and the ticks. `Held s t` says what they leave alone: power, mode, settings, maintenance
and buffers stay, and a sound state stays sound. What they do to their own records stands beside it.
-/
namespace Sys2Proof.Machine.State

/-- What every command but those of power, LOADING and the store write leaves alone. -/
structure Held (s t : State) : Prop where
  pending : t.pending = s.pending
  supply : t.supply = s.supply
  resetLine : t.resetLine = s.resetLine
  mode : t.mode = s.mode
  cfg : t.cfg = s.cfg
  nv : t.nv = s.nv
  holdLevels : t.lines.hold = s.lines.hold
  sound : s.sound → t.sound
  steady : s.steadyLines → t.steadyLines

namespace Held

theorem refl (s : State) : Held s s := ⟨rfl, rfl, rfl, rfl, rfl, rfl, rfl, id, id⟩

theorem trans {s t u : State} (h : Held s t) (k : Held t u) : Held s u :=
  ⟨k.pending.trans h.pending, k.supply.trans h.supply, k.resetLine.trans h.resetLine, k.mode.trans h.mode, k.cfg.trans h.cfg,
    k.nv.trans h.nv, k.holdLevels.trans h.holdLevels, fun x => k.sound (h.sound x),
    fun x => k.steady (h.steady x)⟩

theorem foldl {α : Type} (f : State → α → State) (h : ∀ s a, Held s (f s a)) (l : List α) (s : State) :
    Held s (l.foldl f s) := by
  induction l generalizing s with
  | nil => exact refl s
  | cons a rest ih => exact (h s a).trans (ih _)

end Held

theorem Inside.held {s t : State} (h : Inside s t) : Held s t :=
  ⟨h.pending, h.supply, h.resetLine, h.mode, h.cfg, h.nv, h.holdLevels, h.sound, h.steady⟩

theorem held_setZone (s : State) (z : Fin 4) (r : ZoneRec) : Held s (s.setZone z r) := by
  have h : Held s { s with zones := s.zones.set z r } := ⟨rfl, rfl, rfl, rfl, rfl, rfl, rfl, id, id⟩
  unfold setZone; dsimp only; split
  · exact h.trans (inside_mark _ _).held
  · exact h

theorem held_zoneEvent (s : State) (z : Fin 4) (r : ZoneRec) (cs : Causes) : Held s (s.zoneEvent z r cs) := by
  unfold zoneEvent; dsimp only
  exact (held_setZone _ _ _).trans ((inside_logCauses _ _ _ _).trans (inside_announce _ _ _ _)).held

theorem held_setChan (s : State) (c : Fin 8) (r : ChanRec) : Held s (s.setChan c r) := ⟨rfl, rfl, rfl, rfl, rfl, rfl, rfl, id, id⟩

theorem held_setTach (s : State) (t : Fin 8) (r : TachRec) : Held s (s.setTach t r) := ⟨rfl, rfl, rfl, rfl, rfl, rfl, rfl, id, id⟩

theorem held_setSpill (s : State) (l : Fin 12) (r : SpillRec) : Held s (s.setSpill l r) := by
  have h : Held s { s with spills := s.spills.set l r } := ⟨rfl, rfl, rfl, rfl, rfl, rfl, rfl, id, id⟩
  unfold setSpill; dsimp only; split
  · exact h.trans (inside_mark _ _).held
  · exact h

/-! ## Gas channels -/

theorem held_gasReport (s : State) (z : Fin 4) (a b : Bool) : Held s (s.gasReport z a b) := by
  unfold gasReport; dsimp only; split
  · exact Held.refl s
  · exact held_zoneEvent _ _ _ _

/-- A report to the zone leaves the channels alone. -/
@[simp] theorem gasReport_chans (s : State) (z : Fin 4) (a b : Bool) : (s.gasReport z a b).chans = s.chans := by
  unfold gasReport; dsimp only; split <;> simp

theorem held_chanEvent (s : State) (c : Fin 8) (r : ChanRec) (w : Bool) : Held s (s.chanEvent c r w) := by
  unfold chanEvent; split
  · exact held_setChan _ _ _
  · exact (held_setChan _ _ _).trans (held_gasReport _ _ _ _)

/-- An event of a channel writes that channel's record alone. -/
@[simp] theorem chanEvent_chans (s : State) (c : Fin 8) (r : ChanRec) (w : Bool) :
    (s.chanEvent c r w).chans = s.chans.set c r := by
  unfold chanEvent; split <;> simp

theorem held_chanSample (s : State) (c : Fin 8) (code : BitVec 12) : Held s (s.chanSample c code) := by
  unfold chanSample; dsimp only
  split <;> (refine Held.trans ?_ (held_chanEvent _ _ _ _); split) <;>
    first | exact (inside_append _ _ _ _ _).held | exact Held.refl s

/-- The record a sample leaves (R28 to R34). -/
def sampledRec (s : State) (c : Fin 8) (code : BitVec 12) : ChanRec :=
  let cfg := s.cfg.channels.get c
  let r := { s.chans.get c with raw := some code }
  if goodCode cfg code.toNat then (goodSample r (scaled cfg code.toNat)).1 else (badSample r).1

theorem chanSample_chans (s : State) (c : Fin 8) (code : BitVec 12) :
    (s.chanSample c code).chans = s.chans.set c (s.sampledRec c code) := by
  unfold chanSample sampledRec; dsimp only
  split <;> (rw [chanEvent_chans]; split) <;> simp

theorem held_warmUpExpire (s : State) (c : Fin 8) : Held s (s.warmUpExpire c) := by
  unfold warmUpExpire; dsimp only
  split
  · split
    · split <;> exact (inside_append _ _ _ _ _).held.trans (held_chanEvent _ _ _ _)
    · exact held_chanEvent _ _ _ _
    · exact held_chanEvent _ _ _ _
  · exact Held.refl s

theorem held_beginTest (s : State) (c : Fin 8) (v : Nat) : Held s (s.beginTest c v) :=
  (inside_append _ _ _ _ _).held.trans (held_chanEvent _ _ _ _)

theorem held_endTestOf (s : State) (c : Fin 8) : Held s (s.endTestOf c) := by
  unfold endTestOf; dsimp only; split
  · exact (inside_append _ _ _ _ _).held.trans (held_chanEvent _ _ _ _)
  · exact Held.refl s

theorem held_endAllTests (s : State) : Held s s.endAllTests := by
  unfold endAllTests; dsimp only
  refine Held.trans (Held.foldl _ ?_ _ _) (Held.foldl _ ?_ _ _)
  · intro s c
    exact (inside_append _ _ _ _ _).held.trans (held_setChan _ _ _)
  · intro s z
    exact held_gasReport _ _ _ _

/-! ## Spill lines and tachs -/

theorem held_spillSample (s : State) (l : Fin 12) (high : Bool) : Held s (s.spillSample l high) := by
  unfold spillSample
  extract_lets cfg old next r s1 s2
  have h1 : Held s s1 := held_setSpill _ _ _
  split
  · exact h1
  · have h2 : Held s s2 := h1.trans (inside_append _ _ _ _ _).held
    split
    · split
      · exact h2.trans (inside_zoneCause _ _ _ _).held
      · exact h2
    · exact h2

/-- A sample of a spill line writes that line's record alone (R43). -/
theorem spillSample_spills (s : State) (l : Fin 12) (high : Bool) :
    (s.spillSample l high).spills = s.spills.set l
      (spillStep (s.cfg.spills.get l).debounce (s.spills.get l) (decide (high = (s.cfg.spills.get l).wetHigh))).1 := by
  unfold spillSample; dsimp only
  split
  · simp
  · split
    · split <;> simp
    · simp

theorem held_tachEvent (s : State) (t : Fin 8) (r : TachRec) (log : Option FanLog) : Held s (s.tachEvent t r log) := by
  have tail (s2 : State) (h2 : Held s s2) (zone : Option (Fin 4)) (moved : Bool) :
      Held s (match zone with | some z => if moved then s2.fanReport z else s2 | none => s2) := by
    cases zone with
    | none => exact h2
    | some z => cases moved with
      | true => exact h2.trans (inside_fanReport _ _).held
      | false => exact h2
  unfold tachEvent
  refine tail _ ((held_setTach s t r).trans ?_) _ _
  split
  · exact (inside_append _ _ _ _ _).held
  · exact (inside_append _ _ _ _ _).held
  · exact Held.refl _

/-- An event of a tach writes that tach's record alone. -/
theorem tachEvent_tachs (s : State) (t : Fin 8) (r : TachRec) (log : Option FanLog) :
    (s.tachEvent t r log).tachs = s.tachs.set t r := by
  unfold tachEvent fanReport; dsimp only
  split <;> split <;> (try split) <;> simp

theorem held_tachWindow (s : State) (t : Fin 8) : Held s (s.tachWindow t) := held_tachEvent _ _ _ _

theorem held_delayExpire (s : State) (t : Fin 8) : Held s (s.delayExpire t) := by
  unfold delayExpire; dsimp only
  split
  · split <;> first | exact held_tachEvent _ _ _ _ | exact held_setTach _ _ _
  · exact Held.refl s

/-! ## Ticks -/

theorem held_tickRefresh (s : State) : Held s s.tickRefresh := ⟨rfl, rfl, rfl, rfl, rfl, rfl, rfl, id, id⟩

theorem held_tickPurge (s : State) : Held s s.tickPurge := by
  unfold tickPurge; dsimp only
  have h : Held s { s with zones := s.zones.map (fun (r : ZoneRec) => { r with purge := r.purge.tick }) } :=
    ⟨rfl, rfl, rfl, rfl, rfl, rfl, rfl, id, id⟩
  exact h.trans (inside_markAll _ _).held

theorem held_tickWarmUp (s : State) : Held s s.tickWarmUp := ⟨rfl, rfl, rfl, rfl, rfl, rfl, rfl, id, id⟩

theorem held_tickSpills (s : State) : Held s s.tickSpills := ⟨rfl, rfl, rfl, rfl, rfl, rfl, rfl, id, id⟩

theorem held_tickTachs (s : State) : Held s s.tickTachs := ⟨rfl, rfl, rfl, rfl, rfl, rfl, rfl, id, id⟩

theorem held_tickRetry (s : State) : Held s s.tickRetry := (inside_force s _).held

theorem held_tickPort (s : State) : Held s s.tickPort := (inside_port s _).held

theorem held_tickMarks (s : State) : Held s s.tickMarks := by
  unfold tickMarks; dsimp only
  split
  · exact (inside_markAll _ _).held
  · exact ((inside_markAll _ _).trans (inside_mark _ _)).held

theorem held_secondInRun (s : State) : Held s s.secondInRun :=
  (held_tickWarmUp s).trans ((held_tickPurge _).trans ((held_tickTachs _).trans ((held_tickRetry _).trans (held_tickMarks _))))

/-- A pulse boundary keeps a steady line at its level. -/
theorem pulse_steady {s : State} (x : TimeBase) (n : Nat) :
    ({ s with time := x, lines := { s.lines with signals := s.lines.signals.map (fun l => { l with level := l.pattern.level n }) } }
      : State).steadyLines := by
  intro i b
  simp only [Tab.get_map]
  intro hp
  rw [hp]; rfl

theorem held_pulse (s : State) : Held s s.pulse := by
  unfold pulse
  split
  · exact ⟨rfl, rfl, rfl, rfl, rfl, rfl, rfl, id, fun _ => pulse_steady _ _⟩
  · exact Held.refl s

end Sys2Proof.Machine.State
end

