-- ==== Sys2Proof/Laws/End.lean ====
section
/-!
SUPPORT. The end of a step: what the grant and the lines leave alone, and what `finish` comes to where no
notice stands.
-/
namespace Sys2Proof.Machine.State

/-! ## What the conclusion of a step leaves alone -/

/-- Two upstream ports that differ only in whether the read they hold is in flight. -/
def sameUpstream (u v : Upstream) : Prop :=
  match u with
  | .reading a w z _ => ∃ b, v = .reading a w z b
  | .idle | .judging | .placing => v = u

theorem sameUpstream_refl (u : Upstream) : sameUpstream u u := by cases u <;> simp [sameUpstream]

/-- What the conclusion of a step keeps: everything but the port, the writer, the lines, and how far transfers have come. -/
structure Concluded (s t : State) : Prop where
  inside : Inside s t
  zones : t.zones = s.zones
  tachs : t.tachs = s.tachs
  upstream : sameUpstream s.upstream t.upstream
  responses : t.responses = s.responses
  posted : samePosted t.posted s.posted
  length : t.posted.length = s.posted.length
  ahead : (∀ p ∈ s.posted, p.ahead = true) → ∀ p ∈ t.posted, p.ahead = true
  waiting : t.waiting = s.waiting
  checker : t.checker = s.checker
  claims : t.store.checkerClaim = s.store.checkerClaim ∧ t.store.engineClaim = s.store.engineClaim
  hold : t.hold = s.hold
  force : t.force = s.force
  sweep : t.sweep = s.sweep
  requests : t.requests = s.requests
  log : t.log = s.log
  agenda : t.agenda = s.agenda
  lists : t.store.list = s.store.list ∧ t.store.lru = s.store.lru

theorem Concluded.refl (s : State) : Concluded s s :=
  ⟨Inside.refl s, rfl, rfl, sameUpstream_refl _, rfl, rfl, rfl, id, rfl, rfl, ⟨rfl, rfl⟩, rfl, rfl, rfl, rfl, rfl, rfl, ⟨rfl, rfl⟩⟩

theorem Concluded.trans {s t u : State} (h : Concluded s t) (k : Concluded t u) : Concluded s u := by
  refine ⟨h.inside.trans k.inside, k.zones.trans h.zones, k.tachs.trans h.tachs, ?_, k.responses.trans h.responses,
    k.posted.trans h.posted, k.length.trans h.length, fun x => k.ahead (h.ahead x), k.waiting.trans h.waiting,
    k.checker.trans h.checker, ⟨k.claims.1.trans h.claims.1, k.claims.2.trans h.claims.2⟩, k.hold.trans h.hold,
    k.force.trans h.force, k.sweep.trans h.sweep, k.requests.trans h.requests, k.log.trans h.log, k.agenda.trans h.agenda,
    ⟨k.lists.1.trans h.lists.1, k.lists.2.trans h.lists.2⟩⟩
  have a := h.upstream
  have b := k.upstream
  revert a b
  generalize s.upstream = x, t.upstream = y, u.upstream = z
  cases x <;> simp only [sameUpstream] <;> intro a b
  · subst a; exact b
  · subst a; exact b
  · subst a; exact b
  · obtain ⟨c, rfl⟩ := a; exact b

@[simp] theorem writeThrough_claims (c : CellStore) (a : Addr) (v : Half) :
    (c.writeThrough a v).checkerClaim = c.checkerClaim ∧ (c.writeThrough a v).engineClaim = c.engineClaim ∧
      (c.writeThrough a v).lru = c.lru ∧ (c.writeThrough a v).fill = c.fill ∧ (c.writeThrough a v).list = c.list := by
  unfold CellStore.writeThrough; split <;> simp [CellStore.setCell, CellStore.setLine]

theorem concluded_flyPosted (s : State) : Concluded s s.flyPosted := by
  refine ⟨inside_flyPosted s, rfl, rfl, sameUpstream_refl _, rfl, ?_, ?_, ?_, rfl, rfl, ⟨rfl, rfl⟩, rfl, rfl, rfl, rfl, rfl, rfl, ⟨rfl, rfl⟩⟩ <;>
    (unfold flyPosted; rcases s.posted with _ | ⟨p, rest⟩ <;> simp [samePosted, still])

theorem concluded_flyRead (s : State) : Concluded s s.flyRead := by
  refine ⟨inside_upstream s _, rfl, rfl, ?_, rfl, rfl, rfl, id, rfl, rfl, ⟨rfl, rfl⟩, rfl, rfl, rfl, rfl, rfl, rfl, ⟨rfl, rfl⟩⟩
  unfold flyRead; rcases s.upstream <;> simp [sameUpstream]

theorem concluded_port (s : State) (p : Downstream) : Concluded s { s with port := p } :=
  ⟨inside_port s p, rfl, rfl, sameUpstream_refl _, rfl, rfl, rfl, id, rfl, rfl, ⟨rfl, rfl⟩, rfl, rfl, rfl, rfl, rfl, rfl, ⟨rfl, rfl⟩⟩

theorem concluded_grant (s : State) (x : Transfer) : Concluded s (s.grant x) := by
  unfold grant
  extract_lets pp s1
  have h1 : Concluded s s1 := concluded_port s _
  split
  · refine h1.trans ⟨inside_setStore fun h => CellStore.writeThrough_sound h _ _, rfl, rfl, sameUpstream_refl _, rfl, rfl, rfl, id, rfl,
      rfl, ?_, rfl, rfl, rfl, rfl, rfl, rfl, ?_⟩ <;> simp [setStore]
  · exact h1
  · split
    · exact h1.trans (concluded_flyPosted _)
    · exact h1.trans (concluded_flyRead _)
  · exact h1.trans (concluded_port s1 _)

theorem concluded_nextOrder (s : State) : Concluded s s.nextOrder.2 :=
  ⟨inside_choices s _, rfl, rfl, sameUpstream_refl _, rfl, rfl, rfl, id, rfl, rfl, ⟨rfl, rfl⟩, rfl, rfl, rfl, rfl, rfl, rfl, ⟨rfl, rfl⟩⟩

theorem concluded_arbitrate (s : State) : Concluded s s.arbitrate := by
  have hg : Concluded s s.grantNext := by
    unfold grantNext
    split
    · split
      · exact Concluded.refl s
      · split
        · split
          · exact (concluded_nextOrder s).trans (concluded_grant _ _)
          · exact concluded_nextOrder s
        · exact concluded_grant _ _
    · exact Concluded.refl s
  unfold arbitrate
  refine hg.trans ?_
  unfold startAging
  split
  · exact concluded_port _ _
  · exact Concluded.refl _

theorem concluded_refreshLines (s : State) : Concluded s s.refreshLines :=
  ⟨inside_refreshLines s, rfl, rfl, sameUpstream_refl _, rfl, rfl, rfl, id, rfl, rfl, ⟨rfl, rfl⟩, rfl, rfl, rfl, rfl, rfl, rfl, ⟨rfl, rfl⟩⟩

theorem concluded_conclude (s : State) : Concluded s s.conclude :=
  (concluded_arbitrate s).trans (concluded_refreshLines _)

/-! ## A step's end where no notice stands -/

theorem settle_of_calm {s : State} (h : s.agenda = []) : s.settle = s := by
  have : Config.noticeBound = 511 + 1 := rfl
  unfold settle
  rw [this]
  unfold drain
  rw [pickNotice_none.2 h]

theorem finish_of_calm {s : State} (h : s.agenda = []) (hw : s.hostWaiting = [] ∨ s.portOpen = false) : s.finish = s.conclude := by
  unfold finish
  dsimp only
  rw [settle_of_calm h]
  congr 1
  rcases hw with hw | hw
  · rw [hw]; rfl
  · cases hn : s.hostWaiting.length with
    | zero => rfl
    | succ n =>
      unfold admitWaiting
      split
      · rfl
      · rw [hw]; simp

/-- A request presented to a port that is ready is taken at once. -/
theorem present_of_ready {s : State} (h : s.hostReady) (r : HostRequest) : s.present r = (s.takeRequest r).settle.conclude := by
  obtain ⟨ha, hw, ho⟩ := h
  unfold present finish
  dsimp only
  rw [settle_of_calm (s := { s with hostWaiting := s.hostWaiting ++ [r] }) ha]
  have ho' : ({ s with hostWaiting := s.hostWaiting ++ [r] } : State).portOpen = true := ho
  have hs : ({ s with hostWaiting := [] } : State) = s := by rw [← hw]
  have h1 : ({ s with hostWaiting := s.hostWaiting ++ [r] } : State).admitOne = s.takeRequest r := by
    unfold admitOne
    simp only [hw, List.nil_append] at ho' ⊢
    rw [if_pos ho', hs]
  rw [show ({ s with hostWaiting := s.hostWaiting ++ [r] } : State).hostWaiting.length = 0 + 1 by simp [hw]]
  unfold admitWaiting
  simp only [hw, List.nil_append] at ho' h1 ⊢
  rw [if_pos ho', h1]
  rfl

/-! ## What every step's end leaves: quiet blocks and safe lines -/

theorem drain_agenda (n : Nat) (s : State) : (s.drain n).agenda = [] := by
  induction n generalizing s with
  | zero => rfl
  | succ n ih =>
    unfold drain
    split
    · next h => exact pickNotice_none.1 h
    · exact ih _

theorem settle_agenda (s : State) : s.settle.agenda = [] := drain_agenda _ s

theorem admitOne_length {s : State} (h : s.portOpen = true) (hn : s.hostWaiting ≠ []) : s.admitOne.hostWaiting.length + 1 = s.hostWaiting.length := by
  unfold admitOne
  split
  · next r rest hr =>
    rw [if_pos h, (inside_takeRequest _ r).hostWaiting, hr]; rfl
  · next hr => exact absurd hr hn

theorem admit_quiet (n : Nat) (s : State) (ha : s.agenda = []) (hn : s.hostWaiting.length ≤ n) : (s.admitWaiting n).quiet := by
  induction n generalizing s with
  | zero => 
    refine ⟨ha, Or.inl ?_⟩
    exact List.length_eq_zero_iff.mp (Nat.le_zero.mp hn)
  | succ n ih =>
    unfold admitWaiting
    split
    · next h => exact ⟨ha, Or.inl h⟩
    · next r rest h =>
      split
      · next ho =>
        apply ih _ (settle_agenda _)
        rw [(inside_settle _).hostWaiting]
        have := admitOne_length ho (by rw [h]; simp)
        omega
      · next ho => exact ⟨ha, Or.inr (by simpa using ho)⟩

theorem conclude_quiet {s : State} (h : s.quiet) : s.conclude.quiet := by
  have k := concluded_conclude s
  refine ⟨k.agenda.trans h.1, ?_⟩
  rcases h.2 with h | h
  · exact Or.inl (k.inside.hostWaiting.trans h)
  · right
    have hu := k.upstream
    unfold portOpen at *
    rw [show s.conclude.alive = s.alive by unfold alive; rw [k.inside.supply, k.inside.resetLine], k.inside.mode, k.inside.busReset]
    revert hu h
    generalize s.conclude.upstream = v
    generalize s.upstream = w
    cases w <;> simp only [sameUpstream]
    · rintro h rfl; exact h
    · rintro h rfl; exact h
    · rintro h rfl; exact h
    · rintro h ⟨b, rfl⟩; simp

/-- A step's end leaves no notice between blocks and no request that the port could take. -/
theorem finish_quiet (s : State) : s.finish.quiet := by
  unfold finish
  dsimp only
  apply conclude_quiet
  exact admit_quiet _ _ (settle_agenda s) (Nat.le_refl _)

/-- Lines recomputed from lines that hold their steady levels are safe. -/
theorem refresh_safe {s : State} (hs : s.steadyLines) : s.refreshLines.linesSafe := by
  unfold refreshLines
  by_cases h : s.alive = true ∧ s.mode = .run
  · rw [if_pos h]
    refine ⟨fun _ => ?_, fun hn => absurd h hn, ?_⟩
    · refine ⟨fun z => by simp [runLines], ?_, ?_, fun i => ?_⟩
      · simp [runLines]
      · simp [runLines]
      · show (s.runLines.signals.get i).pattern = s.linePattern i
        simp only [runLines, Tab.get_ofFn, lineAfter]
        split
        · assumption
        · rfl
    · intro i b
      show (s.runLines.signals.get i).pattern = _ → (s.runLines.signals.get i).level = _
      simp only [runLines, Tab.get_ofFn, lineAfter]
      split
      · exact hs i b
      · intro hp
        dsimp only at hp ⊢
        rw [hp]; rfl
  · rw [if_neg h]
    refine ⟨fun hr => absurd hr h, fun _ => ?_, ?_⟩
    · refine ⟨fun z => by simp [Lines.safe], rfl, rfl, fun i => by simp [Lines.safe]⟩
    · intro i b
      show ((Lines.safe _).signals.get i).pattern = _ → ((Lines.safe _).signals.get i).level = _
      simp only [Lines.safe, Tab.get_map]
      intro e; injection e

/-- A step's end leaves safe lines. -/
theorem finish_safe {u : State} (h : u.steadyLines) : u.finish.linesSafe := by
  unfold finish conclude
  dsimp only
  apply refresh_safe
  have k := ((inside_settle u).ended.trans ((ended_admit u.settle.hostWaiting.length u.settle).trans
    (inside_arbitrate _).ended)).steady
  exact k h

/-- Without the part running, the safe levels are safe. -/
theorem safe_safe (s : State) (hr : ¬ s.running) (hl : ∃ hold, s.lines = Lines.safe hold) : s.linesSafe := by
  obtain ⟨hold, hl⟩ := hl
  refine ⟨fun x => absurd x hr, fun _ => ?_, ?_⟩
  · unfold linesReleased; rw [hl]
    refine ⟨fun z => by simp [Lines.safe], rfl, rfl, fun i => by simp [Lines.safe]⟩
  · intro i b; rw [hl]
    simp only [Lines.safe, Tab.get_map]
    intro e; injection e

end Sys2Proof.Machine.State
end

