-- ==== Sys2Proof/Laws/Readings.lean ====
section
/-!
SUPPORT. Each zone's reading is the one its channels give (R6, R37): what the operations of the channels do to it.
-/
namespace Sys2Proof.Machine.State

/-- A reading depends on the channels and their settings alone. -/
theorem gasReading_congr {s t : State} (hc : t.cfg = s.cfg) (hr : t.chans = s.chans) (z : Fin 4) :
    t.gasReading z = s.gasReading z := by
  unfold gasReading zoneChannels; rw [hc, hr]

/-- A reading of a zone depends on the contributions of its own channels alone. -/
theorem gasReading_congr' {s t : State} (hc : t.cfg = s.cfg) (z : Fin 4)
    (hr : ∀ c, (s.cfg.channels.get c).zone = some z →
      contribution (s.cfg.channels.get c) (t.chans.get c) = contribution (s.cfg.channels.get c) (s.chans.get c)) :
    t.gasReading z = s.gasReading z := by
  have hz : t.zoneChannels z = s.zoneChannels z := by unfold zoneChannels; rw [hc]
  unfold gasReading
  rw [hz, hc]
  have : ∀ (l : List (Fin 8)) (m : Option Nat), (∀ c ∈ l, (s.cfg.channels.get c).zone = some z) →
      l.foldl (fun m c => maxReading m (contribution (s.cfg.channels.get c) (t.chans.get c))) m =
        l.foldl (fun m c => maxReading m (contribution (s.cfg.channels.get c) (s.chans.get c))) m := by
    intro l
    induction l with
    | nil => intro m _; rfl
    | cons c rest ih =>
      intro m h
      simp only [List.foldl_cons]
      rw [hr c (h c (by simp))]
      exact ih _ (fun d hd => h d (by simp [hd]))
  apply this
  intro c hcm
  simpa [zoneChannels] using hcm

theorem readings_of {s t : State} (hm : t.mode = s.mode) (hc : t.cfg = s.cfg) (hg : ∀ z, t.gasReading z = s.gasReading z)
    (hz : ∀ z, (t.zones.get z).reading = (s.zones.get z).reading) (h : s.readingsFollow) : t.readingsFollow := by
  refine ⟨fun z => ?_, fun hne => ?_⟩
  · rw [hz, hg]; exact h.1 z
  · rw [hc]; exact h.2 (by rw [← hm]; exact hne)

theorem Inside.readingsFollow {s t : State} (k : Inside s t) (h : s.readingsFollow) : t.readingsFollow :=
  readings_of k.mode k.cfg (gasReading_congr k.cfg k.chans) k.readings h

theorem readings_hostWaiting {s : State} {l : List HostRequest} (h : s.readingsFollow) :
    ({ s with hostWaiting := l } : State).readingsFollow := h

theorem Ended.readingsFollow {s t : State} (k : Ended s t) (h : s.readingsFollow) : t.readingsFollow :=
  Inside.readingsFollow (s := { s with hostWaiting := t.hostWaiting }) k h

/-- After a report the zone's reading is the one its channels give; the other zones' readings stay. -/
theorem gasReport_reading (s : State) (z : Fin 4) (a b : Bool) :
    ((s.gasReport z a b).zones.get z).reading = s.gasReading z ∧
      ∀ y, y ≠ z → (s.gasReport z a b).zones.get y = s.zones.get y := by
  unfold gasReport
  extract_lets r reading fresh r1 c1 started c2 c3
  split
  · next h =>
    have : r.reading = reading := by
      by_contra hne
      have hf : fresh = true := decide_eq_true (Ne.symm hne)
      rw [hf] at h
      simp at h
    exact ⟨this, fun _ _ => rfl⟩
  · constructor
    · rw [zoneEvent_zones, Tab.get_set_self]
      have : r1.reading = reading := by
        unfold r1
        by_cases hf : fresh = true
        · rw [if_pos hf]
        · rw [if_neg hf]
          by_contra hne
          exact hf (decide_eq_true (Ne.symm hne))
      unfold moved
      split <;> exact this
    · intro y hy
      exact zoneEvent_other s (Ne.symm hy) _ _

/-- An event of a channel leaves its zone's reading as the channels then give it, and the other zones' readings as they were. -/
theorem chanEvent_readings {s : State} (h : s.readingsFollow) (c : Fin 8) (r : ChanRec) (w : Bool) :
    (s.chanEvent c r w).readingsFollow := by
  have hcfg : (s.chanEvent c r w).cfg = s.cfg := (held_chanEvent s c r w).cfg
  have hmode : (s.chanEvent c r w).mode = s.mode := (held_chanEvent s c r w).mode
  refine ⟨fun z => ?_, fun hne => by rw [hcfg]; exact h.2 (by rw [← hmode]; exact hne)⟩
  rw [gasReading_congr (s := s.setChan c r) (by rw [hcfg]; rfl) (by rw [chanEvent_chans]; rfl)]
  have other : ∀ z, (s.cfg.channels.get c).zone ≠ some z → (s.setChan c r).gasReading z = s.gasReading z := by
    intro z hz
    apply gasReading_congr' (by rfl)
    intro d hd
    have : c ≠ d := by rintro rfl; exact hz hd
    simp [setChan, Tab.get_set_of_ne _ this]
  unfold chanEvent
  split
  · next hz =>
    rw [other z (by rw [hz]; simp)]
    exact h.1 z
  · next y hy =>
    by_cases hzy : z = y
    · subst hzy
      exact (gasReport_reading (s.setChan c r) z _ _).1
    · rw [(gasReport_reading (s.setChan c r) y _ _).2 z hzy, other z (by rw [hy]; simpa [eq_comm] using hzy)]
      exact h.1 z

theorem append_readings {s : State} (h : s.readingsFollow) (k : EventKind) (z : Option (Fin 4)) (a b : Option Nat) :
    (s.append k z a b).readingsFollow := (inside_append s k z a b).readingsFollow h

theorem chanSample_readings {s : State} (h : s.readingsFollow) (c : Fin 8) (code : BitVec 12) :
    (s.chanSample c code).readingsFollow := by
  unfold chanSample; dsimp only
  split <;> (apply chanEvent_readings; split) <;> first | exact append_readings h _ _ _ _ | exact h

theorem warmUpExpire_readings {s : State} (h : s.readingsFollow) (c : Fin 8) : (s.warmUpExpire c).readingsFollow := by
  unfold warmUpExpire; dsimp only
  split
  · split
    · split <;> exact chanEvent_readings (append_readings h _ _ _ _) _ _ _
    · exact chanEvent_readings h _ _ _
    · exact chanEvent_readings h _ _ _
  · exact h

theorem beginTest_readings {s : State} (h : s.readingsFollow) (c : Fin 8) (v : Nat) : (s.beginTest c v).readingsFollow :=
  chanEvent_readings (append_readings h _ _ _ _) _ _ _

theorem endTestOf_readings {s : State} (h : s.readingsFollow) (c : Fin 8) : (s.endTestOf c).readingsFollow := by
  unfold endTestOf; dsimp only; split
  · exact chanEvent_readings (append_readings h _ _ _ _) _ _ _
  · exact h

/-- A report to each zone leaves every reading as the channels give it. -/
theorem gasReports_readings (s : State) (f : State → Fin 4 → Bool) (hc : s.mode ≠ .run → s.cfg = Settings.unset) :
    ((indices 4).foldl (fun s z => s.gasReport z (f s z) false) s).readingsFollow := by
  have key : ∀ (l : List (Fin 4)) (s : State), l.Nodup →
      let t := l.foldl (fun s z => s.gasReport z (f s z) false) s
      (∀ z ∈ l, (t.zones.get z).reading = s.gasReading z) ∧ (∀ z, z ∉ l → t.zones.get z = s.zones.get z) ∧
        t.cfg = s.cfg ∧ t.chans = s.chans ∧ t.mode = s.mode := by
    intro l
    induction l with
    | nil => intro s _; simp
    | cons a rest ih =>
      intro s hn
      simp only [List.foldl_cons]
      obtain ⟨ha, hr⟩ := List.nodup_cons.mp hn
      obtain ⟨h1, h2, h3, h4, h5⟩ := ih (s.gasReport a (f s a) false) hr
      have hcfg := (held_gasReport s a (f s a) false).cfg
      have hmode := (held_gasReport s a (f s a) false).mode
      refine ⟨?_, ?_, h3.trans hcfg, h4.trans (by simp), h5.trans hmode⟩
      · intro z hz
        rcases List.mem_cons.mp hz with rfl | hz
        · rw [h2 z ha]; exact (gasReport_reading s z _ _).1
        · rw [h1 z hz]; exact gasReading_congr hcfg (by simp) z
      · intro z hz
        simp only [List.mem_cons, not_or] at hz
        rw [h2 z hz.2]; exact (gasReport_reading s a _ _).2 z hz.1
  obtain ⟨h1, _, h3, h4, h5⟩ := key (indices 4) s (List.nodup_finRange 4)
  refine ⟨fun z => ?_, fun hne => ?_⟩
  · rw [h1 z (List.mem_finRange z)]; exact (gasReading_congr h3 h4 z).symm
  · rw [h3]; exact hc (by rw [← h5]; exact hne)

theorem endAllTests_readings {s : State} (h : s.readingsFollow) : s.endAllTests.readingsFollow := by
  unfold endAllTests
  extract_lets testing
  refine gasReports_readings (testing.foldl testEnded s) (fun s z => testing.any (fun c => (s.cfg.channels.get c).zone == some z)) ?_
  have k : Held s (testing.foldl testEnded s) := Held.foldl _ (fun s c => (inside_append _ _ _ _ _).held.trans (held_setChan _ _ _)) _ _
  intro hne
  rw [k.cfg]
  exact h.2 (by rw [← k.mode]; exact hne)

end Sys2Proof.Machine.State
end

