-- ==== Sys2Proof/Laws/Commands.lean ====
section
/-!
SUPPORT. What every command but those of power, LOADING and the store write comes to: either it ends at once, with the zones, the
transit path and the lines as they were (`Plain`), or it ends by `finish` from a state that holds what such a command must leave alone.
-/
namespace Sys2Proof.Machine.State

/-- A command that ends at once. -/
structure Plain (s t : State) : Prop where
  held : Held s t
  hostWaiting : t.hostWaiting = s.hostWaiting
  upstream : t.upstream = s.upstream
  busReset : t.busReset = s.busReset
  agenda : t.agenda = s.agenda
  store : t.store = s.store
  zones : ∀ z, (t.zones.get z).state = (s.zones.get z).state ∧ (t.zones.get z).unack = (s.zones.get z).unack ∧
    (t.zones.get z).reading = (s.zones.get z).reading
  gas : ∀ z, t.gasReading z = s.gasReading z
  lines : t.lines = s.lines ∨ t.lines = { s.lines with
    signals := s.lines.signals.map (fun l => { l with level := l.pattern.level s.time.phase }) }

theorem Plain.refl (s : State) : Plain s s :=
  ⟨Held.refl s, rfl, rfl, rfl, rfl, rfl, fun _ => ⟨rfl, rfl, rfl⟩, fun _ => rfl, Or.inl rfl⟩

/-- What a command that is not one of power comes to. -/
def Shape (s t : State) : Prop :=
  Plain s t ∨ ∃ u, Held s u ∧ (s.readingsFollow → u.readingsFollow) ∧ t = u.finish

theorem shape_refl (s : State) : Shape s s := Or.inl (Plain.refl s)

theorem shape_finish {s u : State} (h : Held s u) (hr : s.readingsFollow → u.readingsFollow) : Shape s u.finish :=
  Or.inr ⟨u, h, hr, rfl⟩

theorem shape_inside {s u : State} (h : Inside s u) : Shape s u.finish := shape_finish h.held h.readingsFollow

theorem held_reply (s : State) (r : Reply) : Held s (s.reply r) := ⟨rfl, rfl, rfl, rfl, rfl, rfl, rfl, id, id⟩

theorem held_maint (s : State) (m : Maintenance) : Held s { s with maint := m } := ⟨rfl, rfl, rfl, rfl, rfl, rfl, rfl, id, id⟩

theorem held_busReset (s : State) (b : Bool) : Held s { s with busReset := b } := ⟨rfl, rfl, rfl, rfl, rfl, rfl, rfl, id, id⟩

theorem held_scan (s : State) (l : List (Fin 8)) : Held s { s with scan := l } := ⟨rfl, rfl, rfl, rfl, rfl, rfl, rfl, id, id⟩

theorem held_time (s : State) (x : TimeBase) : Held s { s with time := x } := ⟨rfl, rfl, rfl, rfl, rfl, rfl, rfl, id, id⟩

theorem held_hostWaiting (s : State) (l : List HostRequest) : Held s { s with hostWaiting := l } :=
  ⟨rfl, rfl, rfl, rfl, rfl, rfl, rfl, id, id⟩

theorem plain_maint (s : State) (m : Maintenance) : Plain s { s with maint := m } :=
  ⟨held_maint s m, rfl, rfl, rfl, rfl, rfl, fun _ => ⟨rfl, rfl, rfl⟩, fun _ => rfl, Or.inl rfl⟩

theorem shape_reply (s : State) (r : Reply) : Shape s (s.reply r) := Or.inl (plain_maint s _)

theorem shape_gated {s t : State} (a b : Bool) (h : Shape s t) : Shape s (s.gated a b t) := by
  unfold gated
  split
  · exact shape_refl s
  · split
    · exact shape_reply s _
    · split
      · exact shape_reply s _
      · split
        · exact shape_reply s _
        · exact h

end Sys2Proof.Machine.State

namespace Sys2Proof.Machine

open State

/-! ## The commands -/

theorem shape_tick1ms (b : Bool) {s t : State} (h : execTick1ms b s = .next t) : Shape s t := by
  unfold execTick1ms at h
  split at h <;> cases h
  · exact Or.inl ⟨⟨rfl, rfl, rfl, rfl, rfl, rfl, rfl, id, id⟩, rfl, rfl, rfl, rfl, rfl, fun _ => ⟨rfl, rfl, rfl⟩, fun _ => rfl, Or.inl rfl⟩
  · exact shape_refl _

theorem shape_tick100ms {s t : State} (h : execTick100ms s = .next t) : Shape s t := by
  unfold execTick100ms at h
  split at h
  · dsimp only at h
    split at h <;> cases h
    · refine Or.inl ⟨⟨rfl, rfl, rfl, rfl, rfl, rfl, rfl, id, id⟩, rfl, rfl, rfl, rfl, rfl, fun z => ?_, fun _ => rfl, Or.inl rfl⟩
      simp [tenthInRun, tickRefresh, tickSpills]
    · exact Or.inl ⟨⟨rfl, rfl, rfl, rfl, rfl, rfl, rfl, id, id⟩, rfl, rfl, rfl, rfl, rfl, fun _ => ⟨rfl, rfl, rfl⟩, fun _ => rfl, Or.inl rfl⟩
  · cases h
    exact shape_refl _

theorem readings_secondInRun {s : State} (h : s.readingsFollow) : s.secondInRun.readingsFollow := by
  refine readings_of (held_secondInRun s).mode (held_secondInRun s).cfg ?_ ?_ h
  · intro z
    apply gasReading_congr' (held_secondInRun s).cfg
    intro c _
    have : s.secondInRun.chans = s.chans.map (fun r => { r with timer := r.timer.tick }) := by
      unfold secondInRun tickMarks; dsimp only
      split <;> simp [tickWarmUp, tickPurge, tickTachs, tickRetry]
    rw [this]
    simp only [Tab.get_map]
    rfl
  · intro z
    have : s.secondInRun.zones = s.zones.map (fun r => { r with purge := r.purge.tick }) := by
      unfold secondInRun tickMarks; dsimp only
      split <;> simp [tickWarmUp, tickPurge, tickTachs, tickRetry]
    rw [this]; simp

theorem tick1s_eq {s : State} (h : s.time.running = true ∧ s.time.secondDue = true) (hm : s.mode = .run) :
    execTick1s s = .next ({ s with time := s.time.second } : State).secondInRun.finish := by
  unfold execTick1s
  rw [if_pos h]
  exact if_pos hm

theorem tick1s_other {s : State} (h : s.time.running = true ∧ s.time.secondDue = true) (hm : ¬s.mode = .run) :
    execTick1s s = .next { s with time := s.time.second } := by
  unfold execTick1s
  rw [if_pos h]
  exact if_neg hm

theorem readings_time {s : State} (x : TimeBase) (h : s.readingsFollow) : ({ s with time := x } : State).readingsFollow :=
  readings_of (held_time s x).mode (held_time s x).cfg (fun _ => rfl) (fun _ => rfl) h

theorem plain_time (s : State) (x : TimeBase) : Plain s { s with time := x } :=
  ⟨held_time s x, rfl, rfl, rfl, rfl, rfl, fun _ => ⟨rfl, rfl, rfl⟩, fun _ => rfl, Or.inl rfl⟩

theorem held_tick1s (s : State) : Held s ({ s with time := s.time.second } : State).secondInRun :=
  (held_time s s.time.second).trans (held_secondInRun { s with time := s.time.second })

theorem shape_tick1s {s t : State} (h : execTick1s s = .next t) : Shape s t := by
  by_cases hr : s.time.running = true ∧ s.time.secondDue = true
  · by_cases hm : s.mode = .run
    · have e := (tick1s_eq hr hm).symm.trans h
      injection e with e
      exact e ▸ shape_finish (held_tick1s s) (fun x => readings_secondInRun (readings_time s.time.second x))
    · have e := (tick1s_other hr hm).symm.trans h
      injection e with e
      exact e ▸ Or.inl (plain_time s s.time.second)
  · unfold execTick1s at h
    rw [if_neg hr] at h
    injection h with e
    exact e ▸ shape_refl s

theorem shape_pulse (s : State) : Shape s s.pulse := by
  unfold pulse
  split
  · exact Or.inl ⟨⟨rfl, rfl, rfl, rfl, rfl, rfl, rfl, id, fun _ => pulse_steady _ _⟩, rfl, rfl, rfl, rfl, rfl,
      fun _ => ⟨rfl, rfl, rfl⟩, fun _ => rfl, Or.inr rfl⟩
  · exact shape_refl _

theorem readings_scan {s : State} (l : List (Fin 8)) (h : s.readingsFollow) : ({ s with scan := l } : State).readingsFollow :=
  readings_of (held_scan s l).mode (held_scan s l).cfg (fun _ => rfl) (fun _ => rfl) h

theorem shape_channelSample (c : Fin 8) (code : BitVec 12) {s t : State} (h : execChannelSample c code s = .next t) : Shape s t := by
  unfold execChannelSample at h
  split at h
  · split at h <;> cases h
    · rename_i rest _ _
      exact shape_finish ((held_scan s rest).trans (held_chanSample _ _ _))
        (fun x => chanSample_readings (readings_scan rest x) c code)
    · exact shape_refl _
  · cases h; exact shape_refl _

theorem shape_warmUpExpiry (c : Fin 8) {s t : State} (h : execWarmUpExpiry c s = .next t) : Shape s t := by
  unfold execWarmUpExpiry at h
  split at h <;> cases h
  · exact shape_finish (held_warmUpExpire _ _) (fun x => warmUpExpire_readings x _)
  · exact shape_refl _

theorem readings_spillSample {s : State} (h : s.readingsFollow) (l : Fin 12) (high : Bool) : (s.spillSample l high).readingsFollow := by
  have k := held_spillSample s l high
  refine readings_of k.mode k.cfg (gasReading_congr k.cfg ?_) (fun z => ?_) h
  · unfold spillSample; dsimp only; split
    · simp
    · split <;> (try split) <;> simp
  · unfold spillSample; dsimp only; split
    · simp
    · split
      · split
        · rw [(inside_zoneCause _ _ _ _).readings]; simp
        · simp
      · simp

theorem shape_spillSample (l : Fin 12) (b : Bool) {s t : State} (h : execSpillSample l b s = .next t) : Shape s t := by
  unfold execSpillSample at h
  split at h <;> cases h
  · exact shape_finish (held_spillSample _ _ _) (fun x => readings_spillSample x _ _)
  · exact shape_refl _

theorem shape_tachPulse (i : Fin 8) {s t : State} (h : execTachPulse i s = .next t) : Shape s t := by
  unfold execTachPulse at h
  split at h <;> cases h
  · exact Or.inl ⟨held_setTach _ _ _, rfl, rfl, rfl, rfl, rfl, fun _ => ⟨rfl, rfl, rfl⟩, fun _ => rfl, Or.inl rfl⟩
  · exact shape_refl _

theorem readings_tachEvent {s : State} (h : s.readingsFollow) (i : Fin 8) (r : TachRec) (log : Option FanLog) :
    (s.tachEvent i r log).readingsFollow := by
  have k := held_tachEvent s i r log
  refine readings_of k.mode k.cfg (gasReading_congr k.cfg ?_) (fun z => ?_) h
  · unfold tachEvent fanReport; dsimp only
    split <;> split <;> (try split) <;> simp
  · unfold tachEvent; dsimp only
    split <;> split <;> (try split) <;> first | (rw [(inside_fanReport _ _).readings]; simp) | simp

theorem shape_windowEvent (i : Fin 8) {s t : State} (h : execWindowEvent i s = .next t) : Shape s t := by
  unfold execWindowEvent at h
  split at h <;> cases h
  · exact shape_finish (held_tachWindow _ _) (fun x => readings_tachEvent x _ _ _)
  · exact shape_refl _

theorem readings_delayExpire {s : State} (h : s.readingsFollow) (i : Fin 8) : (s.delayExpire i).readingsFollow := by
  unfold delayExpire; dsimp only
  split
  · split <;> first | exact readings_tachEvent h _ _ _ | exact h
  · exact h

theorem shape_delayTimerExpiry (i : Fin 8) {s t : State} (h : execDelayTimerExpiry i s = .next t) : Shape s t := by
  unfold execDelayTimerExpiry at h
  split at h <;> cases h
  · exact shape_finish (held_delayExpire _ _) (fun x => readings_delayExpire x _)
  · exact shape_refl _

theorem shape_refreshExpiry (z : Fin 4) {s t : State} (h : execRefreshExpiry z s = .next t) : Shape s t := by
  unfold execRefreshExpiry at h
  split at h <;> cases h
  · exact shape_inside (inside_refreshExpire _ _)
  · exact shape_refl _

theorem shape_purgeExpiry (z : Fin 4) {s t : State} (h : execPurgeExpiry z s = .next t) : Shape s t := by
  unfold execPurgeExpiry at h
  split at h <;> cases h
  · exact shape_inside (inside_purgeExpire _ _)
  · exact shape_refl _

theorem shape_present (s : State) (r : HostRequest) : Shape s (s.present r) :=
  shape_finish (held_hostWaiting s _) readings_hostWaiting

theorem inside_takeSettlement (s : State) (w : Claimant) (k : Claim) (v : Option Half) : Inside s (s.takeSettlement w k v) := by
  have h : Inside s (s.setStore (s.store.dropClaim w)) := inside_setStore fun x => CellStore.dropClaim_sound x w
  cases w
  · exact h.trans (inside_checkerSettles _ _ _)
  · exact h.trans (inside_engineSettles _ _)

theorem inside_abandonRequest (s : State) : Inside s s.abandonRequest := by
  unfold abandonRequest
  split
  · exact Inside.refl s
  · refine (inside_upstream s .idle).trans ?_
    exact inside_posted fun x => by simpa using x
  · exact (inside_upstream s .idle).trans (inside_waiting _ _)
  · split
    · refine ((inside_upstream s .idle).trans (inside_checker _ .idle)).trans ?_
      exact inside_setStore (s := { s with upstream := .idle, checker := .idle }) fun x => CellStore.abandon_sound x
    · exact (inside_upstream s .idle).trans (inside_checker _ _)
    · exact (inside_upstream s .idle).trans (inside_checker _ _)

theorem shape_claimSettlement (w : Claimant) {s t : State} (h : execClaimSettlement w s = .next t) : Shape s t := by
  unfold execClaimSettlement at h
  split at h
  · split at h <;> cases h
    · exact shape_inside (inside_takeSettlement _ _ _ _)
    · exact shape_refl _
    · exact shape_refl _
  · cases h; exact shape_refl _

theorem shape_placementEnters {s t : State} (h : execPlacementEnters s = .next t) : Shape s t := by
  unfold execPlacementEnters at h
  split at h <;> cases h
  · exact shape_inside (inside_enterNext _)
  · exact shape_refl _

theorem shape_upstreamReset {s t : State} (h : execUpstreamReset s = .next t) : Shape s t := by
  unfold execUpstreamReset at h
  split at h <;> cases h
  · exact shape_refl _
  · have k := (inside_abandonRequest { s with busReset := true }).trans (inside_emptyHolds _)
    exact shape_finish ((held_busReset s true).trans k.held) (fun x => k.readingsFollow x)

theorem shape_upstreamResetRelease {s t : State} (h : execUpstreamResetRelease s = .next t) : Shape s t := by
  unfold execUpstreamResetRelease at h
  split at h <;> cases h
  · exact shape_finish (held_busReset s false) (fun x => x)
  · exact shape_refl _

theorem shape_holdExpiry {s t : State} (h : execHoldExpiry s = .next t) : Shape s t := by
  unfold execHoldExpiry at h
  split at h <;> cases h
  · exact shape_inside (inside_expireHolds _)
  · exact shape_refl _

theorem shape_retryTimerExpiry (e : Fin 16) {s t : State} (h : execRetryTimerExpiry e s = .next t) : Shape s t := by
  unfold execRetryTimerExpiry at h
  split at h <;> cases h
  · exact shape_inside (inside_retryExpire _ _)
  · exact shape_refl _

theorem shape_memoryAnswer (b : Bool) (d : Data) {s t : State} (h : execMemoryAnswer b d s = .next t) : Shape s t := by
  unfold execMemoryAnswer at h
  split at h <;> cases h
  · exact shape_inside (inside_answered _ _ _)
  · exact shape_refl _
  · exact shape_refl _

theorem shape_downstreamTimeout {s t : State} (h : execDownstreamTimeout s = .next t) : Shape s t := by
  unfold execDownstreamTimeout at h
  split at h <;> cases h
  · exact shape_inside (inside_timedOut _)
  · exact shape_refl _

theorem shape_settlingEnd {s t : State} (h : execSettlingEnd s = .next t) : Shape s t := by
  unfold execSettlingEnd at h
  split at h <;> cases h
  · exact shape_inside (inside_settled _)
  · exact shape_refl _

theorem shape_reportAgingExpiry {s t : State} (h : execReportAgingExpiry s = .next t) : Shape s t := by
  unfold execReportAgingExpiry at h
  split at h <;> cases h
  · exact shape_inside (inside_reportAged _)
  · exact shape_refl _

theorem shape_commissioningLineChange {s t : State} (h : execCommissioningLineChange s = .next t) : Shape s t := by
  unfold execCommissioningLineChange at h
  split at h <;> cases h
  · unfold takeLine; dsimp only
    split
    · exact Or.inl (plain_maint s _)
    · exact shape_finish ((held_maint s _).trans (held_endAllTests _)) (fun x => endAllTests_readings (s := { s with maint := _ }) x)
  · exact shape_refl _

theorem plain_stage (s : State) (g : Memory) (m : Maintenance) : Plain s { s with staging := g, maint := m } :=
  ⟨⟨rfl, rfl, rfl, rfl, rfl, rfl, rfl, id, id⟩, rfl, rfl, rfl, rfl, rfl, fun _ => ⟨rfl, rfl, rfl⟩, fun _ => rfl, Or.inl rfl⟩

theorem shape_writeStage (o n : Half) (bs : List Byte) {s t : State} (h : execWriteStage o n bs s = .next t) : Shape s t := by
  unfold execWriteStage at h
  split at h
  · split at h <;> cases h
    · exact shape_reply s _
    · exact shape_refl s
  · cases h
    exact shape_gated _ _ (Or.inl (plain_stage s _ _))

theorem readings_maint {s : State} (m : Maintenance) (h : s.readingsFollow) : ({ s with maint := m } : State).readingsFollow :=
  readings_of (held_maint s m).mode (held_maint s m).cfg (fun _ => rfl) (fun _ => rfl) h

theorem held_storing (s : State) (m : Maintenance) : Held s ({ s with maint := m }.mark itemHeader) :=
  (held_maint s m).trans (inside_mark { s with maint := m } itemHeader).held

theorem readings_storing {s : State} (m : Maintenance) (h : s.readingsFollow) :
    ({ s with maint := m }.mark itemHeader).readingsFollow :=
  (inside_mark { s with maint := m } itemHeader).readingsFollow (readings_maint m h)

theorem shape_storing (s : State) (m : Maintenance) : Shape s ({ s with maint := m }.mark itemHeader).finish :=
  shape_finish (held_storing s m) (readings_storing m)

theorem shape_commitOn (s : State) (o : Option Nat) : Shape s (s.commitOn o) := by
  cases o
  · exact shape_storing s _
  · exact shape_reply s _

theorem shape_commitStaged (s : State) : Shape s s.commitStaged := by
  unfold commitStaged
  exact shape_commitOn s _

/-- A frame spells a maintenance command other than UNKNOWN_COMMAND, and none where it is empty or bad (R188). -/
theorem commandOf_kind {f : List Byte} {c : Instr} (h : commandOf f = some c) :
    c.isMaintenance = true ∧ ∀ g, c ≠ .unknownCommand g := by
  unfold commandOf at h
  split at h
  · cases h
  · split at h
    · cases h
    · split at h <;> (try cases h) <;> exact ⟨rfl, fun _ => Instr.noConfusion⟩

/-- A frame that spells a command is that command; one that spells none is BAD_COMMAND (R187, R188). -/
theorem exec_unknown (f : List Byte) (s : State) :
    (∃ c, commandOf f = some c ∧ exec (.unknownCommand f) s = exec c s) ∨
      commandOf f = none ∧ exec (.unknownCommand f) s = if s.alive ∧ f ≠ [] then .next (s.reply .badCommand) else .next s := by
  show (∃ c, _ ∧ execUnknownCommand f s = _) ∨ _ ∧ execUnknownCommand f s = _
  unfold execUnknownCommand
  cases h : commandOf f with
  | none => exact Or.inr ⟨rfl, rfl⟩
  | some c =>
    refine Or.inl ⟨c, rfl, ?_⟩
    have k := commandOf_kind h
    cases c <;> first | rfl | exact absurd k.1 Bool.false_ne_true | exact absurd rfl (k.2 _)

/-- What every command but those of power and UNKNOWN_COMMAND comes to. -/
theorem exec_shape_spelled {c : Instr} (hc : c.isPower = false) (hu : ∀ g, c ≠ .unknownCommand g) {s t : State} (h : exec c s = .next t) : Shape s t := by
  cases c
  case supplyRise | brownOut | brownOutEnd | resetAssert | resetRelease | loadingEnd | storeWriteComplete =>
    exact absurd hc.symm Bool.false_ne_true
  case tick1ms => exact shape_tick1ms _ h
  case tick100ms => exact shape_tick100ms h
  case tick1s => exact shape_tick1s h
  case pulseBoundary => cases h; exact shape_pulse s
  case channelSample => exact shape_channelSample _ _ h
  case warmUpExpiry => exact shape_warmUpExpiry _ h
  case spillSample => exact shape_spillSample _ _ h
  case tachPulse => exact shape_tachPulse _ h
  case windowEvent => exact shape_windowEvent _ h
  case delayTimerExpiry => exact shape_delayTimerExpiry _ h
  case refreshExpiry => exact shape_refreshExpiry _ h
  case purgeExpiry => exact shape_purgeExpiry _ h
  case hostRead => cases h; exact shape_present s _
  case hostWrite => cases h; exact shape_present s _
  case claimSettlement => exact shape_claimSettlement _ h
  case placementEnters => exact shape_placementEnters h
  case upstreamReset => exact shape_upstreamReset h
  case upstreamResetRelease => exact shape_upstreamResetRelease h
  case holdExpiry => exact shape_holdExpiry h
  case retryTimerExpiry => exact shape_retryTimerExpiry _ h
  case memoryAnswer => exact shape_memoryAnswer _ _ h
  case downstreamTimeout => exact shape_downstreamTimeout h
  case settlingEnd => exact shape_settlingEnd h
  case reportAgingExpiry => exact shape_reportAgingExpiry h
  case commissioningLineChange => exact shape_commissioningLineChange h
  case status => cases h; exact shape_gated _ _ (shape_reply s _)
  case readLog => cases h; exact shape_gated _ _ (shape_reply s _)
  case readStore => cases h; exact shape_gated _ _ (shape_reply s _)
  case readImage => cases h; exact shape_gated _ _ (shape_reply s _)
  case writeStage => exact shape_writeStage _ _ _ h
  case commit => cases h; exact shape_gated _ _ (shape_commitStaged s)
  case testReading c v =>
    cases h
    exact shape_gated _ _ (shape_finish ((held_beginTest s _ _).trans (held_reply _ _)) (fun x => beginTest_readings x _ _))
  case endTest c =>
    cases h
    exact shape_gated _ _ (shape_finish ((held_endTestOf s _).trans (held_reply _ _)) (fun x => endTestOf_readings x _))
  case acknowledge z =>
    cases h
    exact shape_gated _ _ (shape_finish ((inside_zoneAcknowledge s _).held.trans (held_reply _ _))
      (fun x => (inside_zoneAcknowledge s _).readingsFollow x))
  case unknownCommand f => exact absurd rfl (hu f)

/-- What every command but those of power comes to. -/
theorem exec_shape {c : Instr} (hc : c.isPower = false) {s t : State} (h : exec c s = .next t) : Shape s t := by
  by_cases hu : ∃ g, c = .unknownCommand g
  · obtain ⟨f, rfl⟩ := hu
    rcases exec_unknown f s with ⟨d, hd, e⟩ | ⟨_, e⟩
    · have k := commandOf_kind hd
      refine exec_shape_spelled ?_ k.2 (e.symm.trans h)
      have := k.1
      cases d <;> first | rfl | exact absurd this Bool.false_ne_true
    · rw [e] at h
      split at h <;> cases h
      · exact shape_reply s _
      · exact shape_refl s
  · exact exec_shape_spelled hc (fun g e => hu ⟨g, e⟩) h

end Sys2Proof.Machine
end

