-- ==== Sys2Proof/Laws/Power.lean ====
section
/-!
SUPPORT. What a command of power, LOADING or the store write comes to (`PowerShape`), that every command is answered by a next state,
and what RUN begins with.
-/
namespace Sys2Proof.Machine.State

/-- What a command of power, LOADING or the store write comes to. -/
inductive PowerShape (s : State) : State → Prop
  | same : PowerShape s s
  | up (p : BitVec 8) : PowerShape s (s.powerUp p)
  | dark (a : Supply) (b : Bool) (h : a ≠ .on ∨ b = true) : PowerShape s (s.dark a b)
  | loaded (r : Bool) (ha : s.alive = true) (hm : s.mode = .loading) : PowerShape s (s.endLoading (s.nv.check r))
  | committed (ha : s.alive = true) : PowerShape s (s.commitRestart { image := s.staging, torn := none })
  | badCommit (ha : s.alive = true) :
      PowerShape s ({ s with choices := s.choices + 1 }.commitRestart { s.nv with torn := some s.choices })

theorem held_finish {s u : State} (h : Held s u) : Held s u.finish := by
  have e := ended_finish u
  exact ⟨e.pending.trans h.pending, e.supply.trans h.supply, e.resetLine.trans h.resetLine, e.mode.trans h.mode,
    e.cfg.trans h.cfg, e.nv.trans h.nv, e.holdLevels.trans h.holdLevels, fun x => e.sound (h.sound x),
    fun x => e.steady (h.steady x)⟩

theorem sound_finish {u : State} (h : u.sound) : u.finish.sound := (ended_finish u).sound h

theorem Shape.held {s t : State} (h : Shape s t) : Held s t := by
  rcases h with h | ⟨u, h, _, rfl⟩
  · exact h.held
  · exact held_finish h

/-! ## RUN begins -/

theorem held_logLive (s : State) : Held s s.logLive := by
  unfold logLive
  refine Held.foldl _ (fun s a => ?_) _ s
  split
  · exact (inside_append _ _ _ _ _).held
  · exact Held.refl _

theorem held_clearStart (s : State) (z : Fin 4) : Held s (s.clearStart z) := by
  unfold clearStart
  split
  · exact held_zoneEvent _ _ _ _
  · exact Held.refl _

theorem held_clearStarts (s : State) : Held s s.clearStarts := Held.foldl _ held_clearStart _ s

/-- What RUN's start leaves alone once the settings are taken. -/
theorem held_cleared (s : State) (cfg : Settings) : Held (s.takeSettings cfg) (s.takeSettings cfg).logLive.clearStarts :=
  (held_logLive _).trans (held_clearStarts _)

/-- The settings taken as RUN begins, and what a marking of every item leaves of them. -/
@[simp] theorem takeSettings_fields (s : State) (cfg : Settings) :
    (s.takeSettings cfg).mode = .run ∧ (s.takeSettings cfg).cfg = cfg ∧
      (s.takeSettings cfg).zones = s.zones.mapIdx (fun z r => { r with refresh := Timer.start (cfg.zones.get z).refreshPeriod }) ∧
      (s.takeSettings cfg).chans = s.chans.mapIdx (fun c r => chanAtRun (cfg.channels.get c) r) ∧
      (s.takeSettings cfg).log = s.log ∧ (s.takeSettings cfg).posted = s.posted ∧ (s.takeSettings cfg).hold = s.hold ∧
      (s.takeSettings cfg).requests = s.requests ∧ (s.takeSettings cfg).store = s.store ∧
      (s.takeSettings cfg).agenda = s.agenda := by
  simp [takeSettings]

theorem sound_takeSettings {s : State} {cfg : Settings} (h : s.sound) : (s.takeSettings cfg).sound := by
  simpa [sound, postedSound, holdSound, sweepsSound] using h

theorem sound_beginPath {s : State} (h : s.sound) : s.beginPath.sound :=
  ⟨h.1, h.2.1, h.2.2.1, h.2.2.2.1, CellStore.atRun_sound _ _⟩

theorem sound_beginRun (s : State) (cfg : Settings) (h : s.sound) : (s.beginRun cfg).sound := by
  have k : (s.takeSettings cfg).sound := sound_takeSettings h
  have k' := (held_cleared s cfg).sound k
  unfold beginRun
  generalize (s.takeSettings cfg).logLive.clearStarts = v at k' ⊢
  exact sound_beginPath k'

theorem logLive_frame (s : State) : s.logLive.zones = s.zones ∧ s.logLive.chans = s.chans ∧ s.logLive.cfg = s.cfg ∧ ∀ i, s.toWrite i → s.logLive.toWrite i := by
  unfold logLive
  generalize s.usedChannels = l
  induction l generalizing s with
  | nil => exact ⟨rfl, rfl, rfl, fun _ => id⟩
  | cons a rest ih =>
    simp only [List.foldl_cons]
    obtain ⟨h1, h2, h3, h4⟩ := ih (if (s.chans.get a).sample = .live then s.append .channelLive (s.cfg.channels.get a).zone (some a.val) none else s)
    refine ⟨h1.trans ?_, h2.trans ?_, h3.trans ?_, fun i h => h4 i ?_⟩
    · split <;> simp
    · split <;> simp
    · split <;> simp
    · split
      · exact toWrite_append h _ _ _ _
      · exact h

theorem clearStart_frame (s : State) (z : Fin 4) : (s.clearStart z).chans = s.chans ∧ (s.clearStart z).cfg = s.cfg ∧ (∀ i, s.toWrite i → (s.clearStart z).toWrite i) ∧
   (∀ y, ((s.clearStart z).zones.get y).refresh = (s.zones.get y).refresh) ∧ (∀ y, z ≠ y → (s.clearStart z).zones.get y = s.zones.get y) ∧
   (s.zoneWarm z = false → (s.clearStart z).zones = s.zones) ∧ (s.zoneWarm z = true → ((s.clearStart z).zones.get z).causes.start = false) := by
  unfold clearStart
  split
  · next hw =>
    refine ⟨by simp, by simp, fun i h => toWrite_zoneEvent h _ _ _, fun y => ?_, fun y h => zoneEvent_other _ h _ _, fun h => absurd (hw.symm.trans h) (by simp), fun _ => ?_⟩
    · rw [zoneEvent_zones, Tab.get_set]; split
      · next h => subst h; unfold moved; split <;> rfl
      · rfl
    · rw [zoneEvent_zones, Tab.get_set_self]
      have : ∀ r new, (s.moved z r new).causes = r.causes := by intro r n; unfold moved; split <;> rfl
      rw [this]
      simp only [sensorLost]
      split
      · rfl
      · split <;> rfl
  · next hw => exact ⟨rfl, rfl, fun _ => id, fun _ => rfl, fun _ _ => rfl, fun _ => rfl, fun h => absurd h hw⟩

theorem zoneWarm_congr {s t : State} (h1 : t.chans = s.chans) (h2 : t.cfg = s.cfg) (z) : t.zoneWarm z = s.zoneWarm z := by
  unfold zoneWarm zoneChannels; rw [h1, h2]

theorem clearFold (l : List (Fin 4)) (s : State) : 
   let t := l.foldl clearStart s
   t.chans = s.chans ∧ t.cfg = s.cfg ∧ (∀ i, s.toWrite i → t.toWrite i) ∧
   (∀ y, (t.zones.get y).refresh = (s.zones.get y).refresh) ∧ (∀ y, s.zoneWarm y = false → t.zones.get y = s.zones.get y) ∧
   (∀ y, (y ∈ l ∧ s.zoneWarm y = true) ∨ (s.zones.get y).causes.start = false → (t.zones.get y).causes.start = false) := by
  induction l generalizing s with
  | nil => exact ⟨rfl, rfl, fun _ => id, fun _ => rfl, fun _ _ => rfl, fun y h => by simpa using h⟩
  | cons a rest ih =>
    obtain ⟨c1, c2, c3, c4, c5, c6, c7⟩ := clearStart_frame s a
    obtain ⟨i1, i2, i3, i4, i5, i6⟩ := ih (s.clearStart a)
    have hw := fun y => zoneWarm_congr c1 c2 y
    refine ⟨i1.trans c1, i2.trans c2, fun i h => i3 i (c3 i h), fun y => (i4 y).trans (c4 y), fun y h => (i5 y (by rw [hw]; exact h)).trans ?_, fun y h => i6 y ?_⟩
    · by_cases e : a = y
      · subst e; rw [c6 h]
      · exact c5 y e
    · by_cases e : a = y
      · subst e
        cases hwa : s.zoneWarm a
        · right; rw [c6 hwa]
          rcases h with ⟨_, h⟩ | h
          · rw [hwa] at h; cases h
          · exact h
        · right; exact c7 hwa
      · rw [hw, c5 y e]
        rcases h with ⟨h, h'⟩ | h
        · left; exact ⟨by simpa [Ne.symm e] using h, h'⟩
        · right; exact h

theorem clearStarts_facts (s : State) : 
   s.clearStarts.chans = s.chans ∧ s.clearStarts.cfg = s.cfg ∧ (∀ i, s.toWrite i → s.clearStarts.toWrite i) ∧
   (∀ y, (s.clearStarts.zones.get y).refresh = (s.zones.get y).refresh) ∧ (∀ y, s.zoneWarm y = false → s.clearStarts.zones.get y = s.zones.get y) ∧
   (∀ y, (y ∈ indices 4 ∧ s.zoneWarm y = true) ∨ (s.zones.get y).causes.start = false → (s.clearStarts.zones.get y).causes.start = false) := by
  unfold clearStarts
  exact clearFold (indices 4) s

theorem logLive_readings {s : State} (h : s.readingsFollow) : s.logLive.readingsFollow := by
  unfold logLive
  generalize s.usedChannels = l
  induction l generalizing s with
  | nil => exact h
  | cons a rest ih =>
    simp only [List.foldl_cons]
    apply ih
    split
    · exact append_readings h _ _ _ _
    · exact h

theorem clearStart_readings {s : State} (h : s.readingsFollow) (z : Fin 4) : (s.clearStart z).readingsFollow := by
  unfold clearStart
  split
  · exact (inside_zoneEvent _ rfl).readingsFollow h
  · exact h

theorem clearStarts_readings {s : State} (h : s.readingsFollow) : s.clearStarts.readingsFollow := by
  unfold clearStarts
  generalize indices 4 = l
  induction l generalizing s with
  | nil => exact h
  | cons a rest ih => exact ih (clearStart_readings h a)

theorem contribution_atRun (cfg : ChanCfg) (r : ChanRec) : contribution cfg (chanAtRun cfg r) = none := by
  unfold contribution chanAtRun
  rcases h : cfg.zone with _ | z
  · simp [chanState, h]
  · dsimp only
    generalize (r.warm || decide (cfg.warmUp = 0)) = b
    cases b <;> simp [chanState, h, meanOf, ChanRec.initial]

theorem foldl_none {α} (l : List α) (f : α → Option Nat) (h : ∀ a, f a = none) : l.foldl (fun m c => maxReading m (f c)) none = none := by
  induction l with
  | nil => rfl
  | cons a rest ih => rw [List.foldl_cons, h a]; exact ih

theorem takeSettings_readings {s : State} (h : s.readingsFollow) (hm : s.mode = .loading) (cfg) : (s.takeSettings cfg).readingsFollow := by
  refine ⟨fun z => ?_, fun x => absurd (by simp) x⟩
  have hc := h.2 (by rw [hm]; simp)
  have h0 : s.gasReading z = none := by
    unfold gasReading
    simp [zoneChannels, hc, Settings.unset]
  have h1 : ((s.takeSettings cfg).zones.get z).reading = none := by
    simp only [takeSettings_fields, Tab.get_mapIdx]; exact (h.1 z).trans h0
  have h2 : (s.takeSettings cfg).gasReading z = none := by
    unfold gasReading
    apply foldl_none
    intro c
    rw [(takeSettings_fields s cfg).2.1, (takeSettings_fields s cfg).2.2.2.1, Tab.get_mapIdx]
    exact contribution_atRun _ _
  rw [h1, h2]

theorem cfg_beginRun (s : State) (cfg : Settings) : (s.beginRun cfg).cfg = cfg := by
  have k := (held_cleared s cfg).cfg
  unfold beginRun
  generalize (s.takeSettings cfg).logLive.clearStarts = v at k ⊢
  exact k.trans (takeSettings_fields s cfg).2.1

theorem sound_beginFallback (s : State) (code : Nat) (h : s.sound) : (s.beginFallback code).sound :=
  (inside_append { s with mode := .fallback, cfg := Settings.unset } _ _ _ _).sound h

theorem sound_endLoading (s : State) (o : Option Nat) (h : s.sound) : (s.endLoading o).sound := by
  cases o
  · exact sound_finish (sound_beginRun s (Settings.ofImage s.nv.image) h)
  · exact sound_finish (sound_beginFallback s _ h)

end Sys2Proof.Machine.State

namespace Sys2Proof.Machine

open State

theorem exec_powerShape {c : Instr} (hc : c.isPower = true) {s t : State} (h : exec c s = .next t) : PowerShape s t := by
  cases c
  case supplyRise p =>
    simp only [exec, execSupplyRise] at h
    split at h <;> cases h
    · exact .dark _ _ (Or.inr rfl)
    · exact .up p
  case brownOut =>
    simp only [exec, execBrownOut] at h
    split at h <;> cases h
    · exact .dark _ _ (Or.inl Supply.noConfusion)
    · exact .same
  case brownOutEnd p =>
    simp only [exec, execBrownOutEnd] at h
    split at h
    · split at h <;> cases h
      · exact .dark _ _ (Or.inr rfl)
      · exact .up p
    · cases h; exact .same
  case resetAssert =>
    simp only [exec, execResetAssert] at h
    split at h <;> cases h
    · exact .same
    · exact .dark _ _ (Or.inr rfl)
  case resetRelease p =>
    simp only [exec, execResetRelease] at h
    split at h
    · split at h <;> cases h
      · exact .up p
      · next hs => exact .dark _ _ (Or.inl hs)
    · cases h; exact .same
  case loadingEnd r =>
    have h : execLoadingEnd r s = .next t := h
    unfold execLoadingEnd at h
    split at h
    · next hh =>
      injection h with h
      exact h ▸ .loaded r hh.1 hh.2
    · cases h; exact .same
  case storeWriteComplete r =>
    have h : execStoreWriteComplete r s = .next t := h
    unfold execStoreWriteComplete at h
    split at h
    · next hh =>
      split at h
      · injection h with h
        exact h ▸ .committed hh.1
      · injection h with h
        exact h ▸ .badCommit hh.1
    · cases h; exact .same
  all_goals exact absurd hc Bool.false_ne_true

/-- Every command but UNKNOWN_COMMAND is answered by a next state. -/
theorem exec_next_spelled (c : Instr) (s : State) (hu : ∀ g, c ≠ .unknownCommand g) : ∃ t, exec c s = .next t := by
  cases c <;> first
    | exact ⟨_, rfl⟩
    | exact absurd rfl (hu _)
    | (simp only [exec, execSupplyRise, execBrownOut, execBrownOutEnd, execResetAssert, execResetRelease, execLoadingEnd,
        execStoreWriteComplete, execTick1ms, execTick100ms, execTick1s, execChannelSample, execWarmUpExpiry,
        execSpillSample, execTachPulse, execWindowEvent, execDelayTimerExpiry, execRefreshExpiry, execPurgeExpiry,
        execClaimSettlement, execPlacementEnters, execUpstreamReset, execUpstreamResetRelease, execHoldExpiry,
        execRetryTimerExpiry, execMemoryAnswer, execDownstreamTimeout, execSettlingEnd, execReportAgingExpiry,
        execCommissioningLineChange, execWriteStage]
       repeat' split
       all_goals exact ⟨_, rfl⟩)

/-- Every command is answered by a next state. -/
theorem exec_next (c : Instr) (s : State) : ∃ t, exec c s = .next t := by
  by_cases hu : ∃ g, c = .unknownCommand g
  · obtain ⟨f, rfl⟩ := hu
    rcases exec_unknown f s with ⟨d, hd, e⟩ | ⟨_, e⟩
    · rw [e]; exact exec_next_spelled d s (commandOf_kind hd).2
    · rw [e]; split <;> exact ⟨_, rfl⟩
  · exact exec_next_spelled c s (fun g e => hu ⟨g, e⟩)

/-- A step idles, or runs the command at the front. -/
theorem step_cases {s t : State} (h : step s = .next t) :
    t = s ∨ ∃ c rest, s.pending = c :: rest ∧ exec c { s with pending := rest } = .next t := by
  unfold step at h
  split at h
  · cases h; exact Or.inl rfl
  · exact Or.inr ⟨_, _, by assumption, h⟩

end Sys2Proof.Machine
end

