-- ==== Sys2Proof/Laws/Image.lean ====
section
/-!
SUPPORT. The image checks: what a check result of none says, field by field, and the settings such an image gives.
-/
namespace Sys2Proof.Machine

open State

theorem checks_all {m : Memory} (h : m.imageCheck = none) : ∀ p ∈ m.checks, p.2 = true := by
  unfold Memory.imageCheck at h
  rw [Option.map_eq_none_iff, List.find?_eq_none] at h
  intro p hp
  simpa using h p hp

theorem allIdx {n} {f : Fin n → Bool} (h : (indices n).all f = true) (i : Fin n) : f i = true := by
  rw [List.all_eq_true] at h
  exact h i (by simp)

theorem half_toNat (m : Memory) (o : Nat) (h : m.field o 2 < 65536) : (m.half o).toNat = m.field o 2 := by
  unfold Memory.half
  rw [BitVec.toNat_ofNat]
  exact Nat.mod_eq_of_lt h

theorem field2_lt (m : Memory) (o : Nat) : m.field o 2 < 65536 := by
  unfold Memory.field
  have h0 := (m.read o).isLt
  have h1 := (m.read (o+1)).isLt
  simp [leValue, Memory.bytes, List.range_succ]
  omega

theorem addr_toNat {m : Memory} {o : Nat} (h : m.addrOk o = true) : (m.addr o).toNat = m.field o 4 := by
  have h0 := (m.read o).isLt
  have h1 := (m.read (o + 1)).isLt
  have h2 := (m.read (o + 2)).isLt
  simp only [Memory.addrOk, Memory.byteAt, beq_iff_eq] at h
  simp only [Memory.addr, BitVec.toNat_ofNat, Memory.field, Memory.bytes, List.range_succ]
  simp [leValue, h]
  omega

theorem field4_mod_two (m : Memory) (o : Nat) : m.field o 4 % 2 = m.byteAt o % 2 := by
  simp [Memory.field, Memory.bytes, leValue, List.range_succ, Memory.byteAt]
  omega

theorem checkedWindow_some {m : Memory} {o : Nat} {w : Window} (h : m.checkedWindow o = some w) :
    (m.addr o).toNat % 2 = 0 ∧ (Settings.ofImage m).checkedAt (m.addr o) = some w := by
  unfold Memory.checkedWindow at h
  split at h
  · next hc =>
    simp only [Bool.and_eq_true, beq_iff_eq] at hc
    refine ⟨?_, h⟩
    rw [addr_toNat hc.1, field4_mod_two, hc.2]
  · exact absurd h (by simp)

/-- The settings of an image that passes every check keep what the checks ask. -/
theorem checked_ofImage {m : Memory} (h : m.imageCheck = none) {s : State} (hc : s.cfg = Settings.ofImage m) : s.settingsChecked := by
  intro _
  have hk := checks_all h
  have h3 : m.windowsOk = true := hk (3, m.windowsOk) (by simp [Memory.checks])
  have h5 : m.reportBaseOk = true := hk (5, m.reportBaseOk) (by simp [Memory.checks])
  have h6 : m.profilesOk = true := hk (6, m.profilesOk) (by simp [Memory.checks])
  have h7 : m.zonesOk = true := hk (7, m.zonesOk) (by simp [Memory.checks])
  have h8 : m.channelsOk = true := hk (8, m.channelsOk) (by simp [Memory.checks])
  have h9 : m.spillsOk = true := hk (9, m.spillsOk) (by simp [Memory.checks])
  have h10 : m.tachsOk = true := hk (10, m.tachsOk) (by simp [Memory.checks])
  have h11 : m.forcesOk = true := hk (11, m.forcesOk) (by simp [Memory.checks])
  have h12 : m.pinsOk = true := hk (12, m.pinsOk) (by simp [Memory.checks])
  have h13 : m.groupsOk = true := hk (13, m.groupsOk) (by simp [Memory.checks])
  clear hk h
  rw [hc]
  refine ⟨fun i => ?_, ?_, fun p => ?_, fun z => ?_, fun c => ?_, fun l => ?_, fun t => ?_, fun e f hf => ?_, fun z => ?_, fun a ha => ?_,
    fun i hi => ?_⟩
  · intro w hw
    have := allIdx h3 i
    simp only [Bool.and_eq_true, Bool.or_eq_true, beq_iff_eq, decide_eq_true_eq] at this
    simp only [w, Settings.ofImage, Tab.get_ofFn, Settings.windowOf, decide_eq_true_eq] at hw ⊢
    obtain ⟨_, h0 | ⟨⟨⟨h1, h2⟩, h4⟩, h5⟩⟩ := this
    · omega
    · exact ⟨h1, h2, by rw [addr_toNat h4]; exact h5⟩
  · simp only [Memory.reportBaseOk, Bool.and_eq_true, beq_iff_eq] at h5
    exact ⟨_, rfl, by rw [addr_toNat h5.1]; exact h5.2⟩
  · have := allIdx h6 p
    simp only [Bool.and_eq_true, decide_eq_true_eq] at this
    obtain ⟨⟨⟨ha, hb⟩, hcc⟩, hd⟩ := this
    refine ⟨?_, ?_, fun l => ?_⟩
    · simpa [Settings.ofImage, Settings.profileOf] using hcc
    · simpa [Settings.ofImage, Settings.profileOf] using hd
    · have := allIdx ha l
      simp only [Bool.and_eq_true, decide_eq_true_eq] at this
      simp only [Settings.ofImage, Settings.profileOf, Tab.get_ofFn]
      rw [half_toNat _ _ (field2_lt _ _), half_toNat _ _ (field2_lt _ _)]
      exact this.1
  · have := allIdx h7 z
    simp only [Bool.and_eq_true, decide_eq_true_eq] at this
    simp only [Settings.ofImage, Tab.get_ofFn]
    omega
  · intro k hz
    have := allIdx h8 c
    simp only [k, Settings.ofImage, Tab.get_ofFn, Memory.zoneOrNone] at hz ⊢
    have hne : ¬ m.byteAt (Settings.channelAt c) = 0xFF := by
      intro e; rw [if_pos e] at hz; simp at hz
    simp only [Bool.and_eq_true, Bool.or_eq_true, beq_iff_eq, decide_eq_true_eq, hne, false_or] at this
    omega
  · intro k hz
    have := allIdx h9 l
    simp only [k, Settings.ofImage, Tab.get_ofFn, Memory.zoneOrNone] at hz ⊢
    have hne : ¬ m.byteAt (Settings.spillAt l) = 0xFF := by
      intro e; rw [if_pos e] at hz; simp at hz
    simp only [Bool.and_eq_true, Bool.or_eq_true, beq_iff_eq, decide_eq_true_eq, hne, false_or] at this
    omega
  · have := allIdx h10 t
    simp only [Bool.and_eq_true, decide_eq_true_eq, Bool.or_eq_true, beq_iff_eq] at this
    simp only [Settings.ofImage, Tab.get_ofFn]
    refine ⟨this.1.1, this.1.2, fun e he => ?_⟩
    rcases this.2 with hn | hb
    · simp [Memory.binding, hn] at he
    · rw [he] at hb
      simp only [Option.bind_some] at hb
      exact ⟨hb.1.1.1.1.2, hb.1.1.1.2, hb.1.1.2, hb.1.2, hb.2⟩
  · simp only [Memory.forcesOk, Bool.and_eq_true, decide_eq_true_eq] at h11
    simp only [Settings.ofImage, Tab.get_ofFn] at hf
    obtain ⟨⟨hall, _⟩, hnd⟩ := h11
    have hone := allIdx hall e
    simp only [Memory.forceOk, Bool.and_eq_true, decide_eq_true_eq, Bool.or_eq_true, beq_iff_eq] at hone
    have hdef : m.byteAt (Settings.forceAt e) = 1 := by
      by_contra hn
      simp [Settings.forceOf, hn] at hf
    have hfe : f = { zone := m.zone (Settings.forceAt e + 1), cell := m.addr (Settings.forceAt e + 4),
                     sense := .ofCode (m.byteAt (Settings.forceAt e + 2)), forced := m.half (Settings.forceAt e + 8),
                     release := .ofCode (m.byteAt (Settings.forceAt e + 3)) } := by
      simp only [Settings.forceOf, hdef, if_true, Option.some.injEq] at hf
      exact hf.symm
    rcases hone.2 with h0 | ⟨_, hw⟩
    · omega
    · cases hcw : m.checkedWindow (Settings.forceAt e + 4) with
      | none => rw [hcw] at hw; exact absurd hw (by simp)
      | some w =>
        rw [hcw] at hw
        simp only [Bool.and_eq_true, beq_iff_eq, LevelBounds.inBounds, decide_eq_true_eq] at hw
        have hsome := checkedWindow_some hcw
        refine ⟨by rw [hfe]; exact hsome.1, fun e' f' hf' hcell => ?_, w, by rw [hfe]; exact hsome.2, by rw [hfe]; exact hw.1.1,
          fun l hl => ?_⟩
        · simp only [Settings.ofImage, Tab.get_ofFn] at hf'
          by_contra hne
          have key : ∀ (l : List (Fin 16)), l.Nodup → ((l.filterMap (Settings.forceOf m)).map ForceCfg.cell).Nodup →
              e ∈ l → e' ∈ l → False := by
            intro l
            induction l with
            | nil => intro _ _ h; exact absurd h (by simp)
            | cons x xs ih =>
              intro hn hd he he'
              have hx := List.nodup_cons.mp hn
              rcases List.mem_cons.mp he with rfl | he1 <;> rcases List.mem_cons.mp he' with h2 | he2
              · exact hne h2
              · rw [List.filterMap_cons_some hf, List.map_cons, List.nodup_cons] at hd
                exact hd.1 (List.mem_map.mpr ⟨f', List.mem_filterMap.mpr ⟨e', he2, hf'⟩, hcell⟩)
              · subst h2
                rw [List.filterMap_cons_some hf', List.map_cons, List.nodup_cons] at hd
                exact hd.1 (List.mem_map.mpr ⟨f, List.mem_filterMap.mpr ⟨e, he1, hf⟩, hcell.symm⟩)
              · refine ih hx.2 ?_ he1 he2
                cases hfx : Settings.forceOf m x with
                | none => rwa [List.filterMap_cons_none hfx] at hd
                | some g => rw [List.filterMap_cons_some hfx, List.map_cons, List.nodup_cons] at hd; exact hd.2
          exact key (indices 16) (by decide) hnd (by simp) (by simp)
        · have hcase : l = 2 ∨ l = 3 := by omega
          simp only [Settings.ofImage, Tab.get_ofFn, hfe]
          rcases hcase with rfl | rfl
          · exact hw.1.2
          · exact hw.2
  · simp only [Memory.forcesOk, Bool.and_eq_true] at h11
    have := allIdx h11.1.2 z
    simp only [Settings.ofImage, Tab.get_ofFn]
    refine le_trans (le_of_eq ?_) (of_decide_eq_true this)
    unfold Memory.forcesOf
    generalize indices 16 = l
    induction l with
    | nil => rfl
    | cons x xs ih =>
      cases hfx : Settings.forceOf m x with
      | none => simp [hfx, List.filterMap_cons_none hfx, ih]
      | some g =>
        rw [List.filterMap_cons_some hfx]
        by_cases hz : g.zone = z
        · simp [hfx, hz, ih]
        · simp [hfx, hz, ih]
  · have ha' : a ∈ Settings.pinsOf m := ha
    unfold Settings.pinsOf at ha'
    obtain ⟨i, _, hi⟩ := List.mem_filterMap.mp ha'
    split at hi
    · exact absurd hi (by simp)
    · next hn =>
      have hai := Option.some.inj hi
      have := allIdx h12 i
      simp only [Bool.or_eq_true, beq_iff_eq] at this
      rcases this with h0 | h1
      · exact absurd h0 hn
      · obtain ⟨w, hw⟩ := Option.isSome_iff_exists.mp h1
        have := checkedWindow_some hw
        rw [← hai]
        exact ⟨this.1, by rw [this.2]; rfl⟩
  · simp only [Memory.groupsOk, Bool.and_eq_true] at h13
    have := allIdx h13.1 (lineGroup i)
    simp only [Settings.ofImage, Tab.get_ofFn] at hi ⊢
    simp only [Bool.and_eq_true, Bool.or_eq_true, bne_iff_ne, decide_eq_true_eq, ne_eq] at this
    have hcell : m.byteAt (Settings.groupAt (lineGroup i)) = 2 := by
      revert hi
      generalize m.byteAt (Settings.groupAt (lineGroup i)) = n
      unfold GroupFn.ofCode
      split <;> simp
    rcases this.2 with h0 | h1
    · exact absurd hcell h0
    · have hm : i ∈ Memory.groupLines (lineGroup i) := by
        simp [Memory.groupLines, lineGroup]
      have := List.all_eq_true.mp h1 i hm
      simp only [Bool.and_eq_true, beq_iff_eq] at this
      refine ⟨by rw [addr_toNat this.1.1, field4_mod_two]; exact this.1.2, ?_⟩
      obtain ⟨a, ha, hg⟩ := List.any_eq_true.mp this.2
      exact ⟨a, ha, by simpa using hg⟩

/-- A store that holds a cut-off or failed write fails check 1. -/
theorem torn_check (nv : NvStore) (k : Nat) (r) : ({ nv with torn := some k } : NvStore).check r = some 1 := by
  unfold NvStore.check; cases r <;> rfl

end Sys2Proof.Machine
end

