-- ==== Sys2Proof/Laws/Checks.lean ====
section
/-!
SUPPORT. The thirteen checks in the words of R183, the check result as the first that fails, and the settings of a good image as R182 lays
them out.
-/
namespace Sys2Proof.Machine

/-! ## Fields -/

theorem Memory.field_two (m : Memory) (o : Nat) : m.field o 2 = m.two o := by
  simp [Memory.field, Memory.bytes, leValue, List.range_succ, Memory.two, Memory.byteAt]

theorem Memory.field_four (m : Memory) (o : Nat) : m.field o 4 = m.four o := by
  simp [Memory.field, Memory.bytes, leValue, List.range_succ, Memory.four, Memory.two, Memory.byteAt, Nat.add_assoc]
  omega

theorem Memory.byteAt_lt (m : Memory) (o : Nat) : m.byteAt o < 256 := (m.read o).isLt

theorem Memory.two_lt (m : Memory) (o : Nat) : m.two o < 65536 := by
  have := m.byteAt_lt o; have := m.byteAt_lt (o + 1); unfold Memory.two; omega

theorem Memory.four_lt (m : Memory) (o : Nat) : m.four o < 2 ^ 32 := by
  have := m.two_lt o; have := m.two_lt (o + 2); unfold Memory.four; omega

theorem Memory.four_small (m : Memory) (o : Nat) : m.four o < 2 ^ 24 ↔ m.byteAt (o + 3) = 0 := by
  have := m.byteAt_lt o; have := m.byteAt_lt (o + 1); have := m.byteAt_lt (o + 2)
  unfold Memory.four Memory.two
  simp only [Nat.add_assoc, Nat.reduceAdd]
  omega

theorem Memory.addrOk_iff (m : Memory) (o : Nat) : m.addrOk o = true ↔ m.four o < 2 ^ 24 := by
  rw [Memory.four_small]; simp [Memory.addrOk, Memory.byteAt]

theorem Memory.addr_four (m : Memory) (o : Nat) : (m.addr o).toNat = m.four o % 2 ^ 24 := by
  simp [Memory.addr, Memory.field_four]

theorem Memory.half_two (m : Memory) (o : Nat) : (m.half o).toNat = m.two o := by
  rw [half_toNat _ _ (field2_lt _ _), Memory.field_two]

theorem Memory.four_even (m : Memory) (o : Nat) : m.four o % 2 = m.byteAt o % 2 := by
  unfold Memory.four Memory.two; omega

theorem indices_all {n : Nat} (f : Fin n → Bool) : (indices n).all f = true ↔ ∀ i, f i = true := by
  simp [List.all_eq_true]

/-! ## The checks, code by code -/

theorem versionOk_iff (m : Memory) : m.versionOk = true ↔ m.passes 2 := by
  simp [Memory.versionOk, Memory.passes, Memory.field_two]

theorem windowsOk_iff (m : Memory) : m.windowsOk = true ↔ m.passes 3 := by
  simp only [Memory.windowsOk, indices_all, Bool.and_eq_true, Bool.or_eq_true, decide_eq_true_eq, beq_iff_eq, Memory.addrOk_iff]
  simp only [Memory.passes, Settings.windowAt, Memory.field_four]
  refine forall_congr' fun i => ?_
  constructor
  · rintro ⟨h1, h2⟩; exact ⟨h1, fun h => by rcases h2 with h2 | h2 <;> [omega; tauto]⟩
  · rintro ⟨h1, h2⟩; refine ⟨h1, ?_⟩; rcases Nat.eq_zero_or_pos (m.byteAt (16 + 12 * i.val)) with h | h <;> [exact Or.inl h; skip]
    have := h2 (by omega); tauto

theorem classesOk_iff {m : Memory} (h3 : m.passes 3) : m.classesOk = true ↔ m.passes 4 := by
  simp only [Memory.classesOk, indices_all, Bool.and_eq_true, Bool.or_eq_true, decide_eq_true_eq, beq_iff_eq, bne_iff_ne]
  simp only [Memory.passes, Settings.windowAt] at h3 ⊢
  refine forall_congr' fun i => ?_
  have := (h3 i).1
  by_cases h : m.byteAt (16 + 12 * i.val) = 1
  · simp only [h]; simp; tauto
  · simp [show m.byteAt (16 + 12 * i.val) = 0 by omega]

theorem reportBaseOk_iff (m : Memory) : m.reportBaseOk = true ↔ m.passes 5 := by
  simp [Memory.reportBaseOk, Memory.passes, Memory.field_four, Memory.addrOk_iff]

theorem profilesOk_iff (m : Memory) : m.profilesOk = true ↔ m.passes 6 := by
  simp only [Memory.profilesOk, indices_all, Bool.and_eq_true, decide_eq_true_eq]
  simp only [Memory.passes, Settings.profileAt, Settings.levelAt, Memory.field_two]
  exact forall_congr' fun p => by tauto

theorem zonesOk_iff (m : Memory) : m.zonesOk = true ↔ m.passes 7 := by
  simp only [Memory.zonesOk, indices_all, Bool.and_eq_true, decide_eq_true_eq]
  simp only [Memory.passes, Settings.zoneCfgAt, Memory.field_two]
  exact forall_congr' fun z => by tauto

theorem channelsOk_iff (m : Memory) : m.channelsOk = true ↔ m.passes 8 := by
  simp only [Memory.channelsOk, indices_all, Bool.and_eq_true, Bool.or_eq_true, beq_iff_eq, decide_eq_true_eq]
  simp only [Memory.passes, Settings.channelAt, Memory.field_two]
  exact forall_congr' fun c => by tauto

theorem spillsOk_iff (m : Memory) : m.spillsOk = true ↔ m.passes 9 := by
  simp only [Memory.spillsOk, indices_all, Bool.and_eq_true, Bool.or_eq_true, beq_iff_eq, decide_eq_true_eq]
  simp only [Memory.passes, Settings.spillAt]
  exact forall_congr' fun c => by tauto

theorem forceOf_isSome (m : Memory) (e : Fin 16) : (Settings.forceOf m e).isSome = true ↔ m.byteAt (768 + 12 * e.val) = 1 := by
  show _ ↔ m.byteAt (Settings.forceAt e) = 1
  by_cases h : m.byteAt (Settings.forceAt e) = 1 <;> simp [Settings.forceOf, h]

theorem tachsOk_iff (m : Memory) : m.tachsOk = true ↔ m.passes 10 := by
  simp only [Memory.tachsOk, indices_all, Bool.and_eq_true, Bool.or_eq_true, beq_iff_eq, decide_eq_true_eq]
  simp only [Memory.passes, Settings.tachAt, Memory.field_two]
  refine forall_congr' fun t => ?_
  by_cases h : m.byteAt (704 + 8 * t.val) = 0xFF
  · simp [h]
  · by_cases h15 : m.byteAt (704 + 8 * t.val) ≤ 15
    · have : ((m.binding (704 + 8 * t.val)).bind (Settings.forceOf m)).isSome = true ↔
          m.byteAt (768 + 12 * m.byteAt (704 + 8 * t.val)) = 1 := by
        unfold Memory.binding
        rw [if_neg h, Option.bind_some, forceOf_isSome]; simp only [Nat.mod_eq_of_lt (show m.byteAt (704 + 8 * t.val) < 16 by omega)]
      simp only [this]; tauto
    · tauto

/-! ## The governing window of an address in the image -/

/-- A window of the image covers an address where its bytes say so. -/
theorem ofImage_covers {m : Memory} (h3 : m.passes 3) (i : Fin 16) (a : Addr) :
    (Settings.windowOf m i).covers a = true ↔ m.windowHas i a.toNat := by
  have hi := h3 i
  dsimp only at hi
  simp only [Window.covers, Bool.and_eq_true, decide_eq_true_eq]
  simp only [Settings.windowOf, decide_eq_true_eq]
  simp only [Settings.windowAt, Memory.windowHas]
  constructor
  · rintro ⟨⟨h, h1⟩, h2⟩
    have := (hi.2 h).2.2.1
    rw [Memory.addr_four, Nat.mod_eq_of_lt this] at h1 h2
    exact ⟨h, h1, h2⟩
  · rintro ⟨h, h1, h2⟩
    have := (hi.2 h).2.2.1
    rw [Memory.addr_four, Nat.mod_eq_of_lt this]
    exact ⟨⟨h, h1⟩, h2⟩

/-- The window found for an address is the lowest-numbered that contains it. -/
theorem find_window {p : Window → Bool} {ws : Tab Window 16} (w : Window) :
    ws.items.find? p = some w ↔ ∃ i, ws.get i = w ∧ p w = true ∧ ∀ j, j < i → p (ws.get j) = false := by
  rw [List.find?_eq_some_iff_getElem]
  constructor
  · rintro ⟨hp, i, hi, rfl, hlt⟩
    refine ⟨⟨i, by rw [← ws.size]; exact hi⟩, rfl, hp, fun j hj => ?_⟩
    have := hlt j.val hj
    rw [Bool.not_eq_true'] at this
    exact this
  · rintro ⟨i, rfl, hp, hlt⟩
    refine ⟨hp, i.val, by rw [ws.size]; exact i.2, rfl, fun j hj => ?_⟩
    have := hlt ⟨j, lt_trans hj i.2⟩ hj
    show (!p (ws.get ⟨j, lt_trans hj i.2⟩)) = true
    rw [this]; rfl

/-- The CHECKED window found for an address field is the one R62 and R183 give. -/
theorem checkedWindow_iff {m : Memory} (h3 : m.passes 3) (h5 : m.passes 5) (o : Nat) (w : Window) :
    m.checkedWindow o = some w ↔ ∃ i, m.checkedCell (m.four o) i ∧ w = Settings.windowOf m i := by
  have hw : ∀ i, ((Settings.ofImage m).windows.get i) = Settings.windowOf m i := fun i => Tab.get_ofFn _ _
  by_cases h : m.four o < 2 ^ 24 ∧ m.four o % 2 = 0
  · have hcond : (m.addrOk o && m.byteAt o % 2 == 0) = true := by
      simp only [Bool.and_eq_true, beq_iff_eq, Memory.addrOk_iff, ← Memory.four_even]; exact h
    have ha : (m.addr o).toNat = m.four o := by rw [Memory.addr_four, Nat.mod_eq_of_lt h.1]
    have hb : (m.addr 6).toNat = m.four 6 := by rw [Memory.addr_four, Nat.mod_eq_of_lt h5.1]
    have hrep : (Settings.ofImage m).inReport (m.addr o) = true ↔ m.four 6 ≤ m.four o ∧ m.four o < m.four 6 + 1024 := by
      simp only [Settings.inReport, Settings.ofImage, Bool.and_eq_true, decide_eq_true_eq, ha, hb]
    unfold Memory.checkedWindow
    rw [if_pos hcond]
    unfold Settings.checkedAt Settings.governing
    by_cases hr : (Settings.ofImage m).inReport (m.addr o) = true
    · rw [if_pos hr]
      simp only [Memory.checkedCell, hrep.mp hr, and_self, not_true_eq_false, false_and, and_false, exists_const, reduceCtorEq]
    · rw [if_neg hr]
      have hn : ¬(m.four 6 ≤ m.four o ∧ m.four o < m.four 6 + 1024) := fun e => hr (hrep.mpr e)
      have hcov : ∀ i, (Settings.windowOf m i).covers (m.addr o) = true ↔ m.windowHas i (m.four o) := fun i => by
        rw [ofImage_covers h3, ha]
      have hcls : ∀ i, (Settings.windowOf m i).cls = .checked ↔ m.byteAt (16 + 12 * i.val + 1) = 1 := fun i => by
        simp only [Settings.windowOf, Settings.windowAt]
        generalize m.byteAt (16 + 12 * i.val + 1) = n
        unfold WinClass.ofCode; split <;> simp_all
      have hfind : ∀ w, (Settings.ofImage m).windows.items.find? (fun w => w.covers (m.addr o)) = some w ↔
          ∃ i, Settings.windowOf m i = w ∧ m.windowHas i (m.four o) ∧ ∀ j, j < i → ¬m.windowHas j (m.four o) := fun w => by
        rw [find_window]
        refine exists_congr fun i => ?_
        rw [hw]
        refine and_congr_right fun e => ?_
        subst e
        rw [hcov]
        refine and_congr_right fun _ => forall_congr' fun j => imp_congr_right fun _ => ?_
        rw [hw, ← hcov, Bool.not_eq_true]
      cases hf : (Settings.ofImage m).windows.items.find? (fun w => w.covers (m.addr o)) with
      | none =>
        simp only [reduceCtorEq, false_iff]
        rintro ⟨i, hc, -⟩
        have := (hfind (Settings.windowOf m i)).mpr ⟨i, rfl, hc.2.2.2.1, hc.2.2.2.2.1⟩
        rw [hf] at this; cases this
      | some x =>
        obtain ⟨i, hx, hi, hlt⟩ := (hfind x).mp hf
        dsimp only
        constructor
        · intro e
          split at e
          · next hc =>
            cases e
            exact ⟨i, ⟨h.1, h.2, hn, hi, hlt, (hcls i).mp (hx ▸ hc)⟩, hx.symm⟩
          · cases e
        · rintro ⟨k, hk, rfl⟩
          have : k = i := by
            rcases lt_trichotomy k i with e | e | e
            · exact absurd hk.2.2.2.1 (hlt k e)
            · exact e
            · exact absurd hi (hk.2.2.2.2.1 i e)
          subst this
          rw [← hx, if_pos ((hcls k).mpr hk.2.2.2.2.2)]
  · have hcond : ¬(m.addrOk o && m.byteAt o % 2 == 0) = true := by
      simp only [Bool.and_eq_true, beq_iff_eq, Memory.addrOk_iff, ← Memory.four_even]; exact h
    unfold Memory.checkedWindow
    rw [if_neg hcond]
    simp only [reduceCtorEq, false_iff]
    rintro ⟨i, hc, -⟩
    exact h ⟨hc.1, hc.2.1⟩

theorem checkedWindow_isSome {m : Memory} (h3 : m.passes 3) (h5 : m.passes 5) (o : Nat) :
    (m.checkedWindow o).isSome = true ↔ ∃ i, m.checkedCell (m.four o) i := by
  rw [Option.isSome_iff_exists]
  constructor
  · rintro ⟨w, hw⟩; obtain ⟨i, hi, _⟩ := (checkedWindow_iff h3 h5 o w).mp hw; exact ⟨i, hi⟩
  · rintro ⟨i, hi⟩; exact ⟨_, (checkedWindow_iff h3 h5 o _).mpr ⟨i, hi, rfl⟩⟩

theorem pinsOk_iff {m : Memory} (h3 : m.passes 3) (h5 : m.passes 5) : m.pinsOk = true ↔ m.passes 12 := by
  simp only [Memory.pinsOk, indices_all, Memory.passes, Settings.pinAt, Bool.or_eq_true, beq_iff_eq, Memory.field_four,
    checkedWindow_isSome h3 h5]
  exact forall_congr' fun i => by tauto


theorem ofCode_checked (n : Nat) : WinClass.ofCode n = .checked ↔ n = 1 := by
  unfold WinClass.ofCode; split <;> simp_all

/-- One entry of check 11, where checks 3 to 5 pass. -/
theorem forceOk_iff {m : Memory} (h3 : m.passes 3) (h4 : m.passes 4) (h5 : m.passes 5) (e : Fin 16) :
    m.forceOk e = true ↔
      (let o := 768 + 12 * e.val
       m.byteAt o ≤ 1 ∧
        (m.byteAt o = 1 → m.byteAt (o + 2) ≤ 2 ∧ m.byteAt (o + 3) ≤ 1 ∧
          ∃ i, m.checkedCell (m.four (o + 4)) i ∧ m.byteAt (16 + 12 * i.val + 2) = m.byteAt (o + 1) ∧
            ∀ l, l = 2 ∨ l = 3 →
              let b := 208 + 32 * m.byteAt (16 + 12 * i.val + 3) + 5 * l
              m.two b ≤ m.two (o + 8) ∧ m.two (o + 8) ≤ m.two (b + 2))) := by
  simp only [Memory.forceOk, Bool.and_eq_true, Bool.or_eq_true, decide_eq_true_eq, beq_iff_eq]
  show m.byteAt (768 + 12 * e.val) ≤ 1 ∧ (m.byteAt (768 + 12 * e.val) = 0 ∨ ((m.byteAt (768 + 12 * e.val + 1) ≤ 3 ∧
    m.byteAt (768 + 12 * e.val + 2) ≤ 2) ∧ m.byteAt (768 + 12 * e.val + 3) ≤ 1) ∧
      (match m.checkedWindow (768 + 12 * e.val + 4) with
        | some w => (w.zone == m.zone (768 + 12 * e.val + 1)
          && ((Settings.profileOf m w.profile).levels.get 2).inBounds (m.half (768 + 12 * e.val + 8))
          && ((Settings.profileOf m w.profile).levels.get 3).inBounds (m.half (768 + 12 * e.val + 8)))
        | none => false) = true) ↔ _
  generalize 768 + 12 * e.val = o
  refine and_congr_right fun h1 => ?_
  -- what a window found says
  have key : ∀ i, m.checkedCell (m.four (o + 4)) i →
      (((Settings.windowOf m i).zone == m.zone (o + 1)
          && ((Settings.profileOf m (Settings.windowOf m i).profile).levels.get 2).inBounds (m.half (o + 8))
          && ((Settings.profileOf m (Settings.windowOf m i).profile).levels.get 3).inBounds (m.half (o + 8))) = true ∧
        m.byteAt (o + 1) ≤ 3 ↔
        m.byteAt (16 + 12 * i.val + 2) = m.byteAt (o + 1) ∧
            ∀ l, l = 2 ∨ l = 3 →
              let b := 208 + 32 * m.byteAt (16 + 12 * i.val + 3) + 5 * l
              m.two b ≤ m.two (o + 8) ∧ m.two (o + 8) ≤ m.two (b + 2)) := by
    intro i hi
    have hz := (h4 i hi.2.2.2.1.1).2.2.1 hi.2.2.2.2.2
    have hzone : ((Settings.windowOf m i).zone = m.zone (o + 1) ∧ m.byteAt (o + 1) ≤ 3) ↔
        m.byteAt (16 + 12 * i.val + 2) = m.byteAt (o + 1) := by
      simp only [Settings.windowOf, Settings.windowAt, Memory.zone, Fin.mk.injEq]
      rw [Nat.mod_eq_of_lt (show m.byteAt (16 + 12 * i.val + 2) < 4 by omega)]
      omega
    have hp : (Settings.windowOf m i).profile.val = m.byteAt (16 + 12 * i.val + 3) := by
      simp only [Settings.windowOf, Settings.windowAt, Memory.profile]
      exact Nat.mod_eq_of_lt (by omega)
    have hl : ∀ l : Fin 4, ((Settings.profileOf m (Settings.windowOf m i).profile).levels.get l).inBounds (m.half (o + 8)) = true ↔
        (m.two (208 + 32 * m.byteAt (16 + 12 * i.val + 3) + 5 * l.val) ≤ m.two (o + 8) ∧
          m.two (o + 8) ≤ m.two (208 + 32 * m.byteAt (16 + 12 * i.val + 3) + 5 * l.val + 2)) := by
      intro l
      simp only [LevelBounds.inBounds, Bool.and_eq_true, decide_eq_true_eq]
      simp only [Settings.profileOf, Tab.get_ofFn, Memory.half_two, Settings.levelAt, Settings.profileAt, hp]
    rw [Bool.and_eq_true, Bool.and_eq_true, beq_iff_eq, hl, hl, ← hzone]
    constructor
    · rintro ⟨⟨⟨a, b⟩, c⟩, d⟩
      refine ⟨⟨a, d⟩, ?_⟩
      rintro l (rfl | rfl) <;> assumption
    · rintro ⟨⟨a, d⟩, h⟩
      exact ⟨⟨⟨a, h 2 (Or.inl rfl)⟩, h 3 (Or.inr rfl)⟩, d⟩
  rcases Nat.eq_zero_or_pos (m.byteAt o) with h0 | h0
  · simp [h0]
  · have h1' : m.byteAt o = 1 := by omega
    simp only [h1', one_ne_zero, false_or, true_implies]
    cases hw : m.checkedWindow (o + 4) with
    | none =>
      simp only [Bool.false_eq_true, and_false, false_iff]
      rintro ⟨-, -, i, hi, -⟩
      have := (checkedWindow_iff h3 h5 (o + 4) _).mpr ⟨i, hi, rfl⟩
      rw [hw] at this; cases this
    | some w =>
      obtain ⟨i, hi, rfl⟩ := (checkedWindow_iff h3 h5 (o + 4) w).mp hw
      dsimp only
      constructor
      · rintro ⟨⟨⟨a, b⟩, c⟩, d⟩
        exact ⟨b, c, i, hi, (key i hi).mp ⟨d, a⟩⟩
      · rintro ⟨b, c, j, hj, d⟩
        have hij : j = i := by
          rcases lt_trichotomy j i with x | x | x
          · exact absurd hj.2.2.2.1 (hi.2.2.2.2.1 j x)
          · exact x
          · exact absurd hi.2.2.2.1 (hj.2.2.2.2.1 i x)
        subst hij
        have := (key j hj).mpr d
        exact ⟨⟨⟨this.2, b⟩, c⟩, this.1⟩

/-- A defined entry of the image, with its number and fields. -/
theorem forceOf_some {m : Memory} {e : Fin 16} {f : ForceCfg} (h : Settings.forceOf m e = some f) :
    m.byteAt (768 + 12 * e.val) = 1 ∧ f.zone = m.zone (768 + 12 * e.val + 1) ∧ f.cell = m.addr (768 + 12 * e.val + 4) := by
  have hd := (forceOf_isSome m e).mp (by rw [h]; rfl)
  refine ⟨hd, ?_⟩
  unfold Settings.forceOf at h
  dsimp only at h
  rw [if_pos (show m.byteAt (Settings.forceAt e) = 1 from hd)] at h
  cases h
  exact ⟨rfl, rfl⟩

/-- Counting what a partial map keeps is counting where it comes from. -/
theorem filterMap_filter_length {α β : Type} (f : α → Option β) (p : β → Bool) (q : α → Bool) (l : List α)
    (h : ∀ x ∈ l, (match f x with | some y => p y | none => false) = q x) :
    ((l.filterMap f).filter p).length = (l.filter q).length := by
  induction l with
  | nil => rfl
  | cons x l ih =>
    have hx := h x List.mem_cons_self
    have hi := ih (fun y hy => h y (List.mem_cons_of_mem _ hy))
    cases hf : f x with
    | none => rw [hf] at hx; rw [List.filterMap_cons_none hf, List.filter_cons, ← hx]; simpa using hi
    | some y =>
      rw [hf] at hx
      rw [List.filterMap_cons_some hf, List.filter_cons, List.filter_cons, ← hx]
      show (if p y = true then y :: _ else _).length = (if p y = true then x :: _ else _).length
      cases p y
      · exact hi
      · exact congrArg (· + 1) hi

/-- What a partial map keeps has distinct images where only equal places share one. -/
theorem filterMap_map_nodup {α β γ : Type} (f : α → Option β) (g : β → γ) (l : List α) (hl : l.Nodup) :
    ((l.filterMap f).map g).Nodup ↔
      ∀ x ∈ l, ∀ y ∈ l, ∀ a b, f x = some a → f y = some b → g a = g b → x = y := by
  induction l with
  | nil => simp
  | cons x l ih =>
    rw [List.nodup_cons] at hl
    have hi := ih hl.2
    cases hf : f x with
    | none =>
      rw [List.filterMap_cons_none hf, hi]
      constructor
      · intro h p hp q hq a b ha hb
        rcases List.mem_cons.mp hp with rfl | hp
        · rw [hf] at ha; cases ha
        · rcases List.mem_cons.mp hq with rfl | hq
          · rw [hf] at hb; cases hb
          · exact h p hp q hq a b ha hb
      · intro h p hp q hq
        exact h p (List.mem_cons_of_mem _ hp) q (List.mem_cons_of_mem _ hq)
    | some y =>
      rw [List.filterMap_cons_some hf, List.map_cons, List.nodup_cons, hi]
      constructor
      · rintro ⟨hn, h⟩ p hp q hq a b ha hb hg
        rcases List.mem_cons.mp hp with rfl | hp <;> rcases List.mem_cons.mp hq with h2 | hq
        · exact h2.symm
        · rw [hf] at ha; cases ha
          exact absurd (List.mem_map.mpr ⟨b, List.mem_filterMap.mpr ⟨q, hq, hb⟩, hg.symm⟩) hn
        · rw [h2, hf] at hb; cases hb
          exact absurd (List.mem_map.mpr ⟨a, List.mem_filterMap.mpr ⟨p, hp, ha⟩, hg⟩) hn
        · exact h p hp q hq a b ha hb hg
      · intro h
        refine ⟨fun hm => ?_, fun p hp q hq => h p (List.mem_cons_of_mem _ hp) q (List.mem_cons_of_mem _ hq)⟩
        obtain ⟨b, hb, hg⟩ := List.mem_map.mp hm
        obtain ⟨q, hq, hqb⟩ := List.mem_filterMap.mp hb
        have := h x List.mem_cons_self q (List.mem_cons_of_mem _ hq) y b hf hqb hg.symm
        exact hl.1 (this ▸ hq)

theorem forcesOk_iff {m : Memory} (h3 : m.passes 3) (h4 : m.passes 4) (h5 : m.passes 5) : m.forcesOk = true ↔ m.passes 11 := by
  simp only [Memory.forcesOk, Bool.and_eq_true, indices_all, decide_eq_true_eq, forceOk_iff h3 h4 h5, Memory.passes]
  rw [and_assoc]
  refine and_congr_right fun hall => ?_
  -- what check 11 says of a defined entry
  have hdef : ∀ e : Fin 16, m.byteAt (768 + 12 * e.val) = 1 →
      m.byteAt (768 + 12 * e.val + 1) ≤ 3 ∧ m.four (768 + 12 * e.val + 4) < 2 ^ 24 := by
    intro e he
    obtain ⟨_, _, i, hi, hz, _⟩ := (hall e).2 he
    have := ((h4 i hi.2.2.2.1.1).2.2.1 hi.2.2.2.2.2).1
    exact ⟨by omega, hi.1⟩
  have hfs : ∀ e : Fin 16, m.byteAt (768 + 12 * e.val) = 1 → ∃ f, Settings.forceOf m e = some f := fun e he =>
    Option.isSome_iff_exists.mp ((forceOf_isSome m e).mpr he)
  refine and_congr (forall_congr' fun z => ?_) ?_
  · unfold Memory.forcesOf
    rw [filterMap_filter_length _ _ (fun e => m.byteAt (768 + 12 * e.val) == 1 && m.byteAt (768 + 12 * e.val + 1) == z.val)]
    intro e _
    cases hf : Settings.forceOf m e with
    | none =>
      have : ¬m.byteAt (768 + 12 * e.val) = 1 := fun h => by obtain ⟨f, h'⟩ := hfs e h; rw [hf] at h'; cases h'
      simp [this]
    | some f =>
      obtain ⟨h1, h2, _⟩ := forceOf_some hf
      have := (hdef e h1).1
      simp only [h1, h2, beq_self_eq_true, Bool.true_and]
      rw [Bool.eq_iff_iff, beq_iff_eq, beq_iff_eq, Fin.ext_iff]
      simp only [Memory.zone, Nat.mod_eq_of_lt (show m.byteAt (768 + 12 * e.val + 1) < 4 by omega)]
  · unfold Memory.forcesOf
    rw [filterMap_map_nodup _ _ _ (by simp [indices, List.nodup_finRange])]
    constructor
    · intro h d e hd he heq
      obtain ⟨f, hf⟩ := hfs d hd
      obtain ⟨g, hg⟩ := hfs e he
      refine h d (by simp) e (by simp) f g hf hg ?_
      rw [(forceOf_some hf).2.2, (forceOf_some hg).2.2]
      apply BitVec.eq_of_toNat_eq
      rw [Memory.addr_four, Memory.addr_four, heq]
    · intro h d _ e _ f g hf hg hc
      obtain ⟨hd, _, hfc⟩ := forceOf_some hf
      obtain ⟨he, _, hgc⟩ := forceOf_some hg
      refine h d e hd he ?_
      rw [hfc, hgc] at hc
      have := congrArg BitVec.toNat hc
      rwa [Memory.addr_four, Memory.addr_four, Nat.mod_eq_of_lt (hdef d hd).2, Nat.mod_eq_of_lt (hdef e he).2] at this

/-- Two addresses lie in one line group where they agree above their lowest three bits (R100). -/
theorem groupOf_eq (a b : Addr) : groupOf a = groupOf b ↔ a.toNat / 8 = b.toNat / 8 := by
  have h : ∀ x : Addr, (groupOf x).toNat = x.toNat / 8 * 8 := by
    intro x
    have hx : groupOf x = (x >>> 3) <<< 3 := by
      unfold groupOf
      apply BitVec.eq_of_getLsbD_eq
      intro i hi
      rw [BitVec.getLsbD_and, BitVec.getLsbD_shiftLeft, BitVec.getLsbD_ushiftRight]
      have hc : ∀ i : Fin 24, (0xFFFFF8#24).getLsbD i.val = decide (3 ≤ i.val) := by decide
      have := hc ⟨i, hi⟩
      simp only at this
      rw [this]
      by_cases h3 : 3 ≤ i
      · simp [h3, hi, show ¬ i < 3 by omega, show 3 + (i - 3) = i by omega]
      · simp [h3, show i < 3 by omega]
    rw [hx, BitVec.toNat_shiftLeft, BitVec.toNat_ushiftRight, Nat.shiftRight_eq_div_pow, Nat.shiftLeft_eq]
    have := x.isLt
    omega
  constructor
  · intro e
    have := congrArg BitVec.toNat e
    rw [h, h] at this
    omega
  · intro e
    apply BitVec.eq_of_toNat_eq
    rw [h, h, e]

/-- The pins of the image, where check 12 passes. -/
theorem pins_mem {m : Memory} (h12 : m.passes 12) (g : Nat) :
    (∃ a ∈ Settings.pinsOf m, a.toNat / 8 = g) ↔
      ∃ j : Fin 8, m.four (960 + 4 * j.val) ≠ 0xFFFFFFFF ∧ m.four (960 + 4 * j.val) / 8 = g := by
  unfold Settings.pinsOf
  simp only [List.mem_filterMap, Settings.pinAt, Memory.field_four]
  constructor
  · rintro ⟨a, ⟨j, _, hj⟩, hg⟩
    split at hj
    · cases hj
    · next hn =>
      cases hj
      obtain ⟨k, hk⟩ := h12 j hn
      rw [Memory.addr_four, Nat.mod_eq_of_lt hk.1] at hg
      exact ⟨j, hn, hg⟩
  · rintro ⟨j, hn, hg⟩
    obtain ⟨k, hk⟩ := h12 j hn
    refine ⟨m.addr (960 + 4 * j.val), ⟨j, by simp, by rw [if_neg hn]⟩, ?_⟩
    rw [Memory.addr_four, Nat.mod_eq_of_lt hk.1]; exact hg

theorem groupsOk_iff {m : Memory} (h12 : m.passes 12) : m.groupsOk = true ↔ m.passes 13 := by
  simp only [Memory.groupsOk, Bool.and_eq_true, Bool.or_eq_true, bne_iff_ne, decide_eq_true_eq, List.all_eq_true,
    beq_iff_eq, Memory.addrOk_iff, List.any_eq_true, Memory.passes, groupOf_eq, indices, List.mem_finRange, true_implies]
  simp only [Settings.groupAt, Settings.fixedAt, Settings.cellAddrAt]
  have hline : ∀ (g : Fin 2) (i : Fin 8), i ∈ Memory.groupLines g ↔ i.val / 4 = g.val := fun g i => by simp [Memory.groupLines]
  have hcell : ∀ i : Fin 8, ((m.four (994 + 4 * i.val) < 2 ^ 24 ∧ m.byteAt (994 + 4 * i.val) % 2 = 0) ∧
      ∃ a ∈ Settings.pinsOf m, a.toNat / 8 = (m.addr (994 + 4 * i.val)).toNat / 8) ↔
      (m.four (994 + 4 * i.val) < 2 ^ 24 ∧ m.four (994 + 4 * i.val) % 2 = 0 ∧
          ∃ j : Fin 8, m.four (960 + 4 * j.val) ≠ 0xFFFFFFFF ∧ m.four (960 + 4 * j.val) / 8 = m.four (994 + 4 * i.val) / 8) := by
    intro i
    rw [Memory.four_even, and_assoc]
    refine and_congr_right fun h => and_congr_right fun _ => ?_
    rw [pins_mem h12, Memory.addr_four, Nat.mod_eq_of_lt h]
  simp only [hline, hcell]
  constructor
  · rintro ⟨h, hf⟩
    refine ⟨fun g => (h g).1, fun i hi => ?_, hf⟩
    have := (h ⟨i.val / 4, by omega⟩).2
    exact (this.resolve_left (fun hn => hn hi)) i rfl
  · rintro ⟨h1, h2, hf⟩
    refine ⟨fun g => ⟨h1 g, ?_⟩, hf⟩
    by_cases hg : m.byteAt (992 + g.val) = 2
    · exact Or.inr fun i hi => h2 i (by rw [hi]; exact hg)
    · exact Or.inl hg

theorem crcOk_iff (m : Memory) : m.crcOk = true ↔ m.passes 1 := by
  have hb : m.bytes 0 2044 = (List.range 2044).map m.read := by
    unfold Memory.bytes
    exact List.map_congr_left fun i _ => by rw [Nat.zero_add]
  show (crc32 (m.bytes 0 2044) == m.field 2044 4) = true ↔ m.four 2044 = (crcOver ((List.range 2044).map m.read)).toNat
  rw [beq_iff_eq, crc32_eq, hb, Memory.field_four]
  exact eq_comm

/-- A list of checks answers the code of the first that fails. -/
theorem find_first {l : List (Nat × Bool)} (hs : (l.map Prod.fst).Pairwise (· < ·)) (code : Nat) :
    (l.find? (fun p => !p.2)).map Prod.fst = some code ↔
      (code, false) ∈ l ∧ ∀ p ∈ l, p.1 < code → p.2 = true := by
  induction l with
  | nil => simp
  | cons p l ih =>
    rw [List.map_cons, List.pairwise_cons] at hs
    obtain ⟨c, b⟩ := p
    have hlt : ∀ q ∈ l, c < q.1 := fun q hq => hs.1 q.1 (List.mem_map.mpr ⟨q, hq, rfl⟩)
    cases b with
    | false =>
      rw [List.find?_cons_of_pos rfl, Option.map_some, Option.some.injEq]
      constructor
      · rintro rfl
        refine ⟨List.mem_cons_self, fun q hq h => ?_⟩
        rcases List.mem_cons.mp hq with rfl | hq
        · exact absurd h (lt_irrefl _)
        · exact absurd h (by have := hlt q hq; omega)
      · rintro ⟨hm, h⟩
        rcases List.mem_cons.mp hm with e | hm
        · exact (Prod.mk.inj e).1.symm
        · exact absurd (h (c, false) List.mem_cons_self (hlt _ hm)) Bool.false_ne_true
    | true =>
      rw [List.find?_cons_of_neg Bool.false_ne_true, ih hs.2]
      constructor
      · rintro ⟨hm, h⟩
        refine ⟨List.mem_cons_of_mem _ hm, fun q hq hc => ?_⟩
        rcases List.mem_cons.mp hq with rfl | hq
        · rfl
        · exact h q hq hc
      · rintro ⟨hm, h⟩
        refine ⟨?_, fun q hq => h q (List.mem_cons_of_mem _ hq)⟩
        rcases List.mem_cons.mp hm with e | hm
        · cases e
        · exact hm

/-- Where the earlier checks pass, the model's check with a code is R183's. -/
theorem check_iff {m : Memory} {p : Nat × Bool} (h : p ∈ m.checks) (hp : ∀ c, 1 ≤ c → c < p.1 → m.passes c) :
    p.2 = true ↔ m.passes p.1 := by
  simp only [Memory.checks, List.mem_cons, List.not_mem_nil, or_false] at h
  rcases h with rfl | rfl | rfl | rfl | rfl | rfl | rfl | rfl | rfl | rfl | rfl | rfl | rfl <;> dsimp only at hp ⊢
  · exact crcOk_iff m
  · exact versionOk_iff m
  · exact windowsOk_iff m
  · exact classesOk_iff (hp 3 (by decide) (by decide))
  · exact reportBaseOk_iff m
  · exact profilesOk_iff m
  · exact zonesOk_iff m
  · exact channelsOk_iff m
  · exact spillsOk_iff m
  · exact tachsOk_iff m
  · exact forcesOk_iff (hp 3 (by decide) (by decide)) (hp 4 (by decide) (by decide)) (hp 5 (by decide) (by decide))
  · exact pinsOk_iff (hp 3 (by decide) (by decide)) (hp 5 (by decide) (by decide))
  · exact groupsOk_iff (hp 12 (by decide) (by decide))

theorem checks_codes (m : Memory) : m.checks.map Prod.fst = [1, 2, 3, 4, 5, 6, 7, 8, 9, 10, 11, 12, 13] := rfl

theorem checks_mem (m : Memory) {code : Nat} (h1 : 1 ≤ code) (h2 : code ≤ 13) : ∃ b, (code, b) ∈ m.checks := by
  have : code ∈ m.checks.map Prod.fst := by rw [checks_codes]; simp only [List.mem_cons, List.not_mem_nil, or_false]; omega
  obtain ⟨p, hp, rfl⟩ := List.mem_map.mp this
  exact ⟨p.2, hp⟩

theorem checks_range {m : Memory} {p : Nat × Bool} (h : p ∈ m.checks) : 1 ≤ p.1 ∧ p.1 ≤ 13 := by
  have : p.1 ∈ m.checks.map Prod.fst := List.mem_map.mpr ⟨p, h, rfl⟩
  rw [checks_codes] at this; simp only [List.mem_cons, List.not_mem_nil, or_false] at this; omega

/-- The checks below a code all answer true where, and only where, the image passes them. -/
theorem checks_below (m : Memory) (n : Nat) :
    (∀ p ∈ m.checks, p.1 < n → p.2 = true) ↔ ∀ c, 1 ≤ c → c < n → c ≤ 13 → m.passes c := by
  constructor
  · intro h c
    induction c using Nat.strongRecOn with
    | ind c ih =>
      intro h1 h2 h3
      obtain ⟨b, hb⟩ := checks_mem m h1 h3
      exact (check_iff hb (fun d hd hdc => ih d hdc hd (by omega) (by omega))).mp (h _ hb h2)
  · intro h p hp hn
    obtain ⟨h1, h2⟩ := checks_range hp
    exact (check_iff hp (fun c hc hcc => h c hc (by omega) (by omega))).mpr (h p.1 h1 hn h2)

/-- The check result is the code of the first check of R183 that the image does not pass. -/
theorem imageCheck_iff (m : Memory) (code : Nat) :
    m.imageCheck = some code ↔ 1 ≤ code ∧ code ≤ 13 ∧ ¬m.passes code ∧ ∀ c, 1 ≤ c → c < code → m.passes c := by
  unfold Memory.imageCheck
  rw [find_first (by rw [checks_codes]; decide)]
  constructor
  · rintro ⟨hm, h⟩
    obtain ⟨h1, h2⟩ := checks_range hm
    have hb := (checks_below m code).mp h
    have hp : ∀ c, 1 ≤ c → c < code → m.passes c := fun c hc hcc => hb c hc hcc (by dsimp only at h2; omega)
    exact ⟨h1, h2, fun hn => absurd ((check_iff hm hp).mpr hn) Bool.false_ne_true, hp⟩
  · rintro ⟨h1, h2, hn, hp⟩
    obtain ⟨b, hb⟩ := checks_mem m h1 h2
    have : b = false := by
      cases b
      · rfl
      · exact absurd ((check_iff hb hp).mp rfl) hn
    subst this
    exact ⟨hb, (checks_below m code).mpr fun c hc hcc _ => hp c hc hcc⟩

/-- The image is good where it passes every check. -/
theorem imageCheck_none_iff (m : Memory) : m.imageCheck = none ↔ ∀ c, 1 ≤ c → c ≤ 13 → m.passes c := by
  constructor
  · intro h c h1 h2
    exact (checks_below m 14).mp (fun p hp _ => checks_all h p hp) c h1 (by omega) h2
  · intro h
    unfold Memory.imageCheck
    rw [Option.map_eq_none_iff, List.find?_eq_none]
    intro p hp
    have := (checks_below m 14).mpr (fun c h1 _ h3 => h c h1 h3) p hp (by have := checks_range hp; omega)
    simp [this]

/-! ## The settings of a good image (R182) -/

/-- The settings of a good image are those it lays out. -/
theorem laidOut_ofImage {m : Memory} (h : m.imageCheck = none) : (Settings.ofImage m).laidOut m := by
  have hp := (imageCheck_none_iff m).mp h
  have h3 := hp 3 (by decide) (by decide)
  have h4 := hp 4 (by decide) (by decide)
  have h5 := hp 5 (by decide) (by decide)
  have h6 := hp 6 (by decide) (by decide)
  have h8 := hp 8 (by decide) (by decide)
  have h9 := hp 9 (by decide) (by decide)
  have h10 := hp 10 (by decide) (by decide)
  have h11 := hp 11 (by decide) (by decide)
  have h12 := hp 12 (by decide) (by decide)
  have h13 := hp 13 (by decide) (by decide)
  clear hp h
  have addr : ∀ o, m.four o < 2 ^ 24 → (m.addr o).toNat = m.four o := fun o ho => by rw [Memory.addr_four, Nat.mod_eq_of_lt ho]
  have unused : ∀ o, (m.zoneOrNone o = none ↔ m.byteAt o = 0xFF) ∧
      ((m.byteAt o ≠ 0xFF → m.byteAt o ≤ 3) → ∀ z, m.zoneOrNone o = some z → z.val = m.byteAt o) := by
    intro o
    unfold Memory.zoneOrNone
    by_cases e : m.byteAt o = 0xFF
    · simp [e]
    · refine ⟨by simp [e], fun hle z hz => ?_⟩
      rw [if_neg e] at hz; cases hz
      exact Nat.mod_eq_of_lt (by have := hle e; omega)
  refine ⟨?_, ⟨m.addr 6, rfl, addr 6 h5.1⟩, fun i => ?_, fun p => ?_, fun z => ?_, fun c => ?_, fun l => ?_, fun t => ?_, fun e => ?_,
    ?_, fun g => ?_, fun i hi => ?_, fun i => ?_⟩
  · simp only [Settings.ofImage, BitVec.toNat_ofNat, Memory.field_four]
    exact Nat.mod_eq_of_lt (m.four_lt 2)
  · have w3 := h3 i
    have w4 := h4 i
    simp only [Settings.ofImage, Tab.get_ofFn, Settings.windowOf, Settings.windowAt] at w3 w4 ⊢
    refine ⟨decide_eq_true_iff, fun hen => ?_⟩
    have hen := decide_eq_true_iff.mp hen
    have w3 := w3.2 hen
    obtain ⟨c1, c2, c3, c4⟩ := w4 hen
    have hcls : ∀ n, n ≤ 3 → (WinClass.ofCode n).code = n := by decide
    have hsty : ∀ n, n ≤ 1 → (Style.ofCode n).code = n := by decide
    have hfun : ∀ n, n ≤ 2 → (WatchFn.ofCode n).code = n := by decide
    have hc := hcls _ c1
    refine ⟨hc, hsty _ c2, addr _ w3.2.2.1, trivial, fun e => ?_, fun e => ?_⟩
    · rw [e] at hc
      have := c3 hc.symm
      exact ⟨Nat.mod_eq_of_lt (by omega), Nat.mod_eq_of_lt (by omega)⟩
    · rw [e] at hc
      have := c4 hc.symm
      have hf := hfun _ this.1
      refine ⟨hf, fun hn => Nat.mod_eq_of_lt ?_⟩
      have : m.byteAt (16 + 12 * i.val + 4) ≠ 2 := fun e => hn (by rw [e]; rfl)
      omega
  · have w := h6 p
    simp only [Settings.ofImage, Tab.get_ofFn, Settings.profileOf, Settings.profileAt, Settings.levelAt, Memory.half_two,
      Memory.field_two] at w ⊢
    have hr : ∀ n, n ≤ 2 → (BoundsRule.ofCode n).code = n := by decide
    have hu : ∀ n, n ≤ 1 → (UnknownAction.ofCode n).code = n := by decide
    exact ⟨fun l => ⟨trivial, trivial, hr _ (w.1 l).2⟩, trivial, trivial, hu _ w.2.1, trivial⟩
  · simp only [Settings.ofImage, Tab.get_ofFn, Settings.zoneCfgAt, Memory.field_two, and_self]
  · have w := h8 c
    simp only [Settings.ofImage, Tab.get_ofFn, Settings.channelAt, Memory.field_two] at w ⊢
    exact ⟨(unused _).1, (unused _).2 (fun hn => (w hn).1), trivial, trivial, trivial, trivial, trivial⟩
  · have w := h9 l
    simp only [Settings.ofImage, Tab.get_ofFn, Settings.spillAt] at w ⊢
    exact ⟨(unused _).1, (unused _).2 (fun hn => (w hn).1), decide_eq_true_iff, trivial⟩
  · have w := h10 t
    simp only [Settings.ofImage, Tab.get_ofFn, Settings.tachAt, Memory.field_two] at w ⊢
    refine ⟨?_, fun e he => ?_, trivial, trivial, trivial⟩
    · unfold Memory.binding; split <;> simp_all
    · unfold Memory.binding at he
      split at he
      · cases he
      · next hn => cases he; exact Nat.mod_eq_of_lt (by have := (w.2.2 hn).1; omega)
  · have w := h11.1 e
    simp only [Settings.ofImage, Tab.get_ofFn] at w ⊢
    have hsome := forceOf_isSome m e
    constructor
    · cases hf : Settings.forceOf m e with
      | none =>
        rw [hf] at hsome
        have : ¬m.byteAt (768 + 12 * e.val) = 1 := fun x => by have := hsome.mpr x; cases this
        simp only [true_iff]; omega
      | some f =>
        rw [hf] at hsome
        have := hsome.mp rfl
        simp only [reduceCtorEq, false_iff]; omega
    · intro f hf
      have hd := hsome.mp (by rw [hf]; rfl)
      obtain ⟨b, c, i, hi, hz, _⟩ := w.2 hd
      have hz3 := (((h4 i hi.2.2.2.1.1).2.2.1) hi.2.2.2.2.2).1
      unfold Settings.forceOf at hf
      dsimp only at hf
      rw [if_pos (show m.byteAt (Settings.forceAt e) = 1 from hd)] at hf
      cases hf
      have hse : ∀ n, n ≤ 2 → (Sense.ofCode n).code = n := by decide
      have hre : ∀ n, n ≤ 1 → (ReleaseMode.ofCode n).code = n := by decide
      refine ⟨Nat.mod_eq_of_lt ?_, hse _ b, hre _ c, addr _ hi.1, Memory.half_two _ _⟩
      show m.byteAt (768 + 12 * e.val + 1) < 4
      omega
  · simp only [Settings.ofImage, Settings.pinsOf, Settings.pinAt, Memory.field_four]
    generalize indices 8 = l
    induction l with
    | nil => rfl
    | cons i l ih =>
      by_cases e : m.four (960 + 4 * i.val) = 0xFFFFFFFF
      · rw [List.filterMap_cons_none (by rw [if_pos e]), ih, List.map_cons, List.filter_cons_of_neg (by simp [e])]
      · obtain ⟨j, hj⟩ := h12 i e
        rw [List.filterMap_cons_some (by rw [if_neg e]), List.map_cons, ih, List.map_cons, List.filter_cons_of_pos (by simp [e]),
          addr _ hj.1]
  · have hg : ∀ n, n ≤ 3 → (GroupFn.ofCode n).code = n := by decide
    simp only [Settings.ofImage, Tab.get_ofFn, Settings.groupAt]
    exact hg _ (h13.1 g)
  · simp only [Settings.ofImage, Tab.get_ofFn, Settings.cellAddrAt]
    exact addr _ (h13.2.1 i hi).1
  · simp only [Settings.ofImage, Tab.get_ofFn, Settings.fixedAt]
    exact decide_eq_true_iff

end Sys2Proof.Machine
end

