-- ==== Sys2Proof/Laws/Fills.lean ====
section
/-!
SUPPORT. The fills run on until nothing is left to be done without a transfer: the bound on their moves is never reached (R105,
R106); so what still waits, waits for a fill's read, and no invalidation or lookup settles a claim meanwhile (R103, log 9).
-/
namespace Sys2Proof.Machine.CellStore

/-- The moves the fills can still make. -/
def movesLeft (c : CellStore) : Nat :=
  6 * c.list.length + match c.fill with
    | none => 0
    | some f => if f.reading then 0 else 5 - min 4 f.pos

theorem movesLeft_begin (c : CellStore) (i g k) : movesLeft (c.beginFill i g k) ≤ 6 * c.list.length + 5 := by
  unfold movesLeft beginFill
  dsimp only
  simp only [onClaims, setLine]
  have := List.length_filter_le (fun (r : FillRequest) => !(r.who != .nobody && r.group == g && decide (k.val ≤ r.start.val))) c.list
  simp only [Bool.false_eq_true, if_false]
  omega

theorem settleRequest_same (c : CellStore) (r v) : (c.settleRequest r v).list = c.list ∧ (c.settleRequest r v).fill = c.fill := by
  unfold settleRequest; split <;> exact ⟨rfl, rfl⟩

theorem movesLeft_start (c : CellStore) (r) (h : c.fill = none) : movesLeft (c.startRequest r) ≤ 6 * c.list.length + 5 := by
  have h0 : ∀ d : CellStore, d.fill = none → d.list = c.list → movesLeft d ≤ 6 * c.list.length + 5 := by
    intro d hd hl; unfold movesLeft; rw [hd, hl]; simp
  have hs := fun v => settleRequest_same c r v
  unfold startRequest
  split
  · dsimp only
    split
    · split
      · exact h0 _ ((hs _).2.trans h) (hs _).1
      · exact movesLeft_begin _ _ _ _
    · split
      · exact h0 _ ((hs _).2.trans h) (hs _).1
      · exact movesLeft_begin _ _ _ _
    · split
      · exact h0 _ h rfl
      · exact movesLeft_begin _ _ _ _
    · split
      · split
        · exact h0 _ ((hs _).2.trans h) (hs _).1
        · exact le_trans (movesLeft_begin _ _ _ _) (by rw [(hs _).1])
      · split
        · exact h0 _ h rfl
        · exact movesLeft_begin _ _ _ _
  · split
    · dsimp only
      exact le_trans (movesLeft_begin _ _ _ _) (by simp [touch, setLine])
    · exact h0 _ h rfl

theorem movesLeft_advance (q) (c d : CellStore) (h : c.advance q = some d) : movesLeft d + 1 ≤ movesLeft c := by
  unfold advance at h
  split at h
  · next hf =>
    split at h
    · cases h
    · next r rest hl =>
      cases h
      have := movesLeft_start { c with list := rest } r hf
      unfold movesLeft at this ⊢
      simp only [hf, hl, List.length_cons] at *
      omega
  · next f hf =>
    split at h
    · cases h
    · next hr =>
      split at h
      · next hp =>
        dsimp only at h
        split at h
        · cases h
          unfold movesLeft; simp only [settleCell, onClaims, hf, hr]; simp; omega
        · split at h
          · cases h
            unfold movesLeft; simp only [settleCell, onClaims, hf, hr, setCell, setLine]; simp; omega
          · cases h
            unfold movesLeft; simp only [hf, hr]; simp; omega
      · cases h
        unfold movesLeft endFill; simp [hf, hr, setLine]; omega

theorem runFills_done (q) (n : Nat) (c : CellStore) (h : movesLeft c ≤ n) : (runFills q n c).advance q = none := by
  induction n generalizing c with
  | zero =>
    unfold runFills
    cases hc : c.advance q with
    | none => rfl
    | some d => have := movesLeft_advance q c d hc; omega
  | succ n ih =>
    unfold runFills
    cases hc : c.advance q with
    | none => exact hc
    | some d => exact ih d (by have := movesLeft_advance q c d hc; omega)

/-- The fills have run on as far as they can. -/
theorem settleFills_done (q) (c : CellStore) : (c.settleFills q).advance q = none := by
  apply runFills_done
  unfold movesLeft fillMoves
  split
  · omega
  · split <;> omega

/-! ## While a fill waits for its read -/

/-- The fills make no move while a read is presented. -/
theorem settleFills_reading (q) {c : CellStore} {f : Fill} (hf : c.fill = some f) (hr : f.reading = true) : c.settleFills q = c := by
  unfold settleFills
  cases c.fillMoves with
  | zero => rfl
  | succ n => unfold runFills; rw [show c.advance q = none by unfold advance; rw [hf]; simp [hr]]

/-- Between events the fills wait for a read, or none is in progress and none is requested (R104, R109). -/
def waitsForRead (c : CellStore) : Prop := (∃ f, c.fill = some f ∧ f.reading = true) ∨ (c.fill = none ∧ c.list = [])

theorem waitsForRead_iff (q) (c : CellStore) : c.waitsForRead ↔ c.advance q = none := by
  unfold waitsForRead advance
  cases hf : c.fill with
  | none => cases hl : c.list <;> simp
  | some f =>
    cases hr : f.reading
    · refine ⟨?_, fun h => ?_⟩
      · rintro (⟨g, hg, hgr⟩ | ⟨h, -⟩)
        · cases hg; rw [hr] at hgr; cases hgr
        · cases h
      · dsimp only at h
        split at h
        · next h' => rw [hr] at h'; cases h'
        · split at h
          · split at h
            · cases h
            · split at h <;> cases h
          · cases h
    · simp [hr]

theorem settleFills_waits (q) (c : CellStore) : (c.settleFills q).waitsForRead := (waitsForRead_iff q _).2 (settleFills_done q c)

/-- While a read is presented an invalidation settles no claim: the fills have no move to make (R111, R112). -/
theorem invalidate_claims (q) {c : CellStore} {f : Fill} (hf : c.fill = some f) (hr : f.reading = true) (a : Addr) :
    (c.invalidate q a).checkerClaim = c.checkerClaim ∧ (c.invalidate q a).engineClaim = c.engineClaim := by
  unfold invalidate
  split
  · next i _ =>
    dsimp only
    rw [settleFills_reading q (f := f) (by unfold repair; split <;> exact hf) hr]
    unfold repair; split <;> exact ⟨rfl, rfl⟩
  · exact ⟨rfl, rfl⟩

/-- While a read is presented the force engine's lookup settles no claim of the checker (R103, R104). -/
theorem lookup_engine_claims (q) {c : CellStore} {f : Fill} (hf : c.fill = some f) (hr : f.reading = true) (a : Addr) :
    (c.lookup q .engine a).2.checkerClaim = c.checkerClaim := by
  have h : ∀ d : CellStore, d.fill = some f → d.checkerClaim = c.checkerClaim →
      ((d.addClaim .engine a).settleFills q).checkerClaim = c.checkerClaim := by
    intro d hd hc
    have key : (d.addClaim .engine a).fill = some f ∧ (d.addClaim .engine a).checkerClaim = c.checkerClaim := by
      unfold addClaim; simp only [hd]; split <;> first | exact ⟨hd, hc⟩ | exact ⟨rfl, hc⟩
    rw [settleFills_reading q key.1 hr, key.2]
  unfold lookup
  split
  · dsimp only; split
    · rfl
    · exact h _ hf rfl
  · exact h c hf rfl

end Sys2Proof.Machine.CellStore
end

