-- ==== Sys2Proof/Laws/Records.lean ====
section
/-!
SUPPORT. What an append, a zone event and an acknowledge do to the log and to the zone's record, in the terms of the statements.
-/
namespace Sys2Proof.Machine

open State

theorem isRise_self (x : ZoneState) : isRise x x = false := by cases x <;> rfl

/-! ## Appends -/

/-- An append adds its entry to the log (R176, R178, R179). -/
theorem append_log (s : State) (k : EventKind) (z : Option (Fin 4)) (a b : Option Nat) :
    (s.append k z a b).log = s.log.add s.time.seconds { kind := k, zone := z, subject := a, value := b } := by
  unfold append EventLog.add
  cases h : s.log.records.getLast? with
  | none => simp [appendRecord, Config.logCapacity]
  | some r =>
    simp only [coalesces, Bool.and_eq_true, Bool.or_eq_true, beq_iff_eq, and_assoc]
    split
    · unfold countRepeat
      split <;> simp
    · simp [appendRecord, Config.logCapacity]

@[simp] theorem logged_nil (s : State) : s.logged [] = s.log := rfl

/-- Some appends after an append are that append and the others. -/
theorem append_logged (s : State) (k : EventKind) (z : Option (Fin 4)) (a b : Option Nat) (es : List LogEntry) :
    (s.append k z a b).logged es = s.logged ({ kind := k, zone := z, subject := a, value := b } :: es) := by
  simp [logged, append_log]

theorem append_logged_nil (s : State) (k : EventKind) (z : Option (Fin 4)) (a b : Option Nat) :
    (s.append k z a b).log = s.logged [{ kind := k, zone := z, subject := a, value := b }] := append_log s k z a b

/-- What is logged depends on the log and the seconds alone. -/
theorem logged_congr {s t : State} (hl : t.log = s.log) (ht : t.time.seconds = s.time.seconds) (es : List LogEntry) :
    t.logged es = s.logged es := by simp [logged, hl, ht]

/-- Appends in a row, of which some stand in another state, are one list of appends. -/
theorem logged_append {s t : State} {es : List LogEntry} (hl : t.log = s.logged es) (ht : t.time.seconds = s.time.seconds)
    (fs : List LogEntry) : t.logged fs = s.logged (es ++ fs) := by simp [logged, hl, ht, List.foldl_append]

/-! ## Zone events -/

theorem logCauses_log (s : State) (z : Fin 4) (old new : Causes) :
    (s.logCauses z old new).log = s.logged
      ((Cause.all.filter (fun c => old.has c != new.has c)).map
        (fun c => { kind := if new.has c then .causeSet else .causeClear, zone := some z, subject := some c.number, value := none })) := by
  unfold logCauses Causes.changes
  generalize Cause.all.filter (fun c => old.has c != new.has c) = l
  induction l generalizing s with
  | nil => rfl
  | cons c l ih =>
    simp only [List.map_cons, List.foldl_cons]
    rw [ih, append_logged]

theorem announce_log (s : State) (z : Fin 4) (old new : ZoneState) :
    (s.announce z old new).log =
      s.logged (if old = new then [] else [{ kind := .zoneState, zone := some z, subject := some old.code, value := some new.code }]) := by
  unfold announce
  split
  · rfl
  · rw [← append_logged_nil]; simp

/-- The records of a zone event (R5, R16, R18). -/
theorem zoneEvent_log (s : State) (z : Fin 4) (r : ZoneRec) (cs : Causes) :
    (s.zoneEvent z r cs).log = s.logged (zoneRecords z (s.zones.get z).causes cs r.state (settleState r.state cs)) := by
  unfold zoneEvent zoneRecords
  rw [announce_log, logged_append (logCauses_log _ _ _ _) (by simp)]
  exact logged_congr (by simp) (by simp) _

/-- A zone event on a record that keeps the zone's own causes settles that record (R5, R16 to R18). -/
theorem zoneEvent_settled (s : State) (z : Fin 4) (r : ZoneRec) (cs : Causes) (h : r.causes = (s.zones.get z).causes) :
    (s.zoneEvent z r cs).zones.get z = ZoneRec.settledBy (s.cfg.zones.get z) r cs := by
  rw [zoneEvent_zones, Tab.get_set_self, ZoneRec.settledBy, moved, ← h]
  by_cases e : r.state = settleState r.state cs
  · simp only [← e, if_true, isRise_self, Bool.or_false]
  · simp only [e, Ne.symm e, if_false]

/-- The records of a zone event, said of the states before and after it. -/
theorem zoneEvent_said (s : State) (z : Fin 4) (r : ZoneRec) (cs : Causes) (h : r.causes = (s.zones.get z).causes)
    (hr : r.state = (s.zones.get z).state) : (s.zoneEvent z r cs).log = s.logged (s.zoneSaid (s.zoneEvent z r cs) z) := by
  rw [zoneEvent_log, zoneSaid, zoneEvent_settled s z r cs h]
  simp only [ZoneRec.settledBy, hr]

theorem zoneEvent_others (s : State) (z : Fin 4) (r : ZoneRec) (cs : Causes) : s.otherZones (s.zoneEvent z r cs) z :=
  fun _ hy => zoneEvent_other s (Ne.symm hy) r cs

/-- A zone's record that does not change gives no records. -/
theorem zoneSaid_same {s u : State} {z : Fin 4} (h : u.zones.get z = s.zones.get z) : s.zoneSaid u z = [] := by
  unfold zoneSaid zoneRecords
  simp [h]

/-- A move of a zone that touches no cause: its record alone, and ZONE_STATE (R16 to R18). -/
theorem zoneMove_said (s : State) (z : Fin 4) (new : ZoneState) :
    (s.zoneMove z new).log = s.logged (s.zoneSaid (s.zoneMove z new) z) := by
  have hc : ((s.zoneMove z new).zones.get z).causes = (s.zones.get z).causes := by
    rw [zoneMove_zones, Tab.get_set_self, moved]; split <;> rfl
  have hs : ((s.zoneMove z new).zones.get z).state = new := by
    rw [zoneMove_zones, Tab.get_set_self, moved]; split
    · assumption
    · rfl
  unfold zoneSaid zoneRecords
  rw [hc, hs]
  simp only [bne_self_eq_false, List.filter_false, List.map_nil, List.nil_append]
  unfold zoneMove
  rw [announce_log]
  exact logged_congr (by simp) (by simp) _

/-- A change of state hands on its notices, each once, in some order (R19). -/
theorem zoneNotices_agenda (s : State) (z : Fin 4) (old new : ZoneState) :
    ∃ given, (s.zoneNotices z old new).agenda = s.agenda ++ given ∧ given.Nodup ∧ ∀ n, n ∈ given ↔ noticeDue z old new n := by
  have hmem : ∀ n, n ∈ levelNotice z old new ∨ n ∈ forcingNotice z old new ∨ n ∈ sweepNotice z old new ↔ noticeDue z old new n := by
    intro n
    unfold noticeDue levelNotice forcingNotice sweepNotice
    cases old <;> cases new <;> simp [ZoneState.level, ZoneState.forcing]
  have hperm : ∀ k (a b c : List Notice), (inOrder k a b c).Perm (a ++ b ++ c) := by
    intro k a b c
    rw [List.perm_iff_count]
    intro n
    unfold inOrder
    split <;> simp only [List.count_append] <;> omega
  have hnd : (levelNotice z old new ++ forcingNotice z old new ++ sweepNotice z old new).Nodup := by
    unfold levelNotice forcingNotice sweepNotice
    cases old <;> cases new <;> simp [ZoneState.level, ZoneState.forcing]
  unfold zoneNotices
  dsimp only
  split
  · exact ⟨_, rfl, (hperm _ _ _ _).nodup_iff.2 hnd, fun n => by
      rw [(hperm _ _ _ _).mem_iff, ← hmem]; simp only [List.mem_append, or_assoc]⟩
  · exact ⟨_, rfl, hnd, fun n => by rw [← hmem]; simp only [List.mem_append, or_assoc]⟩

/-- A zone's record moved from one state to another, announced (R19). -/
theorem announce_agenda (s : State) (z : Fin 4) (old new : ZoneState) :
    ∃ given, (s.announce z old new).agenda = s.agenda ++ given ∧ given.Nodup ∧ ∀ n, n ∈ given ↔ noticeDue z old new n := by
  unfold announce
  split
  · next h =>
    refine ⟨[], by simp, by simp, fun n => ?_⟩
    subst h
    simp [noticeDue]
  · obtain ⟨given, h1, h2⟩ := zoneNotices_agenda (s.append .zoneState (some z) (some old.code) (some new.code)) z old new
    exact ⟨given, by rw [h1]; simp, h2⟩

/-- A zone's state that does not change gives no notice. -/
theorem notified_same {s u : State} {z : Fin 4} (h : (u.zones.get z).state = (s.zones.get z).state) (ha : u.agenda = s.agenda) :
    s.notified u z := by
  refine ⟨[], by simp [ha], by simp, fun n => ?_⟩
  rw [h]
  simp [noticeDue]

theorem notified_congr {s t u : State} {z : Fin 4} (hz : t.zones = s.zones) (ha : t.agenda = s.agenda) (h : t.notified u z) :
    s.notified u z := by
  unfold notified at h ⊢
  rw [hz, ha] at h
  exact h

/-- What a state's update announces: the notices from its zone's state before to the one after (R19). -/
theorem notified_announce {s x : State} {z : Fin 4} {new : ZoneState} (hx : x.agenda = s.agenda)
    (hn : ((x.announce z (s.zones.get z).state new).zones.get z).state = new) :
    s.notified (x.announce z (s.zones.get z).state new) z := by
  obtain ⟨given, h1, h2, h3⟩ := announce_agenda x z (s.zones.get z).state new
  exact ⟨given, by rw [h1, hx], h2, by rw [hn]; exact h3⟩

/-- A zone event gives the notices of the state it settles (R19). -/
theorem zoneEvent_notified (s : State) (z : Fin 4) (r : ZoneRec) (cs : Causes) (h : r.state = (s.zones.get z).state) :
    s.notified (s.zoneEvent z r cs) z := by
  have hs : ((s.zoneEvent z r cs).zones.get z).state = settleState r.state cs := by
    rw [zoneEvent_zones, Tab.get_set_self, moved]; split
    · assumption
    · rfl
  unfold zoneEvent at hs ⊢
  dsimp only at hs ⊢
  rw [h] at hs ⊢
  exact notified_announce (by simp) hs

/-- A move of a zone gives its notices (R19). -/
theorem zoneMove_notified (s : State) (z : Fin 4) (new : ZoneState) : s.notified (s.zoneMove z new) z := by
  have hs : ((s.zoneMove z new).zones.get z).state = new := by
    rw [zoneMove_zones, Tab.get_set_self, moved]; split
    · assumption
    · rfl
  unfold zoneMove at hs ⊢
  exact notified_announce (by simp) hs

/-- An acknowledge is what R20 says (R20 to R22). -/
theorem zoneAcknowledge_spec (s : State) (z : Fin 4) : s.acknowledged (s.zoneAcknowledge z) z := by
  have hz := zoneAcknowledge_zones s z
  generalize hn : acknowledgedState (s.zones.get z).state (ackCauses s z) = new at hz
  have hg : (s.zoneAcknowledge z).zones.get z =
      s.moved z { s.zones.get z with unack := false, peak := (s.zones.get z).reading, causes := ackCauses s z } new := by
    rw [hz, Tab.get_set_self]
  have hstate : ((s.zoneAcknowledge z).zones.get z).state = new := by
    rw [hg, moved]; split
    · next e => exact e
    · rfl
  have hcauses : ((s.zoneAcknowledge z).zones.get z).causes = ackCauses s z := by
    rw [hg, moved]; split <;> rfl
  have hcs : (if (s.zones.get z).causes.spill && s.zoneDry z then (s.zones.get z).causes.put .spill false
      else (s.zones.get z).causes) = ackCauses s z := by
    simp only [ackCauses]
    generalize (s.zones.get z).causes = c
    cases hd : s.zoneDry z <;> cases hs : c.spill <;> simp [Causes.put]
    rw [← hs]
  refine ⟨fun y hy => ?_, ?_, ?_, ?_, ?_, hcauses, ?_, ?_, ?_, ?_, ?_, ?_, ?_⟩
  · rw [hz, Tab.get_set_of_ne _ (Ne.symm hy)]
  · rw [hstate, hg, moved]; split
    · next e => simp only at e; simp [← e, isRise_self]
    · simp
  · rw [hg, moved]; split <;> rfl
  · rw [hg, moved]; split <;> rfl
  · rw [hg, moved]; split <;> rfl
  · intro hl hk
    rw [hcauses] at hk
    rw [hstate, ← hn, acknowledgedState, hl, hk]
    simp [settleState, hk]
  · intro hl hk hv
    rw [hcauses] at hk hv
    rw [hstate, ← hn, acknowledgedState, hl, hk, hv]
    simp
  · intro hl hk hv
    rw [hcauses] at hk hv
    have : new = .purge := by rw [← hn, acknowledgedState, hl, hk, hv]; simp
    refine ⟨hstate.trans this, ?_⟩
    rw [hg, moved, if_neg (by simp [hl, this])]
    simp [this]
  · intro hl
    rw [hstate, hcauses, ← hn, acknowledgedState]
    simp [hl]
  · rw [hstate, hg, moved]
    by_cases e : (s.zones.get z).state = new
    · simp [e]
    · simp [e, Ne.symm e]
  · unfold zoneAcknowledge at hstate ⊢
    simp only [hcs] at hstate ⊢
    rw [hn] at hstate ⊢
    exact notified_announce (by simp) hstate
  · unfold zoneSaid
    rw [hcauses, hstate]
    unfold zoneAcknowledge
    simp only [hcs]
    rw [hn, announce_log, logged_append (logCauses_log _ _ _ _) (by simp), append_logged]
    exact logged_congr (by simp) (by simp) _

/-- A restart of a refresh timer is what R11 says, and logs what it changes. -/
theorem refreshRestart_spec (s : State) (z : Fin 4) :
    s.refreshed (s.refreshRestart z) z ∧ (s.refreshRestart z).log = s.logged (s.zoneSaid (s.refreshRestart z) z) := by
  unfold refreshRestart refreshed
  by_cases hp : (s.cfg.zones.get z).refreshPeriod = 0
  · simp only [hp, if_true]
    exact ⟨⟨fun _ _ => rfl, notified_same rfl rfl, trivial⟩, by rw [zoneSaid_same rfl]; rfl⟩
  · simp only [hp, if_false, Timer.start]
    by_cases hh : (s.zones.get z).causes.hostLost = true
    · simp only [hh, if_true]
      exact ⟨⟨zoneEvent_others _ _ _ _, zoneEvent_notified _ _ _ _ rfl, zoneEvent_settled _ _ _ _ rfl⟩, zoneEvent_said _ _ _ _ rfl rfl⟩
    · simp only [hh]
      refine ⟨⟨fun y hy => by simp [Tab.get_set_of_ne _ (Ne.symm hy)], notified_same (by simp) (by simp), by simp⟩, ?_⟩
      unfold zoneSaid zoneRecords
      simp

/-! ## Reports to a zone -/

theorem gasZone_congr {s t u : State} {z : Fin 4} {m w : Bool} (hz : t.zones.get z = s.zones.get z) (hc : t.cfg = s.cfg)
    (h : t.gasZone u z m w) : s.gasZone u z m w := by
  unfold gasZone at h ⊢
  rw [hz, hc] at h
  exact h

theorem gasReported_congr {s t u : State} {z : Fin 4} {m w : Bool} (hz : t.zones = s.zones) (hc : t.cfg = s.cfg)
    (ha : t.agenda = s.agenda) (h : t.gasReported u z m w) : s.gasReported u z m w :=
  ⟨by have := h.1; unfold otherZones at this ⊢; rwa [hz] at this, gasZone_congr (by rw [hz]) hc h.2.1, notified_congr hz ha h.2.2⟩

theorem fanReported_congr {s t u : State} {z : Fin 4} (hz : t.zones = s.zones) (hc : t.cfg = s.cfg) (ha : t.agenda = s.agenda)
    (h : t.fanReported u z) : s.fanReported u z := by
  unfold fanReported otherZones notified at h ⊢
  rw [hz, hc, ha] at h
  exact h

theorem zoneSaid_congr {s t : State} (u : State) (z : Fin 4) (hz : t.zones = s.zones) : t.zoneSaid u z = s.zoneSaid u z := by
  simp [zoneSaid, hz]

/-- A channel event's report is what R37 says, and logs what it changes. -/
theorem gasReport_spec (s : State) (z : Fin 4) (moved warmed : Bool) :
    s.gasReported (s.gasReport z moved warmed) z moved warmed ∧
      (s.gasReport z moved warmed).log = s.logged (s.zoneSaid (s.gasReport z moved warmed) z) := by
  have hcfg : (s.gasReport z moved warmed).cfg = s.cfg := by
    unfold gasReport; extract_lets; split <;> simp
  have hr : (s.gasReport z moved warmed).gasReading z = s.gasReading z := by
    simp [gasReading, zoneChannels, hcfg]
  have hd : (s.gasReport z moved warmed).zoneReads z = s.zoneReads z := by
    simp [zoneReads, zoneChannels, channelState, hcfg]
  have hw : (s.gasReport z moved warmed).zoneWarm z = s.zoneWarm z := by
    simp [zoneWarm, zoneChannels, hcfg]
  have hc : (s.gasReport z moved warmed).zoneChannels z = s.zoneChannels z := by
    simp [zoneChannels, hcfg]
  unfold gasReported gasZone
  rw [hr, hd, hw, hc]
  clear hr hd hw hc hcfg
  unfold gasReport
  generalize s.gasReading z = reading
  by_cases hq : (moved || warmed || decide (reading ≠ (s.zones.get z).reading)) = true
  · simp only [hq, Bool.not_true, Bool.false_eq_true, if_false, if_true]
    refine ⟨⟨zoneEvent_others _ _ _ _, ?_, zoneEvent_notified _ _ _ _ (by split <;> rfl)⟩,
      zoneEvent_said _ _ _ _ (by split <;> rfl) (by split <;> rfl)⟩
    rw [zoneEvent_settled _ _ _ _ (by split <;> rfl)]
    congr 1
    · by_cases hf : reading = (s.zones.get z).reading
      · simp [hf]
      · simp [hf]
    · simp only [sensorLost]
      generalize (s.zones.get z).causes = c
      generalize s.zoneChannels z = chs
      obtain ⟨st, h1, h2, h3, sp, sl, hl, vu, ff, cf⟩ := c
      cases moved <;> cases warmed <;> cases st <;> cases s.zoneWarm z <;> cases s.zoneReads z <;> cases chs <;>
        by_cases hf : reading = (s.zones.get z).reading <;> simp_all [Causes.put, Causes.hydrogen]
  · simp only [Bool.not_eq_true] at hq
    simp only [hq, Bool.not_false, if_true]
    simp only [Bool.or_eq_false_iff, decide_eq_false_iff_not, not_not] at hq
    exact ⟨⟨fun _ _ => rfl, by simp, notified_same rfl rfl⟩, by rw [zoneSaid_same rfl]; rfl⟩

/-- A report to a zone leaves the transit path, the field inputs and the maintenance unit alone. -/
theorem gasReport_frame (s : State) (z : Fin 4) (m w : Bool) :
    s.samePath (s.gasReport z m w) ∧ s.sameField (s.gasReport z m w) ∧ (s.gasReport z m w).cfg = s.cfg ∧
      (s.gasReport z m w).maint = s.maint ∧ (s.gasReport z m w).time = s.time := by
  unfold gasReport; extract_lets
  split <;> simp [samePath, sameField]

/-- A channel's event at a used channel: its record, and the report to its zone (R37). -/
theorem chanEvent_used {s : State} {c : Fin 8} {z : Fin 4} (h : (s.cfg.channels.get c).zone = some z) (r : ChanRec) (w : Bool) :
    let u := s.chanEvent c r w
    u.chans = s.chans.set c r ∧ s.samePath u ∧ u.scan = s.scan ∧ u.spills = s.spills ∧ u.tachs = s.tachs ∧ u.cfg = s.cfg ∧
      u.maint = s.maint ∧ s.gasReported u z (decide (s.channelState c ≠ u.channelState c)) w ∧ u.log = s.logged (s.zoneSaid u z) := by
  have he : s.chanEvent c r w =
      (s.setChan c r).gasReport z (decide (s.channelState c ≠ (s.setChan c r).channelState c)) w := by
    unfold chanEvent; rw [h]
  intro u
  obtain ⟨⟨p1, p2, p3, p4, p5, p6, p7, p8, p9, p10, p11, p12, p13⟩, ⟨f1, f2, f3, f4, f5⟩, hc, hm, ht⟩ :=
    gasReport_frame (s.setChan c r) z (decide (s.channelState c ≠ (s.setChan c r).channelState c)) w
  obtain ⟨hr, hl⟩ := gasReport_spec (s.setChan c r) z (decide (s.channelState c ≠ (s.setChan c r).channelState c)) w
  rw [← he] at p1 p2 p3 p4 p5 p6 p7 p8 p9 p10 p11 p12 p13 f1 f2 f3 f4 f5 hc hm ht hr hl
  have hst : (s.setChan c r).channelState c = u.channelState c := by
    unfold channelState; rw [show u.cfg = _ from hc, show u.chans = _ from f1]
  rw [hst] at hr
  exact ⟨f1, ⟨p1, p2, p3, p4, p5, p6, p7, p8, p9, p10, p11, p12, p13⟩, f2, f3, f4, hc, hm, gasReported_congr rfl rfl rfl hr, hl⟩

/-- A channel's event at an unused channel: its record alone. -/
theorem chanEvent_unused {s : State} {c : Fin 8} (h : (s.cfg.channels.get c).zone = none) (r : ChanRec) (w : Bool) :
    s.chanEvent c r w = s.setChan c r := by
  unfold chanEvent; rw [h]

/-- A channel's own record, if any, then its event: what the channel unit's operations come to (R37, R40). -/
theorem chanEvent_after (s : State) (ch : Fin 8) (r : ChanRec) (w : Bool) (own : List LogEntry) (x : State) (hx : x.log = s.logged own)
    (hz : x.zones = s.zones) (hc : x.cfg = s.cfg) (hch : x.chans = s.chans) (hsp : x.spills = s.spills) (ht : x.tachs = s.tachs)
    (hp : s.samePath x) (htm : x.time = s.time) (hm : x.maint = s.maint) (hscan : x.scan = s.scan) (ha : x.agenda = s.agenda) :
    let u := x.chanEvent ch r w
    u.chans = s.chans.set ch r ∧ u.scan = s.scan ∧ u.spills = s.spills ∧ u.tachs = s.tachs ∧ s.samePath u ∧ u.cfg = s.cfg ∧ u.maint = s.maint ∧
      ((s.cfg.channels.get ch).zone = none → u.zones = s.zones ∧ u.log = s.logged own) ∧
      ∀ z, (s.cfg.channels.get ch).zone = some z →
        s.gasReported u z (decide (s.channelState ch ≠ u.channelState ch)) w ∧ u.log = s.logged (own ++ s.zoneSaid u z) := by
  intro u
  cases hzone : (s.cfg.channels.get ch).zone with
  | none =>
    have he : u = x.setChan ch r := chanEvent_unused (by rw [hc]; exact hzone) r w
    rw [he]
    refine ⟨by simp [hch], by simp [hscan], by simp [hsp], by simp [ht], ?_, by simp [hc], by simp [hm], fun _ => ⟨by simp [hz], by simp [hx]⟩, fun z hz => by simp at hz⟩
    simpa [samePath] using hp
  | some z =>
    obtain ⟨h1, ⟨p1, p2, p3, p4, p5, p6, p7, p8, p9, p10, p11, p12, p13⟩, h3, h4, h5, h6, hmm, h7, h8⟩ := chanEvent_used (s := x) (c := ch) (by rw [hc]; exact hzone) r w
    obtain ⟨q1, q2, q3, q4, q5, q6, q7, q8, q9, q10, q11, q12, q13⟩ := hp
    refine ⟨by rw [← hch]; exact h1, by rw [← hscan]; exact h3, by rw [← hsp]; exact h4, by rw [← ht]; exact h5, ?_, h6.trans hc, hmm.trans hm, fun h => by simp at h, ?_⟩
    · exact ⟨p1.trans q1, p2.trans q2, p3.trans q3, p4.trans q4, p5.trans q5, p6.trans q6, p7.trans q7, p8.trans q8, p9.trans q9, p10.trans q10,
        p11.trans q11, p12.trans q12, p13.trans q13⟩
    · intro y hy
      cases hy
      have : x.channelState ch = s.channelState ch := by unfold channelState; rw [hc, hch]
      rw [this] at h7
      refine ⟨gasReported_congr hz hc ha h7, ?_⟩
      rw [show u.log = _ from h8, logged_append hx (by rw [htm])]
      rw [zoneSaid_congr u z hz]


/-- A good sample (R28, R29, R33, R34). -/
theorem goodSample_spec (r : ChanRec) (v : Nat) :
    let n := (goodSample r v).1
    (goodSample r v).2 = decide (r.sample = .fault ∧ r.good = 9 ∧ r.warm = true) ∧ n.raw = r.raw ∧ n.test = r.test ∧ n.timer = r.timer ∧
      n.warm = r.warm ∧ n.bad = 0 ∧ n.good = min 10 (r.good + 1) ∧
      (r.sample = .live → n.sample = .live ∧ n.filter = (if r.filter.length < 4 then r.filter else r.filter.drop 1) ++ [v]) ∧
      (r.sample = .warmup → n.sample = .warmup ∧ n.filter = r.filter) ∧
      (r.sample = .fault → r.good ≠ 9 → n.sample = .fault ∧ n.filter = r.filter) ∧
      (r.sample = .fault → r.good = 9 → r.warm = true → n.sample = .live ∧ n.filter = [v]) ∧
      (r.sample = .fault → r.good = 9 → r.warm = false → n.sample = .warmup ∧ n.filter = []) := by
  intro n
  have hg9 : (decide (r.good < 10) && decide (min 10 (r.good + 1) = 10)) = decide (r.good = 9) := by
    by_cases h : r.good = 9
    · simp [h]
    · simp [h]; omega
  have hf : filterPush r.filter v = (if r.filter.length < 4 then r.filter else r.filter.drop 1) ++ [v] := by
    unfold filterPush; by_cases h : 4 ≤ r.filter.length
    · rw [if_pos h, if_neg (by omega)]
    · rw [if_neg h, if_pos (by omega)]
  simp only [n, goodSample, hg9, hf]
  cases hs : r.sample <;> simp
  by_cases h9 : r.good = 9 <;> simp [h9]
  cases hw : r.warm <;> simp

/-- A bad sample (R28, R32, R33). -/
theorem badSample_spec (r : ChanRec) :
    let n := (badSample r).1
    (badSample r).2 = decide (r.sample ≠ .fault ∧ r.bad = 2) ∧ n.raw = r.raw ∧ n.test = r.test ∧ n.timer = r.timer ∧
      n.warm = r.warm ∧ n.good = 0 ∧ n.bad = min 3 (r.bad + 1) ∧
      (r.sample ≠ .fault → r.bad = 2 → n.sample = .fault ∧ n.filter = []) ∧
      (r.sample = .fault ∨ r.bad ≠ 2 → n.sample = r.sample ∧ n.filter = r.filter) := by
  intro n
  have hb : (decide (r.sample ≠ .fault) && decide (r.bad < 3) && decide (min 3 (r.bad + 1) = 3)) = decide (r.sample ≠ .fault ∧ r.bad = 2) := by
    by_cases h : r.bad = 2
    · simp [h]
    · by_cases h' : r.sample = .fault <;> simp [h, h']; omega
  simp only [n, badSample, hb]
  by_cases h : r.sample ≠ .fault ∧ r.bad = 2
  · simp [h]
  · simp [h]; intro h1 h2; exact absurd ⟨h1, h2⟩ h

/-- The fan proof unit's report is what R12 says, and logs what it changes. -/
theorem fanReport_spec (s : State) (z : Fin 4) :
    s.fanReported (s.fanReport z) z ∧ (s.fanReport z).log = s.logged (s.zoneSaid (s.fanReport z) z) := by
  have ht : ((s.fanReport z).zoneTachs z).map (s.fanReport z).tachs.get = (s.zoneTachs z).map s.tachs.get := by
    simp [fanReport, zoneTachs, tachZone]
  unfold fanReported
  rw [ht]
  refine ⟨⟨zoneEvent_others _ _ _ _, zoneEvent_notified _ _ _ _ rfl, s.fanCauses z (s.zones.get z).causes, zoneEvent_settled _ _ _ _ rfl, ?_⟩,
    zoneEvent_said _ _ _ _ rfl rfl⟩
  unfold fanCauses
  generalize (s.zones.get z).causes = c
  generalize (List.filter TachRec.required (List.map s.tachs.get (s.zoneTachs z))) = l
  refine ⟨rfl, ?_, ?_, ?_, ?_⟩
  · simp [Causes.put]
  · rintro (h | h)
    · simp only [Causes.put, Bool.or_eq_true, List.any_eq_true, beq_iff_eq]
      rw [if_pos (Or.inl h)]
    · simp [Causes.put, h]
  · intro hn hf
    cases l with
    | nil => exact absurd rfl hn
    | cons r l =>
      have h1 : ((r :: l).any fun r => r.state == .proven) = false := by
        rw [List.any_eq_false]; intro x hx; simp [hf x hx]
      have h2 : ((r :: l).all fun r => r.state == .failed) = true := by
        rw [List.all_eq_true]; intro x hx; simp [hf x hx]
      simp only [Causes.put, h1, h2, List.isEmpty_cons, Bool.or_false, Bool.false_eq_true, if_false, if_true]
  · rintro hn hp ⟨x, hx, hxs⟩
    cases l with
    | nil => exact absurd rfl hn
    | cons r l =>
      have h1 : ((r :: l).any fun r => r.state == .proven) = false := by
        rw [List.any_eq_false]; intro x hx; simp [hp x hx]
      have h2 : ((r :: l).all fun r => r.state == .failed) = false := by
        rw [List.all_eq_false]; exact ⟨x, hx, by simp [hxs]⟩
      simp only [Causes.put, h1, h2, List.isEmpty_cons, Bool.or_false, Bool.false_eq_true, if_false]

theorem tachRequired_congr {s t : State} (hc : t.cfg = s.cfg) (hf : t.force = s.force) (hz : t.zones = s.zones) (i) :
    t.tachRequired i = s.tachRequired i := by
  unfold tachRequired tachZone; rw [hc, hf, hz]

theorem requireStep_idem (cfg r) (b : Bool) : requireStep cfg (requireStep cfg r b) b = requireStep cfg r b := by
  cases b <;> cases h : r.required <;> by_cases hi : r.state = .idle <;> simp [requireStep, h, hi]

/-- The required conditions evaluated anew are what R50, R51 and R55 say. -/
theorem fanRecompute_spec (s : State) (z : Fin 4) (ts : List (Fin 8)) : s.requiredAnew (s.fanRecompute z ts) z ts := by
  have hfold : ∀ (l : List (Fin 8)) (x : State), x.cfg = s.cfg → x.force = s.force → x.zones = s.zones → x.log = s.log → x.time = s.time →
      x.agenda = s.agenda →
      let y := l.foldl (fun s t => s.setTach t (requireStep (s.cfg.tachs.get t) (s.tachs.get t) (s.tachRequired t))) x
      y.cfg = s.cfg ∧ y.force = s.force ∧ y.zones = s.zones ∧ y.log = s.log ∧ y.time = s.time ∧ y.agenda = s.agenda ∧
        ∀ i, y.tachs.get i = if i ∈ l then requireStep (s.cfg.tachs.get i) (x.tachs.get i) (s.tachRequired i) else x.tachs.get i := by
    intro l
    induction l with
    | nil => intro x h1 h2 h3 h4 h5 ha; exact ⟨h1, h2, h3, h4, h5, ha, fun i => by simp⟩
    | cons t l ih =>
      intro x h1 h2 h3 h4 h5 ha
      obtain ⟨k1, k2, k3, k4, k5, ka, k6⟩ :=
        ih (x.setTach t (requireStep (x.cfg.tachs.get t) (x.tachs.get t) (x.tachRequired t))) h1 h2 h3 h4 h5 ha
      refine ⟨k1, k2, k3, k4, k5, ka, fun i => ?_⟩
      rw [List.foldl_cons, k6]
      rw [tachRequired_congr h1 h2 h3, h1]
      by_cases hit : t = i
      · subst hit
        simp [requireStep_idem]
      · simp [Tab.get_set_of_ne _ hit, Ne.symm hit]
  obtain ⟨k1, k2, k3, k4, k5, ka, k6⟩ := hfold ts s rfl rfl rfl rfl rfl rfl
  unfold fanRecompute requiredAnew
  extract_lets ch y
  have hch : ch = true ↔ ∃ i ∈ ts, s.tachRequired i ≠ (s.tachs.get i).required := by
    simp [ch, List.any_eq_true]
  by_cases hc : ch = true
  · rw [if_pos hc]
    refine ⟨fun i => ?_, fun h => ?_, fun _ => ?_⟩
    · rw [← k6]; simp [fanReport, y]
    · obtain ⟨i, hi, hne⟩ := hch.mp hc; exact absurd (h i hi) hne
    · obtain ⟨a, b⟩ := fanReport_spec y z
      refine ⟨fanReported_congr k3 k1 ka a, ?_⟩
      rw [b, zoneSaid_congr _ _ k3]
      exact logged_congr k4 (by rw [k5]) _
  · rw [if_neg hc]
    refine ⟨k6, fun _ => ⟨k3, k4, ka⟩, fun h => absurd (hch.mpr h) hc⟩

/-- A tach's event at its zone and in the log (R54, R55). -/
theorem tachEvent_spec (s : State) (i : Fin 8) (r : TachRec) (lg : Option FanLog) (hl : lg ≠ none → (s.tachs.get i).state ≠ r.state) :
    let u := s.tachEvent i r lg
    let own : List LogEntry := match lg with
      | none => []
      | some .failed => [{ kind := .fanFailed, zone := s.tachZone i, subject := some i.val, value := r.speed }]
      | some .proven => [{ kind := .fanProven, zone := s.tachZone i, subject := some i.val, value := r.speed }]
    (r.state = (s.tachs.get i).state ∨ s.tachZone i = none → u.zones = s.zones ∧ u.log = s.logged own) ∧
         ∀ z, s.tachZone i = some z → r.state ≠ (s.tachs.get i).state →
           s.fanReported u z ∧ u.log = s.logged (own ++ s.zoneSaid u z) := by
  intro u own
  have hx : ∃ x : State, x.zones = s.zones ∧ x.cfg = s.cfg ∧ x.log = s.logged own ∧ x.time = s.time ∧ x.agenda = s.agenda ∧
      u = match s.tachZone i with
        | some z => if (s.tachs.get i).state ≠ r.state then x.fanReport z else x
        | none => x := by
    refine ⟨(match lg with
    | some .failed => (s.setTach i r).append .fanFailed (s.tachZone i) (some i.val) r.speed
    | some .proven => (s.setTach i r).append .fanProven (s.tachZone i) (some i.val) r.speed
    | none => s.setTach i r), ?_, ?_, ?_, ?_, ?_, ?_⟩
    · cases lg with
      | none => simp
      | some k => cases k <;> simp
    · cases lg with
      | none => simp
      | some k => cases k <;> simp
    · cases lg with
      | none => simp [own]
      | some k => cases k <;> simp [own, append_log, logged]
    · cases lg with
      | none => simp
      | some k => cases k <;> simp
    · cases lg with
      | none => simp
      | some k => cases k <;> simp
    · show s.tachEvent i r lg = _
      unfold tachEvent
      simp only [decide_eq_true_eq]
      cases lg with
      | none => rfl
      | some k => cases k <;> rfl
  obtain ⟨x, h1, h2, h3, h4, ha, h5⟩ := hx
  refine ⟨fun h => ?_, fun z hz hne => ?_⟩
  · have : u = x := by
      rw [h5]; rcases h with h | h
      · split
        · rw [if_neg (by simp [h])]
        · rfl
      · rw [h]
    rw [this]; exact ⟨h1, h3⟩
  · have : u = x.fanReport z := by rw [h5, hz]; simp [Ne.symm hne]
    rw [this]
    obtain ⟨a, b⟩ := fanReport_spec x z
    refine ⟨fanReported_congr h1 h2 ha a, ?_⟩
    rw [b, zoneSaid_congr _ _ h1, logged_append h3 (by rw [h4])]

end Sys2Proof.Machine
end

