-- ==== Sys2Proof/Laws/Verdicts.lean ====
section
/-!
SUPPORT. What a verdict carried out, an observation taken, a lookup of the checker or the force engine, and a fill read's completion
come to, in the terms of the statements.
-/
namespace Sys2Proof.Machine.State

/-! ## Observations (R67, R68) -/

theorem acknowledged_congr {s t u : State} {z : Fin 4} (hz : t.zones = s.zones) (hc : t.cfg = s.cfg) (hs : t.spills = s.spills)
    (hl : t.log = s.log) (ht : t.time = s.time) (ha : t.agenda = s.agenda)
    (h : t.acknowledged u z) : s.acknowledged u z := by
  unfold acknowledged otherZones notified zoneSaid zoneDry at h ⊢
  have hlg : ∀ es, t.logged es = s.logged es := fun es => logged_congr hl (by rw [ht]) es
  simp only [hz, hc, hs, ha, hlg] at h
  exact h

/-- An observation is what R67 and R68 say. -/
theorem observe_spec (s x : State) (w : Option Observation) (hz : x.zones = s.zones) (hc : x.cfg = s.cfg) (hs : x.spills = s.spills)
    (hl : x.log = s.log) (ht : x.time = s.time) (ha : x.agenda = s.agenda) : s.observed (x.observe w) w := by
  have hlg : ∀ es, x.logged es = s.logged es := fun es => logged_congr hl (by rw [ht]) es
  rcases w with _ | z | z | q
  · exact ⟨hz, hl⟩
  · exact acknowledged_congr hz hc hs hl ht ha (zoneAcknowledge_spec x z)
  · obtain ⟨h1, h2⟩ := refreshRestart_spec x z
    refine ⟨?_, ?_⟩
    · unfold refreshed otherZones notified at h1 ⊢
      rw [hz, hc, ha] at h1
      exact h1
    · rw [zoneSaid_congr _ _ hz, hlg] at h2; exact h2
  · refine ⟨?_, ?_⟩
    · show (x.logClear q).zones = _; unfold logClear; dsimp only; simp [hz]
    · show (x.logClear q).log = _; unfold logClear; dsimp only; simp [hl]

/-- An observation touches the zones and the log alone. -/
theorem observe_frame (x : State) (w : Option Observation) : (x.observe w).hold = x.hold ∧ (x.observe w).force = x.force ∧
   (x.observe w).posted = x.posted ∧ (x.observe w).waiting = x.waiting ∧ (x.observe w).responses = x.responses ∧ (x.observe w).upstream = x.upstream
   ∧ (x.observe w).store = x.store ∧ x.sameField (x.observe w) ∧ (x.observe w).sweep = x.sweep ∧ (x.observe w).requests = x.requests := by
  rcases w with _ | z | z | q
  · exact ⟨rfl, rfl, rfl, rfl, rfl, rfl, rfl, ⟨rfl, rfl, rfl, rfl, rfl⟩, rfl, rfl⟩
  · simp [observe, sameField]
  · simp [observe, sameField]
  · simp only [observe]; unfold logClear; dsimp only; simp [sameField]

/-! ## Verdicts (R84 to R94) -/

/-- What a verdict does to the queues and to the host (R90 to R93). -/
def carriedOut (s u : State) (a : Addr) (v : Half) (z : Fin 4) (p : Fin 8) (style : Style) (d : Verdict) : Prop :=
  match d with
    | .pass v' =>
      u.hold = s.hold.filter (fun h => h.cell != a) ∧
        ((s.posted.length < 8 ∧ s.waiting.filter (fun q => !q.isHoldOf a) = []) →
          u.posted = (s.posted ++ [{ addr := a, width := .w2, data := cellData v', origin := .host, checked := true,
                                               zone := some z, inFlight := false, ahead := false }]) ∧
            u.responses = s.responses ++ [{ kind := if v' = v then .done else .altered, data := none }] ∧ u.upstream = .idle) ∧
        (¬(s.posted.length < 8 ∧ s.waiting.filter (fun q => !q.isHoldOf a) = []) →
          u.posted = s.posted ∧ u.responses = s.responses ∧ u.upstream = .placing ∧
            u.waiting = s.waiting.filter (fun q => !q.isHoldOf a) ++
              [{ source := .host (if v' = v then .done else .altered) none, addr := a, width := .w2, data := cellData v',
                 checked := true, zone := some z }])
    | .kept =>
      u.posted = s.posted ∧ u.hold = s.hold ∧ u.responses = s.responses ++ [{ kind := .held, data := none }] ∧
        u.upstream = .idle
    | .held =>
      u.posted = s.posted ∧ u.responses = s.responses ++ [{ kind := .held, data := none }] ∧ u.upstream = .idle ∧
        u.hold = s.hold.filter (fun h => h.cell != a) ++
          [{ cell := a, value := v, zone := z, profile := p, origin := .host, entered := s.time.seconds,
             expiry := s.time.seconds + (s.cfg.profiles.get p).holdLimit, releasing := false }]
    | .full | .refused =>
      u.posted = s.posted ∧ u.hold = s.hold ∧ u.upstream = .idle ∧
        u.responses = s.responses ++ [{ kind := match style with | .report => .refused | .absorb => .done, data := none }]

/-- What carrying out a verdict comes to. -/
structure Carried (s u : State) (a : Addr) (v : Half) (z : Fin 4) (p : Fin 8) (style : Style) (d : Verdict) : Prop where
  last : d.setsRequest = true → ∀ e f, s.forceOn a = some (e, f) → (u.force.get e).last = some v
  zones : u.zones = s.zones
  cfg : u.cfg = s.cfg
  time : u.time = s.time
  agenda : u.agenda = s.agenda
  checker : u.checker = s.checker
  claims : u.store.checkerClaim = s.store.checkerClaim
  log : u.log = s.logged (verdictSaid a v z style d)
  rest : s.carriedOut u a v z p style d

theorem keepRequest_frame (s : State) (a : Addr) (v : Half) :
   (s.keepRequest a v).zones = s.zones ∧ (s.keepRequest a v).cfg = s.cfg ∧ (s.keepRequest a v).time = s.time ∧
   (s.keepRequest a v).agenda = s.agenda ∧ (s.keepRequest a v).checker = s.checker ∧ (s.keepRequest a v).store = s.store ∧
   (s.keepRequest a v).log = s.log ∧ (s.keepRequest a v).hold = s.hold ∧ (s.keepRequest a v).waiting = s.waiting ∧
   (s.keepRequest a v).posted = s.posted ∧ (s.keepRequest a v).responses = s.responses ∧ (s.keepRequest a v).upstream = s.upstream := by
  unfold keepRequest; split <;> simp

theorem keepRequest_last (s : State) (a : Addr) (v : Half) (e f) (h : s.forceOn a = some (e, f)) :
    ((s.keepRequest a v).force.get e).last = some v := by
  unfold keepRequest; rw [h]; simp

/-- A refusal answers by the style and logs (R65). -/
theorem refuse_spec (s : State) (style : Style) (z) (a : Addr) (v : Half) :
   let u := s.refuse style z a v
   u.zones = s.zones ∧ u.cfg = s.cfg ∧ u.time = s.time ∧ u.agenda = s.agenda ∧ u.checker = s.checker ∧ u.store = s.store ∧
   u.hold = s.hold ∧ u.posted = s.posted ∧ u.force = s.force ∧ u.upstream = .idle ∧
   u.responses = s.responses ++ [{ kind := match style with | .report => .refused | .absorb => .done, data := none }] ∧
   u.log = s.logged [refusalSaid style z a v] := by
  unfold refuse
  cases style
  all_goals
    simp only
    refine ⟨by simp, by simp, by simp, by simp, by simp, by simp, by simp, by simp, by simp, by simp, by simp, ?_⟩
    rw [show ∀ (x : State) k d, (x.answerHost k d).log = x.log from fun x k d => by simp, append_logged_nil]; rfl

/-- Carrying out a verdict is what R89 to R93 say. -/
theorem carryOut_spec (s : State) (a : Addr) (v : Half) (z : Fin 4) (p : Fin 8) (style : Style) (d : Verdict) :
    Carried s (s.carryOut a v z p style d) a v z p style d := by
  obtain ⟨k1, k2, k3, k4, k5, k6, k7, k8, k9, k10, k11, k12⟩ := keepRequest_frame s a v
  unfold carryOut
  cases d with
  | kept =>
    simp only [Verdict.setsRequest, if_true]
    exact ⟨fun _ e f h => by simpa using keepRequest_last s a v e f h, by simp [k1], by simp [k2], by simp [k3], by simp [k4],
      by simp [k5], by simp [k6], by simp [k7, verdictSaid],
      by unfold carriedOut; simp [k8, k10, k11]⟩
  | refused =>
    simp only [Verdict.setsRequest, Bool.false_eq_true, if_false]
    obtain ⟨h1, h2, h3, h4, h5, h6, h7, h8, h9, h10, h11, h12⟩ := refuse_spec s style (some z) a v
    exact ⟨fun h => by simp [Verdict.setsRequest] at h, h1, h2, h3, h4, h5, by rw [h6], h12, h8, h7, h10, by rw [h11]⟩
  | full =>
    simp only [Verdict.setsRequest, Bool.false_eq_true, if_false]
    obtain ⟨h1, h2, h3, h4, h5, h6, h7, h8, h9, h10, h11,
      h12⟩ := refuse_spec (s.append .holdFull (some z) (some a.toNat) (some v.toNat)) style (some z) a v
    refine ⟨fun h => by simp [Verdict.setsRequest] at h, by simp [h1], by simp [h2], by simp [h3], by simp [h4], by simp [h5],
      by simp [h6], ?_, by simp [h8], by simp [h7], by simp [h10], by rw [h11]; simp⟩
    rw [h12, append_logged]; rfl
  | held =>
    simp only [Verdict.setsRequest, Bool.false_eq_true, if_false]
    refine ⟨fun h => by simp [Verdict.setsRequest] at h, ?_, ?_, ?_, ?_, ?_, ?_, ?_, ?_⟩
    all_goals try (simp [joinHold, carriedOut]; done)
    rw [show ∀ (x : State) k d, (x.answerHost k d).log = x.log from fun x k d => by simp]
    unfold joinHold
    rw [append_logged_nil]
    exact logged_congr (by simp) (by simp) _
  | pass v' =>
    simp only [Verdict.setsRequest, if_true]
    generalize hx : s.keepRequest a v = x at *
    have hw : (x.dropHold a).waiting = s.waiting.filter (fun q => !q.isHoldOf a) := by simp [dropHold, k9]
    have hpo : (x.dropHold a).posted = s.posted := by simp [dropHold, k10]
    have hh : (x.dropHold a).hold = s.hold.filter (fun h => h.cell != a) := by simp [dropHold, k8]
    have hd : (x.dropHold a).zones = s.zones ∧ (x.dropHold a).cfg = s.cfg ∧ (x.dropHold a).time = s.time ∧ (x.dropHold a).agenda = s.agenda ∧
       (x.dropHold a).checker = s.checker ∧ (x.dropHold a).store = s.store ∧ (x.dropHold a).log = s.log ∧ (x.dropHold a).responses = s.responses ∧
       (x.dropHold a).force = x.force := by simp [dropHold, *]
    obtain ⟨d1, d2, d3, d4, d5, d6, d7, d8, d9⟩ := hd
    generalize x.dropHold a = y at *
    unfold place
    by_cases hr : s.posted.length < 8 ∧ s.waiting.filter (fun q => !q.isHoldOf a) = []
    · rw [if_pos (by simpa [hw, hpo] using hr)]
      unfold State.enter
      dsimp only
      refine ⟨fun _ e f h => ?_, ?_, ?_, ?_, ?_, ?_, ?_, ?_, ?_, ?_, ?_⟩
      · have := keepRequest_last s a v e f h; rw [hx, ← d9] at this; simpa [observe] using this
      · simp [observe, d1]
      · simp [observe, d2]
      · simp [observe, d3]
      · simp [observe, d4]
      · simp [observe, d5]
      · simp [observe, d6]
      · simp [observe, d7, verdictSaid]
      · simp [observe, hh]
      · intro _; simp [observe, hpo, d8]
      · intro h; exact absurd hr h
    · rw [if_neg (by simpa [hw, hpo] using hr)]
      refine ⟨fun _ e f h => ?_, d1, d2, d3, d4, d5, by show y.store.checkerClaim = _; rw [d6], d7, hh, fun h => absurd h hr,
        fun _ => ⟨hpo, d8, rfl, ?_⟩⟩
      · have := keepRequest_last s a v e f h; rw [hx, ← d9] at this; exact this
      · show y.waiting ++ _ = _; rw [hw]

/-- The queues and the host after a verdict, said of a later state that agrees on them. -/
theorem verdictTaken_of {s u x : State} {a : Addr} {v : Half} {z : Fin 4} {p : Fin 8} {style : Style} {d : Verdict}
    (hlast : d.setsRequest = true → ∀ e f, s.forceOn a = some (e, f) → (u.force.get e).last = some v) (hr : s.refreshed u z)
    (hl : u.log = s.logged (verdictSaid a v z style d ++ s.zoneSaid u z) ∨
      u.log = s.logged (s.zoneSaid u z ++ verdictSaid a v z style d))
    (hx : s.carriedOut x a v z p style d) (h1 : u.posted = x.posted) (h2 : u.responses = x.responses)
    (h3 : u.upstream = x.upstream) (h4 : u.hold = x.hold) (h5 : u.waiting = x.waiting) : s.verdictTaken u a v z p style d := by
  unfold carriedOut at hx
  refine ⟨hlast, hr, hl, ?_⟩
  cases d with
  | pass v' =>
    dsimp only at hx ⊢
    obtain ⟨r1, r2, r3⟩ := hx
    refine ⟨h4.trans r1, fun h => ?_, fun h => ?_⟩
    · obtain ⟨q1, q2, q3⟩ := r2 h
      exact ⟨by rw [h1, q1]; rfl, h2.trans q2, h3.trans q3⟩
    · obtain ⟨q1, q2, q3, q4⟩ := r3 h
      exact ⟨by rw [h1, q1]; rfl, h2.trans q2, h3.trans q3, h5.trans q4⟩
  | kept | held | full | refused =>
    dsimp only at hx ⊢
    rw [h1, h2, h3, h4]
    exact ⟨by rw [hx.1]; rfl, by cases style <;> exact hx.2⟩

theorem refreshed_congr {s t u : State} {z : Fin 4} (hz : t.zones = s.zones) (hc : t.cfg = s.cfg) (ha : t.agenda = s.agenda)
    (h : t.refreshed u z) : s.refreshed u z := by
  unfold refreshed otherZones notified at h ⊢
  rw [hz, hc, ha] at h
  exact h

/-- Two states that agree on what a verdict looks at. -/
structure Alike (s t : State) : Prop where
  zones : t.zones = s.zones
  cfg : t.cfg = s.cfg
  log : t.log = s.log
  time : t.time = s.time
  hold : t.hold = s.hold
  posted : t.posted = s.posted
  waiting : t.waiting = s.waiting
  responses : t.responses = s.responses
  force : t.force = s.force
  agenda : t.agenda = s.agenda

theorem Alike.trans {s t u : State} (h : Alike s t) (k : Alike t u) : Alike s u :=
  ⟨k.zones.trans h.zones, k.cfg.trans h.cfg, k.log.trans h.log, k.time.trans h.time, k.hold.trans h.hold, k.posted.trans h.posted,
    k.waiting.trans h.waiting, k.responses.trans h.responses, k.force.trans h.force, k.agenda.trans h.agenda⟩

theorem judge_congr {s t : State} (h : Alike s t) (a : Addr) (v : Half) (z : Fin 4) (p : Fin 8) (n : Option Half) :
    t.judge a v z p n = s.judge a v z p n := by
  unfold judge forceStep forceOn holdOf zoneLevel
  rw [h.cfg, h.force, h.hold, h.zones]

theorem queued_congr {s t : State} (h : t.posted = s.posted) : t.queued = s.queued := by
  funext a; unfold queued; rw [h]

theorem carriedOut_congr {s t u : State} (h : Alike s t) {a : Addr} {v : Half} {z : Fin 4} {p : Fin 8} {style : Style} {d : Verdict}
    (k : t.carriedOut u a v z p style d) : s.carriedOut u a v z p style d := by
  unfold carriedOut at k ⊢
  rw [h.hold, h.posted, h.waiting, h.responses, h.time, h.cfg] at k
  exact k

/-- The verdict's effect, then the restart of the refresh timer (R94). -/
theorem carryOut_refresh {s t : State} (h : Alike s t) (a : Addr) (v : Half) (z : Fin 4) (p : Fin 8) (style : Style) (d : Verdict) :
    s.verdictTaken ((t.carryOut a v z p style d).refreshRestart z) a v z p style d ∧
      ((t.carryOut a v z p style d).refreshRestart z).checker = t.checker ∧
      ((t.carryOut a v z p style d).refreshRestart z).store.checkerClaim = t.store.checkerClaim := by
  have C := carryOut_spec t a v z p style d
  have hfo : t.forceOn a = s.forceOn a := by unfold forceOn; rw [h.cfg, h.force]
  have hl : (t.carryOut a v z p style d).log = s.logged (verdictSaid a v z style d) := by
    rw [C.log]; exact logged_congr h.log (by rw [h.time]) _
  obtain ⟨R1, R2⟩ := refreshRestart_spec (t.carryOut a v z p style d) z
  have hz : (t.carryOut a v z p style d).zones = s.zones := C.zones.trans h.zones
  refine ⟨verdictTaken_of ?_ (refreshed_congr hz (C.cfg.trans h.cfg) (C.agenda.trans h.agenda) R1) (Or.inl ?_) (carriedOut_congr h C.rest) (by simp) (by simp)
    (by simp) (by simp) (by simp), by simp [C.checker], by simp [C.claims]⟩
  · intro hd e f hf
    simpa using C.last hd e f (by rw [hfo]; exact hf)
  · rw [R2, logged_append hl (by rw [C.time, h.time]), zoneSaid_congr _ _ hz]

/-- The restart of the refresh timer, then the verdict's effect (R94). -/
theorem refresh_carryOut {s t : State} (h : Alike s t) (a : Addr) (v : Half) (z : Fin 4) (p : Fin 8) (style : Style) (d : Verdict) :
    s.verdictTaken ((t.refreshRestart z).carryOut a v z p style d) a v z p style d ∧
      ((t.refreshRestart z).carryOut a v z p style d).checker = t.checker ∧
      ((t.refreshRestart z).carryOut a v z p style d).store.checkerClaim = t.store.checkerClaim := by
  obtain ⟨R1, R2⟩ := refreshRestart_spec t z
  have C := carryOut_spec (t.refreshRestart z) a v z p style d
  have hfo : (t.refreshRestart z).forceOn a = s.forceOn a := by unfold forceOn; simp [h.cfg, h.force]
  have hre : s.refreshed ((t.refreshRestart z).carryOut a v z p style d) z := by
    have := refreshed_congr h.zones h.cfg h.agenda R1
    unfold refreshed otherZones notified at this ⊢
    rw [C.zones, C.agenda]
    exact this
  have hrest : s.carriedOut ((t.refreshRestart z).carryOut a v z p style d) a v z p style d := by
    have := C.rest
    unfold carriedOut at this ⊢
    simp only [refreshRestart_frame, h.hold, h.posted, h.waiting, h.responses, h.time, h.cfg] at this
    exact this
  refine ⟨verdictTaken_of (fun hd e f hf => C.last hd e f (by rw [hfo]; exact hf)) hre (Or.inr ?_) hrest rfl rfl rfl rfl rfl,
    by simp [C.checker], by simp [C.claims]⟩
  rw [C.log, logged_append R2 (by simp), logged_congr h.log (by rw [h.time]) _]
  congr 2
  unfold zoneSaid
  rw [C.zones, h.zones]

/-- A verdict is what R84 to R94 say, in the order the step takes (log 8), of any state that agrees on what it looks at; it ends the
judgement and takes no claim. -/
theorem verdict_taken {s t : State} (h : Alike s t) (a : Addr) (v : Half) (z : Fin 4) (p : Fin 8) (style : Style) (n : Option Half) :
    let u := t.verdict a v z p style n
    s.verdictTaken u a v z p style (s.judge a v z p n) ∧ u.checker = .idle ∧ u.store.checkerClaim = t.store.checkerClaim := by
  intro u
  rw [← judge_congr h]
  unfold u verdict
  extract_lets d s1 k s2
  have h1 : Alike s s1 := h.trans ⟨rfl, rfl, rfl, rfl, rfl, rfl, rfl, rfl, rfl, rfl⟩
  have h2 : Alike s s2 := h.trans ⟨rfl, rfl, rfl, rfl, rfl, rfl, rfl, rfl, rfl, rfl⟩
  split
  · split
    · exact carryOut_refresh h2 a v z p style d
    · exact refresh_carryOut h2 a v z p style d
  · exact carryOut_refresh h1 a v z p style d

/-! ## The checker's lookup (R83, R103), and the completion of a fill's read -/

/-- A lookup changes no claim of the checker where it is a hit. -/
theorem lookup_hit_claims {q : Addr → Option Half} {c : CellStore} {who : Claimant} {a : Addr} {n : Half}
    (h : (c.lookup q who a).1 = some n) : (c.lookup q who a).2.checkerClaim = c.checkerClaim := by
  unfold CellStore.lookup at h ⊢
  split at h
  · next hf =>
    dsimp only at h
    split at h
    · next hv => simp only [hv, if_true]; rfl
    · cases h
  · cases h

/-- The checker's lookup is what R83 and R103 say, of any state that agrees on what a verdict looks at. -/
theorem checkerLookup_spec {s t : State} (h : Alike s t) (hu : t.upstream = s.upstream) (a : Addr) (v : Half) (z : Fin 4) (p : Fin 8)
    (style : Style) : s.lookedUp (t.checkerLookup a v z p style) t.store a v z p style := by
  have hq := queued_congr h.posted
  unfold lookedUp checkerLookup
  rw [hq]
  extract_lets found t1
  have h1 : Alike s t1 := h.trans ⟨rfl, rfl, rfl, rfl, rfl, rfl, rfl, rfl, rfl, rfl⟩
  refine ⟨fun n hn => ?_, fun hn => ?_⟩ <;> rw [hn]
  · obtain ⟨V, C, K⟩ := verdict_taken h1 a v z p style (some n)
    exact ⟨C, K.trans (lookup_hit_claims hn), V⟩
  · exact ⟨rfl, rfl, hu, h.responses, h.posted, h.waiting, h.hold, h.zones, h.force, h.log, h.agenda⟩

/-- The completion of a fill's read is what R103, R107 and R108 say. -/
theorem fillReadDone_spec (s : State) (x : Transfer) (done : Bool) (data : Data) :
    s.fillTaken (s.fillReadDone done x.addr data) x done data := by
  unfold fillReadDone
  extract_lets f w
  have hs : w.store = s.filled done data := by
    unfold w f filled
    cases done
    · simp only [Bool.false_eq_true, if_false, setStore_store, append_frame]
      rw [queued_congr (s := s) (by simp)]
    · rfl
  have ha : Alike (s.fillSaid x done) w := by
    cases done
    · refine ⟨?_, ?_, ?_, ?_, ?_, ?_, ?_, ?_, ?_, ?_⟩
      all_goals try (simp [w, f, fillSaid]; done)
      simp only [w, Bool.false_eq_true, if_false, setStore_frame]
      exact append_logged_nil _ _ _ _ _
    · exact ⟨rfl, rfl, rfl, rfl, rfl, rfl, rfl, rfl, rfl, rfl⟩
  have hc : w.checker = s.checker ∧ w.upstream = s.upstream := by unfold w f; cases done <;> simp
  generalize hu : w.abandonedSettles = u
  unfold fillTaken
  rw [← hs]
  obtain ⟨k, value, hk, hab, hst, he⟩ | ⟨hn, he⟩ := abandonedSettles_cases w <;> rw [he] at hu <;> subst hu
  · refine ⟨fun hf => absurd ⟨k, value, hk, hab, hst⟩ hf, fun _ => ⟨fun hi => ?_, fun a d z p style hw => ?_⟩⟩
    · have same : (w.setStore (w.store.dropClaim .checker)).checkerSettles true value = w.setStore (w.store.dropClaim .checker) := by
        unfold checkerSettles
        rw [show (w.setStore (w.store.dropClaim .checker)).checker = s.checker from hc.1]
        split
        · rfl
        · next a d z p style held hw => cases held <;> [rfl; exact absurd hw (hi a d z p style)]
      rw [same]
      exact ⟨rfl, ha.posted, ha.hold, ha.responses, hc.1, ha.log⟩
    · unfold checkerSettles
      rw [show (w.setStore (w.store.dropClaim .checker)).checker = s.checker from hc.1, hw]
      exact checkerLookup_spec (t := w.setStore (w.store.dropClaim .checker))
        (ha.trans ⟨rfl, rfl, rfl, rfl, rfl, rfl, rfl, rfl, rfl, rfl⟩) hc.2 a d z p style
  · refine ⟨fun _ => ⟨rfl, ha.posted, ha.hold, ha.responses, hc.1, ha.log⟩, fun ⟨k, value, hk, hab, hst⟩ => ?_⟩
    have := hn k hk hab
    obtain ⟨a, stage, ab⟩ := k
    cases hst
    cases this

/-! ## The force engine's lookup (R138) -/

/-- A lookup of the force engine writes its entry's prior value and, at a hit that satisfies the sense, makes it ACTIVE (R138, R139); it
leaves the queues, the zones and the other entries alone. -/
theorem engineLookup_spec (s : State) (e : Fin 16) (f : ForceCfg) :
  let u := s.engineLookup e f
  ((u.force.get e).state = (s.force.get e).state ∨ (u.force.get e).state = .active) ∧ (u.force.get e).attempts = (s.force.get e).attempts ∧
   (u.force.get e).retry = (s.force.get e).retry ∧ (u.force.get e).last = (s.force.get e).last ∧ u.hold = s.hold ∧ u.posted = s.posted ∧ u.waiting = s.waiting ∧
   u.zones = s.zones ∧ u.responses = s.responses ∧ ∀ e', e' ≠ e → u.force.get e' = s.force.get e' := by
  unfold engineLookup
  dsimp only
  split
  · unfold engineValue; dsimp only
    split
    · unfold forceActive entryBoundary; dsimp only
      have hh : ∀ (x : State) (c : Bool) (y : State), (if c then y else x) = if c then y else x := fun _ _ _ => rfl
      cases (((s.setStore (CellStore.lookup s.queued s.store Claimant.engine f.cell).2).setForce e _).force.get e).fromFailed
      · simp
        intro e' he; simp [Tab.get_set_of_ne _ (Ne.symm he)]
      · simp
        intro e' he; simp [Tab.get_set_of_ne _ (Ne.symm he)]
    · refine ⟨?_, ?_, ?_, ?_, ?_, ?_, ?_, ?_, ?_, ?_⟩
      all_goals try (simp; done)
      intro e' he; simp [Tab.get_set_of_ne _ (Ne.symm he)]
  · simp


end Sys2Proof.Machine.State
end

