-- ==== Sys2Proof/Laws/Engine.lean ====
section
/-!
SUPPORT. What a force apply, an attempt of the engine and a grant of the port come to, in the terms of the statements.
-/
namespace Sys2Proof.Machine.State

/-! ## The force engine -/

/-- A force apply cancels what is bound for its cell, then waits for a delivery in flight or looks the cell up (R71, R73, R74, R112, R124,
R137, R138). -/
theorem forceApply_spec (s : State) (e : Fin 16) (f : ForceCfg) :
   let u := s.forceApply e f
   ∃ v : State, s.cancelled v e f ∧
        ((∃ p ∈ s.posted, p.checked = true ∧ p.addr = f.cell ∧ p.inFlight = true) →
          u = { v with sweep := v.sweep.map (fun w => { w with work := .delivery }) }) ∧
        ((∀ p ∈ s.posted, p.checked = true → p.addr = f.cell → p.inFlight = false) → u = v.engineLookup e f) := by
  intro u
  unfold u forceApply
  dsimp only
  generalize hx : ((s.withdrawHost f.cell).removePosted f.cell).dropHold f.cell = x
  have hw : s.waiting.any (fun p => p.isHostWrite f.cell) = (s.waiting.find? (fun p => p.isHostWrite f.cell)).isSome := by
    rw [Bool.eq_iff_iff, List.find?_isSome, List.any_eq_true]
  have hfw : (s.withdrawHost f.cell).waiting = s.waiting.filter (fun p => !p.isHostWrite f.cell) := by
    unfold withdrawHost; split
    · simp
    · next hn => simp only [List.any_eq_true, not_exists, not_and, Bool.not_eq_true] at hn
                 symm; rw [List.filter_eq_self]; intro p hp; simp [hn p hp]
  have hfp : ((s.withdrawHost f.cell).removePosted f.cell).posted = s.posted.filter (fun p => !p.removable f.cell) := by
    have h1 : (s.withdrawHost f.cell).posted = s.posted := by unfold withdrawHost; split <;> simp
    unfold removePosted; rw [h1]; split
    · simp
    · next hn => simp only [List.any_eq_true, not_exists, not_and, Bool.not_eq_true] at hn
                 rw [h1]; symm; rw [List.filter_eq_self]; intro p hp; simp [hn p hp]
  have w1 : (s.withdrawHost f.cell).responses = s.responses ++
        (if (s.waiting.find? (fun p => p.isHostWrite f.cell)).isSome then [{ kind := .held, data := none }] else []) ∧
      (s.withdrawHost f.cell).upstream = (if (s.waiting.find? (fun p => p.isHostWrite f.cell)).isSome then .idle else s.upstream) := by
    unfold withdrawHost; rw [hw]; split <;> simp [*]
  have w2 : (s.withdrawHost f.cell).posted = s.posted ∧ (s.withdrawHost f.cell).hold = s.hold ∧
      (s.withdrawHost f.cell).store = s.store ∧
      (s.withdrawHost f.cell).agenda = s.agenda ∧ (s.withdrawHost f.cell).log = s.log ∧ (s.withdrawHost f.cell).zones = s.zones ∧
      (s.withdrawHost f.cell).cfg = s.cfg ∧ (s.withdrawHost f.cell).sweep = s.sweep ∧ (s.withdrawHost f.cell).requests = s.requests ∧
      (s.withdrawHost f.cell).checker = s.checker ∧
      (s.withdrawHost f.cell).port = s.port ∧ (s.withdrawHost f.cell).force = s.force := by
    unfold withdrawHost; split <;> simp
  generalize s.withdrawHost f.cell = y at *
  obtain ⟨w3, w4⟩ := w1
  obtain ⟨y1, y2, y3, y4, y5, y6, y7, y8, y9, y10, y11, y12⟩ := w2
  have r2 : (y.removePosted f.cell).hold = s.hold ∧ (y.removePosted f.cell).waiting = y.waiting ∧
        (y.removePosted f.cell).responses = y.responses ∧
     (y.removePosted f.cell).upstream = y.upstream ∧
      (y.removePosted f.cell).agenda = s.agenda ∧ (y.removePosted f.cell).log = s.log ∧ (y.removePosted f.cell).zones = s.zones ∧
      (y.removePosted f.cell).cfg = s.cfg ∧ (y.removePosted f.cell).sweep = s.sweep ∧ (y.removePosted f.cell).requests = s.requests ∧
      (y.removePosted f.cell).checker = s.checker ∧
      (y.removePosted f.cell).port = s.port ∧ (y.removePosted f.cell).force = s.force := by
    unfold removePosted; split <;> simp [*]
  have r3 : (y.removePosted f.cell).store = (if s.posted.any (fun p => p.removable f.cell) then
      s.store.correct (y.removePosted f.cell).queued f.cell ((y.removePosted f.cell).queued f.cell) else s.store) := by
    unfold removePosted; rw [y1]; split
    · simp [y3]; rfl
    · exact y3
  generalize y.removePosted f.cell = w at *
  obtain ⟨q1, q2, q3, q4, q5, q6, q7, q8, q9, q10, q11, q12, q13⟩ := r2
  have x1 : x.posted = w.posted ∧ x.hold = s.hold.filter (fun h => h.cell != f.cell) ∧
        x.waiting = w.waiting.filter (fun p => !p.isHoldOf f.cell) ∧
     x.responses = w.responses ∧ x.upstream = w.upstream ∧ x.store = w.store ∧ x.agenda = s.agenda ∧ x.log = s.log ∧
      x.zones = s.zones ∧
           x.cfg = s.cfg ∧
     x.sweep = s.sweep ∧ x.requests = s.requests ∧ x.checker = s.checker ∧ x.port = s.port ∧ x.force = s.force := by
    subst hx; simp [dropHold, *]
  obtain ⟨x1, x2, x3, x4, x5, x6, x7, x8, x9, x10, x11, x12, x13, x14, x15⟩ := x1
  have hbound : (fun p : Posted => p.removable f.cell) = (fun p => p.checked && p.addr == f.cell && !p.inFlight) := rfl
  generalize hl : takenRequest (s.holdOf f.cell) (s.waiting.find? (fun p => p.isHostWrite f.cell))
      (s.posted.filter (fun p => p.removable f.cell)) = taken
  generalize hv : (if decide ((s.force.get e).state = .idle) = true then _ else _ : State) = v
  have v1 : v = { x with
      force := x.force.set e { s.force.get e with
        state := .applying, attempts := 0, retry := .stopped,
        last := if (s.force.get e).state = .idle then taken else (s.force.get e).last
        fromFailed := decide ((s.force.get e).state ≠ .idle) }
      agenda := s.agenda ++ (if (s.force.get e).state = .idle then [.entryIdle e] else []) } := by
    subst hv
    by_cases hi : (s.force.get e).state = .idle
    · simp [hi, setForce, notify, x7]
    · simp [hi, setForce, x7]
  have vp : v.posted = s.posted.filter (fun p => !p.removable f.cell) := by rw [v1]; exact x1.trans hfp
  refine ⟨v, ?_, ?_, ?_⟩
  · unfold cancelled
    dsimp only
    refine ⟨vp, by rw [v1]; exact x2, ?_, ?_, ?_, ?_, by rw [v1], by rw [v1]; exact x8, by rw [v1]; exact x9, by rw [v1]; exact x10,
          by rw [v1]; exact x11,
      by rw [v1]; exact x12, by rw [v1]; exact x13, by rw [v1]; exact x14,
            (if (s.force.get e).state = .idle then taken else (s.force.get e).last),
      by rw [v1, ← x15], ?_, ?_⟩
    · rw [v1]; show x.waiting = _; rw [x3, q2, hfw, List.filter_filter]; congr 1; funext p; rw [Bool.and_comm]
    · rw [v1]; show x.responses = _; rw [x4, q3, w3]
    · rw [v1]; show x.upstream = _; rw [x5, q4, w4]
    · have hq : v.queued = w.queued := by funext a; unfold queued; rw [vp, ← hfp]
      rw [hq, v1]; show x.store = _; rw [x6, r3]; rfl
    · intro hi; rw [if_neg hi]
    · intro hi; rw [if_pos hi]; subst hl
      unfold takenRequest holdOf
      have hnone : (∀ h ∈ s.hold, h.cell ≠ f.cell) → s.hold.find? (fun h => h.cell == f.cell) = none := by
        intro hh; rw [List.find?_eq_none]; intro h hm; simpa using hh h hm
      refine ⟨fun h hh => by rw [hh], fun hh q hq => by rw [hnone hh, hq], fun hh hn => ?_⟩
      rw [hn, hnone hh]
      refine ⟨fun before p hb => ?_, fun hb => ?_⟩
      · show Option.map _ (List.filter (fun p => p.removable f.cell) s.posted).getLast? = _
        rw [show List.filter (fun p => p.removable f.cell) s.posted = _ from hb]; simp
      · show Option.map _ (List.filter (fun p => p.removable f.cell) s.posted).getLast? = _
        rw [show List.filter (fun p => p.removable f.cell) s.posted = _ from hb]; simp
  · rintro ⟨p, hp, h1, h2, h3⟩
    rw [if_pos]
    · rfl
    · rw [List.any_eq_true]; exact ⟨p, by rw [vp, List.mem_filter]; simp [hp, Posted.removable, h3], by simp [Posted.delivering, h1, h2,
          h3]⟩
  · intro hn
    rw [if_neg]
    rw [List.any_eq_true]; rintro ⟨p, hp, hd⟩
    rw [vp, List.mem_filter] at hp
    simp only [Posted.delivering, Bool.and_eq_true, beq_iff_eq] at hd
    have := hn p hp.1 hd.1.1 hd.1.2
    rw [this] at hd; simp at hd

/-- An attempt that failed is counted: a fresh lookup before the third, a latched failure at the third (R140). -/
theorem attemptFailed_spec (s x : State) (e : Fin 16) (f : ForceCfg) (h1 : x.force = s.force) (h2 : x.sweep = s.sweep) (h3 : x.cfg = s.cfg)
   (h4 : x.zones = s.zones) (h5 : x.posted = s.posted) (h6 : x.log = s.log) (h7 : x.agenda = s.agenda) (h8 : x.time = s.time) :
   s.attemptCounted (x.attemptFailed e f) x.store e f := by
  unfold attemptCounted attemptFailed
  dsimp only
  rw [h1]
  by_cases hn : (s.force.get e).attempts + 1 < 3
  · rw [if_pos hn]
    refine ⟨?_, fun _ => ⟨x.setForce e _, by simp, by simp [h1], by simp [h2], by simp [h3], by simp [h4], by simp [h5], by simp [h6],
          by simp [h7], rfl⟩, fun h => absurd h (by omega)⟩
    have := (engineLookup_spec (x.setForce e { s.force.get e with attempts := (s.force.get e).attempts + 1 }) e f).2.1
    rw [this]; simp
  · rw [if_neg hn]
    refine ⟨by simp [entryBoundary, zoneFlagged], fun h => absurd h hn, fun _ => ⟨by simp [entryBoundary, zoneFlagged],
          by simp [entryBoundary, zoneFlagged]; rfl, by simp [entryBoundary, zoneFlagged], ?_, by simp [entryBoundary, zoneFlagged],
          by simp [entryBoundary, zoneFlagged, h2], by simp [entryBoundary, zoneFlagged, notify, h7]⟩⟩
    unfold entryBoundary zoneFlagged
    simp only [notify_frame, mark_frame]
    rw [append_logged_nil]
    exact logged_congr (by simp [h6]) (by simp [h8]) _

/-! ## The port -/

/-- A busy port grants nothing; a report transfer that waits starts its aging (R153). -/
theorem arbitrate_busy (s : State) (h : s.port.state ≠ .idle) :
    s.arbitrate = { s with port := { s.port with
      aging := if s.reportTransfer.isSome = true ∧ s.reportInFlight = false ∧ s.port.aging = .stopped ∧ s.port.aged = false
        then .running 20 else s.port.aging } } := by
  unfold arbitrate grantNext
  rw [if_neg h]
  unfold startAging
  by_cases hc : s.reportTransfer.isSome = true ∧ s.reportInFlight = false ∧ s.port.aging = .stopped ∧ s.port.aged = false
  · rw [if_pos (by simp [hc]), if_pos hc]; rfl
  · rw [if_neg (by simpa [and_assoc] using hc), if_neg hc]

/-- A port that nothing asks for grants nothing. -/
theorem arbitrate_none (s : State) (h : s.presented = []) : s.arbitrate = s := by
  have hr : s.reportTransfer = none := by
    unfold presented at h; simp only [List.append_eq_nil_iff] at h
    have := h.2; revert this; cases s.reportTransfer <;> simp
  unfold arbitrate grantNext startAging
  rw [h]
  split <;> simp [hr]

/-- A grant: the port turns busy with the first requester; a force write is written through, a posted entry and a read are in flight, the
report writer's aging stops or starts (R72, R75, R110, R149 to R154). -/
theorem arbitrate_grant (s : State) (x : Transfer) (rest : List Transfer) (hi : s.port.state = .idle) (hp : s.presented = x :: rest)
    (he : s.engineComing = false) :
    s.arbitrate = { s with
      port := { s.port with
        state := .busy x
        timeout := .running 1
        aging := if x.who = .report then .stopped
          else if s.reportTransfer.isSome = true ∧ s.port.aging = .stopped ∧ s.port.aged = false then .running 20 else s.port.aging
        aged := s.port.aged && decide (x.who ≠ .report) }
      store := if x.who = .engine then s.store.writeThrough x.addr (cellValue x.data) else s.store
      posted := if x.who = .transit ∧ x.write = true then
          (match s.posted with | p :: more => { p with inFlight := true } :: more | [] => [])
        else s.posted
      upstream := if x.who = .transit ∧ x.write = false then
          (match s.upstream with | .reading a w z _ => .reading a w z true | held => held)
        else s.upstream } := by
  unfold arbitrate grantNext
  rw [if_pos hi, hp]
  simp only [he, Bool.false_eq_true, if_false]
  have hrt : (s.grant x).reportTransfer = s.reportTransfer := by
    have : (s.grant x).writer = s.writer ∧ (s.grant x).cfg = s.cfg := by
      unfold grant; dsimp only; split <;> (try split) <;> exact ⟨rfl, rfl⟩
    unfold reportTransfer; rw [this.1, this.2]
  have hst : (s.grant x).port.state = .busy x := by unfold grant; dsimp only; split <;> (try split) <;> rfl
  have hif : (s.grant x).reportInFlight = (x.who == .report) := by unfold reportInFlight; rw [hst]
  unfold startAging
  rw [hrt, hif]
  obtain ⟨who, wr, ad, wd, da⟩ := x
  have h1 : Timer.start 1 = .running 1 := rfl
  have h2 : Timer.start Config.agingMs = .running 20 := rfl
  cases who <;> cases wr <;> cases hq : s.reportTransfer.isSome <;> cases hb : s.port.aged <;> by_cases hc : s.port.aging = .stopped <;>
    simp [grant, setStore, flyRead, flyPosted, hb, hc, h1, h2] <;> rfl

end Sys2Proof.Machine.State
end

