-- ==== Sys2Proof/Laws/PerInstr.lean ====
section
/-!
SUPPORT. Statements about a command as syntax, one lemma for each constructor.
-/
namespace Sys2Proof.Laws.Groups

/-- A command of power, a tick and a maintenance command are three kinds; a channel's command is neither of the first two. -/
def Statement (i : Instr) : Prop :=
  (i.isPower && i.isTick) = false ∧ (i.isPower && i.isMaintenance) = false ∧ (i.isTick && i.isMaintenance) = false ∧
    (i.isPower && i.isChannel) = false ∧ (i.isTick && i.isChannel) = false

theorem supplyRise (pins : BitVec 8) : Statement (.supplyRise pins) := ⟨rfl, rfl, rfl, rfl, rfl⟩
theorem brownOut : Statement (.brownOut) := ⟨rfl, rfl, rfl, rfl, rfl⟩
theorem brownOutEnd (pins : BitVec 8) : Statement (.brownOutEnd pins) := ⟨rfl, rfl, rfl, rfl, rfl⟩
theorem resetAssert : Statement (.resetAssert) := ⟨rfl, rfl, rfl, rfl, rfl⟩
theorem resetRelease (pins : BitVec 8) : Statement (.resetRelease pins) := ⟨rfl, rfl, rfl, rfl, rfl⟩
theorem loadingEnd (readable : Bool) : Statement (.loadingEnd readable) := ⟨rfl, rfl, rfl, rfl, rfl⟩
theorem storeWriteComplete (readBack : Bool) : Statement (.storeWriteComplete readBack) := ⟨rfl, rfl, rfl, rfl, rfl⟩
theorem tick1ms (commissioning : Bool) : Statement (.tick1ms commissioning) := ⟨rfl, rfl, rfl, rfl, rfl⟩
theorem tick100ms : Statement (.tick100ms) := ⟨rfl, rfl, rfl, rfl, rfl⟩
theorem tick1s : Statement (.tick1s) := ⟨rfl, rfl, rfl, rfl, rfl⟩
theorem pulseBoundary : Statement (.pulseBoundary) := ⟨rfl, rfl, rfl, rfl, rfl⟩
theorem channelSample (ch : Fin 8) (code : BitVec 12) : Statement (.channelSample ch code) := ⟨rfl, rfl, rfl, rfl, rfl⟩
theorem warmUpExpiry (ch : Fin 8) : Statement (.warmUpExpiry ch) := ⟨rfl, rfl, rfl, rfl, rfl⟩
theorem spillSample (line : Fin 12) (high : Bool) : Statement (.spillSample line high) := ⟨rfl, rfl, rfl, rfl, rfl⟩
theorem tachPulse (tach : Fin 8) : Statement (.tachPulse tach) := ⟨rfl, rfl, rfl, rfl, rfl⟩
theorem windowEvent (tach : Fin 8) : Statement (.windowEvent tach) := ⟨rfl, rfl, rfl, rfl, rfl⟩
theorem delayTimerExpiry (tach : Fin 8) : Statement (.delayTimerExpiry tach) := ⟨rfl, rfl, rfl, rfl, rfl⟩
theorem refreshExpiry (zone : Fin 4) : Statement (.refreshExpiry zone) := ⟨rfl, rfl, rfl, rfl, rfl⟩
theorem purgeExpiry (zone : Fin 4) : Statement (.purgeExpiry zone) := ⟨rfl, rfl, rfl, rfl, rfl⟩
theorem hostRead (addr : Addr) (width : Width) : Statement (.hostRead addr width) := ⟨rfl, rfl, rfl, rfl, rfl⟩
theorem hostWrite (addr : Addr) (width : Width) (data : Data) : Statement (.hostWrite addr width data) := ⟨rfl, rfl, rfl, rfl, rfl⟩
theorem claimSettlement (who : Claimant) : Statement (.claimSettlement who) := ⟨rfl, rfl, rfl, rfl, rfl⟩
theorem placementEnters : Statement (.placementEnters) := ⟨rfl, rfl, rfl, rfl, rfl⟩
theorem upstreamReset : Statement (.upstreamReset) := ⟨rfl, rfl, rfl, rfl, rfl⟩
theorem upstreamResetRelease : Statement (.upstreamResetRelease) := ⟨rfl, rfl, rfl, rfl, rfl⟩
theorem holdExpiry : Statement (.holdExpiry) := ⟨rfl, rfl, rfl, rfl, rfl⟩
theorem retryTimerExpiry (entry : Fin 16) : Statement (.retryTimerExpiry entry) := ⟨rfl, rfl, rfl, rfl, rfl⟩
theorem memoryAnswer (done : Bool) (data : Data) : Statement (.memoryAnswer done data) := ⟨rfl, rfl, rfl, rfl, rfl⟩
theorem downstreamTimeout : Statement (.downstreamTimeout) := ⟨rfl, rfl, rfl, rfl, rfl⟩
theorem settlingEnd : Statement (.settlingEnd) := ⟨rfl, rfl, rfl, rfl, rfl⟩
theorem reportAgingExpiry : Statement (.reportAgingExpiry) := ⟨rfl, rfl, rfl, rfl, rfl⟩
theorem commissioningLineChange : Statement (.commissioningLineChange) := ⟨rfl, rfl, rfl, rfl, rfl⟩
theorem status : Statement (.status) := ⟨rfl, rfl, rfl, rfl, rfl⟩
theorem readLog : Statement (.readLog) := ⟨rfl, rfl, rfl, rfl, rfl⟩
theorem readStore : Statement (.readStore) := ⟨rfl, rfl, rfl, rfl, rfl⟩
theorem readImage (offset length : Half) (readable : Bool) : Statement (.readImage offset length readable) := ⟨rfl, rfl, rfl, rfl, rfl⟩
theorem writeStage (offset length : Half) (bytes : List Byte) : Statement (.writeStage offset length bytes) := ⟨rfl, rfl, rfl, rfl, rfl⟩
theorem commit : Statement (.commit) := ⟨rfl, rfl, rfl, rfl, rfl⟩
theorem testReading (channel : Byte) (concentration : Half) : Statement (.testReading channel concentration) := ⟨rfl, rfl, rfl, rfl, rfl⟩
theorem endTest (channel : Byte) : Statement (.endTest channel) := ⟨rfl, rfl, rfl, rfl, rfl⟩
theorem acknowledge (zone : Byte) : Statement (.acknowledge zone) := ⟨rfl, rfl, rfl, rfl, rfl⟩
theorem unknownCommand (frame : List Byte) : Statement (.unknownCommand frame) := ⟨rfl, rfl, rfl, rfl, rfl⟩

end Sys2Proof.Laws.Groups
end

