-- ==== Sys2Proof/Laws/Rounds.lean ====
section
/-!
SUPPORT. What the operations that go over several groups, zones or channels at one event come to: the pins as RUN begins, the reports of
the zones, the ends of the test readings, and the channels and zones that RUN begins with.
-/
namespace Sys2Proof.Machine

/-! ## Pins (R102) -/

/-- The pinned lines of some groups, from line 0 up. -/
def pinnedLines (gs : List Addr) : Tab Line 16 := Tab.ofFn (fun i => match gs[i.val]? with
              | some g => { Line.empty with tag := some g, pinned := true }
              | none => Line.empty)

/-- A pin of a group that has a line does nothing; any other takes the next free line. -/
theorem CellStore.pin_one (gs : List Addr) (a : Addr) (hl : gs.length < 16) :
   CellStore.pin { CellStore.initial with lines := pinnedLines gs } a =
     { CellStore.initial with lines := pinnedLines (if groupOf a ∈ gs then gs else gs ++ [groupOf a]) } := by
  have htag : ∀ i : Fin 16, ((pinnedLines gs).get i).tag = gs[i.val]? := by
    intro i; unfold pinnedLines; rw [Tab.get_ofFn]; split <;> simp_all [Line.empty]
  unfold CellStore.pin
  by_cases hm : groupOf a ∈ gs
  · rw [if_pos hm]
    have : (CellStore.find { CellStore.initial with lines := pinnedLines gs } (groupOf a)).isSome := by
      unfold CellStore.find
      rw [List.find?_isSome]
      obtain ⟨k, hk, he⟩ := List.getElem_of_mem hm
      refine ⟨⟨k, by omega⟩, by simp, ?_⟩
      simp only [htag]; simp [hk, he]
    obtain ⟨i, hi⟩ := Option.isSome_iff_exists.1 this
    rw [hi]
  · rw [if_neg hm]
    have : CellStore.find { CellStore.initial with lines := pinnedLines gs } (groupOf a) = none := by
      unfold CellStore.find
      rw [List.find?_eq_none]
      intro i _ hi
      simp only [htag, beq_iff_eq] at hi
      exact hm (List.mem_of_getElem? hi)
    rw [this]
    have hf : (indices 16).find? (fun i => ((pinnedLines gs).get i).tag == none) = some ⟨gs.length, hl⟩ := by
      rw [List.find?_eq_some_iff_append]
      refine ⟨by simp [htag], (indices 16).take gs.length, (indices 16).drop (gs.length + 1), ?_, ?_⟩
      · have : (indices 16)[gs.length]'(by simpa [indices] using hl) = ⟨gs.length, hl⟩ := by simp [indices]
        rw [← this, List.getElem_cons_drop, List.take_append_drop]
      · intro i hi
        rw [List.mem_take_iff_getElem] at hi
        obtain ⟨k, hk, he⟩ := hi
        have : i.val < gs.length := by
          have : i.val = k := by rw [← he]; simp [indices]
          omega
        simp [htag, this]
    dsimp only
    rw [hf]
    simp only [CellStore.setLine]
    congr 1
    apply Tab.ext_get
    intro i
    rw [Tab.get_set]
    unfold pinnedLines; simp only [Tab.get_ofFn]
    by_cases hi : (⟨gs.length, hl⟩ : Fin 16) = i
    · subst hi; simp
    · rw [if_neg hi]
      have hne : i.val ≠ gs.length := fun h => hi (Fin.ext h.symm)
      rcases Nat.lt_or_gt_of_ne hne with h | h
      · rw [List.getElem?_append_left h]
      · rw [List.getElem?_eq_none (by omega), List.getElem?_eq_none (by simp; omega)]

/-- Groups taken once are no more than the pins. -/
theorem eraseDups_length (l : List Addr) : l.eraseDups.length ≤ l.length := by
  induction l using List.reverseRecOn with
  | nil => simp
  | append_singleton l a ih =>
    rw [List.eraseDups_append]
    have : (([a] : List Addr).removeAll l).eraseDups.length ≤ 1 := by
      unfold List.removeAll; simp only [List.filter_cons, List.filter_nil]; split <;> simp [List.eraseDups_cons]
    simp only [List.length_append, List.length_singleton]; omega

/-- Pins take the lines from 0 up, one for each group. -/
theorem CellStore.pins_fold (l : List Addr) (hl : l.length ≤ 16) :
   l.foldl CellStore.pin CellStore.initial = { CellStore.initial with lines := pinnedLines (l.map groupOf).eraseDups } := by
  induction l using List.reverseRecOn with
  | nil => 
    show CellStore.initial = _
    have : pinnedLines ([] : List Addr) = CellStore.initial.lines := by
      apply Tab.ext_get; intro i; simp [pinnedLines, CellStore.initial]
    simp only [List.map_nil, List.eraseDups_nil, this]
  | append_singleton l a ih =>
    simp only [List.length_append, List.length_singleton] at hl
    rw [List.foldl_append, ih (by omega)]
    simp only [List.foldl_cons, List.foldl_nil]
    rw [CellStore.pin_one _ _ (by have := eraseDups_length (l.map groupOf); simp at this; omega)]
    rw [List.map_append, List.eraseDups_append]
    unfold List.removeAll
    simp only [List.map_cons, List.map_nil, List.filter_cons, List.filter_nil]
    by_cases h : groupOf a ∈ l.map groupOf
    · rw [if_pos (by simpa using h), if_neg (by simpa using h)]; simp
    · rw [if_neg (by simpa using h), if_pos (by simpa using h)]; simp [List.eraseDups_cons]

/-- The pins and prefills as RUN begins (R102). -/
theorem CellStore.atRun_spec (q) (l : List Addr) (hl : l.length ≤ 8) :
    let groups := (l.map groupOf).eraseDups
    CellStore.atRun q l = CellStore.settleFills q
          { CellStore.initial with
            lines := Tab.ofFn (fun i => match groups[i.val]? with
              | some g => { Line.empty with tag := some g, pinned := true }
              | none => Line.empty)
            list := groups.map (fun g => { group := g, start := 0, who := .nobody }) } := by
  intro gs
  have hgl : gs.length ≤ 8 := (eraseDups_length _).trans (by simpa using hl)
  unfold CellStore.atRun
  rw [CellStore.pins_fold l (by omega)]
  dsimp only
  have htag : ∀ i : Fin 16, ((pinnedLines gs).get i).tag = gs[i.val]? := by
    intro i; unfold pinnedLines; rw [Tab.get_ofFn]; split <;> simp_all [Line.empty]
  congr 2
  show List.filterMap (fun i => match ((pinnedLines gs).get i).tag with | some g => some _ | none => none) (indices 16) = _
  simp only [htag]
  clear htag
  match gs, hgl with
  | [], _ => rfl
  | [_], _ => rfl
  | [_, _], _ => rfl
  | [_, _, _], _ => rfl
  | [_, _, _, _], _ => rfl
  | [_, _, _, _, _], _ => rfl
  | [_, _, _, _, _, _], _ => rfl
  | [_, _, _, _, _, _, _], _ => rfl
  | [_, _, _, _, _, _, _, _], _ => rfl
  | _ :: _ :: _ :: _ :: _ :: _ :: _ :: _ :: _ :: _, h => simp at h; omega

namespace State

/-! ## Reports and test ends at one event (R36, R37) -/

/-- The zones' reports after channels' events: each zone takes its own, in order. -/
theorem gasReports_spec (l : List (Fin 4)) (hnd : l.Nodup) (s : State) (m : Fin 4 → Bool) :
   let u := l.foldl (fun s z => s.gasReport z (m z) false) s
   u.chans = s.chans ∧ s.samePath u ∧ s.sameField u ∧ u.cfg = s.cfg ∧ u.time = s.time ∧ u.maint = s.maint ∧
   (∀ z ∈ l, s.gasZone u z (m z) false) ∧ (∀ z, z ∉ l → u.zones.get z = s.zones.get z) ∧
   (∃ given, u.agenda = s.agenda ++ given ∧
     ∀ n, n ∈ given ↔ ∃ z ∈ l, noticeDue z (s.zones.get z).state (u.zones.get z).state n) ∧
   u.log = s.logged (l.flatMap (fun z => s.zoneSaid u z)) := by
  induction l generalizing s with
  | nil => simp [samePath, sameField]
  | cons z l ih =>
    intro u
    rw [List.nodup_cons] at hnd
    obtain ⟨⟨h1, h2, given1, h3, h4, h5⟩, h6⟩ := gasReport_spec s z (m z) false
    obtain ⟨f1, f2, f3, f4, f5⟩ := gasReport_frame s z (m z) false
    have hu : u = l.foldl (fun s z => s.gasReport z (m z) false) (s.gasReport z (m z) false) := rfl
    obtain ⟨i1, i2, i3, i4, i5, i6, i7, i8, ⟨given2, i9, i10⟩, i11⟩ := ih hnd.2 (s.gasReport z (m z) false)
    rw [← hu] at i1 i2 i3 i4 i5 i6 i7 i8 i9 i10 i11
    generalize s.gasReport z (m z) false = x at *
    have hz : u.zones.get z = x.zones.get z := i8 z hnd.1
    have ho : ∀ y ∈ l, x.zones.get y = s.zones.get y := fun y hy => h1 y (fun e => hnd.1 (e ▸ hy))
    refine ⟨i1.trans f2.1, ?_, ?_, i4.trans f3, i5.trans f5, i6.trans f4, ?_, ?_, ⟨given1 ++ given2, by rw [i9, h3, List.append_assoc],
          ?_⟩, ?_⟩
    · unfold samePath at *; simp_all
    · unfold sameField at *; simp_all
    · intro y hy
      rw [List.mem_cons] at hy
      rcases hy with rfl | hy
      · have : u.gasReading y = x.gasReading y ∧ u.zoneReads y = x.zoneReads y ∧ u.zoneWarm y = x.zoneWarm y ∧
            u.zoneChannels y = x.zoneChannels y := by
          simp [gasReading, zoneReads, zoneWarm, zoneChannels, channelState, i1, i4]
        unfold gasZone at h2 ⊢
        rw [this.1, this.2.1, this.2.2.1, this.2.2.2, hz]; exact h2
      · exact gasZone_congr (ho y hy) f3 (i7 y hy)
    · intro y hy
      rw [List.mem_cons, not_or] at hy
      rw [i8 y hy.2]; exact h1 y hy.1
    · intro n
      rw [List.mem_append, h5, i10, ← hz]
      simp only [List.mem_cons, exists_eq_or_imp]
      refine or_congr Iff.rfl (exists_congr fun y => and_congr_right fun hy => ?_)
      rw [ho y hy]
    · rw [i11, List.flatMap_cons, logged_append h6 (by rw [f5])]
      congr 1
      congr 1
      · unfold zoneSaid; rw [hz]
      · rw [List.flatMap_def, List.flatMap_def]; congr 1
        apply List.map_congr_left
        intro y hy; unfold zoneSaid; rw [ho y hy]

/-- The ends of some test readings: one TEST_END each, in order. -/
theorem testEnds_spec (l : List (Fin 8)) (hnd : l.Nodup) (s : State) :
    let u := l.foldl testEnded s
    (∀ c, u.chans.get c = if c ∈ l then { s.chans.get c with test := none } else s.chans.get c) ∧ s.samePath u ∧ u.scan = s.scan ∧
      u.spills = s.spills ∧ u.tachs = s.tachs ∧ u.cfg = s.cfg ∧ u.zones = s.zones ∧ u.time = s.time ∧ u.maint = s.maint ∧
      u.agenda = s.agenda ∧
      u.log = s.logged
        (l.map (fun c => { kind := .testEnd, zone := (s.cfg.channels.get c).zone, subject := some c.val, value := none })) := by
  induction l generalizing s with
  | nil => simp [samePath]
  | cons c l ih =>
    rw [List.nodup_cons] at hnd
    obtain ⟨i1, i2, i3, i4, i5, i6, i7, i8, i9, i10, i11⟩ := ih hnd.2 (s.testEnded c)
    rw [List.foldl_cons]
    simp only [show (s.testEnded c).chans = s.chans.set c { s.chans.get c with test := none } by simp [testEnded],
      show (s.testEnded c).scan = s.scan by simp [testEnded], show (s.testEnded c).spills = s.spills by simp [testEnded],
      show (s.testEnded c).tachs = s.tachs by simp [testEnded], show (s.testEnded c).cfg = s.cfg by simp [testEnded],
      show (s.testEnded c).zones = s.zones by simp [testEnded], show (s.testEnded c).time = s.time by simp [testEnded],
      show (s.testEnded c).maint = s.maint by simp [testEnded], show (s.testEnded c).agenda = s.agenda by simp [testEnded]]
      at i1 i3 i4 i5 i6 i7 i8 i9 i10 i11
    refine ⟨fun k => ?_, ?_, i3, i4, i5, i6, i7, i8, i9, i10, ?_⟩
    · have := i1 k
      by_cases hk : c = k
      · subst hk; simpa [hnd.1] using this
      · simpa [Tab.get_set_of_ne _ hk, Ne.symm hk] using this
    · simpa [samePath, testEnded] using i2
    · rw [i11, List.map_cons, ← append_logged]
      unfold testEnded
      exact logged_congr (by simp) (by simp) _

/-! ## The beginning of RUN (R10, R30) -/

/-- START cleared in a zone whose channels are all warm: one zone event, at which a zone that reads nothing loses its sensor (R10, R8). -/
theorem clearStart_spec (s : State) (z : Fin 4) :
    let u := s.clearStart z
    u.chans = s.chans ∧ u.cfg = s.cfg ∧ u.time = s.time ∧ s.otherZones u z ∧
      (s.zoneWarm z = false → u = s) ∧
      (s.zoneWarm z = true → u.zones.get z =
        ZoneRec.settledBy (s.cfg.zones.get z) (s.zones.get z) (s.sensorLost z ((s.zones.get z).causes.put .start false))) ∧
      u.log = s.logged (s.zoneSaid u z) ∧ s.notified u z := by
  unfold clearStart
  by_cases h : s.zoneWarm z = true
  · simp only [h, if_true]
    exact ⟨by simp, by simp, by simp, zoneEvent_others _ _ _ _, fun hh => absurd hh (by decide),
      fun _ => zoneEvent_settled _ _ _ _ rfl, zoneEvent_said _ _ _ _ rfl rfl, zoneEvent_notified _ _ _ _ rfl⟩
  · simp only [h]
    refine ⟨rfl, rfl, rfl, fun _ _ => rfl, fun _ => rfl, fun hh => absurd hh (by decide), ?_, notified_same rfl rfl⟩
    simp only [Bool.false_eq_true, if_false]
    rw [zoneSaid_same rfl]; rfl

/-- START cleared in the warm zones of a list, one zone event each, in order. -/
theorem clearStarts_spec (l : List (Fin 4)) (hnd : l.Nodup) (s : State) :
    let u := l.foldl clearStart s
    u.chans = s.chans ∧ u.cfg = s.cfg ∧ u.time = s.time ∧
      (∀ z, z ∉ l ∨ s.zoneWarm z = false → u.zones.get z = s.zones.get z) ∧
      (∀ z ∈ l, s.zoneWarm z = true → u.zones.get z =
        ZoneRec.settledBy (s.cfg.zones.get z) (s.zones.get z) (s.sensorLost z ((s.zones.get z).causes.put .start false))) ∧
      u.log = s.logged (l.flatMap (fun z => s.zoneSaid u z)) ∧
      ((∀ z ∈ l, ∀ n, ¬noticeDue z (s.zones.get z).state (u.zones.get z).state n) → u.agenda = s.agenda) := by
  induction l generalizing s with
  | nil => simp
  | cons a l ih =>
    rw [List.nodup_cons] at hnd
    obtain ⟨c1, c2, c3, c4, c5, c6, c7, given, c8, -, c9⟩ := clearStart_spec s a
    obtain ⟨i1, i2, i3, i4, i5, i6, i7⟩ := ih hnd.2 (s.clearStart a)
    rw [List.foldl_cons]
    generalize hx : s.clearStart a = x at *
    generalize hu : l.foldl clearStart x = u at *
    have hw : ∀ z, x.zoneWarm z = s.zoneWarm z := fun z => by unfold zoneWarm zoneChannels; rw [c1, c2]
    have hs : ∀ z cs, x.sensorLost z cs = s.sensorLost z cs := fun z cs => by
      unfold sensorLost zoneReads zoneChannels channelState; rw [c1, c2]
    have ha : u.zones.get a = x.zones.get a := i4 a (Or.inl hnd.1)
    have hz : ∀ y ∈ l, x.zones.get y = s.zones.get y := fun y hy => c4 y (fun e => hnd.1 (e ▸ hy))
    refine ⟨i1.trans c1, i2.trans c2, i3.trans c3, fun z h => ?_, fun z h hz => ?_, ?_, fun h => ?_⟩
    · by_cases e : z = a
      · subst e
        rw [ha]
        rcases h with h | h
        · exact absurd List.mem_cons_self h
        · rw [c5 h]
      · rw [i4 z (h.imp (fun h h' => h (List.mem_cons_of_mem _ h')) (fun h => by rw [hw]; exact h))]
        exact c4 z e
    · rw [List.mem_cons] at h
      by_cases e : z = a
      · subst e; rw [ha]; exact c6 hz
      · rw [i5 z (h.resolve_left e) (by rw [hw]; exact hz), c2, c4 z e, hs]
    · rw [i6, List.flatMap_cons, logged_append c7 (by rw [c3])]
      congr 1; congr 1
      · unfold zoneSaid; rw [ha]
      · rw [List.flatMap_def, List.flatMap_def]; congr 1
        apply List.map_congr_left
        intro y hy
        unfold zoneSaid; rw [hz y hy]
    · have hg : given = [] := List.eq_nil_iff_forall_not_mem.mpr fun n hn =>
        h a List.mem_cons_self n (by rw [ha]; exact (c9 n).mp hn)
      rw [i7 (fun y hy n => by rw [hz y hy]; exact h y (List.mem_cons_of_mem _ hy) n), c8, hg, List.append_nil]

/-- CHANNEL_LIVE logged for the LIVE channels of a list, in order. -/
theorem logLive_spec (l : List (Fin 8)) (s : State) :
    let u := l.foldl (fun s c =>
      if (s.chans.get c).sample = .live then s.append .channelLive (s.cfg.channels.get c).zone (some c.val) none else s) s
    u.log = s.logged ((l.filter (fun c => decide ((s.chans.get c).sample = .live))).map (fun c =>
      { kind := .channelLive, zone := (s.cfg.channels.get c).zone, subject := some c.val, value := none })) ∧ u.time = s.time := by
  induction l generalizing s with
  | nil => exact ⟨rfl, rfl⟩
  | cons c l ih =>
    intro u
    have hu : u = _ := rfl
    unfold u
    rw [List.foldl_cons]
    by_cases h : (s.chans.get c).sample = .live
    · rw [if_pos h]
      obtain ⟨i1, i2⟩ := ih (s.append .channelLive (s.cfg.channels.get c).zone (some c.val) none)
      rw [i1, i2]
      simp only [append_frame]
      rw [append_logged]
      simp [h]
    · rw [if_neg h]
      obtain ⟨i1, i2⟩ := ih s
      rw [i1, i2]
      simp [h]

/-- A writer that holds an item holds it still, and the item is the one it last started: no mark gives it another (R173). -/
def sameItem (s t : State) : Prop := s.writer ≠ .idle → t.writer = s.writer ∧ t.lastItem = s.lastItem

namespace sameItem

theorem refl (s : State) : s.sameItem s := fun _ => ⟨rfl, rfl⟩

theorem trans {s t u : State} (h : s.sameItem t) (k : t.sameItem u) : s.sameItem u := fun hw => by
  obtain ⟨h1, h2⟩ := h hw
  obtain ⟨k1, k2⟩ := k (by rwa [h1])
  exact ⟨k1.trans h1, k2.trans h2⟩

theorem foldl {α : Type} (f : State → α → State) (h : ∀ (s : State) (a : α), s.sameItem (f s a)) (l : List α) (s : State) :
    s.sameItem (l.foldl f s) := by
  induction l generalizing s with
  | nil => exact refl s
  | cons a rest ih => exact (h s a).trans (ih _)

/-- A mark, after what leaves the writer alone. -/
theorem mark_of {s t : State} (i : Fin 67) (hw : t.writer = s.writer) (hl : t.lastItem = s.lastItem) : s.sameItem (t.mark i) := by
  intro h
  rw [← hw] at h
  rw [← hw, ← hl]
  cases hk : t.writer with
  | idle => exact absurd hk h
  | writing j x k => unfold State.mark; split <;> simp [chooseItem, hk]

theorem mark (s : State) (i : Fin 67) : s.sameItem (s.mark i) := mark_of i rfl rfl

theorem append (s : State) (k : EventKind) (z : Option (Fin 4)) (a b : Option Nat) : s.sameItem (s.append k z a b) := by
  have hrec : s.sameItem (s.appendRecord k z a b) := by
    unfold appendRecord; dsimp only
    refine trans ?_ (mark _ _)
    exact mark_of _ rfl rfl
  unfold State.append
  split
  · split
    · unfold countRepeat; split
      · exact mark_of _ rfl rfl
      · exact refl s
    · exact hrec
  · exact hrec

theorem setZone (s : State) (z : Fin 4) (r : ZoneRec) : s.sameItem (s.setZone z r) := by
  unfold State.setZone; dsimp only; split
  · exact mark_of _ rfl rfl
  · exact fun _ => ⟨rfl, rfl⟩

theorem logCauses (s : State) (z : Fin 4) (a b : Causes) : s.sameItem (s.logCauses z a b) :=
  foldl _ (fun t _ => append t _ _ _ _) _ s

theorem announce (s : State) (z : Fin 4) (a b : ZoneState) : s.sameItem (s.announce z a b) := by
  unfold State.announce; split
  · exact refl s
  · exact (append s .zoneState (some z) (some a.code) (some b.code)).trans fun _ => by simp

theorem clearStart (s : State) (z : Fin 4) : s.sameItem (s.clearStart z) := by
  unfold State.clearStart
  split
  · exact (setZone s z _).trans ((logCauses _ z _ _).trans (announce _ z _ _))
  · exact refl s

theorem logLive (s : State) : s.sameItem s.logLive := by
  refine foldl _ (fun t c => ?_) _ s
  split
  · exact append _ _ _ _ _
  · exact refl _

end sameItem

/-- Where RUN begins with a writer that has started no item, it starts the header (R173). -/
theorem beginRun_header {s : State} (cfg : Settings) (hw : s.writer = .idle) (hl : s.lastItem = none) :
    ∃ snapshot, (s.beginRun cfg).writer = .writing itemHeader snapshot 0 ∧ (s.beginRun cfg).lastItem = some itemHeader := by
  have h1 : ∃ snapshot, (s.takeSettings cfg).writer = .writing itemHeader snapshot 0 ∧ (s.takeSettings cfg).lastItem = some itemHeader := by
    have hf : (writerOrder none).find? (fun i => (Tab.replicate 67 true).get i) = some itemHeader := rfl
    unfold takeSettings markEvery chooseItem
    simp only [hw, hl, hf, if_true]
    simp
  obtain ⟨x, h1, h2⟩ := h1
  have h3 : (s.takeSettings cfg).sameItem (s.beginRun cfg) := by
    unfold beginRun
    generalize s.takeSettings cfg = t
    have h4 : t.sameItem t.logLive := sameItem.logLive t
    have h5 : t.logLive.sameItem t.logLive.clearStarts := sameItem.foldl _ sameItem.clearStart _ _
    have h6 := h4.trans h5
    generalize t.logLive.clearStarts = v at h6 ⊢
    exact h6.trans fun _ => ⟨rfl, rfl⟩
  obtain ⟨h4, h5⟩ := h3 (by rw [h1]; intro h; cases h)
  exact ⟨x, h4.trans h1, h5.trans h2⟩

/-- START cleared in zones that stand as a restart leaves them gives no notice: VENT and PURGE have one level, and force alike (R15, R19). -/
theorem clearStarts_quiet {s : State} (h : ∀ z, s.zones.get z = { ZoneRec.initial with refresh := (s.zones.get z).refresh }) :
    s.clearStarts.agenda = s.agenda := by
  refine (clearStarts_spec (indices 4) (by decide) s).2.2.2.2.2.2 fun z hz n => ?_
  obtain ⟨-, -, -, i4, i5, -⟩ := clearStarts_spec (indices 4) (by decide) s
  have hs : (s.zones.get z).state = .vent := by rw [h z]; rfl
  have hc : (s.zones.get z).causes = { Causes.empty with start := true } := by rw [h z]; rfl
  by_cases hw : s.zoneWarm z = true
  · rw [i5 z hz hw, hc]
    unfold ZoneRec.settledBy sensorLost
    rw [hs]
    split
    · simp [noticeDue, settleState, Causes.put, Causes.empty, Causes.anyLockout, Causes.anyVent, ZoneState.level, ZoneState.forcing]
    · split
      · simp [noticeDue, settleState, Causes.put, Causes.empty, Causes.anyLockout, Causes.anyVent]
      · simp [noticeDue, settleState, Causes.put, Causes.empty, Causes.anyLockout, Causes.anyVent, ZoneState.level, ZoneState.forcing]
  · rw [i4 z (Or.inr (by simpa using hw)), hs]
    simp [noticeDue]

end State

end Sys2Proof.Machine
end

