-- ==== Sys2Proof/Laws/Snapshots.lean ====
section
/-!
SUPPORT. The bytes of READ_STORE: sixteen a line, field by field, then the LRU order (R115, R190).
-/
namespace Sys2Proof.Machine

/-- One piece of a table of pieces of one length. -/
theorem flatMap_piece {α : Type} (l : List α) (f : α → List Byte) (n : Nat) (h : ∀ x ∈ l, (f x).length = n) (i : Nat)
    (hi : i < l.length) (rest : List Byte) : ((l.flatMap f ++ rest).drop (n * i)).take n = f l[i] := by
  induction l generalizing i with
  | nil => simp at hi
  | cons a l ih =>
    cases i with
    | zero =>
      have := h a List.mem_cons_self
      simp [List.flatMap_cons, ← this]
    | succ i =>
      have ha := h a List.mem_cons_self
      rw [List.flatMap_cons, Nat.mul_succ, List.append_assoc]
      rw [show n * i + n = (f a).length + n * i by omega, List.drop_append, List.drop_eq_nil_of_le (by omega)]
      simpa using ih (fun x hx => h x (List.mem_cons_of_mem _ hx)) i (by simpa using hi)

/-- A line is sixteen bytes. -/
theorem Line.bytes_length (l : Line) : l.bytes.length = 16 := by
  obtain ⟨t, p, f, ⟨cs, hc⟩⟩ := l
  match cs, hc with
  | [a, b, c, d], _ => rfl

/-- The tag, the flags and the four cells of a line, where R190 puts them. -/
theorem Line.bytes_spec (line : Line) :
    let b := line.bytes
    fieldOf b 0 3 = (match line.tag with | some g => g.toNat | none => 0) ∧
      b[3]? = some ((if line.tag.isSome then 1#8 else 0#8) + (if line.pinned then 2#8 else 0#8) +
        (if line.filling then 4#8 else 0#8)) ∧
      ∀ k : Fin 4,
        fieldOf b (4 + 3 * k.val) 2 = (line.cells.get k).value.toNat ∧
          b[6 + 3 * k.val]? = some ((if (line.cells.get k).valid then 1#8 else 0#8) +
            (if (line.cells.get k).written then 2#8 else 0#8)) := by
  obtain ⟨t, p, f, ⟨cs, hc⟩⟩ := line
  match cs, hc with
  | [a, b, c, d], _ =>
    intro bb
    refine ⟨?_, ?_, ?_⟩
    · cases t <;> simp [bb, Line.bytes, fieldOf, leBytes, leValue]
      omega
    · cases t <;> cases p <;> cases f <;> rfl
    · have cell : ∀ (x : CellRec), ∃ u v w, x.bytes = [u, v, w] ∧ leValue [u, v] = x.value.toNat ∧
          w = (if x.valid then 1#8 else 0#8) + (if x.written then 2#8 else 0#8) := by
        rintro ⟨vd, v, wr⟩
        refine ⟨_, _, _, rfl, ?_, ?_⟩
        · simp [leValue]; omega
        · cases vd <;> cases wr <;> rfl
      obtain ⟨a1,a2,a3,ea,ha,ha'⟩ := cell a
      obtain ⟨b1,b2,b3,eb,hb,hb'⟩ := cell b
      obtain ⟨c1,c2,c3,ec,hcc,hc'⟩ := cell c
      obtain ⟨d1,d2,d3,ed,hd,hd'⟩ := cell d
      have e : bb = leBytes 3 ((t.map BitVec.toNat).getD 0) ++ [bits4 t.isSome p f false] ++
          [a1, a2, a3, b1, b2, b3, c1, c2, c3, d1, d2, d3] := by
        simp [bb, Line.bytes, ea, eb, ec, ed]
      intro k
      rw [e]
      match k with
      | ⟨0, _⟩ => exact ⟨ha, congrArg some ha'⟩
      | ⟨1, _⟩ => exact ⟨hb, congrArg some hb'⟩
      | ⟨2, _⟩ => exact ⟨hcc, congrArg some hc'⟩
      | ⟨3, _⟩ => exact ⟨hd, congrArg some hd'⟩

namespace State

/-- Line `i` of the store among the bytes of READ_STORE. -/
theorem storeBytes_line (s : State) (i : Fin 16) : (s.storeBytes.drop (16 * i.val)).take 16 = (s.store.lines.get i).bytes := by
  have h : i.val < s.store.lines.items.length := by rw [s.store.lines.size]; exact i.2
  exact flatMap_piece _ _ 16 (fun x _ => Line.bytes_length x) i.val h _

/-- The LRU order stands behind the lines. -/
theorem storeBytes_lru (s : State) :
    ∀ k i, s.store.lru[k]? = some i → s.storeBytes[256 + k]? = some (BitVec.ofNat 8 i.val) := by
  intro k i h
  have hl : (s.store.lines.items.flatMap Line.bytes).length = 256 := by
    rw [List.length_flatMap]
    rw [List.map_congr_left (fun x _ => Line.bytes_length x)]
    simp [s.store.lines.size]
  unfold storeBytes
  rw [List.getElem?_append_right (by omega), hl, Nat.add_sub_cancel_left]
  have : s.store.lru.flatMap (fun i => leBytes 1 i.val) = s.store.lru.map (fun i => BitVec.ofNat 8 i.val) := by
    induction s.store.lru with
    | nil => rfl
    | cons a l ih => simpa [leBytes] using ih
  rw [this, List.getElem?_map, h]; rfl

end State

end Sys2Proof.Machine
end

