-- ==== Sys2Proof/Laws/Tables.lean ====
section
/-!
SUPPORT. What the functions come to that a table or a list of rules gives: patterns, signal lines, the governing window, a zone's reading,
the expiry of hold entries, a part without power, and a channel as RUN begins.
-/
namespace Sys2Proof.Machine

open State

/-- The levels of the patterns over the phases of a second (R164). -/
theorem pattern_levels (b : Bool) (phase : Nat) : (Pattern.steady b).level phase = b ∧ (phase < 1000 →
    (Pattern.slow.level phase = true ↔ phase < 500) ∧
      (Pattern.fast.level phase = true ↔
        phase < 125 ∨ (250 ≤ phase ∧ phase < 375) ∨ (500 ≤ phase ∧ phase < 625) ∨ (750 ≤ phase ∧ phase < 875))) := by
  refine ⟨rfl, fun h => ⟨by simp [Pattern.level], ?_⟩⟩
  simp only [Pattern.level, decide_eq_true_eq]
  omega

/-- In a sound cell store the line that holds a tag is found by it (R101). -/
theorem CellStore.find_of_sound {c : CellStore} (h : c.sound) {i : Fin 16} {g : Addr} (ht : (c.lines.get i).tag = some g) :
    c.find g = some i := by
  unfold CellStore.find
  cases hf : (indices 16).find? (fun i => (c.lines.get i).tag == some g) with
  | none => rw [List.find?_eq_none] at hf; exact absurd (by simp [ht]) (hf i (by simp))
  | some j =>
    have := List.find?_some hf
    simp only [beq_iff_eq] at this
    rw [h.2 j i g this ht]

/-- A tag that no line holds finds no line. -/
theorem CellStore.find_eq_none {c : CellStore} {g : Addr} (h : ∀ i, (c.lines.get i).tag ≠ some g) : c.find g = none := by
  unfold CellStore.find
  rw [List.find?_eq_none]
  intro i _; simpa using h i

/-- What a signal line shows in RUN, by the tables of its group's function (R163, R165 to R168). -/
theorem linePattern_spec (s : State) (i : Fin 8) (g : Fin 2) (z : Fin 4) (hg : g.val = i.val / 4) (hz : z.val = i.val % 4) :
    let zone := s.zones.get z
    let shows := s.linePattern i
    let a := s.cfg.cellAddrs.get i
    (s.cfg.groups.get g = .lamps →
      (zone.state = .clear → shows = .steady false) ∧ (zone.state = .alert ∨ zone.state = .purge → shows = .steady true) ∧
        (zone.state = .vent → shows = if zone.unack then .slow else .steady true) ∧
        (zone.state = .lockout → shows = if zone.unack then .fast else .slow)) ∧
    (s.cfg.groups.get g = .sounders →
      (zone.state = .vent ∨ zone.state = .lockout → shows = .steady zone.unack) ∧
        (zone.state = .clear ∨ zone.state = .alert ∨ zone.state = .purge → shows = .steady false)) ∧
    (s.cfg.groups.get g = .cell → s.store.sound →
      (∀ (line : Fin 16) (k : Fin 4), (s.store.lines.get line).tag = some (groupOf a) → k.val = a.toNat / 2 % 4 →
        let cell := (s.store.lines.get line).cells.get k
        shows = .steady (if cell.valid then decide (cell.value ≠ 0#16) else s.lines.hold.get i)) ∧
        ((∀ line, (s.store.lines.get line).tag ≠ some (groupOf a)) → shows = .steady (s.lines.hold.get i))) ∧
    (s.cfg.groups.get g = .fixed → shows = .steady (s.cfg.fixedLevels.get i)) := by
  have hG : lineGroup i = g := Fin.ext hg.symm
  have hZ : lineZone i = z := Fin.ext hz.symm
  intro zone shows a
  have hs : shows = s.linePattern i := rfl
  clear_value shows
  unfold linePattern at hs
  rw [hG, hZ] at hs
  have hzone : zone = s.zones.get z := rfl
  rw [← hzone] at hs
  clear_value zone
  dsimp only at hs
  obtain ⟨st, cs, un, rd, pk, pu, rf⟩ := zone
  refine ⟨fun h => ?_, fun h => ?_, fun h hst => ⟨fun line k ht hk => ?_, fun hn => ?_⟩, fun h => ?_⟩ <;> rw [h] at hs <;>
    dsimp only at hs ⊢
  · cases st <;> cases un <;> simp_all [lampPattern]
  · cases st <;> cases un <;> simp_all [sounderPattern]
  · rw [hs]
    unfold lineCell
    rw [CellStore.find_of_sound hst ht]
    have hkk : cellIndex (s.cfg.cellAddrs.get i) = k := Fin.ext hk.symm
    dsimp only
    rw [hkk]
    unfold CellStore.cell
    cases ((s.store.lines.get line).cells.get k).valid <;> simp [bne]
    rw [Bool.eq_iff_iff]; simp
  · rw [hs]
    unfold lineCell
    rw [CellStore.find_eq_none hn]
  · exact hs

/-- What governs an address (R62). -/
theorem governing_spec (cfg : Settings) (a : Addr) :
    let inReport := ∃ b, cfg.reportBase = some b ∧ b.toNat ≤ a.toNat ∧ a.toNat < b.toNat + 1024
    (inReport → cfg.governing a = .report) ∧
      (¬inReport → ∀ i, (cfg.windows.get i).contains a → (∀ j, j < i → ¬(cfg.windows.get j).contains a) →
        cfg.governing a = .window (cfg.windows.get i)) ∧
      (¬inReport → (∀ i, ¬(cfg.windows.get i).contains a) → cfg.governing a = .nothing) := by
  intro inReport
  have hr : cfg.inReport a = true ↔ inReport := by
    unfold Settings.inReport inReport
    cases cfg.reportBase <;> simp
  have hc : ∀ w : Window, w.covers a = true ↔ w.contains a := by
    intro w; simp [Window.covers, Window.contains, and_assoc]
  refine ⟨fun h => ?_, fun h i hi hlt => ?_, fun h hn => ?_⟩
  · unfold Settings.governing; rw [if_pos (hr.mpr h)]
  · unfold Settings.governing; rw [if_neg (fun x => h (hr.mp x))]
    rw [(find_window (p := fun w => w.covers a) (cfg.windows.get i)).mpr ⟨i, rfl, (hc _).mpr hi, fun j hj => by
      rw [Bool.eq_false_iff]; exact fun x => hlt j hj ((hc _).mp x)⟩]
  · unfold Settings.governing; rw [if_neg (fun x => h (hr.mp x))]
    have : cfg.windows.items.find? (fun w => w.covers a) = none := by
      cases hf : cfg.windows.items.find? (fun w => w.covers a) with
      | none => rfl
      | some w =>
        obtain ⟨i, hw, hcw, _⟩ := (find_window (p := fun w => w.covers a) w).mp hf
        exact absurd ((hc _).mp (hw ▸ hcw)) (hn i)
    rw [this]

/-- The greatest of some optional readings: absent where all are, else one of them that none exceeds. -/
theorem maxReading_fold (l : List (Fin 8)) (f : Fin 8 → Option Nat) (m : Option Nat) :
    (l.foldl (fun m c => maxReading m (f c)) m = none ↔ m = none ∧ ∀ c ∈ l, f c = none) ∧
    ∀ v, l.foldl (fun m c => maxReading m (f c)) m = some v ↔
      (m = some v ∨ ∃ c ∈ l, f c = some v) ∧ (∀ w, m = some w → w ≤ v) ∧ ∀ c ∈ l, ∀ w, f c = some w → w ≤ v := by
  induction l generalizing m with
  | nil =>
    refine ⟨by simp, fun v => ?_⟩
    simp only [List.foldl_nil, List.not_mem_nil, false_and, exists_false, or_false, false_implies, implies_true, and_true]
    constructor
    · rintro h; refine ⟨h, fun w hw => ?_⟩; rw [h] at hw; cases hw; exact le_refl _
    · exact fun h => h.1
  | cons c l ih =>
    obtain ⟨i1, i2⟩ := ih (maxReading m (f c))
    refine ⟨?_, fun v => ?_⟩
    · rw [List.foldl_cons, i1]
      cases m <;> cases hf : f c <;> simp [maxReading, hf]
    · rw [List.foldl_cons, i2]
      cases m with
      | none => cases hf : f c <;> simp [maxReading, hf]
      | some a =>
        cases hf : f c with
        | none => simp [maxReading, hf]
        | some b =>
          simp only [maxReading, Option.some.injEq, List.mem_cons, exists_eq_or_imp, forall_eq_or_imp, hf, forall_eq']
          constructor
          · rintro ⟨h1, h2, h3⟩
            refine ⟨?_, by omega, by omega, h3⟩
            rcases h1 with h1 | h1
            · rcases Nat.le_total a b with h | h
              · right; left; omega
              · left; omega
            · exact Or.inr (Or.inr h1)
          · rintro ⟨h1, h2, h3, h4⟩
            refine ⟨?_, by omega, h4⟩
            rcases h1 with h1 | h1 | h1
            · left; omega
            · left; omega
            · exact Or.inr h1

/-- A zone's reading is the greatest that its channels give, absent where none gives one (R6, R26, R29, R37). -/
theorem gasReading_spec (s : State) (z : Fin 4) :
    let gives := fun (c : Fin 8) (v : Nat) =>
      let r := s.chans.get c
      (s.cfg.channels.get c).zone = some z ∧
        (r.test = some v ∨ (r.test = none ∧ r.sample = .live ∧ r.filter ≠ [] ∧ v = r.filter.sum / r.filter.length))
    (s.gasReading z = none ↔ ∀ c v, ¬gives c v) ∧
      ∀ v, s.gasReading z = some v ↔ (∃ c, gives c v) ∧ ∀ c w, gives c w → w ≤ v := by
  intro gives
  have hg : ∀ c v, gives c v ↔ c ∈ s.zoneChannels z ∧ contribution (s.cfg.channels.get c) (s.chans.get c) = some v := by
    intro c v
    unfold gives zoneChannels contribution chanState
    simp only [List.mem_filter, indices, List.mem_finRange, true_and, beq_iff_eq]
    refine and_congr_right fun hz => ?_
    rw [hz]
    generalize s.chans.get c = r
    obtain ⟨sm, te, ti, wa, fi, ba, go, ra⟩ := r
    cases te <;> cases sm <;> cases fi <;> simp [meanOf, eq_comm]
  obtain ⟨h1, h2⟩ := maxReading_fold (s.zoneChannels z) (fun c => contribution (s.cfg.channels.get c) (s.chans.get c)) none
  refine ⟨?_, fun v => ?_⟩
  · unfold gasReading
    rw [h1]
    simp only [hg, true_and]
    constructor
    · rintro h c v ⟨hc, hv⟩; rw [h c hc] at hv; cases hv
    · intro h c hc
      cases hv : contribution (s.cfg.channels.get c) (s.chans.get c) with
      | none => rfl
      | some v => exact absurd ⟨hc, hv⟩ (h c v)
  · unfold gasReading
    rw [h2]
    simp only [hg, reduceCtorEq, false_or, false_implies, implies_true, true_and]
    exact and_congr Iff.rfl ⟨fun h c w hc => h c hc.1 w hc.2, fun h c hc w hw => h c w ⟨hc, hw⟩⟩

/-- The expiry of hold entries takes their waiting placements and leaves the others in their order (R123). -/
theorem expireHolds_waiting (s : State) :
    (s.expireHolds).waiting =
      s.waiting.filter (fun q => !s.hold.any (fun e => decide (e.expiry ≤ s.time.seconds) && q.isHoldOf e.cell)) := by
  have key : ∀ (l : List HoldEntry) (s : State),
      (l.foldl (fun s e => (s.dropHold e.cell).append .holdExpired (some e.zone) (some e.cell.toNat) (some e.value.toNat)) s).waiting =
        s.waiting.filter (fun q => !l.any (fun e => q.isHoldOf e.cell)) := by
    intro l
    induction l with
    | nil => intro s; simp
    | cons e l ih =>
      intro s
      rw [List.foldl_cons, ih]
      have : ((s.dropHold e.cell).append .holdExpired (some e.zone) (some e.cell.toNat) (some e.value.toNat)).waiting =
          s.waiting.filter (fun q => !q.isHoldOf e.cell) := by
        simp [dropHold]
      rw [this, List.filter_filter]
      apply List.filter_congr
      intro q _
      simp [Bool.and_comm]
  unfold expireHolds
  rw [key]
  apply List.filter_congr
  intro q _
  rw [List.any_filter]

/-- Without power or held in RESET the part holds no state (R186). -/
theorem dark_holds_nothing (s : State) (supply : Supply) (resetLine : Bool) :
    let t := s.dark supply resetLine
    (∀ z, t.zones.get z = ZoneRec.initial) ∧ (∀ c, t.chans.get c = ChanRec.initial false) ∧ t.scan = [] ∧
      (∀ l, t.spills.get l = SpillRec.initial) ∧ (∀ i, t.tachs.get i = TachRec.initial) ∧ t.windowOpen = false ∧
      (∀ e, t.force.get e = ForceRec.initial) ∧ t.sweep = none ∧ t.requests = [] ∧ t.cfg = Settings.unset ∧
      (∀ i, t.store.lines.get i = Line.empty) ∧ t.store.fill = none ∧ t.store.list = [] ∧ t.store.checkerClaim = none ∧
      t.store.engineClaim = none ∧ t.checker = .idle ∧ t.upstream = .idle ∧ t.port = Downstream.initial ∧ t.writer = .idle ∧
      (∀ i, t.marks.get i = false) ∧ t.agenda = [] ∧ t.maint.reply = .none := by
  intro t
  refine ⟨?_, ?_, rfl, ?_, ?_, rfl, ?_, rfl, rfl, rfl, ?_, rfl, rfl, rfl, rfl, rfl, rfl, rfl, rfl, ?_, rfl, rfl⟩ <;> intro x <;>
    simp [t, dark, State.reset, CellStore.initial]

/-- A channel's record as RUN begins (R30, R38). -/
theorem chanAtRun_spec (cfg : ChanCfg) (old : ChanRec) :
    let kept := old.warm
    let new := chanAtRun cfg old
    new.test = none ∧ new.filter = [] ∧ new.bad = 0 ∧ new.good = 0 ∧ new.raw = none ∧
      (cfg.zone = none → new.warm = false ∧ new.timer = .stopped ∧ new.sample = .warmup) ∧
      (cfg.zone ≠ none → kept = true ∨ cfg.warmUp = 0 → new.sample = .live ∧ new.warm = true ∧ new.timer = .stopped) ∧
      (cfg.zone ≠ none → kept = false → cfg.warmUp ≠ 0 →
        new.sample = .warmup ∧ new.warm = false ∧ new.timer = .running cfg.warmUp) := by
  unfold chanAtRun
  cases hz : cfg.zone <;> cases hw : old.warm <;> by_cases h0 : cfg.warmUp = 0 <;> simp [ChanRec.initial, Timer.start, h0]

end Sys2Proof.Machine
end

