-- ==== Sys2Proof/Tests/Slice0.lean ====
section
/-!
SUPPORT. Tests: the WellFormed checks with ill-formed terms, one step of a command on a small state (the worked tables of spec/), and for
every statement with hypotheses a state that meets them.
-/
namespace Sys2Proof.Tests

set_option Elab.async false

open Sys2Proof.Machine State

/-! ## A small room -/

def win (cls : WinClass) (zone : Fin 4) (profile : Fin 8) (func : WatchFn) (style : Style) (base : Addr) (e : Nat) : Window :=
  { enabled := true, cls := cls, zone := zone, profile := profile, func := func, style := style, base := base, sizeExp := e }

def bounds (low high : Half) (rule : BoundsRule) : LevelBounds := { low := low, high := high, rule := rule }

def levels (a b c : LevelBounds) : Tab LevelBounds 4 := (((Tab.replicate 4 c).set 0 a).set 1 b)

/-- The three profiles of spec 05 section 5.9. -/
def fanProfile : Profile :=
  { levels := levels (bounds 0 1000 .clamp) (bounds 300 1000 .clamp) (bounds 800 1000 .clamp), fall := 200, rise := 0,
    unknown := .boundsOnly, holdLimit := 60 }
def damperProfile : Profile :=
  { levels := levels (bounds 0 100 .clamp) (bounds 20 100 .clamp) (bounds 100 100 .hold), fall := 25, rise := 0,
    unknown := .refuse, holdLimit := 600 }
def chargerProfile : Profile :=
  { levels := levels (bounds 0 2 .refuse) (bounds 0 1 .hold) (bounds 0 1 .hold), fall := 0, rise := 0,
    unknown := .boundsOnly, holdLimit := 3600 }

abbrev fan : Addr := 0x100020
abbrev damper : Addr := 0x100028
abbrev charger : Addr := 0x100030

/-- The windows, thresholds, inputs and force entries of a room, after the worked sections of spec/. A window has one profile (R81), so
each profile's cell stands in a window of its own. -/
def room : Settings :=
  { Settings.unset with
    reportBase := some 0x200000#24
    windows := (((((((((Settings.unset.windows.set 0 (win .checked 0 1 .acknowledge .report fan 3)).set 1
      (win .checked 0 2 .acknowledge .report damper 3)).set 2 (win .checked 0 3 .acknowledge .report charger 3)).set 3
      (win .watched 0 0 .acknowledge .report 0x100000 3)).set 4 (win .watched 1 0 .heartbeat .report 0x100008 3)).set 5
      (win .watched 0 0 .logClear .report 0x100010 3)).set 6 (win .barred 0 0 .acknowledge .absorb 0x101000 12)).set 7
      (win .open_ 0 0 .acknowledge .report 0x104000 3)).set 8 (win .watched 2 0 .heartbeat .report 0x105000 3))
    profiles := ((Settings.unset.profiles.set 1 fanProfile).set 2 damperProfile).set 3 chargerProfile
    zones := (Tab.replicate 4 { alert := 100, vent := 200, high := 400, hysteresis := 20, purgeTime := 300, refreshPeriod := 0 }).set 1
      { alert := 100, vent := 200, high := 400, hysteresis := 20, purgeTime := 300, refreshPeriod := 50 }
    channels := Settings.unset.channels.set 2
      { zone := some 1, rawZero := 410, span := 160, openLimit := 200, overLimit := 3900, warmUp := 0 }
    spills := Settings.unset.spills.set 7 { zone := some 3, wetHigh := false, debounce := 20 }
    tachs := Settings.unset.tachs.set 3 { binding := some 0, pulses := 2, proofSpeed := 900, proofDelay := 20 }
    forces := ((Settings.unset.forces.set 0
      (some { zone := 0, cell := fan, sense := .floor, forced := 800, release := .keep })).set 1
      (some { zone := 0, cell := damper, sense := .exact_, forced := 100, release := .restore }))
    groups := Settings.unset.groups.set 1 .sounders }

def calm : ZoneRec := { ZoneRec.initial with state := .clear, causes := Causes.empty, unack := false }

/-- The room in RUN: every zone CLEAR, channels LIVE, nothing queued, the log empty, the commissioning line asserted. -/
def run0 : State :=
  { State.reset with
    mode := .run
    cfg := room
    zones := Tab.replicate 4 calm
    chans := Tab.replicate 8 { ChanRec.initial true with sample := .live }
    log := { State.reset.log with records := [], nextSeq := 0 }
    maint := { State.reset.maint with line := true, sampled := true }
    lines :=
      { fanRun := Tab.replicate 4 false, charger := false, attention := false,
        signals := Tab.replicate 8 { pattern := .steady false, level := false }, hold := Tab.replicate 8 false } }

/-- The state a command leaves. -/
def after (c : Instr) (s : State) : State :=
  match exec c s with
  | .next t => t
  | .fault _ | .refused _ => s

/-- Zone `z` in a state by a cause set. -/
def inZone (z : Fin 4) (st : ZoneState) (cs : Causes) (s : State) : State :=
  { s with zones := s.zones.set z { s.zones.get z with state := st, causes := cs } }

/-- Line 3 of the cell store holding a group and believing one value in its first cell. -/
def beliefLine (g : Addr) (v : Half) : Line :=
  { Line.empty with
    tag := some g
    cells := Line.empty.cells.set 0 { valid := true, value := v, written := false } }

def believing (g : Addr) (v : Half) (s : State) : State :=
  { s with store := { s.store with lines := s.store.lines.set 3 (beliefLine g v) } }

/-- Entry `e` of the force engine in a state. -/
def inForce (e : Fin 16) (st : ForceState) (s : State) : State :=
  { s with force := s.force.set e { s.force.get e with state := st } }

abbrev alertCause : Causes := { Causes.empty with h2Alert := true }
abbrev ventCause : Causes := { Causes.empty with h2Vent := true }

/-! ## Ill-formed commands (spec 00 section 7.1, R188) -/

theorem test_wf_data_beyond_width : (Instr.hostWrite 0 .w1 256#32).wf = false ∧ (Instr.hostWrite 0 .w2 65536#32).wf = false ∧
    (Instr.hostWrite 0 .w1 255#32).wf = true := by decide
theorem test_wf_stage_short : (Instr.writeStage 0 2 [0]).wf = false ∧ (Instr.writeStage 0 2 [0, 0]).wf = true := by decide
theorem test_wf_unknown_frame : (Instr.unknownCommand [0x02]).wf = false ∧ (Instr.unknownCommand []).wf = false ∧
    (Instr.unknownCommand [0x7F]).wf = true ∧ (Instr.unknownCommand [0x12, 0]).wf = true := by decide

/-- The table gives no bits, so no word spells a command (log 35). -/
theorem test_no_word_spells_a_command : decodeTableWord 8 0x12 = none ∧ State.reset.withFetchWord 8 0x12 = State.reset := ⟨rfl, rfl⟩

/-! ## Power and restarts -/

theorem test_supply_rise : ((after (.supplyRise 0x81) State.reset).lines.hold.get 7, (after (.supplyRise 0x81) State.reset).lines.hold.get 1,
    (after (.supplyRise 0x81) State.reset).mode) = (true, false, .loading) := by decide +kernel
theorem test_brown_out : ((after .brownOut run0).alive, (after .brownOut run0).lines.charger, (after .brownOut run0).log.records) =
    (false, true, []) := by decide +kernel
theorem test_reset_cycle : ((after .resetAssert run0).alive, (after (.resetRelease 0) (after .resetAssert run0)).alive) = (false, true) := by
  decide +kernel
theorem test_commit_restart : ((after (.storeWriteComplete true) { run0 with maint := { run0.maint with storing := true } }).log.commitCount,
    ((after (.storeWriteComplete true) { run0 with maint := { run0.maint with storing := true } }).chans.get 2).warm) = (1, true) := by
  decide +kernel
theorem test_unreadable_store : (after (.loadingEnd false) State.reset).mode = .fallback ∧
    ((after (.loadingEnd false) State.reset).log.records.getLast?.bind Record.value) = some 1 := by decide +kernel

/-- A supply that falls and rises in a store write cuts it: LOADING ends in FALLBACK (R186, log 13). -/
theorem test_store_write_cut :
    (after (.loadingEnd true) (after (.supplyRise 0) { run0 with maint := { run0.maint with storing := true } })).mode = .fallback := by
  decide +kernel

/-! ## Images (R182, R183) -/

/-- The check value of the CRC-32 (R182). -/
theorem test_crc32 : crc32 ([0x31, 0x32, 0x33, 0x34, 0x35, 0x36, 0x37, 0x38, 0x39] : List Byte) = 0xCBF43926 := by decide +kernel

theorem test_crc_is_over_the_first_2044_bytes : crc32 ([] : List Byte) = 0 ∧ crc32 ([0x61] : List Byte) = 0xE8B7BE43 := by decide +kernel

/-! ## Time -/

theorem test_tick_1ms : ((after (.tick1ms false) run0).time.phase, (after (.tick1ms false) run0).maint.lineDue) = (1, some false) := by decide +kernel
theorem test_tick_1ms_boundary :
    (after (.tick1ms true) { run0 with time := { run0.time with phase := 124 } }).time.pulseDue = true := by decide +kernel
/-- The room with the longer ticks due. -/
def ticking : State := { run0 with time := { run0.time with tenthDue := true, secondDue := true } }

theorem test_tick_100ms : (after .tick100ms ticking).scan = [2] ∧ ((after .tick100ms ticking).spills.get 7).due = true ∧
    ((after .tick100ms ticking).spills.get 6).due = false ∧ (after .tick100ms run0).scan = [] := by decide +kernel
theorem test_tick_1s : ((after .tick1s ticking).time.seconds, (after .tick1s ticking).windowOpen,
    ((after .tick1s { ticking with windowOpen := true }).tachs.get 3).due, (after .tick1s run0).time.seconds) = (1, true, true, 0) := by
  decide +kernel
/-- The tenth 1 ms tick makes a 100 ms tick due, and the tenth 100 ms tick a 1 s tick (R1). -/
theorem test_ticks_count :
    ((after (.tick1ms true) { run0 with time := { run0.time with shortTicks := 8 } }).time.tenthDue,
      (after (.tick1ms true) { run0 with time := { run0.time with shortTicks := 9 } }).time.tenthDue) = (false, true) ∧
      ((after .tick100ms { ticking with time := { run0.time with tenthDue := true, tenths := 8 } }).time.secondDue,
        (after .tick100ms { ticking with time := { run0.time with tenthDue := true, tenths := 9 } }).time.secondDue) = (false, true) := by
  decide +kernel
theorem test_pulse_boundary : ((after .pulseBoundary
    { run0 with
      lines := { run0.lines with signals := run0.lines.signals.set 1 { pattern := .fast, level := false } }
      time := { run0.time with phase := 250, pulseDue := true } }).lines.signals.get 1).level = true := by decide +kernel

/-! ## Channels, spill lines, tachs and zones (sections 2.11, 3.2, 3.6, 1.7) -/

/-- A LIVE channel takes raw code 506: 60 hundredths of a percent, which the zone reads. -/
theorem test_channel_sample :
    let t := after (.channelSample 2 506) { run0 with scan := [2] }
    ((t.chans.get 2).filter, (t.chans.get 2).good, (t.zones.get 1).reading, t.scan) = ([60], 1, some 60, []) := by decide +kernel
/-- The third bad sample in a row faults the channel, and its zone loses its sensor. -/
theorem test_channel_fault :
    let t := after (.channelSample 2 0)
      { run0 with scan := [2], chans := run0.chans.set 2 { run0.chans.get 2 with bad := 2 } }
    ((t.chans.get 2).sample, (t.zones.get 1).causes.sensorLost, (t.zones.get 1).state) = (.fault, true, .vent) := by decide +kernel
theorem test_warm_up_expiry :
    let t := after (.warmUpExpiry 2)
      { run0 with chans := run0.chans.set 2 { ChanRec.initial false with timer := .due } }
    ((t.chans.get 2).sample, (t.chans.get 2).warm) = (.live, true) := by decide +kernel
/-- The twentieth wet sample of line 7 turns it WET and zone 3 to VENT. -/
theorem test_spill_turns_wet :
    let t := after (.spillSample 7 false)
      { run0 with spills := run0.spills.set 7 { SpillRec.initial with run := 19, due := true } }
    ((t.spills.get 7).wet, (t.zones.get 3).causes.spill, (t.zones.get 3).state) = (true, true, .vent) := by decide +kernel
theorem test_spill_run_ends :
    let t := after (.spillSample 7 true)
      { run0 with spills := run0.spills.set 7 { SpillRec.initial with run := 6, due := true } }
    ((t.spills.get 7).wet, (t.spills.get 7).run, t.log.records) = (false, 0, []) := by decide +kernel
theorem test_tach_pulse : ((after (.tachPulse 3) { run0 with windowOpen := true }).tachs.get 3).count = 1 := by decide +kernel
/-- Thirty pulses at two per revolution are 900 revolutions a minute, the proof speed. -/
theorem test_window_event :
    let t := after (.windowEvent 3)
      { run0 with tachs := run0.tachs.set 3 { TachRec.initial with state := .proving, count := 30, due := true, timer := .running 5 } }
    ((t.tachs.get 3).speed, (t.tachs.get 3).count, (t.tachs.get 3).timer) = (some 900, 0, .stopped) := by decide +kernel
/-- The only required tach of a zone in LOCKOUT fails: FAN_FAULT sets. -/
theorem test_delay_timer_expiry :
    let t := after (.delayTimerExpiry 3)
      (inForce 0 .active (inZone 0 .lockout { ventCause with ventUnproven := true }
        { run0 with tachs := run0.tachs.set 3 { TachRec.initial with state := .proving, required := true, timer := .due } }))
    ((t.tachs.get 3).state, (t.zones.get 0).causes.fanFault, (t.zones.get 0).causes.ventUnproven) = (.failed, true, true) := by
  decide +kernel
/-- The notice of a zone that stops forcing, given behind the engine's own, is taken before the engine goes on: its tachs cease to be
required before its entries are IDLE (R50). -/
theorem test_engine_waits_for_the_forcing_change :
    let s := inForce 0 .active { run0 with agenda := [.engineGo, .forcingChange 0] }
    s.pickNotice.map Prod.fst = some (.forcingChange 0) ∧ { s with agenda := [.engineGo] }.pickNotice.map Prod.fst = some .engineGo := by
  decide +kernel
theorem test_refresh_expiry :
    let t := after (.refreshExpiry 1)
      { run0 with zones := run0.zones.set 1 { calm with refresh := .due } }
    ((t.zones.get 1).causes.hostLost, (t.zones.get 1).state, (t.zones.get 1).refresh, t.lines.fanRun.get 1) = (true, .vent, .rested, true) := by
  decide +kernel
theorem test_purge_expiry :
    let t := after (.purgeExpiry 1)
      { run0 with zones := run0.zones.set 1 { calm with state := .purge, purge := .due, causes := alertCause } }
    ((t.zones.get 1).state, (t.zones.get 1).purge) = (.alert, .stopped) := by decide +kernel

/-! ## The host port and the write check (sections 4.8 and 5.9) -/

theorem test_write_misaligned :
    let t := after (.hostWrite 0x100021 .w2 0) run0
    (t.responses, t.log.records.map (fun r => (r.kind, r.zone, r.subject, r.value))) =
      ([{ kind := .refused, data := none }], [(.misaligned, none, some 0x100021, some 2)]) := by decide +kernel
/-- 400 to a fan cell at level 2 is raised to 800 and answered ALTERED. -/
theorem test_write_clamped :
    let t := after (.hostWrite fan .w2 400)
      (believing fan 900 (inZone 0 .vent ventCause run0))
    (t.posted.map Posted.data, t.responses) = ([800], [{ kind := .altered, data := none }]) := by decide +kernel
theorem test_read_waits :
    let t := after (.hostRead 0x104000 .w4) run0
    (t.upstream, t.responses, t.port.state) =
      (.reading 0x104000 .w4 none true, [],
        .busy { who := .transit, write := false, addr := 0x104000, width := .w4, data := 0 }) := by decide +kernel
theorem test_read_misaligned : (after (.hostRead 0x104002 .w4) run0).responses = [{ kind := .refused, data := none }] := by decide +kernel
/-- The checker takes the value it waited for: 750 is within 200 of 900 and in bounds. -/
theorem test_claim_settlement :
    let t := after (.claimSettlement .checker)
      { run0 with
        upstream := .judging
        checker := .awaiting fan 750 0 1 .report false
        store := { run0.store with checkerClaim := some { cell := fan, stage := .settled (some 900), abandoned := false } } }
    (t.checker, t.store.checkerClaim, t.responses, t.posted.map Posted.data) =
      (.idle, none, [{ kind := .done, data := none }], [750]) := by decide +kernel
theorem test_placement_enters :
    let t := after .placementEnters
      { run0 with
        upstream := .placing
        waiting := [{ source := .host .altered none, addr := 0x104000, width := .w4, data := 7, checked := false, zone := none }] }
    (t.waiting, t.posted.map Posted.addr, t.responses, t.upstream) = ([], [0x104000], [{ kind := .altered, data := none }], .idle) := by
  decide +kernel
abbrev held : HoldEntry :=
  { cell := charger, value := 1, zone := 0, profile := 3, origin := .host, entered := 0, expiry := 10, releasing := false }
theorem test_upstream_reset :
    let t := after .upstreamReset { run0 with hold := [held], upstream := .judging }
    (t.hold, t.upstream, t.log.records.map (fun r => (r.kind, r.value)), t.busReset) = ([], .idle, [(.holdDiscarded, some 1)], true) := by
  decide +kernel
theorem test_upstream_reset_release : (after .upstreamResetRelease { run0 with busReset := true }).busReset = false := by decide +kernel
theorem test_hold_expiry :
    let t := after .holdExpiry { run0 with hold := [held], time := { run0.time with seconds := 10 } }
    (t.hold, t.posted, t.log.records.map (fun r => r.kind)) = ([], [], [.holdExpired]) := by decide +kernel
theorem test_retry_timer_expiry :
    let t := after (.retryTimerExpiry 0)
      (inZone 0 .vent ventCause { run0 with force := run0.force.set 0 { ForceRec.initial with state := .failed, retry := .due } })
    ((t.force.get 0).retry, (t.force.get 0).state) = (.stopped, .applying) := by decide +kernel

/-! ## The downstream port -/

abbrev reportWrite : Transfer := { who := .report, write := true, addr := 0x200000, width := .w4, data := 0 }
abbrev hostReadBusy : Transfer := { who := .transit, write := false, addr := 0x104000, width := .w4, data := 0 }
def readFlying : State :=
  { run0 with
    upstream := .reading 0x104000 .w4 none true
    port := { run0.port with state := .busy hostReadBusy, timeout := .running 1 } }

theorem test_memory_answer :
    let t := after (.memoryAnswer true 0xABCD) readFlying
    (t.responses, t.upstream, t.port.state) = ([{ kind := .done, data := some 0xABCD }], .idle, .idle) := by decide +kernel
theorem test_downstream_timeout :
    let t := after .downstreamTimeout
      { readFlying with port := { readFlying.port with timeout := .due } }
    (t.responses, t.log.records.map (fun r => r.kind), t.port.state) = ([{ kind := .refused, data := none }], [.readFault], .settling) := by
  decide +kernel
theorem test_settling_end : (after .settlingEnd { run0 with port := { run0.port with state := .settling, settleDue := true } }).port.state = .idle := by
  decide +kernel
theorem test_report_aging : (after .reportAgingExpiry
    { readFlying with
      port := { readFlying.port with aging := .due }
      writer := .writing 0 [1, 2, 3, 4] 0 }).port.aged = true := by decide +kernel

/-- The writer takes the header at the first append of an event, so a second append marks it again (R173, log 20). -/
theorem test_writer_takes_at_once :
    let t := (run0.append .spillDry none none none).append .spillDry none none none
    (t.marks.get itemHeader, match t.writer with | .writing i bytes _ => (i.val, bytes.getD 18 0) | .idle => (67, 0)) =
      (true, 0, 1) := by decide +kernel
/-- A hold entry replaced by an equal one marks the mirror (R130). -/
theorem test_equal_hold_marks :
    let s := { run0 with hold := [{ held with expiry := 3600 }], writer := .writing 0 [] 0 }
    let t := s.joinHold charger 1 0 3 .host
    (t.hold, t.marks.get itemHold) = (s.hold, true) := by decide +kernel
/-- A listed abandoned claim for a pinned line stands in for its repair (R104, R111). -/
theorem test_abandoned_claim_repairs :
    let line : Line := { beliefLine fan 7 with pinned := true }
    let c : CellStore :=
      { CellStore.initial with
        lines := CellStore.initial.lines.set 3 line
        list := [{ group := fan, start := 0, who := .abandoned }] }
    (c.repair 3 fan 0).list = c.list ∧ ({ c with list := [] }.repair 3 fan 0).list = [{ group := fan, start := 0, who := .nobody }] := by
  decide +kernel

/-! ## The maintenance port -/

theorem test_line_release_ends_tests :
    let t := after .commissioningLineChange
      { run0 with
        maint := { run0.maint with lineDue := some false }
        chans := run0.chans.set 2 { run0.chans.get 2 with test := some 40 } }
    ((t.chans.get 2).test, t.maint.line, t.log.records.map (fun r => r.kind)) = (none, false, [.testEnd]) := by decide +kernel
theorem test_status : ((after .status run0).maint.reply, run0.statusBytes.take 6) = (.ok run0.statusBytes, [1, 1, 0, 0, 0, 0]) := by decide +kernel
theorem test_read_log : (after .readLog { run0 with log := State.reset.log }).maint.reply =
    .ok [1, 0, 0, 64, 255, 0, 0, 0, 0, 0, 0, 0, 0, 1, 0, 1, 4] := by decide +kernel
theorem test_read_store : (match (after .readStore (believing fan 0x0102 run0)).maint.reply with | .ok bs => bs.length | _ => 0) = 272 := by
  decide +kernel
theorem test_read_image : (after (.readImage 4 2 true) { run0 with nv := { image := [⟨5, 9⟩], torn := none } }).maint.reply = .ok [0, 9] := by
  decide +kernel
theorem test_write_stage : ((after (.writeStage 2046 2 [7, 0]) run0).staging, (after (.writeStage 2047 2 [7, 0]) run0).maint.reply) =
    ([⟨2046, 7⟩], .badCommand) := by decide +kernel
theorem test_commit_rejected : (after .commit { run0 with staging := [(2047, 1)] }).maint.reply = .rejected 1 := by decide +kernel
theorem test_test_reading :
    let t := after (.testReading 2 105) run0
    ((t.zones.get 1).reading, (t.zones.get 1).state, t.maint.reply) = (some 105, .alert, .ok []) := by decide +kernel
theorem test_end_test :
    let t := after (.endTest 2)
      { run0 with
        chans := run0.chans.set 2 { run0.chans.get 2 with test := some 40 }
        zones := run0.zones.set 1 { calm with reading := some 40, peak := some 40 } }
    ((t.chans.get 2).test, t.maint.reply) = (none, .ok []) := by decide +kernel
theorem test_acknowledge :
    let t := after (.acknowledge 1)
      { run0 with zones := run0.zones.set 1 { calm with state := .lockout, unack := true, reading := some 390 } }
    ((t.zones.get 1).state, (t.zones.get 1).unack, (t.zones.get 1).peak) = (.purge, false, some 390) := by decide +kernel
theorem test_denied : (after (.acknowledge 1) { run0 with maint := { run0.maint with line := false } }).maint.reply = .denied := by
  decide +kernel
theorem test_unknown_command : (after (.unknownCommand [0x7F]) run0).maint.reply = .badCommand := by decide +kernel
/-- A frame that spells a command is run as it, and its reply is clocked out (R187, R188). -/
theorem test_frame_that_spells :
    (after (.unknownCommand [0x01]) run0).maint.reply = .ok run0.statusBytes ∧
      (after (.unknownCommand [0x10, 0xFE, 7, 2, 0, 7, 0]) run0).staging = [⟨2046, 7⟩] ∧
      ((Reply.rejected 13).clocked 0, (Reply.rejected 13).clocked 1, (Reply.rejected 13).clocked 2) = (4, 13, 0) := by decide +kernel

/-! ## The good image of LOADING and COMMIT -/

/-- An image that uses nothing: four zones with their thresholds, every channel, line, tach binding and pin unused. -/
def imageParts : List (Nat × List Byte) :=
  [(0, [1])] ++ (List.range 8).map (fun p => (233 + 32 * p, [1])) ++
    (List.range 4).map (fun z => (464 + 16 * z, [100, 0, 200, 0, 0x90, 1, 0, 0, 10])) ++
    (List.range 8).map (fun c => (528 + 16 * c, [0xFF])) ++ (List.range 12).map (fun l => (656 + 4 * l, [0xFF])) ++
    (List.range 8).map (fun t => (704 + 8 * t, [0xFF, 1])) ++ [(960, List.replicate 32 0xFF), (2044, [101, 170, 123, 65])]

def goodImage : Memory := imageParts.foldl (fun m p => Memory.writeAll m p.1 p.2) []

set_option maxRecDepth 100000 in
theorem test_good_image_crc : goodImage.crcOk = true := by
  unfold Memory.crcOk
  rw [Memory.bytes_eq_walk 2044 0 goodImage (by decide +kernel)]
  decide +kernel

theorem test_good_image_fields : (goodImage.checks.drop 1).all Prod.snd = true := by decide +kernel

theorem test_good_image : goodImage.imageCheck = none := by
  unfold Memory.imageCheck
  simp only [Option.map_eq_none_iff, List.find?_eq_none]
  intro p hp
  have hs : goodImage.checks = (1, goodImage.crcOk) :: goodImage.checks.drop 1 := rfl
  rw [hs] at hp
  rcases List.mem_cons.mp hp with e | e
  · rw [e, test_good_image_crc]; decide
  · rw [List.all_eq_true.mp test_good_image_fields p e]; decide

/-! ## Witnesses: for each statement with hypotheses, a state and operands that meet them -/

theorem ready_run0 : run0.hostReady := ⟨rfl, rfl, rfl⟩

/-- The room with one command waiting, its lines following its zones. -/
def lit : State := { run0.refreshLines with pending := [.status] }

theorem witness_StepRunsFront : lit.pending = .status :: [] ∧ run0.pending = [] := ⟨rfl, rfl⟩

theorem witness_NotDueChangesNothing :
    { run0 with supply := .off }.supply ≠ .on ∧ run0.supply ≠ .low ∧ { run0 with resetLine := true }.resetLine = true ∧
      run0.resetLine = false ∧ run0.mode ≠ .loading ∧ run0.maint.storing = false ∧ run0.time.tenthDue = false ∧
      run0.time.secondDue = false ∧ run0.time.pulseDue = false ∧
      run0.scan.head? ≠ some 0 ∧ { run0 with scan := [1] }.scan.head? ≠ some 0 ∧ (run0.chans.get 7).timer ≠ .due ∧
      (run0.spills.get 11).due = false ∧ run0.windowOpen = false ∧ (run0.tachs.get 7).due = false ∧ (run0.tachs.get 0).timer ≠ .due ∧
      (run0.zones.get 3).refresh ≠ .due ∧ (run0.zones.get 0).purge ≠ .due ∧ run0.store.claimOf .checker = none ∧
      run0.store.claimOf .engine = none ∧ run0.waiting = [] ∧ (∀ e ∈ run0.hold, run0.time.seconds < e.expiry) ∧
      (∀ e ∈ [held], 9 < e.expiry) ∧ (run0.force.get 15).retry ≠ .due ∧ run0.port.timeout ≠ .due ∧ run0.port.settleDue = false ∧
      run0.port.aging ≠ .due ∧ run0.maint.lineDue = none := by decide +kernel

theorem witness_StepKeepsSound : lit.sound ∧ ∃ t, step lit = .next t :=
  ⟨⟨⟨by decide, by decide⟩, Nat.zero_le _, ⟨Nat.zero_le _, List.nodup_nil⟩, List.nodup_nil, CellStore.initial_sound⟩, _, rfl⟩

theorem steady_run0 : run0.steadyLines := by
  unfold State.steadyLines
  decide +kernel

/-- The room with zone 0 in VENT, unacknowledged, and its acknowledge waiting: its lamp turns from slow to steady. -/
def lamp : State :=
  { ({ run0 with zones := run0.zones.set 0 { calm with state := .vent, causes := ventCause, unack := true } } : State).refreshLines with
    pending := [.acknowledge 0] }

theorem witness_StepKeepsLines :
    (lit.linesSafe ∧ lit.running ∧ ∃ t, step lit = .next t) ∧ lamp.linesSafe ∧
      ∃ t, step lamp = .next t ∧ t.running ∧ (t.lines.signals.get 0).pattern ≠ (lamp.lines.signals.get 0).pattern :=
  ⟨⟨refresh_safe steady_run0, ⟨rfl, rfl⟩, _, rfl⟩, refresh_safe (by unfold State.steadyLines; decide +kernel), _, rfl, ⟨rfl, rfl⟩,
    by decide +kernel⟩

theorem witness_StepKeepsBuffers : lit.buffersSound ∧ ∃ t, step lit = .next t := ⟨⟨rfl, rfl⟩, _, rfl⟩

/-- The room with group A a CELL group that follows the fan, or a FIXED one. -/
def following (f : GroupFn) : State :=
  believing fan 900 { run0 with cfg := { room with groups := room.groups.set 0 f, cellAddrs := room.cellAddrs.set 3 fan } }

/-- Each group function, each zone state at a lamp and a sounder, and a cell that is valid, that is not, and that no line holds. -/
theorem witness_SignalTables :
    run0.cfg.groups.get 0 = .lamps ∧ (0 : Fin 2).val = (3 : Fin 8).val / 4 ∧ (3 : Fin 4).val = (7 : Fin 8).val % 4 ∧
      run0.cfg.groups.get 1 = .sounders ∧ (1 : Fin 2).val = (7 : Fin 8).val / 4 ∧
      (∀ st : ZoneState, ((inZone 3 st Causes.empty run0).zones.get 3).state = st) ∧
      (following .fixed).cfg.groups.get 0 = .fixed ∧
      (let s := following .cell
       s.cfg.groups.get 0 = .cell ∧ (s.store.lines.get 3).tag = some (groupOf (s.cfg.cellAddrs.get 3)) ∧
         (0 : Fin 4).val = (s.cfg.cellAddrs.get 3).toNat / 2 % 4 ∧ ((s.store.lines.get 3).cells.get 0).valid = true ∧
         s.linePattern 3 = .steady true ∧ ((s.store.lines.get 3).cells.get 1).valid = false ∧
         ∀ line, (s.store.lines.get line).tag ≠ some (groupOf (s.cfg.cellAddrs.get 0))) := by
  refine ⟨by decide +kernel, by decide, by decide, by decide +kernel, by decide, fun st => ?_, by decide +kernel, by decide +kernel⟩
  cases st <;> decide +kernel

/-- The cell store of that room is sound. -/
theorem witness_SignalTables_store : (following .cell).store.sound :=
  ⟨List.Perm.refl _, by
    have h : ∀ i : Fin 16, i = 3 ∨ ((following .cell).store.lines.get i).tag = none := by decide +kernel
    intro i j g hi hj
    rcases h i with rfl | h1
    · rcases h j with rfl | h2
      · rfl
      · rw [h2] at hj; cases hj
    · rw [h1] at hi; cases hi⟩

theorem witness_StepKeepsReadings : lit.readingsFollow ∧ (∃ t, step lit = .next t) ∧
    (let s := { run0 with chans := run0.chans.set 2 { run0.chans.get 2 with filter := [60, 61] } }
     (s.cfg.channels.get 2).zone = some 1 ∧ (s.chans.get 2).test = none ∧ (s.chans.get 2).sample = .live ∧ (s.chans.get 2).filter ≠ [] ∧
       s.gasReading 1 = some 60 ∧ s.gasReading 0 = none) :=
  ⟨⟨by decide +kernel, fun h => absurd rfl h⟩, ⟨_, rfl⟩, by decide +kernel⟩

/-- The room keeps the checks, its two force entries among them. -/
theorem witness_StepKeepsSettings : lit.settingsChecked ∧ lit.mode = .run ∧ ∃ t, step lit = .next t := by
  refine ⟨fun _ => ⟨by decide +kernel, ⟨_, rfl, by decide⟩, by decide +kernel, by decide +kernel, by decide +kernel,
    by decide +kernel, by decide +kernel, ?_, by decide +kernel, (fun _ h => nomatch h), by decide +kernel⟩, rfl, _, rfl⟩
  have defined : ∀ (e : Fin 16) (f : ForceCfg), lit.cfg.forces.get e = some f →
      (e = 0 ∧ f = { zone := 0, cell := fan, sense := .floor, forced := 800, release := .keep }) ∨
        (e = 1 ∧ f = { zone := 0, cell := damper, sense := .exact_, forced := 100, release := .restore }) := by
    intro e f h
    have : ∀ e : Fin 16, e = 0 ∨ e = 1 ∨ lit.cfg.forces.get e = none := by decide +kernel
    rcases this e with rfl | rfl | h0
    · exact Or.inl ⟨rfl, (Option.some.inj h).symm⟩
    · exact Or.inr ⟨rfl, (Option.some.inj h).symm⟩
    · rw [h0] at h; cases h
  intro e f h
  rcases defined e f h with ⟨rfl, rfl⟩ | ⟨rfl, rfl⟩
  · refine ⟨by decide, fun e' f' h' hc => ?_, _, rfl, by decide +kernel⟩
    rcases defined e' f' h' with ⟨rfl, rfl⟩ | ⟨rfl, rfl⟩
    · rfl
    · exact absurd hc (by decide)
  · refine ⟨by decide, fun e' f' h' hc => ?_, _, rfl, by decide +kernel⟩
    rcases defined e' f' h' with ⟨rfl, rfl⟩ | ⟨rfl, rfl⟩
    · exact absurd hc (by decide)
    · rfl

theorem witness_StepKeepsQuiet : lit.quiet ∧ ∃ t, step lit = .next t := ⟨⟨rfl, Or.inl rfl⟩, _, rfl⟩

theorem witness_PowerUpRestart :
    run0.resetLine = false ∧ ({ run0 with supply := .low }.supply = .low ∧ { run0 with supply := .low }.resetLine = false) ∧
      ({ run0 with resetLine := true }.resetLine = true ∧ { run0 with resetLine := true }.supply = .on) ∧
      run0.maint.storing = false ∧ { run0.maint with storing := true }.storing = true := by decide

theorem witness_PowerBreaks :
    run0.supply = .on ∧ run0.resetLine = false ∧ { run0 with resetLine := true }.resetLine = true ∧
      ({ run0 with supply := .low, resetLine := true }.supply = .low ∧ { run0 with supply := .low, resetLine := true }.resetLine = true) ∧
      ({ run0 with supply := .off, resetLine := true }.resetLine = true ∧ { run0 with supply := .off, resetLine := true }.supply ≠ .on) ∧
      run0.maint.storing = false ∧ { run0.maint with storing := true }.storing = true := by decide

theorem witness_CommitRestart :
    let s := { run0 with maint := { run0.maint with storing := true } }
    s.alive = true ∧ s.maint.storing = true ∧ (∃ b : Bool, b = true) ∧ ∃ b : Bool, b = false := ⟨rfl, rfl, ⟨_, rfl⟩, _, rfl⟩

theorem witness_LoadingEndsInRun :
    let s := { State.reset with nv := { image := goodImage, torn := none } }
    s.alive = true ∧ s.mode = .loading ∧ s.nv.check true = none ∧ (∀ z, s.zones.get z = ZoneRec.initial) ∧
      s.writer = .idle ∧ s.lastItem = none ∧ (∃ z, { run0 with chans := Tab.replicate 8 (ChanRec.initial false) }.zoneWarm z = false) ∧ ∃ z, run0.zoneWarm z = true :=
  ⟨rfl, rfl, test_good_image, by decide +kernel, rfl, rfl, ⟨1, by decide +kernel⟩, 1, by decide +kernel⟩

/-- A channel of each kind as RUN begins: unused, one with a warm-up time and a kept flag or none, and one with no warm-up time. -/
theorem witness_ChannelsAtRun :
    (room.channels.get 0).zone = none ∧ ((room.channels.get 2).zone ≠ none ∧ (room.channels.get 2).warmUp = 0) ∧
      { room.channels.get 2 with warmUp := 30 }.warmUp ≠ 0 ∧ (ChanRec.initial true).warm = true ∧ (ChanRec.initial false).warm = false := by
  decide +kernel

theorem witness_LoadingEndsInFallback :
    State.reset.alive = true ∧ State.reset.mode = .loading ∧ State.reset.nv.check false = some 1 ∧
      ({ image := goodImage, torn := some 0 } : NvStore).torn.isSome = true ∧ (∃ r : Bool, r = false) ∧
      (∀ z, State.reset.zones.get z = ZoneRec.initial) ∧
      (let s := { State.reset with pending := [.loadingEnd false] }
       s.heldInVent ∧ s.mode ≠ .run ∧ ∃ t, step s = .next t ∧ t.mode ≠ .run) :=
  ⟨rfl, rfl, rfl, rfl, ⟨_, rfl⟩, by decide +kernel, fun _ => ⟨rfl, by decide +kernel⟩, by decide, _, rfl, by decide +kernel⟩

theorem witness_TimerExpiresAtItsCount : 0 < 1 ∧ 0 < 1 ∧ 0 < 3600 ∧ 3599 < 3600 := by decide

theorem witness_ShortTicks : run0.time.running = true ∧ (ticking.time.running = true ∧ ticking.time.tenthDue = true ∧ ticking.mode = .run) ∧
    { ticking with mode := .loading }.mode ≠ .run ∧ { run0.time with pulseDue := true }.pulseDue = true := by decide

theorem witness_Tick1s :
    (let s := { ticking with hold := [held], zones := run0.zones.set 0 { calm with state := .purge, purge := .running 1 } }
     s.time.running = true ∧ s.time.secondDue = true ∧ s.mode = .run ∧ (s.zones.get 0).purge.active = true ∧ s.hold ≠ []) ∧
      { ticking with mode := .loading }.mode ≠ .run := by decide

/-- The thresholds of a zone, at each edge of each case. -/
theorem witness_HydrogenTable :
    let cfg := run0.cfg.zones.get 0
    (cfg.alert ≤ 100 ∧ (cfg.alert - cfg.hysteresis ≤ 80 ∧ 80 < cfg.alert) ∧ (cfg.alert - cfg.hysteresis ≤ 99 ∧ 99 < cfg.alert) ∧
      79 < cfg.alert - cfg.hysteresis) ∧
    (cfg.vent ≤ 200 ∧ (cfg.vent - cfg.hysteresis ≤ 180 ∧ 180 < cfg.vent) ∧ 179 < cfg.vent - cfg.hysteresis) ∧
    (cfg.high ≤ 400 ∧ (cfg.high - cfg.hysteresis ≤ 399 ∧ 399 < cfg.high) ∧ 379 < cfg.high - cfg.hysteresis) := by decide +kernel

/-- A cause set and a state for each case of R16, and for each case of the timer and the record. -/
theorem witness_ZoneEventSettles :
    { Causes.empty with h2High := true }.anyLockout = true ∧ Causes.empty.anyLockout = false ∧
      { calm with state := .lockout }.state = .lockout ∧ calm.state ≠ .lockout ∧ ventCause.anyLockout = false ∧
      ventCause.anyVent = true ∧ Causes.empty.anyVent = false ∧ { calm with state := .vent }.state = .vent ∧
      { calm with state := .purge }.state = .purge ∧ calm.state = .clear ∧ { calm with state := .alert }.state = .alert ∧
      ((run0.zoneEvent 0 calm Causes.empty).zones.get 0).state = calm.state ∧
      ((run0.zoneEvent 0 { calm with state := .vent } Causes.empty).zones.get 0).state = .purge ∧
      ((run0.zoneEvent 0 calm ventCause).zones.get 0).state ≠ calm.state ∧
      ((run0.zoneEvent 0 calm ventCause).zones.get 0).state ≠ .purge ∧ (1 : Fin 4) ≠ 0 := by decide +kernel

theorem witness_ZoneMoveNotices : (run0.zones.get 0).state ≠ .vent ∧ calm.state = (run0.zones.get 0).state := by decide +kernel

theorem witness_AcknowledgeZone :
    run0.served ∧ run0.maint.line = true ∧ (0#8).toNat ≤ 3 ∧ (3#8).toNat ≤ 3 ∧
      ((inZone 3 .lockout { Causes.empty with h2High := true } run0).zones.get (zoneOf 3)).state = .lockout ∧
      { Causes.empty with h2High := true }.anyLockout = true ∧
      ((inZone 3 .lockout ventCause run0).zones.get (zoneOf 3)).causes.anyVent = true ∧ ventCause.anyLockout = false ∧
      Causes.empty.anyVent = false ∧ (run0.zones.get (zoneOf 3)).state ≠ .lockout :=
  ⟨⟨rfl, by decide, rfl⟩, rfl, by decide +kernel⟩

theorem witness_ZoneTimersExpire :
    { calm with refresh := .due }.refresh = .due ∧
      ((({ run0 with zones := run0.zones.set 3 { calm with refresh := .due } } : State).zones.get 3).refresh = .due) ∧
      (({ run0 with zones := run0.zones.set 0 { calm with state := .purge, purge := .due } } : State).zones.get 0).purge = .due ∧
      (({ run0 with zones := run0.zones.set 0 { calm with state := .purge, purge := .due } } : State).zones.get 0).state = .purge := by
  decide +kernel

/-- The codes at the edges of the good range, and a record for each case. -/
theorem witness_ChannelSample :
    run0.mode = .run ∧ { run0 with scan := [2] }.scan = 2 :: [] ∧
      (let cfg := run0.cfg.channels.get 2
       (cfg.openLimit ≤ (200#12).toNat ∧ (200#12).toNat ≤ cfg.overLimit) ∧
         (cfg.openLimit ≤ (3900#12).toNat ∧ (3900#12).toNat ≤ cfg.overLimit) ∧
         ¬(cfg.openLimit ≤ (199#12).toNat ∧ (199#12).toNat ≤ cfg.overLimit) ∧
         ¬(cfg.openLimit ≤ (3901#12).toNat ∧ (3901#12).toNat ≤ cfg.overLimit)) ∧
      (run0.chans.get 2).sample = .live ∧ (ChanRec.initial false).sample = .warmup ∧
      (let r : ChanRec := { ChanRec.initial true with sample := .fault, good := 9 }
       r.sample = .fault ∧ r.good = 9 ∧ r.warm = true ∧ { r with good := 8 }.good ≠ 9 ∧ { r with warm := false }.warm = false) ∧
      { ChanRec.initial true with bad := 2 }.bad = 2 ∧ (ChanRec.initial true).bad ≠ 2 ∧ (ChanRec.initial true).sample ≠ .fault ∧
      (run0.cfg.channels.get 2).zone = some 1 ∧ (run0.cfg.channels.get 0).zone = none ∧ { run0 with scan := [0] }.scan = 0 :: [] := by
  decide +kernel

theorem witness_WarmUpExpires :
    let r : ChanRec := { ChanRec.initial false with timer := .due }
    r.timer = .due ∧ r.sample = .warmup ∧ r.bad = 0 ∧ { r with bad := 1 }.bad ≠ 0 ∧ { r with sample := .fault }.sample = .fault ∧
      { r with sample := .fault }.sample ≠ .warmup ∧ (run0.cfg.channels.get 2).zone = some 1 ∧ (run0.cfg.channels.get 7).zone = none := by
  decide +kernel

/-- Line 7, active low with a debounce of 20 in zone 3, and line 6, unused. -/
theorem witness_SpillSample :
    let s := { run0 with spills := run0.spills.set 7 { SpillRec.initial with run := 19, due := true } }
    let cfg := s.cfg.spills.get 7
    (s.spills.get 7).due = true ∧ (decide (false = cfg.wetHigh) ≠ (s.spills.get 7).wet ∧ cfg.debounce ≤ (s.spills.get 7).run + 1) ∧
      ¬(cfg.debounce ≤ 18 + 1) ∧ decide (false = cfg.wetHigh) = true ∧ decide (true = cfg.wetHigh) = false ∧ cfg.zone = some 3 ∧
      (s.cfg.spills.get 6).zone = none ∧ (s.zones.get 3).causes.spill = false := by decide +kernel

theorem witness_TachCounts :
    run0.mode = .run ∧ { run0 with windowOpen := true }.windowOpen = true ∧ { TachRec.initial with due := true }.due = true ∧
      (let cfg := run0.cfg.tachs.get 3
       cfg.proofSpeed ≤ min 65535 (30 * 60 / cfg.pulses) ∧ ¬cfg.proofSpeed ≤ min 65535 (29 * 60 / cfg.pulses)) ∧
      TachRec.initial.state = .idle ∧ { TachRec.initial with state := .proving }.state = .proving ∧
      { TachRec.initial with state := .proven }.state = .proven ∧ { TachRec.initial with state := .failed }.state = .failed ∧
      TachRec.initial.timer = .stopped ∧ { TachRec.initial with timer := .running 1 }.timer ≠ .stopped ∧
      TachRec.initial.required = false ∧ { TachRec.initial with required := true }.required = true ∧ run0.tachZone 0 = none ∧
      run0.tachZone 3 = some 0 ∧ run0.cfg.forces.get 0 = some { zone := 0, cell := fan, sense := .floor, forced := 800, release := .keep } ∧
      (inForce 0 .active (inZone 0 .vent ventCause run0)).tachRequired 3 = true ∧
      (let s := inForce 0 .applying { run0 with agenda := [.engineGo, .entryIdle 0] }
       s.pickNotice = some (.entryIdle 0, { s with agenda := [.engineGo] }) ∧ .entryIdle 0 ∈ s.agenda ∧ (s.force.get 0).state ≠ .idle) ∧
      (let s := { run0 with agenda := [.engineGo, .forcingChange 3] }
       s.pickNotice = some (.forcingChange 3, { s with agenda := [.engineGo] }) ∧ .forcingChange 3 ∈ s.agenda) := by decide +kernel

def doubted : State :=
  inForce 0 .active (inZone 0 .vent ventCause
    { run0 with tachs := run0.tachs.set 3 { TachRec.initial with state := .proving, required := true, timer := .due } })

theorem witness_DelayTimerExpires :
    (doubted.tachs.get 3).timer = .due ∧ (doubted.tachs.get 3).state = .proving ∧
      { doubted.tachs.get 3 with state := .proven }.state = .proven ∧ doubted.tachZone 3 = some 0 ∧
      doubted.tachZone 0 = none ∧ ((doubted.zoneTachs 0).map doubted.tachs.get).filter TachRec.required ≠ [] := by decide +kernel

theorem witness_MisalignedIsRefused :
    run0.hostReady ∧ (1#24).toNat % Width.w2.bytes ≠ 0 ∧ (0xFFFFFE#24).toNat % Width.w4.bytes ≠ 0 :=
  ⟨ready_run0, by decide, by decide⟩

theorem witness_HostReadWaits :
    run0.hostReady ∧ (0#24).toNat % Width.w4.bytes = 0 ∧ (0xFFFFFF#24).toNat % Width.w1.bytes = 0 ∧
      (0xFFFFFE#24).toNat % Width.w2.bytes = 0 := ⟨ready_run0, by decide⟩

/-- The posted queue full. -/
def full : State :=
  { run0 with
    posted := List.replicate 8
      { addr := 0x104000, width := .w1, data := 0, origin := .host, checked := false, zone := none, inFlight := false, ahead := false } }

theorem witness_OpenWriteIsPosted :
    run0.hostReady ∧ full.hostReady ∧ (0xFFFFFF#24).toNat % Width.w1.bytes = 0 ∧ run0.cfg.governing 0xFFFFFF = .nothing ∧
      (0x104004#24).toNat % Width.w4.bytes = 0 ∧
      run0.cfg.governing 0x104004 = .window (win .open_ 0 0 .acknowledge .report 0x104000 3) ∧
      (run0.posted.length < 8 ∧ run0.waiting = []) ∧ ¬(full.posted.length < 8 ∧ full.waiting = []) :=
  ⟨ready_run0, ⟨rfl, rfl, rfl⟩, by decide +kernel⟩

/-- The first and the last address of each watched window: one per function, and the heartbeat with and without a period. -/
theorem witness_WatchedWriteIsObserved :
    run0.hostReady ∧ full.hostReady ∧ run0.cfg.governing 0x100000 = .window (win .watched 0 0 .acknowledge .report 0x100000 3) ∧
      run0.cfg.governing 0x100007 = .window (win .watched 0 0 .acknowledge .report 0x100000 3) ∧
      run0.cfg.governing 0x10000F = .window (win .watched 1 0 .heartbeat .report 0x100008 3) ∧
      0 < (run0.cfg.zones.get 1).refreshPeriod ∧
      run0.cfg.governing 0x105000 = .window (win .watched 2 0 .heartbeat .report 0x105000 3) ∧
      (run0.cfg.zones.get 2).refreshPeriod = 0 ∧
      run0.cfg.governing 0x100010 = .window (win .watched 0 0 .logClear .report 0x100010 3) ∧
      (0x100010#24).toNat % Width.w2.bytes = 0 ∧ (run0.posted.length < 8 ∧ run0.waiting = []) ∧
      full.cfg.governing 0x100000 = .window (win .watched 0 0 .acknowledge .report 0x100000 3) ∧
      ¬(full.posted.length < 8 ∧ full.waiting = []) := ⟨ready_run0, ⟨rfl, rfl, rfl⟩, by decide +kernel⟩

theorem witness_RefusedByClassOrWidth :
    run0.hostReady ∧ (run0.cfg.governing 0x200000 = .report ∧ run0.cfg.governing 0x2003FF = .report) ∧
      run0.cfg.governing 0x101FFF = .window (win .barred 0 0 .acknowledge .absorb 0x101000 12) ∧
      run0.cfg.governing fan = .window (win .checked 0 1 .acknowledge .report fan 3) ∧ Width.w4 ≠ .w2 ∧ Width.w1 ≠ .w2 ∧
      fan.toNat % Width.w4.bytes = 0 ∧ (0x200000#24).toNat % Width.w4.bytes = 0 := ⟨ready_run0, by decide +kernel⟩

/-- An address in the report window, one in the eighth window and no lower one, and one in none. -/
theorem witness_Governing :
    (∃ b, room.reportBase = some b ∧ b.toNat ≤ (0x2003FF#24).toNat ∧ (0x2003FF#24).toNat < b.toNat + 1024) ∧
      (¬∃ b, room.reportBase = some b ∧ b.toNat ≤ (0x104000#24).toNat ∧ (0x104000#24).toNat < b.toNat + 1024) ∧
      (room.windows.get 7).contains 0x104000 ∧ (∀ j, j < 7 → ¬(room.windows.get j).contains 0x104000) ∧
      (∀ i, ¬(room.windows.get i).contains 0xFFFFFF) ∧
      ¬∃ b, room.reportBase = some b ∧ b.toNat ≤ (0xFFFFFF#24).toNat ∧ (0xFFFFFF#24).toNat < b.toNat + 1024 := by
  refine ⟨⟨_, rfl, by decide⟩, ?_, by unfold Window.contains; decide +kernel, by unfold Window.contains; decide +kernel,
    by unfold Window.contains; decide +kernel, ?_⟩ <;> rintro ⟨b, hb, h⟩ <;> cases hb <;> revert h <;> decide

/-- The charger has no step limit; the fan has one, and is known or not. -/
theorem witness_CheckedWriteIsJudged :
    let s := believing fan 900 run0
    let k : Claim := { cell := fan, stage := .listed, abandoned := true }
    let lost := inZone 0 .vent { Causes.empty with hostLost := true } run0
    s.hostReady ∧ run0.hostReady ∧ lost.hostReady ∧
      (charger.toNat % 2 = 0 ∧ s.cfg.governing charger = .window (win .checked 0 3 .acknowledge .report charger 3) ∧
        (s.cfg.profiles.get 3).stepped = false ∧ (s.zones.get 0).causes.hostLost = false) ∧
      (fan.toNat % 2 = 0 ∧ s.cfg.governing fan = .window (win .checked 0 1 .acknowledge .report fan 3) ∧
        (s.cfg.profiles.get 1).stepped = true ∧ s.store.checkerClaim = none ∧ (s.store.lookup s.queued .checker fan).1 = some 900) ∧
      (run0.store.checkerClaim = none ∧ (run0.store.lookup run0.queued .checker fan).1 = none) ∧
      (lost.cfg.governing charger = .window (win .checked 0 3 .acknowledge .report charger 3) ∧ (lost.zones.get 0).causes.hostLost = true) ∧
      (({ run0 with store := { run0.store with checkerClaim := some k } } : State).store.checkerClaim = some k ∧ k.stage = .listed ∧
        { k with stage := .joined }.stage = .joined ∧ { k with stage := .settled none }.unsettled = false) :=
  ⟨⟨rfl, rfl, rfl⟩, ready_run0, ⟨rfl, rfl, rfl⟩, by decide +kernel⟩

/-- A value for each clause, at the edges: the charger has no step limit, the fan skips an unknown value, the damper refuses it. -/
theorem witness_PassedValuesAreInBounds :
    (let b := fun (p : Fin 8) (l : Fin 4) => (run0.cfg.profiles.get p).levels.get l
     (∀ p l, (b p l).low.toNat ≤ (b p l).high.toNat) ∧ (b 3 0).high.toNat = (2#16).toNat ∧ (b 1 2).low.toNat = (800#16).toNat ∧
       ((799#16).toNat < (b 1 2).low.toNat ∧ (b 1 2).rule = .clamp) ∧ ((b 1 2).high.toNat < (1001#16).toNat) ∧
       ((b 3 0).high.toNat < (3#16).toNat ∧ (b 3 0).rule = .refuse) ∧ ((99#16).toNat < (b 2 2).low.toNat ∧ (b 2 2).rule = .hold)) ∧
      ((run0.cfg.profiles.get 3).fall = 0#16 ∧ (run0.cfg.profiles.get 3).rise = 0#16 ∧ (run0.cfg.profiles.get 1).fall ≠ 0#16 ∧
        (run0.cfg.profiles.get 1).unknown = .boundsOnly ∧ (run0.cfg.profiles.get 2).fall ≠ 0#16 ∧
        (run0.cfg.profiles.get 2).unknown = .refuse) ∧
      run0.zoneLevel 0 = 0 ∧ (inZone 0 .vent ventCause run0).zoneLevel 0 = 2 ∧ run0.judge charger 2 0 3 none = .pass 2 ∧
      (∃ e f, (inForce 1 .active (inZone 0 .vent ventCause run0)).forceOn damper = some (e, f)) ∧ run0.forceOn damper = none ∧
      (∃ h ∈ [{ held with cell := damper }], h.cell = damper) ∧ run0.hold.length < 8 ∧
      ((∀ h ∈ List.replicate 8 held, h.cell ≠ damper) ∧ 8 ≤ (List.replicate 8 held).length) ∧
      run0.cfg.forces.get 1 = some { zone := 0, cell := damper, sense := .exact_, forced := 100, release := .restore } :=
  ⟨by decide +kernel, by decide +kernel, by decide +kernel, by decide +kernel, by decide +kernel, ⟨_, _, rfl⟩, by decide +kernel⟩

theorem witness_StepLimits :
    let b := fanProfile.levels.get 1
    b.low.toNat ≤ b.high.toNat ∧ b.low.toNat ≤ (300#16).toNat ∧ (1000#16).toNat ≤ b.high.toNat ∧ fanProfile.fall ≠ 0#16 ∧
      { fanProfile with rise := 1#16 }.rise ≠ 0#16 ∧ (500#16).toNat - fanProfile.fall.toNat ≤ (300#16).toNat ∧
      (let p := { fanProfile with rise := 1#16 }
       let below := fun (v : Half) => p.fall ≠ 0#16 ∧ v.toNat < (500#16).toNat - p.fall.toNat
       let above := fun (v : Half) => p.rise ≠ 0#16 ∧ (500#16).toNat + p.rise.toNat < v.toNat
       (below 299 ∧ p.step b 500 299 = 300) ∧ (above 502 ∧ p.step b 500 502 = 501) ∧ (¬below 300 ∧ ¬above 300) ∧ (¬below 501 ∧ ¬above 501)) ∧
      (¬b.low.toNat ≤ (100#16).toNat ∧ fanProfile.step b 100 0 = 300) := by decide +kernel

theorem witness_SenseTable : { ForceRec.initial with last := some 7#16 }.last = some 7#16 ∧ ForceRec.initial.last = none := by decide

/-- The engine at work on entry 0 with a settled claim, and the checker with one. -/
def working (value : Option Half) (attempts : Nat) : State :=
  { inZone 0 .vent ventCause run0 with
    sweep := some { zone := 0, kind := .apply, entry := 0, stop := false, work := .claim }
    force := run0.force.set 0 { ForceRec.initial with state := .applying, attempts := attempts }
    store := { run0.store with engineClaim := some { cell := fan, stage := .settled value, abandoned := false } } }

/-- The cell store with the fan's group in line 3, its first cell believed, and a fill of that line at a cell. -/
def filling (pos : Nat) (reading : Bool) : CellStore :=
  { (believing fan 900 run0).store with fill := some { line := 3, pos := pos, reading := reading } }

abbrev fillRead : Transfer := { who := .fill, write := false, addr := fan + 2, width := .w2, data := 0 }

/-- A lookup of `a` held back behind an abandoned claim that the fill of the fan's group, reading its second cell, is to settle. -/
def heldBackOf (a : Addr) : State :=
  { run0 with
    upstream := .judging
    checker := .awaiting a 750 0 1 .report true
    store := { filling 1 true with checkerClaim := some { cell := fan + 2, stage := .joined, abandoned := true } }
    port := { run0.port with state := .busy fillRead, timeout := .due } }

/-- The lookup is made at the read's completion, and a hit is judged there (R103, R113). -/
theorem test_held_back_hit :
    let t := after (.memoryAnswer true 850) (heldBackOf fan)
    t.checker = .idle ∧ t.store.checkerClaim = none ∧ t.responses.length = 1 ∧ t.upstream = .idle := by decide +kernel

/-- At a FAULT of the read the same lookup becomes a claim of its own, awaited as any other (R103, R108). -/
theorem test_held_back_miss :
    let t := after .downstreamTimeout (heldBackOf (fan + 2))
    t.checker = .awaiting (fan + 2) 750 0 1 .report false ∧ t.responses = [] ∧
      (t.store.checkerClaim.any (fun k => !k.abandoned && k.unsettled)) = true ∧ t.log.records.map (·.kind) = [.fillFault] := by
  decide +kernel

theorem witness_ClaimSettlement :
    ({ cell := fan, stage := .settled (some 900), abandoned := false } : Claim).stage = .settled (some 900) ∧
      ({ run0 with checker := .awaiting fan 750 0 1 .report false } : State).checker = .awaiting fan 750 0 1 .report false ∧
      (working (some 900) 0).store.engineClaim = some { cell := fan, stage := .settled (some 900), abandoned := false } ∧
      (working none 2).store.engineClaim = some { cell := fan, stage := .settled none, abandoned := false } ∧
      (working (some 900) 0).sweepEntry = some 0 ∧
      (working none 2).cfg.forces.get 0 = some { zone := 0, cell := fan, sense := .floor, forced := 800, release := .keep } ∧
      (let s := heldBackOf fan
       s.port.state = .busy fillRead ∧ fillRead.who = .fill ∧ s.checker = .awaiting fan 750 0 1 .report true ∧ s.port.timeout = .due ∧
         (s.filled true 850).checkerClaim = some { cell := fan + 2, stage := .settled (some 850), abandoned := true } ∧
         (s.filled false 0).checkerClaim = some { cell := fan + 2, stage := .settled none, abandoned := true }) ∧
      Sense.floor.satisfied 800 800 = true ∧ Sense.floor.satisfied 800 799 = false ∧ 3 ≤ ((working none 2).force.get 0).attempts + 1 := by
  decide +kernel

abbrev placed (source : PlacementSource) : Placement :=
  { source := source, addr := charger, width := .w2, data := 1, checked := true, zone := some 0 }

theorem witness_PlacementEnters :
    ({ run0 with waiting := [placed (.host .done none)], posted := full.posted.drop 1 } : State).posted.length < 8 ∧
      (placed (.host .done none)).source = .host .done none ∧ (placed .hold).source = .hold ∧ (placed (.engine 15)).source = .engine 15 ∧
      ({ run0 with waiting := [placed .hold] } : State).waiting = placed .hold :: [] := by decide

theorem witness_UpstreamResets :
    (let s := { run0 with upstream := .judging, checker := .awaiting fan 750 0 1 .report false, hold := [held] }
     s.busReset = false ∧ s.agenda = [] ∧ s.upstream = .judging ∧ s.checker = .awaiting fan 750 0 1 .report false) ∧
      ({ run0.store with checkerClaim := some { cell := fan, stage := .listed, abandoned := false } } : CellStore).checkerClaim =
        some { cell := fan, stage := .listed, abandoned := false } ∧
      ({ run0.store with checkerClaim := some { cell := fan, stage := .settled none, abandoned := false } } : CellStore).checkerClaim =
        some { cell := fan, stage := .settled none, abandoned := false } ∧
      run0.busReset = false ∧ run0.upstream ≠ .judging ∧
      (let s := { run0 with busReset := true }
       s.busReset = true ∧ s.alive = true ∧ s.mode ≠ .loading ∧ s.upstream = .idle ∧ s.agenda = [] ∧ s.hostWaiting = []) := by
  decide

/-- Lookups, requests and fills of each kind: the cells of the fan's group at its first and last place, and a group no line holds. -/
theorem witness_WriteThrough :
    (let c := (believing fan 900 run0).store
     c.find (groupOf charger) = none ∧ c.find (groupOf fan) = some 3 ∧ c.find (groupOf (fan + 6)) = some 3 ∧ (0 : Fin 16) ≠ 3 ∧
       (0 : Fin 4) ≠ cellIndex (fan + 6) ∧ (c.cell 3 (cellIndex fan)).valid = true ∧ (c.cell 3 (cellIndex (fan + 6))).valid = false ∧
       (c.cell 3 (cellIndex fan)).written = false ∧ { c.cell 3 0 with written := true }.written = true ∧ c.victim = some 15 ∧
       c.fill = none ∧ c.list = [] ∧ (c.lines.get 3).pinned = false ∧ { c.lines.get 3 with pinned := true }.pinned = true ∧
       ({ c with lru := [] } : CellStore).victim = none ∧
       ({ c with checkerClaim := some { cell := fan, stage := .joined, abandoned := false } } : CellStore).claimOf .checker =
         some { cell := fan, stage := .joined, abandoned := false }) ∧
      (let c := filling 3 false
       (∃ f, c.fill = some f ∧ (c.lines.get f.line).tag = some (groupOf (fan + 6)) ∧ f.pos ≤ (cellIndex (fan + 6)).val) ∧
         ¬(∃ f, c.fill = some f ∧ (c.lines.get f.line).tag = some (groupOf fan) ∧ f.pos ≤ (cellIndex fan).val)) ∧
      ((filling 0 false).fill = some { line := 3, pos := 0, reading := false } ∧
        (filling 3 true).fill = some { line := 3, pos := 3, reading := true } ∧
        (filling 4 false).fill = some { line := 3, pos := 4, reading := false }) ∧
      (let r : FillRequest := { group := fan, start := 3, who := .abandoned }
       [r] = r :: [] ∧ (r.who = .nobody ∨ r.who = .abandoned) ∧ r.group = groupOf fan ∧ { r with who := .nobody }.who = .nobody ∧
         { r with who := .engine }.who = .engine) ∧
      ¬(∀ k : Fin 4, (0 : Fin 4).val ≤ k.val → ((filling 0 false).cell 3 k).valid = true) ∧
      (believing fan 900 full).queued fan = none ∧
      (({ full with posted := full.posted.map (fun p => { p with addr := fan, checked := true }) } : State).queued fan).isSome = true :=
  ⟨by decide +kernel, ⟨⟨_, rfl, by decide +kernel⟩, by rintro ⟨f, hf, -, hp⟩; cases hf; revert hp; decide⟩, by decide +kernel,
    by decide +kernel, by decide +kernel, by decide +kernel, by decide +kernel⟩

theorem witness_HoldExpires :
    let s := { run0 with hold := [held], time := { run0.time with seconds := 10 } }
    s.holdSound ∧ (∃ e ∈ s.hold, e.expiry ≤ s.time.seconds) ∧ ∃ e ∈ s.hold, e.expiry ≤ s.time.seconds :=
  ⟨⟨by decide, by decide⟩, ⟨held, by decide, by decide⟩, held, by decide, by decide⟩

theorem witness_Rejudgement :
    let b := fun (level : Fin 4) => (run0.cfg.profiles.get 3).levels.get level
    (b 2).judge 2 = .hold ∧ (b 0).judge 3 = .refuse ∧ (b 0).judge 2 = .value 2 ∧ (run0.posted.length < 8 ∧ run0.waiting = []) ∧
      ¬(full.posted.length < 8 ∧ full.waiting = []) ∧ { run0 with hold := [held] }.holdSound ∧ held ∈ [held] ∧ held.zone ≠ 1 ∧
      { held with releasing := true }.releasing = true :=
  ⟨by decide +kernel, by decide +kernel, by decide +kernel, by decide, by decide, ⟨by decide, by decide⟩, by decide, by decide, by decide⟩

def sweeping (kind : SweepKind) (stop : Bool) : State :=
  { run0 with sweep := some { zone := 0, kind := kind, entry := 0, stop := stop, work := .boundary } }

theorem witness_SweepRequestCases :
    (∃ w, (sweeping .apply true).sweep = some w ∧ w.zone = 0 ∧ w.kind = .apply ∧ w.stop = true) ∧
      (∃ w, (sweeping .release false).sweep = some w ∧ w.zone = 0 ∧ w.kind ≠ .apply ∧ w.stop = false) ∧
      ((run0.sweep = none ∧ run0.pendingSweep 0 = none) ∧
      ({ run0 with requests := [{ zone := 0, kind := .release }] } : State).pendingSweep 0 = some { zone := 0, kind := .release } ∧
      ({ run0 with requests := [{ zone := 3, kind := .apply }] } : State).pendingSweep 3 = some { zone := 3, kind := .apply } ∧
      (∃ e ∈ run0.zoneEntries 0, ((inForce 1 .active run0).force.get e).state ≠ .idle) ∧
      (∀ e ∈ run0.zoneEntries 0, (run0.force.get e).state = .idle) ∧ (∃ e ∈ run0.zoneEntries 0, (run0.force.get e).state = .idle) ∧
      run0.mode = .run ∧ State.reset.mode ≠ .run ∧ run0.requests = []) ∧
      (∃ before after : List SweepRequest, [{ zone := 1, kind := .release }, { zone := 2, kind := .apply }] =
        before ++ { zone := 2, kind := .apply } :: after ∧ ∀ q ∈ before, q.kind = .release) ∧
      (∃ after : List SweepRequest, [{ zone := 1, kind := .release }] = { zone := 1, kind := .release } :: after) ∧
      (∃ w, (sweeping .apply false).sweep = some w ∧ w.work = .boundary ∧ w.stop = false ∧ w.entry ≤ (0 : Fin 16).val ∧
        run0.cfg.forces.get 0 = some { zone := 0, cell := fan, sense := .floor, forced := 800, release := .keep } ∧ w.zone = 0 ∧
        (run0.force.get 0).state = .idle) ∧
      (SweepWork.claim ≠ .boundary ∧ ((inForce 1 .active run0).force.get 1).state = .active ∧ ∀ z : Fin 4, z ≠ 0 → run0.zoneEntries z = []) :=
  ⟨⟨_, rfl, rfl, rfl, rfl⟩, ⟨_, rfl, rfl, by decide, rfl⟩, by decide +kernel, ⟨[{ zone := 1, kind := .release }], [], rfl, by decide⟩,
    ⟨[], rfl⟩, ⟨_, rfl, rfl, rfl, by decide, rfl, rfl, rfl⟩, by decide +kernel⟩

/-- A posted entry bound for the fan, in flight or not, and a host write to a cell that waits for room. -/
def bound (flying : Bool) : Posted :=
  { addr := fan, width := .w2, data := 7, origin := .host, checked := true, zone := some 0, inFlight := flying, ahead := false }

def placedAt (a : Addr) : Placement :=
  { source := .host .done none, addr := a, width := .w2, data := 7, checked := true, zone := some 0 }

/-- Apply, cancellation, lookup and release: the charger's value 2 is held at level 2, 3 refused and 2 released at level 0. -/
theorem witness_ForceApplyCancelsWrites :
    (run0.force.get 0).state = .idle ∧ ((inForce 15 .failed run0).force.get 15).state = .failed ∧ (1 : Fin 16) ≠ 0 ∧
      ((believing fan 900 run0).store.lookup run0.queued .engine fan).1 = some 900 ∧
      (run0.store.lookup run0.queued .engine fan).1 = none ∧
      releaseValue .keep ForceRec.initial = none ∧ releaseValue .restore { ForceRec.initial with prior := some 2 } = some 2 ∧
      run0.cfg.checkedAt charger = some (win .checked 0 3 .acknowledge .report charger 3) ∧
      (let b := fun (level : Fin 4) => (run0.cfg.profiles.get 3).levels.get level
       (b 2).judge 2 = .hold ∧ (b 0).judge 3 = .refuse ∧ (b 0).judge 2 = .value 2) ∧
      (run0.posted.length < 8 ∧ run0.waiting = []) ∧ ¬(full.posted.length < 8 ∧ full.waiting = []) ∧
      (∃ h ∈ [held], h.cell = charger) ∧ (∀ h ∈ [held], h.cell ≠ fan) ∧ [held].length < 8 ∧ 8 ≤ (List.replicate 8 held).length ∧
      (∀ h ∈ List.replicate 8 held, h.cell ≠ fan) ∧
      (bound true).checked = true ∧ (bound true).addr = fan ∧ (bound true).inFlight = true ∧ (bound false).inFlight = false ∧
      ({ run0 with posted := [bound true, bound false] } : State).posted = [bound true] ++ bound false :: [] ∧
      ([bound false].filter (fun p => p.checked && p.addr == fan && !p.inFlight) = [] ++ [bound false] ∧
        [bound true].filter (fun p => p.checked && p.addr == fan && !p.inFlight) = []) ∧
      (believing fan 900 run0).store.find (groupOf fan) = some 3 ∧ run0.store.find (groupOf fan) = none ∧
      (placedAt fan).isHostWrite fan = true ∧
      (let s := { run0 with waiting := [placedAt charger], hold := [{ held with origin := .part }] }
       (s.waiting.find? (fun p => p.isHostWrite charger)).isSome = true ∧ (s.holdOf charger).isSome = true) := by decide +kernel

/-- A hold entry beside a withdrawn write and a posted one: the entry's value is the last request (R124; log 44). -/
theorem test_takenRequest : takenRequest (some held) (some (placedAt charger)) [bound false] = some held.value ∧
    takenRequest none (some (placedAt charger)) [{ bound false with data := 5 }] = some 7 ∧
    takenRequest none none [{ bound false with data := 5 }, bound false] = some 7 ∧ takenRequest none none [] = none := by decide +kernel

theorem witness_RetryTimerExpires :
    let s := inZone 0 .vent ventCause { run0 with force := run0.force.set 0 { ForceRec.initial with state := .failed, retry := .due } }
    (s.force.get 0).retry = .due ∧ s.cfg.forces.get 0 = some { zone := 0, cell := fan, sense := .floor, forced := 800, release := .keep } ∧
      (s.zones.get 0).state.forcing = true ∧ (run0.zones.get 0).state.forcing = false ∧ s.mode = .run ∧ State.reset.mode ≠ .run ∧ s.sweep = none ∧
      s.pendingSweep 0 = none := by decide +kernel

/-- A transfer of each requester in flight, with what each waits in. -/
theorem witness_TransferCompletes :
    (readFlying.port.state = .busy hostReadBusy ∧ { readFlying.port with timeout := .due }.timeout = .due ∧ run0.port.state = .idle ∧
      { run0.port with state := .settling }.state = .settling ∧ hostReadBusy.who = .transit ∧ hostReadBusy.write = false ∧
      readFlying.upstream = .reading 0x104000 .w4 none true ∧ (∀ a w z, run0.upstream ≠ .reading a w z true) ∧
      reportWrite.who = .report ∧ { hostReadBusy with write := true }.write = true ∧
      { reportWrite with who := .fill }.who = .fill ∧ { reportWrite with who := .engine }.who = .engine ∧
      (working none 2).sweepEntry = some 0 ∧
      { run0 with writer := .writing 0 [] 0 }.writer = .writing 0 [] 0 ∧ 0 + 4 < (Item.at 0).size ∧ (Item.at 21).size ≤ 0 + 4 ∧
      run0.mode = .run ∧ State.reset.mode ≠ .run) ∧ (∃ p rest, full.posted = p :: rest) ∧
      (let s := { working none 0 with sweep := some { zone := 0, kind := .apply, entry := 0, stop := false, work := .delivery } }
       let p : Posted :=
         { addr := fan, width := .w2, data := 7, origin := .host, checked := true, zone := some 0, inFlight := true, ahead := false }
       s.awaitsDelivery p 0 { zone := 0, cell := fan, sense := .floor, forced := 800, release := .keep }) ∧
      (((heldBackOf fan).filled true 850).checkerClaim = some { cell := fan + 2, stage := .settled (some 850), abandoned := true } ∧
        (heldBackOf fan).checker = .awaiting fan 750 0 1 .report true ∧
        (∀ a w z p style, run0.checker ≠ .awaiting a w z p style true) ∧
        (({ heldBackOf fan with store := filling 1 true } : State).filled true 850).checkerClaim = none) ∧
      ∀ p e f, ¬run0.awaitsDelivery p e f :=
  ⟨⟨by decide +kernel, by decide +kernel, by decide +kernel, by decide +kernel, by decide +kernel, by decide +kernel, by decide +kernel,
      fun a w z h => (nomatch (show Upstream.idle = .reading a w z true from h)), by decide +kernel⟩,
    ⟨_, _, rfl⟩, ⟨⟨_, rfl, rfl⟩, rfl, rfl, by decide +kernel⟩,
    ⟨by decide +kernel, rfl, fun a w z p style h => (nomatch (show Judgement.idle = .awaiting a w z p style true from h)), by decide +kernel⟩,
    fun _ _ _ ⟨⟨w, h, _⟩, _⟩ => nomatch (show (none : Option Sweep) = some w from h)⟩

/-- A port that is busy, one that nothing asks for and one with a request; the engine with a claim to take and with a write to present; a
read with a predecessor and without; a fill that reads and one that does not; a report item being written. -/
theorem witness_PortGrants :
    { run0.port with state := .settling }.state ≠ .idle ∧ full.port.state = .idle ∧ run0.presented = [] ∧
      full.presented = { who := .transit, write := true, addr := 0x104000, width := .w1, data := 0 } :: [] ∧ full.engineComing = false ∧
      { run0.port with state := .settling, settleDue := true }.settleDue = true ∧ { run0.port with aging := .due }.aging = .due ∧
      (let s := { working (some 900) 0 with posted := full.posted }
       s.engineComing = true ∧ s.port.state = .idle ∧ s.presented ≠ []) ∧
      (let w : Sweep := { zone := 0, kind := .apply, entry := 0, stop := false, work := .writing }
       let s := { working none 0 with sweep := some w }
       s.sweep = some w ∧ w.work = .writing ∧ s.sweepEntry = some 0) ∧
      (∃ w, (working none 0).sweep = some w ∧ w.work ≠ .writing) ∧
      (let read : Upstream := .reading 0x104000 .w4 none false
       ({ run0 with upstream := read } : State).upstream = read ∧ { bound false with ahead := true }.ahead = true ∧
         (bound false).ahead = false) ∧
      ((filling 0 true).fill.isSome = true ∧ (filling 0 true).readAddress = some fan ∧ (filling 0 false).readAddress = none) ∧
      { run0 with writer := .writing 0 [] 0 }.writer = .writing 0 [] 0 ∧ run0.writer = .idle ∧ State.reset.cfg.reportBase = none ∧
      run0.cfg.reportBase.isSome = true := by
  refine ⟨by decide +kernel, by decide +kernel, by decide +kernel, by decide +kernel, by decide +kernel, by decide +kernel,
    by decide +kernel, by decide +kernel, by decide +kernel, ⟨_, rfl, by decide⟩, by decide +kernel, by decide +kernel, by decide +kernel,
    by decide +kernel, by decide +kernel, by decide +kernel⟩

theorem witness_RecordLayout : State.reset.log.sound ∧ Record.powerUp ∈ State.reset.log.records :=
  ⟨⟨by decide, by decide⟩, by decide⟩

abbrev refusedOnce : Record :=
  { seq := 0, kind := .writeRefused, zone := none, time := 0, subject := some 4, value := none, repeats := 255, gap := false }

theorem witness_LogAppend :
    ({ run0.log with records := [] ++ [refusedOnce] } : EventLog).records = [] ++ [refusedOnce] ∧ refusedOnce.kind = .writeRefused ∧
      refusedOnce.zone = none ∧ refusedOnce.subject = some 4 ∧ EventKind.restart ≠ .writeRefused ∧ EventKind.restart ≠ .writeAbsorbed ∧
      run0.log.records = [] ∧ refusedOnce.kind ≠ .writeAbsorbed ∧ refusedOnce.zone ≠ some 3 ∧ refusedOnce.subject ≠ none ∧
      (let l := (List.range 32).map (fun i => { refusedOnce with seq := BitVec.ofNat 16 i })
       l.length = 32 ∧ consecutive l 32 = true ∧ l.head? = some refusedOnce) := by decide +kernel

theorem witness_LogClear :
    run0.log.records = [] ∧ State.reset.log.records = [] ++ [Record.powerUp] ∧ Record.powerUp.seq = 0 ∧ Record.powerUp.seq ≠ 0xFFFF := by
  decide

theorem witness_ReportRegion :
    let s := { run0 with marks := run0.marks.set 66 true }
    s.mode = .run ∧ s.writer = .idle ∧ (State.writerOrder s.lastItem).find? (fun j => s.marks.get j) = some 66 ∧
      (65 : Fin 67).val + 1 = (66 : Fin 67).val ∧ (0 : Fin 67).val + 1 = (1 : Fin 67).val ∧ State.reset.mode ≠ .run ∧
      { run0 with writer := .writing 0 [] 0 }.writer ≠ .idle ∧ (List.replicate 8 held).length ≤ 8 ∧
      (List.replicate 8 held)[7]? = some held ∧ [held][1]? = none := by decide +kernel

theorem witness_CommissioningLineChange :
    { run0.maint with lineDue := some true }.lineDue = some true ∧ { run0.maint with lineDue := some false }.lineDue = some false := by decide

theorem witness_MaintenanceOrder :
    run0.alive = true ∧ badFrame [0x7F] = true ∧ badFrame [0x12, 0] = true ∧ commandOf [0x01] = some .status ∧
      ([0] : List Byte).length < (2#16).toNat ∧ Instr.status.isMaintenance = true ∧ Instr.status.wf = true ∧
      (∀ f, Instr.status ≠ .unknownCommand f) ∧ State.reset.mode = .loading ∧ { run0.maint with storing := true }.storing = true ∧
      run0.mode ≠ .loading ∧ run0.maint.storing = false ∧ { run0.maint with line := false }.line = false ∧
      (2#16).toNat ≤ ([0, 0] : List Byte).length ∧ badRange 2047 2 = true ∧ run0.maint.line = true ∧ 7 < (8#8).toNat ∧
      1000 < (1001#16).toNat ∧ (run0.cfg.channels.get (channelOf 0)).zone = none ∧ 3 < (4#8).toNat ∧
      (((0#8 : Byte) ++ (2#8 : Byte) : Half)).toNat = ([7, 0] : List Byte).length ∧ (Reply.rejected 13).bytes.length ≤ 2 :=
  ⟨rfl, by decide, by decide, rfl, by decide, rfl, rfl, fun _ h => Instr.noConfusion h, rfl, rfl, by decide, rfl, rfl, by decide,
    by decide +kernel, rfl, by decide, by decide, by decide +kernel, by decide, by decide, by decide⟩

theorem witness_ReadCommands :
    run0.served ∧ run0.store.lru.length = 16 ∧ run0.store.lru[15]? = some 15 ∧ badRange 0 1 = false ∧ badRange 2047 1 = false ∧
      0 < (1#16).toNat :=
  ⟨⟨rfl, by decide, rfl⟩, by decide +kernel⟩

theorem witness_WriteStage :
    run0.served ∧ run0.maint.line = true ∧ (2#16).toNat ≤ ([7, 0] : List Byte).length ∧ badRange 2046 2 = false ∧
      badRange 0 2 = false ∧ run0.staging.wf = true ∧ (2045 < (2046#16).toNat) ∧ (0#16).toNat + (2#16).toNat ≤ 2 :=
  ⟨⟨rfl, by decide, rfl⟩, rfl, by decide +kernel⟩

/-- A staging buffer that passes, one that fails check 1, and the checks they pass and fail. -/
theorem witness_Commit :
    run0.served ∧ run0.maint.line = true ∧ ({ run0 with staging := goodImage } : State).staging.imageCheck = none ∧
      (∀ c, 1 ≤ c → c ≤ 13 → goodImage.passes c) ∧ Memory.imageCheck [(2047, 1)] = some 1 ∧ ¬Memory.passes [(2047, 1)] 1 :=
  have h : Memory.imageCheck [(2047, 1)] = some 1 := by decide +kernel
  ⟨⟨rfl, by decide, rfl⟩, rfl, test_good_image, (imageCheck_none_iff _).mp test_good_image, h, ((imageCheck_iff _ _).mp h).2.2.1⟩

/-- The check of the CRC's value that R182 gives, by its own words. -/
theorem test_crc_of_r182 : crcOver [0x31, 0x32, 0x33, 0x34, 0x35, 0x36, 0x37, 0x38, 0x39] = 0xCBF43926 := by decide +kernel

theorem witness_TestReadings :
    run0.served ∧ run0.maint.line = true ∧ (2#8).toNat ≤ 7 ∧ (7#8).toNat ≤ 7 ∧
      (run0.cfg.channels.get (channelOf 2)).zone = some 1 ∧ (1000#16).toNat ≤ 1000 ∧ (0#16).toNat ≤ 1000 ∧
      { run0.chans.get 2 with test := some 40 }.test.isSome = true ∧ (run0.chans.get 2).test = none ∧
      (run0.cfg.channels.get (channelOf 7)).zone = none := ⟨⟨rfl, by decide, rfl⟩, rfl, by decide +kernel⟩

theorem witness_OnlyTheirOwnEventsWrite :
    Instr.status.isPower = false ∧ (∃ t, exec .status run0 = .next t) ∧ Instr.status.isTick = false ∧ Instr.status ≠ .tick1s ∧
      Instr.status.isChannel = false ∧ Instr.holdExpiry.isMaintenance = false ∧ (∃ t, exec .holdExpiry run0 = .next t) ∧
      Instr.holdExpiry ≠ .commissioningLineChange ∧ Instr.status ≠ .upstreamReset ∧ Instr.status ≠ .upstreamResetRelease ∧
      (Instr.unknownCommand [0x01]).taken = .status ∧ ∃ t, exec (.unknownCommand [0x01]) run0 = .next t :=
  ⟨rfl, ⟨_, rfl⟩, rfl, by decide, rfl, rfl, ⟨_, rfl⟩, by decide, by decide, by decide, rfl, _, rfl⟩

end Sys2Proof.Tests
end

section
/-!
PROOFS. The transit path's answer to a misaligned request (chapter 4, R60).
-/
namespace Sys2Proof.Machine

/-- R178 coalesces refusals alone: what is no refusal joins the log as a record of its own, whatever the newest record is (R176, R179). -/
theorem EventLog.add_of_not_refusal (now : Nat) (l : EventLog) {e : LogEntry} (hr : e.kind ≠ .writeRefused) (ha : e.kind ≠ .writeAbsorbed) :
    EventLog.add now l e =
      { l with
        records := (if 32 ≤ l.records.length then l.records.drop 1 else l.records) ++
          [{ seq := l.nextSeq, kind := e.kind, zone := e.zone, time := now, subject := e.subject, value := e.value, repeats := 1,
             gap := decide (32 ≤ l.records.length) }]
        nextSeq := l.nextSeq + 1#16 } := by
  have hk : ¬(e.kind = .writeRefused ∨ e.kind = .writeAbsorbed) := not_or.2 ⟨hr, ha⟩
  unfold EventLog.add
  cases l.records.getLast? with
  | none => rfl
  | some newest => exact if_neg fun h => hk h.1

namespace State

/-- The alignment is looked at before the kind of the request and before its window (R60). -/
theorem takeRequest_of_misaligned (s : State) {r : HostRequest} (h : r.addr.toNat % r.width.bytes ≠ 0) :
    s.takeRequest r = (s.append .misaligned none (some r.addr.toNat) (some r.width.bytes)).answerHost .refused none := by
  have hm : (!r.width.aligned r.addr) = true := by simp [Width.aligned, h]
  exact if_pos hm

/-- A misaligned request at a port that is ready is answered within the step: no notice follows it, so only the step's conclusion does. -/
theorem present_of_misaligned {s : State} (hs : s.hostReady) {r : HostRequest} (h : r.addr.toNat % r.width.bytes ≠ 0) :
    s.present r =
      ((s.append .misaligned none (some r.addr.toNat) (some r.width.bytes)).answerHost .refused none).conclude := by
  have ⟨hagenda, _, _⟩ := hs
  rw [present_of_ready hs, takeRequest_of_misaligned s h, settle_of_calm (by simp [hagenda])]

/-- What the host and the blocks find after a misaligned request, read or write. -/
theorem present_of_misaligned_spec {s : State} (hs : s.hostReady) {r : HostRequest} (h : r.addr.toNat % r.width.bytes ≠ 0) :
    let t := s.present r
    t.responses = s.responses ++ [{ kind := .refused, data := none }] ∧ t.upstream = .idle ∧ samePosted t.posted s.posted ∧
      t.waiting = s.waiting ∧ t.zones = s.zones ∧ t.hold = s.hold ∧ t.force = s.force ∧
      t.log = s.logged [{ kind := .misaligned, zone := none, subject := some r.addr.toNat, value := some r.width.bytes }] := by
  rw [present_of_misaligned hs h]
  have kept := concluded_conclude ((s.append .misaligned none (some r.addr.toNat) (some r.width.bytes)).answerHost .refused none)
  refine ⟨?responses, kept.upstream, ?posted, ?waiting, ?zones, ?hold, ?force, ?log⟩
  case responses => simpa using kept.responses
  case posted => simpa using kept.posted
  case waiting => simpa using kept.waiting
  case zones => simpa using kept.zones
  case hold => simpa using kept.hold
  case force => simpa using kept.force
  case log => simpa [append_logged_nil] using kept.log

end State

/-- Settles O30: both kinds of request come to one presented to a port that is ready, and MISALIGNED is no refusal that R178 could count on
the newest record. -/
theorem misalignedIsRefused : Obligations.MisalignedIsRefused := by
  unfold Obligations.MisalignedIsRefused
  intro s a w d c hs hmis hc
  obtain ⟨r, hexec, rfl, rfl⟩ : ∃ r : HostRequest, exec c s = .next (s.present r) ∧ r.addr = a ∧ r.width = w := by
    obtain rfl | rfl := hc
    · exact ⟨_, rfl, rfl, rfl⟩
    · exact ⟨_, rfl, rfl, rfl⟩
  obtain ⟨hresponses, hupstream, hposted, hwaiting, hzones, hhold, hforce, hlog⟩ :=
    State.present_of_misaligned_spec hs hmis
  have hown := hlog.trans (EventLog.add_of_not_refusal s.time.seconds s.log (by simp) (by simp))
  exact ⟨s.present r, hexec, hresponses, hupstream, hposted, hwaiting, hzones, hhold, hforce, by rw [hown], by rw [hown]⟩

end Sys2Proof.Machine
end

section
/-!
PROOFS. The log clear (chapter 11, R180).
-/
namespace Sys2Proof.Machine

namespace State

/-! One equation for each row of R180's table. -/

theorem logClear_of_empty {s : State} (seq : Half) (h : s.log.records = []) :
    s.logClear seq = { s with log := { s.log with lastClear := .empty } }.mark itemHeader := by
  simp [logClear, h]

theorem logClear_of_newest {s : State} {seq : Half} {before : List Record} {r : Record} (h : s.log.records = before ++ [r])
    (hseq : r.seq = seq) :
    s.logClear seq =
      { s with log := { s.log with records := [], clearedThrough := seq, lastClear := .cleared } }.mark itemHeader := by
  simp [logClear, h, hseq]

theorem logClear_of_stale {s : State} {seq : Half} {before : List Record} {r : Record} (h : s.log.records = before ++ [r])
    (hseq : r.seq ≠ seq) :
    s.logClear seq = { s with log := { s.log with lastClear := .stale } }.mark itemHeader := by
  simp [logClear, h, hseq]

end State

/-- Settles O52: the rows of R180's table, told apart by the newest record. -/
theorem logClear : Obligations.LogClear := by
  unfold Obligations.LogClear
  intro s seq
  exact ⟨State.logClear_of_empty seq, fun _ _ => State.logClear_of_newest, fun _ _ => State.logClear_of_stale⟩

end Sys2Proof.Machine
end

section
/-!
PROOFS. The layout of a record, and the log slot that holds it (chapter 11, R170, R176, R177).
-/
namespace Sys2Proof.Machine

/-! ## Fields of bytes -/

@[simp] theorem leBytes_length (n v : Nat) : (leBytes n v).length = n := by
  induction n generalizing v with
  | zero => rfl
  | succ n ih => simp [leBytes, ih]

/-- A field of `n` bytes shows its value modulo what `n` bytes can hold. -/
@[simp] theorem leValue_leBytes (n v : Nat) : leValue (leBytes n v) = v % 256 ^ n := by
  induction n generalizing v with
  | zero => simp [leBytes, leValue, Nat.mod_one]
  | succ n ih => simp [leBytes, leValue, ih, Nat.pow_succ', Nat.mod_mul]

/-- Contents of an item's own size are not padded. -/
theorem padTo_of_length {n : Nat} {bs : List Byte} (h : bs.length = n) : padTo n bs = bs := by
  simp [padTo, ← h]

/-- The bits of a byte of three flags. -/
theorem bits4_three : ∀ b0 b1 b2 : Bool,
    (bits4 b0 b1 b2 false).getLsbD 0 = b0 ∧ (bits4 b0 b1 b2 false).getLsbD 1 = b1 ∧ (bits4 b0 b1 b2 false).getLsbD 2 = b2 ∧
      (bits4 b0 b1 b2 false).toNat < 8 := by
  decide

/-! ## The layout of a record: each field cut from the sixteen bytes at its place in R177's table -/

namespace Record

theorem bytes_length (r : Record) : r.bytes.length = 16 := by simp [bytes]

theorem bytes_seq (r : Record) : leValue (r.bytes.take 2) = r.seq.toNat :=
  (leValue_leBytes 2 r.seq.toNat).trans (Nat.mod_eq_of_lt r.seq.isLt)

theorem bytes_kind (r : Record) : r.bytes[2]? = some (BitVec.ofNat 8 r.kind.code) := rfl

theorem bytes_zone (r : Record) :
    r.bytes[3]? = some (match r.zone with | some z => BitVec.ofNat 8 z.val | none => 0xFF#8) := rfl

theorem bytes_time (r : Record) : leValue ((r.bytes.drop 4).take 4) = r.time % 2 ^ 32 :=
  leValue_leBytes 4 r.time

theorem bytes_subject (r : Record) : leValue ((r.bytes.drop 8).take 4) = r.subject.getD 0 % 2 ^ 32 :=
  leValue_leBytes 4 (r.subject.getD 0)

theorem bytes_value (r : Record) : leValue ((r.bytes.drop 12).take 2) = r.value.getD 0 % 2 ^ 16 :=
  leValue_leBytes 2 (r.value.getD 0)

theorem bytes_repeats (r : Record) : r.bytes[14]? = some (BitVec.ofNat 8 r.repeats) := rfl

theorem bytes_flags (r : Record) :
    ∃ flags, r.bytes[15]? = some flags ∧ flags.getLsbD 0 = r.gap ∧ flags.getLsbD 1 = r.subject.isSome ∧
      flags.getLsbD 2 = r.value.isSome ∧ flags.toNat < 8 :=
  ⟨_, rfl, bits4_three r.gap r.subject.isSome r.value.isSome⟩

end Record

/-! ## The slots of the records -/

/-- The sequences of a sound log count up to the next one, so a record's place from the newest end gives its sequence. -/
theorem seq_of_consecutive {l : List Record} {next : Half} (h : consecutive l next = true) {i : Nat} (hi : i < l.length) :
    l[i].seq + BitVec.ofNat 16 (l.length - i) = next := by
  induction l generalizing i with
  | nil => simp at hi
  | cons a l ih =>
    cases l with
    | nil =>
      obtain rfl : i = 0 := by simpa using hi
      simpa [consecutive] using h
    | cons b l =>
      obtain ⟨hab, htail⟩ : a.seq + 1#16 = b.seq ∧ consecutive (b :: l) next = true := by simpa [consecutive] using h
      cases i with
      | zero =>
        have hb := ih htail (i := 0) (by simp)
        simp only [List.getElem_cons_zero, List.length_cons, Nat.sub_zero] at hb ⊢
        rw [← hab] at hb
        rw [← hb, Nat.add_comm (l.length + 1), BitVec.ofNat_add, BitVec.add_assoc]
      | succ i => simpa using ih htail (i := i) (by simpa using hi)

/-- At most 32 records of consecutive sequences have no two in one slot (R170, R176). -/
theorem EventLog.slot_unique {l : EventLog} (h : l.sound) {q r : Record} (hq : q ∈ l.records) (hr : r ∈ l.records)
    (hslot : q.seq.toNat % 32 = r.seq.toNat % 32) : q = r := by
  obtain ⟨hlen, hcons⟩ := h
  obtain ⟨i, hi, rfl⟩ := List.mem_iff_getElem.1 hq
  obtain ⟨j, hj, rfl⟩ := List.mem_iff_getElem.1 hr
  have hsame := congrArg BitVec.toNat ((seq_of_consecutive hcons hi).trans (seq_of_consecutive hcons hj).symm)
  simp only [BitVec.toNat_add, BitVec.toNat_ofNat] at hsame
  simp only [Config.logCapacity] at hlen
  obtain rfl : i = j := by omega
  rfl

/-- The slot of a record of a sound log is looked up to that record. -/
theorem EventLog.find_slot {l : EventLog} (h : l.sound) {r : Record} (hr : r ∈ l.records) :
    l.records.find? (fun q => q.seq.toNat % 32 == r.seq.toNat % 32) = some r := by
  obtain ⟨q, hq⟩ : ∃ q, l.records.find? (fun q => q.seq.toNat % 32 == r.seq.toNat % 32) = some q :=
    Option.isSome_iff_exists.1 (List.find?_isSome.2 ⟨r, hr, beq_self_eq_true _⟩)
  have hslot : q.seq.toNat % 32 = r.seq.toNat % 32 := by simpa using List.find?_some hq
  rw [hq, EventLog.slot_unique h (List.mem_of_find?_eq_some hq) hr hslot]

/-- The log slot of a record of a sound log holds the record's sixteen bytes (R170, R177). -/
theorem State.itemBytes_slot {s : State} (h : s.log.sound) {r : Record} (hr : r ∈ s.log.records) :
    s.itemBytes (.slot ⟨r.seq.toNat % 32, Nat.mod_lt _ (by decide)⟩) = r.bytes := by
  simp only [State.itemBytes, EventLog.find_slot h hr]
  exact padTo_of_length r.bytes_length

/-- Settles O50: the fields of a record are read back one by one, and in a sound log no other record takes a record's slot. -/
theorem recordLayout : Obligations.RecordLayout := by
  unfold Obligations.RecordLayout
  refine ⟨fun r => ?layout, rfl, fun _ => rfl, fun _ _ hsound hr => State.itemBytes_slot hsound hr⟩
  case layout =>
    exact ⟨r.bytes_length, r.bytes_seq, r.bytes_kind, r.bytes_zone, r.bytes_time, r.bytes_subject, r.bytes_value, r.bytes_repeats,
      r.bytes_flags⟩

end Sys2Proof.Machine
end

section
/-!
PROOFS. What no block writes: the frame of the blocks' operations that the invariants of the lines and of a part held in VENT need
(chapters 1 and 10).
-/
namespace Sys2Proof.Machine.State

/-- The blocks write no line, no time, no staging buffer, no maintenance unit and no bus input, and they keep a part outside RUN in VENT. -/
structure Kept (s t : State) : Prop where
  lines : t.lines = s.lines
  time : t.time = s.time
  staging : t.staging = s.staging
  maint : t.maint = s.maint
  busReset : t.busReset = s.busReset
  vented : s.heldInVent → t.heldInVent

namespace Kept

theorem refl (s : State) : Kept s s := ⟨rfl, rfl, rfl, rfl, rfl, id⟩

theorem trans {s t u : State} (h : Kept s t) (k : Kept t u) : Kept s u :=
  ⟨k.lines.trans h.lines, k.time.trans h.time, k.staging.trans h.staging, k.maint.trans h.maint, k.busReset.trans h.busReset,
    k.vented ∘ h.vented⟩

/-- An update of other fields keeps what `t` has kept. -/
theorem same {s t u : State} (h : Kept s t)
    (k : u.lines = t.lines ∧ u.time = t.time ∧ u.staging = t.staging ∧ u.maint = t.maint ∧ u.busReset = t.busReset ∧
      u.mode = t.mode ∧ u.cfg = t.cfg ∧ u.zones = t.zones) : Kept s u := by
  obtain ⟨hlines, htime, hstaging, hmaint, hbus, hmode, hcfg, hzones⟩ := k
  exact h.trans ⟨hlines, htime, hstaging, hmaint, hbus, by unfold heldInVent; rw [hmode, hcfg, hzones]; exact id⟩

theorem foldl {α : Type} {f : State → α → State} {s t : State} (h : Kept s t) (hf : ∀ t a, Kept s t → Kept s (f t a)) (l : List α) :
    Kept s (l.foldl f t) := by
  induction l generalizing t with
  | nil => exact h
  | cons a rest ih => exact ih (hf t a h)

variable {s t : State}

/-! ## Plain updates -/

theorem nextOrder (h : Kept s t) : Kept s t.nextOrder.2 := h.same (by simp)
theorem chooseItem (h : Kept s t) : Kept s t.chooseItem := h.same (by simp)
theorem mark (h : Kept s t) (i : Fin 67) : Kept s (t.mark i) := h.same (by simp)
theorem append (h : Kept s t) (k : EventKind) (z : Option (Fin 4)) (a b : Option Nat) : Kept s (t.append k z a b) :=
  h.same (by simp)
theorem notify (h : Kept s t) (n : Notice) : Kept s (t.notify n) := h.same (by simp)
theorem setPosted (h : Kept s t) (q : List Posted) : Kept s (t.setPosted q) := h.same (by simp)
theorem replaceHold (h : Kept s t) (q : List HoldEntry) : Kept s (t.replaceHold q) := h.same (by simp)
theorem setHold (h : Kept s t) (q : List HoldEntry) : Kept s (t.setHold q) := h.same (by simp)
theorem setStore (h : Kept s t) (c : CellStore) : Kept s (t.setStore c) := h.same (by simp)
theorem setForce (h : Kept s t) (e : Fin 16) (r : ForceRec) : Kept s (t.setForce e r) := h.same (by simp)
theorem setTach (h : Kept s t) (i : Fin 8) (r : TachRec) : Kept s (t.setTach i r) := h.same (by simp)
theorem setChan (h : Kept s t) (i : Fin 8) (r : ChanRec) : Kept s (t.setChan i r) := h.same (by simp)
theorem setSpill (h : Kept s t) (i : Fin 12) (r : SpillRec) : Kept s (t.setSpill i r) := h.same (by simp)
theorem setWork (h : Kept s t) (w : SweepWork) : Kept s (t.setWork w) := h.same (by simp)
theorem answerHost (h : Kept s t) (k : ResponseKind) (d : Option Data) : Kept s (t.answerHost k d) := h.same (by simp)
theorem logCauses (h : Kept s t) (z : Fin 4) (a b : Causes) : Kept s (t.logCauses z a b) := h.same (by simp)
theorem announce (h : Kept s t) (z : Fin 4) (a b : ZoneState) : Kept s (t.announce z a b) := h.same (by simp)
theorem logClear (h : Kept s t) (n : Half) : Kept s (t.logClear n) := h.same (by simp [State.logClear])

end Kept

/-! ## The zones

Outside RUN no settings apply, so no threshold, period, channel or tach is there that could move a zone out of VENT. -/

/-- What keeps a zone in VENT outside RUN: a VENT cause that only LOADING's end takes away, no LOCKOUT cause and no purge. -/
def vents (state : ZoneState) (cs : Causes) (purge : Timer) : Prop :=
  state = .vent ∧ (cs.start = true ∨ cs.config = true) ∧ cs.anyLockout = false ∧ purge = .stopped

theorem heldInVent_iff (s : State) :
    s.heldInVent ↔
      (s.mode ≠ .run → s.cfg = Settings.unset ∧ ∀ z, vents (s.zones.get z).state (s.zones.get z).causes (s.zones.get z).purge) :=
  Iff.rfl

theorem settleState_vents {cs : Causes} {p : Timer} (h : vents .vent cs p) : settleState .vent cs = .vent := by
  obtain ⟨-, hcause, hlock, -⟩ := h
  have hv : cs.anyVent = true := by rcases hcause with e | e <;> simp [Causes.anyVent, e]
  simp [settleState, hlock, hv]

/-- A zone's record replaced: a part held in VENT stays so where the new record is held too. -/
theorem heldInVent_set {s u : State} {z : Fin 4} {r : ZoneRec} (hzones : u.zones = s.zones.set z r) (hmode : u.mode = s.mode)
    (hcfg : u.cfg = s.cfg) (hr : s.mode ≠ .run → s.heldInVent → vents r.state r.causes r.purge) (h : s.heldInVent) :
    u.heldInVent := by
  rw [heldInVent_iff]
  intro hrun
  rw [hmode] at hrun
  obtain ⟨hunset, hall⟩ := (heldInVent_iff s).1 h hrun
  refine ⟨hcfg.trans hunset, fun y => ?_⟩
  rw [hzones, Tab.get_set]
  split
  · exact hr hrun h
  · exact hall y

/-- What a part held in VENT says of one zone. -/
theorem heldInVent.zone {s : State} (h : s.heldInVent) (hrun : s.mode ≠ .run) (z : Fin 4) :
    vents (s.zones.get z).state (s.zones.get z).causes (s.zones.get z).purge := ((heldInVent_iff s).1 h hrun).2 z

/-- Outside RUN a zone event leaves a zone in VENT, where the causes it leaves do. -/
theorem zoneEvent_kept (s : State) (z : Fin 4) (r : ZoneRec) (cs : Causes)
    (hr : s.mode ≠ .run → s.heldInVent → vents r.state cs r.purge) : Kept s (s.zoneEvent z r cs) := by
  refine ⟨by simp, by simp, by simp, by simp, by simp, heldInVent_set (zoneEvent_zones s z r cs) (by simp) (by simp) ?_⟩
  intro hrun h
  have hv := hr hrun h
  have hstate : r.state = .vent := hv.1
  rw [hstate] at hv
  simpa [moved, hstate, settleState_vents hv] using hv

namespace Kept

variable {s t : State}

theorem zoneEvent (h : Kept s t) (z : Fin 4) (r : ZoneRec) (cs : Causes)
    (hr : t.mode ≠ .run → t.heldInVent → vents r.state cs r.purge) : Kept s (t.zoneEvent z r cs) :=
  h.trans (zoneEvent_kept t z r cs hr)

/-- SPILL and HOST_LOST hold no zone back in VENT and lock none out. -/
theorem zoneSpill (h : Kept s t) (z : Fin 4) (b : Bool) : Kept s (t.zoneCause z .spill b) :=
  h.zoneEvent z _ _ fun hrun hv => hv.zone hrun z

theorem zoneAcknowledge (h : Kept s t) (z : Fin 4) : Kept s (t.zoneAcknowledge z) := by
  refine h.trans ⟨by simp, by simp, by simp, by simp, by simp, heldInVent_set (zoneAcknowledge_zones t z) (by simp) (by simp) ?_⟩
  intro hrun hv
  have hz := hv.zone hrun z
  have hcs : vents .vent (ackCauses t z) (t.zones.get z).purge := by
    obtain ⟨-, hcause, hlock, hpurge⟩ := hz
    unfold ackCauses
    split
    · exact ⟨rfl, hcause, hlock, hpurge⟩
    · exact ⟨rfl, hcause, hlock, hpurge⟩
  have hstate : (t.zones.get z).state = .vent := hz.1
  simpa [moved, hstate, acknowledgedState, settleState_vents hcs] using hcs

theorem refreshRestart (h : Kept s t) (z : Fin 4) : Kept s (t.refreshRestart z) := by
  unfold State.refreshRestart
  dsimp only
  split
  · exact h
  · split
    · exact h.zoneEvent z _ _ fun hrun hv => hv.zone hrun z
    · exact h.trans ⟨by simp, by simp, by simp, by simp, by simp,
        heldInVent_set (setZone_zones _ _ _) (by simp) (by simp) fun hrun hv => hv.zone hrun z⟩

theorem refreshExpire (h : Kept s t) (z : Fin 4) : Kept s (t.refreshExpire z) := by
  unfold State.refreshExpire
  dsimp only
  split
  · exact h.zoneEvent z _ _ fun hrun hv => hv.zone hrun z
  · exact h

/-- A purge timer that is due is one of a zone that is not held in VENT. -/
theorem purgeExpire (h : Kept s t) (z : Fin 4) : Kept s (t.purgeExpire z) := by
  refine h.trans ⟨by simp, by simp, by simp, by simp, by simp, fun hv => ?_⟩
  by_cases hdue : (t.zones.get z).purge = .due
  · refine (heldInVent_iff _).2 fun hrun => ?_
    have hstop := (hv.zone (by simpa using hrun) z).2.2.2
    rw [hdue] at hstop
    exact absurd hstop (by decide)
  · simpa [State.purgeExpire, hdue] using hv

theorem zoneFlagged (h : Kept s t) (z : Fin 4) : Kept s (t.zoneFlagged z) :=
  h.trans ⟨by simp, by simp, by simp, by simp, by simp,
    heldInVent_set (z := z) (r := { t.zones.get z with unack := true }) (by simp [State.zoneFlagged]) (by simp) (by simp)
      fun hrun hv => hv.zone hrun z⟩

/-- Without settings no tach is bound, so the fan proof unit's causes are off. -/
theorem fanReport (h : Kept s t) (z : Fin 4) : Kept s (t.fanReport z) := by
  refine h.zoneEvent z _ _ fun hrun hv => ?_
  have hunset : t.cfg = Settings.unset := (hv hrun).1
  have hnone : t.zoneTachs z = [] := by
    simp [zoneTachs, tachZone, hunset, Settings.unset]
  obtain ⟨hstate, hcause, hlock, hpurge⟩ := hv.zone hrun z
  simp only [Causes.anyLockout, Bool.or_eq_false_iff] at hlock
  refine ⟨hstate, ?_, ?_, hpurge⟩
  · simpa [fanCauses, hnone, Causes.put] using hcause
  · simp [fanCauses, hnone, Causes.put, Causes.anyLockout, hlock.1]

theorem fanRecompute (h : Kept s t) (z : Fin 4) (ts : List (Fin 8)) : Kept s (t.fanRecompute z ts) := by
  have hset := h.foldl (fun t i k => k.setTach i (requireStep (t.cfg.tachs.get i) (t.tachs.get i) (t.tachRequired i))) ts
  unfold State.fanRecompute
  dsimp only
  split
  · exact hset.fanReport z
  · exact hset

theorem entryMoved (h : Kept s t) (e : Fin 16) : Kept s (t.entryMoved e) := by
  unfold State.entryMoved
  split
  · exact h.fanRecompute _ _
  · exact h

/-! ## The posted queue and the hold queue -/

theorem observe (h : Kept s t) (w : Option Observation) : Kept s (t.observe w) := by
  unfold State.observe
  split
  · exact h
  · exact h.zoneAcknowledge _
  · exact h.refreshRestart _
  · exact h.logClear _

theorem entryBoundary (h : Kept s t) (e : Fin 16) : Kept s (t.entryBoundary e) := h.same (by simp [State.entryBoundary])

theorem releaseDone (h : Kept s t) (e : Fin 16) : Kept s (t.releaseDone e) := ((h.setForce _ _).notify _).entryBoundary _

theorem enter (h : Kept s t) (p : Placement) : Kept s (t.enter p) := by
  unfold State.enter
  dsimp only
  have hs : ∀ (q : List Posted) (c : CellStore),
      Kept s (if p.checked = true then (t.setPosted q).setStore c else t.setPosted q) := by
    intro q c; split
    · exact (h.setPosted q).setStore c
    · exact h.setPosted q
  split
  · exact ((hs _ _).answerHost _ _).observe _
  · exact (hs _ _).setHold _
  · exact (hs _ _).releaseDone _

theorem place (h : Kept s t) (p : Placement) : Kept s (t.place p) := by
  unfold State.place
  split
  · exact h.enter p
  · exact h.same (by simp)

theorem enterNext (h : Kept s t) : Kept s t.enterNext := by
  unfold State.enterNext
  split
  · split
    · exact (h.same (by simp)).enter _
    · exact h
  · exact h

theorem dropHold (h : Kept s t) (a : Addr) : Kept s (t.dropHold a) := h.same (by simp [State.dropHold])

theorem joinHold (h : Kept s t) (a : Addr) (v : Half) (z : Fin 4) (p : Fin 8) (o : HoldOrigin) : Kept s (t.joinHold a v z p o) :=
  h.same (by simp [State.joinHold])

theorem holdPart (h : Kept s t) (a : Addr) (v : Half) (z : Fin 4) (p : Fin 8) : Kept s (t.holdPart a v z p) := by
  unfold State.holdPart
  split
  · exact h.append _ _ _ _
  · split
    · exact h.joinHold _ _ _ _ _
    · exact h.append _ _ _ _

theorem rejudgeEntry (h : Kept s t) (level : Fin 4) (e : HoldEntry) : Kept s (t.rejudgeEntry level e) := by
  unfold State.rejudgeEntry
  split
  · exact (h.setHold _).place _
  · exact h
  · exact (h.dropHold _).append _ _ _ _

theorem rejudgeZone (h : Kept s t) (z level : Fin 4) : Kept s (t.rejudgeZone z level) :=
  h.foldl (fun _ e k => k.rejudgeEntry level e) _

theorem expireHolds (h : Kept s t) : Kept s t.expireHolds := h.foldl (fun _ _ k => (k.dropHold _).append _ _ _ _) _

theorem emptyHolds (h : Kept s t) : Kept s t.emptyHolds := by
  unfold State.emptyHolds
  dsimp only
  split
  · exact h.same (by simp)
  · exact h.same (by simp)

/-! ## The force engine -/

theorem pendSweep (h : Kept s t) (z : Fin 4) (k : SweepKind) : Kept s (t.pendSweep z k) := h.same (by simp [State.pendSweep])

theorem queueSweep (h : Kept s t) (z : Fin 4) (k : SweepKind) : Kept s (t.queueSweep z k) := by
  unfold State.queueSweep
  split
  · exact h.pendSweep z k
  · split
    · exact h
    · split
      · exact h.pendSweep z _
      · split
        · exact h.pendSweep z _
        · exact h.same (by simp)

theorem takeSweepRequest (h : Kept s t) (z : Fin 4) (k : SweepKind) : Kept s (t.takeSweepRequest z k) := by
  unfold State.takeSweepRequest
  split
  · exact h.queueSweep z k
  · split
    · exact h.same (by simp)
    · split
      · exact (h.pendSweep z k).same (by simp)
      · exact h.queueSweep z k

theorem requestSweep (h : Kept s t) (z : Fin 4) (k : SweepKind) : Kept s (t.requestSweep z k) := by
  unfold State.requestSweep
  split
  · exact (h.takeSweepRequest z k).notify _
  · exact h

theorem forceActive (h : Kept s t) (e : Fin 16) (f : ForceCfg) (n : Nat) : Kept s (t.forceActive e f n) := by
  unfold State.forceActive
  dsimp only
  split
  · exact ((h.setForce _ _).append _ _ _ _).entryBoundary e
  · exact (h.setForce _ _).entryBoundary e

theorem engineValue (h : Kept s t) (e : Fin 16) (f : ForceCfg) (n : Half) : Kept s (t.engineValue e f n) := by
  unfold State.engineValue
  dsimp only
  split
  · exact (h.setForce _ _).forceActive _ _ _
  · exact (h.setForce _ _).setWork _

theorem engineLookup (h : Kept s t) (e : Fin 16) (f : ForceCfg) : Kept s (t.engineLookup e f) := by
  unfold State.engineLookup
  dsimp only
  split
  · exact (h.setStore _).engineValue _ _ _
  · exact (h.setStore _).setWork _

theorem attemptFailed (h : Kept s t) (e : Fin 16) (f : ForceCfg) : Kept s (t.attemptFailed e f) := by
  unfold State.attemptFailed
  dsimp only
  split
  · exact (h.setForce _ _).engineLookup _ _
  · exact (((h.setForce _ _).append _ _ _ _).zoneFlagged _).entryBoundary _

theorem withdrawHost (h : Kept s t) (a : Addr) : Kept s (t.withdrawHost a) := by
  unfold State.withdrawHost
  split
  · exact h.same (by simp)
  · exact h

theorem removePosted (h : Kept s t) (a : Addr) : Kept s (t.removePosted a) := by
  unfold State.removePosted
  split
  · exact (h.setPosted _).setStore _
  · exact h

theorem forceApply (h : Kept s t) (e : Fin 16) (f : ForceCfg) : Kept s (t.forceApply e f) := by
  have hc := fun r => (((h.withdrawHost f.cell).removePosted f.cell).dropHold f.cell).setForce e r
  unfold State.forceApply
  dsimp only
  split
  · split
    · exact ((hc _).notify _).setWork _
    · exact ((hc _).notify _).engineLookup _ _
  · split
    · exact (hc _).setWork _
    · exact (hc _).engineLookup _ _

theorem forceRelease (h : Kept s t) (e : Fin 16) (f : ForceCfg) : Kept s (t.forceRelease e f) := by
  unfold State.forceRelease
  dsimp only
  split
  · unfold State.forceJudge
    split
    · exact (h.setForce _ _).releaseDone _
    · split
      · exact ((h.setForce _ _).setWork _).place _
      · exact ((h.setForce _ _).holdPart _ _ _ _).releaseDone _
      · exact ((h.setForce _ _).append _ _ _ _).releaseDone _
  · exact (h.setForce _ _).releaseDone _

theorem endSweep (h : Kept s t) : Kept s t.endSweep := h.same (by simp [State.endSweep])

theorem takeSweep (h : Kept s t) : Kept s t.takeSweep := by
  unfold State.takeSweep
  split
  · exact h
  · exact (h.same (by simp)).notify _

theorem engineGo (h : Kept s t) : Kept s t.engineGo := by
  unfold State.engineGo
  split
  · exact h.takeSweep
  · split
    · exact h
    · split
      · exact h.endSweep
      · split
        · exact h.endSweep
        · split
          · exact h.endSweep
          · dsimp only
            split
            · exact (h.same (by simp)).forceApply _ _
            · exact (h.same (by simp)).forceRelease _ _

theorem engineSettles (h : Kept s t) (v : Option Half) : Kept s (t.engineSettles v) := by
  unfold State.engineSettles
  split
  · exact h
  · split
    · exact h.engineValue _ _ _
    · exact h.attemptFailed _ _
    · exact h

theorem forceWritten (h : Kept s t) (done : Bool) : Kept s (t.forceWritten done) := by
  unfold State.forceWritten
  split
  · exact h
  · split
    · exact h
    · split
      · exact h.forceActive _ _ _
      · exact (h.setStore _).attemptFailed _ _

theorem deliveryDone (h : Kept s t) (p : Posted) : Kept s (t.deliveryDone p) := by
  unfold State.deliveryDone
  split
  · split
    · split
      · exact h.engineLookup _ _
      · exact h
    · exact h
  · exact h

theorem retryExpire (h : Kept s t) (e : Fin 16) : Kept s (t.retryExpire e) := by
  unfold State.retryExpire
  dsimp only
  split
  · split
    · split
      · exact (h.setForce _ _).requestSweep _ _
      · exact h.setForce _ _
    · exact h.setForce _ _
  · exact h

/-! ## The checker and the upstream port -/

theorem refuse (h : Kept s t) (style : Style) (z : Option (Fin 4)) (a : Addr) (v : Half) : Kept s (t.refuse style z a v) := by
  unfold State.refuse
  split
  · exact (h.append _ _ _ _).answerHost _ _
  · exact (h.append _ _ _ _).answerHost _ _

theorem keepRequest (h : Kept s t) (a : Addr) (v : Half) : Kept s (t.keepRequest a v) := by
  unfold State.keepRequest
  split
  · exact h.setForce _ _
  · exact h

theorem carryOut (h : Kept s t) (a : Addr) (v : Half) (z : Fin 4) (p : Fin 8) (style : Style) (d : Verdict) :
    Kept s (t.carryOut a v z p style d) := by
  cases d with
  | pass v' =>
    have hd : Kept s { (t.keepRequest a v).dropHold a with upstream := .placing } := ((h.keepRequest a v).dropHold a).same (by simp)
    exact hd.place _
  | kept => exact (h.keepRequest a v).answerHost _ _
  | held => exact (h.joinHold _ _ _ _ _).answerHost _ _
  | full => exact (h.append _ _ _ _).refuse _ _ _ _
  | refused => exact h.refuse _ _ _ _

theorem verdict (h : Kept s t) (a : Addr) (v : Half) (z : Fin 4) (p : Fin 8) (style : Style) (n : Option Half) :
    Kept s (t.verdict a v z p style n) := by
  unfold State.verdict
  dsimp only
  have hc : Kept s { t with checker := .idle } := h.same (by simp)
  split
  · split
    · exact (hc.nextOrder.carryOut _ _ _ _ _ _).refreshRestart z
    · exact (hc.nextOrder.refreshRestart z).carryOut _ _ _ _ _ _
  · exact (hc.carryOut _ _ _ _ _ _).refreshRestart z

theorem checkerLookup (h : Kept s t) (a : Addr) (v : Half) (z : Fin 4) (p : Fin 8) (style : Style) :
    Kept s (t.checkerLookup a v z p style) := by
  unfold State.checkerLookup
  dsimp only
  split
  · exact (h.setStore _).verdict _ _ _ _ _ _
  · exact h.same (by simp)

theorem handOver (h : Kept s t) (a : Addr) (v : Half) (z : Fin 4) (p : Fin 8) (style : Style) : Kept s (t.handOver a v z p style) := by
  unfold State.handOver
  dsimp only
  have hu : Kept s { t with upstream := .judging } := h.same (by simp)
  split
  · exact hu.verdict _ _ _ _ _ _
  · split
    · exact hu.same (by simp)
    · exact hu.checkerLookup _ _ _ _ _

theorem checkerSettles (h : Kept s t) (b : Bool) (v : Option Half) : Kept s (t.checkerSettles b v) := by
  unfold State.checkerSettles
  split
  · exact h
  · split
    · split
      · exact h.checkerLookup _ _ _ _ _
      · exact h
    · split
      · exact h
      · exact h.verdict _ _ _ _ _ _

theorem abandonedSettles (h : Kept s t) : Kept s t.abandonedSettles := by
  obtain ⟨k, v, -, -, -, e⟩ | ⟨-, e⟩ := abandonedSettles_cases t <;> rw [e]
  · exact (h.setStore _).checkerSettles _ _
  · exact h

theorem postHost (h : Kept s t) (r : HostRequest) (z : Option (Fin 4)) (w : Option Observation) : Kept s (t.postHost r z w) :=
  Kept.place (h.same (by simp)) _

theorem takeWrite (h : Kept s t) (r : HostRequest) : Kept s (t.takeWrite r) := by
  unfold State.takeWrite
  split
  · exact h.refuse _ _ _ _
  · exact h.postHost _ _ _
  · split
    · exact h.postHost _ _ _
    · exact h.postHost _ _ _
    · exact h.refuse _ _ _ _
    · split
      · exact h.handOver _ _ _ _ _
      · exact h.refuse _ _ _ _

theorem takeRequest (h : Kept s t) (r : HostRequest) : Kept s (t.takeRequest r) := by
  unfold State.takeRequest
  split
  · exact (h.append _ _ _ _).answerHost _ _
  · split
    · exact h.takeWrite r
    · exact h.same ⟨rfl, rfl, rfl, rfl, rfl, rfl, rfl, rfl⟩

theorem admitOne (h : Kept s t) : Kept s t.admitOne := by
  unfold State.admitOne
  split
  · split
    · exact (h.same (by simp)).takeRequest _
    · exact h
  · exact h

theorem takeSettlement (h : Kept s t) (w : Claimant) (k : Claim) (v : Option Half) : Kept s (t.takeSettlement w k v) := by
  unfold State.takeSettlement
  dsimp only
  split
  · exact (h.setStore _).checkerSettles _ _
  · exact (h.setStore _).engineSettles _

theorem abandonRequest (h : Kept s t) : Kept s t.abandonRequest := by
  unfold State.abandonRequest
  split
  · exact h
  · exact h.same (by simp)
  · exact h.same (by simp)
  · split
    · exact h.same ⟨rfl, rfl, rfl, rfl, rfl, rfl, rfl, rfl⟩
    · exact h.same ⟨rfl, rfl, rfl, rfl, rfl, rfl, rfl, rfl⟩
    · exact h.same ⟨rfl, rfl, rfl, rfl, rfl, rfl, rfl, rfl⟩

/-! ## The report writer and the port -/

theorem reportWritten (h : Kept s t) (done : Bool) (a : Addr) : Kept s (t.reportWritten done a) := by
  unfold State.reportWritten
  split
  · exact h
  · split
    · dsimp only
      split
      · exact h.same (by simp)
      · exact (h.same (by simp)).chooseItem
    · dsimp only
      split
      · exact (h.same (by simp)).mark _
      · exact h.same (by simp)

theorem postedDone (h : Kept s t) (done : Bool) : Kept s (t.postedDone done) := by
  unfold State.postedDone
  split
  · exact h
  · dsimp only
    split
    · exact (h.setPosted _).deliveryDone _
    · split
      · exact (((h.setPosted _).append _ _ _ _).setStore _).deliveryDone _
      · exact ((h.setPosted _).append _ _ _ _).deliveryDone _

theorem hostReadDone (h : Kept s t) (done : Bool) (d : Data) : Kept s (t.hostReadDone done d) := by
  unfold State.hostReadDone
  split
  · split
    · exact h.answerHost _ _
    · exact (h.append _ _ _ _).answerHost _ _
  all_goals exact h

theorem fillReadDone (h : Kept s t) (done : Bool) (a : Addr) (d : Data) : Kept s (t.fillReadDone done a d) := by
  unfold State.fillReadDone
  dsimp only
  split
  · exact (h.setStore _).abandonedSettles
  · exact ((h.append _ _ _ _).setStore _).abandonedSettles

theorem handOutcome (h : Kept s t) (x : Transfer) (done : Bool) (d : Data) : Kept s (t.handOutcome x done d) := by
  unfold State.handOutcome
  split
  · exact h.forceWritten _
  · exact h.fillReadDone _ _ _
  · split
    · exact h.postedDone _
    · exact h.hostReadDone _ _
  · exact h.reportWritten _ _

theorem answered (h : Kept s t) (done : Bool) (d : Data) : Kept s (t.answered done d) := by
  unfold State.answered
  split
  · exact (h.same (by simp)).handOutcome _ _ _
  all_goals exact h

theorem timedOut (h : Kept s t) : Kept s t.timedOut := by
  unfold State.timedOut
  split
  · split
    · exact (h.same (by simp)).handOutcome _ _ _
    · exact h
  all_goals exact h

theorem settled (h : Kept s t) : Kept s t.settled := by
  unfold State.settled
  split
  · exact h.same (by simp)
  · exact h

theorem reportAged (h : Kept s t) : Kept s t.reportAged := by
  unfold State.reportAged
  split
  · exact h.same (by simp)
  · exact h

theorem grant (h : Kept s t) (x : Transfer) : Kept s (t.grant x) := by
  unfold State.grant
  dsimp only
  split
  · exact (h.same (by simp)).setStore _
  · exact h.same (by simp)
  · split
    · exact h.same ⟨rfl, rfl, rfl, rfl, rfl, rfl, rfl, rfl⟩
    · exact h.same ⟨rfl, rfl, rfl, rfl, rfl, rfl, rfl, rfl⟩
  · exact h.same (by simp)

theorem arbitrate (h : Kept s t) : Kept s t.arbitrate := by
  have hg : Kept s t.grantNext := by
    unfold State.grantNext
    split
    · split
      · exact h
      · split
        · split
          · exact h.nextOrder.grant _
          · exact h.nextOrder
        · exact h.grant _
    · exact h
  unfold State.arbitrate State.startAging
  split
  · exact hg.same (by simp)
  · exact hg

/-! ## The end of a step -/

theorem takeNotice (h : Kept s t) (n : Notice) : Kept s (t.takeNotice n) := by
  cases n with
  | levelChange z level => exact h.rejudgeZone z level
  | forcingChange z => exact h.fanRecompute _ _
  | entryIdle e => exact h.entryMoved e
  | sweepRequest z k => exact h.requestSweep z k
  | engineGo => exact h.engineGo

theorem drain (n : Nat) (h : Kept s t) : Kept s (t.drain n) := by
  induction n generalizing t with
  | zero => exact h.same ⟨rfl, rfl, rfl, rfl, rfl, rfl, rfl, rfl⟩
  | succ n ih =>
    unfold State.drain
    split
    · exact h
    · next k u e =>
      have hu : Kept s u := by
        rw [(pickNotice_spec e).1]
        exact h.same ⟨rfl, rfl, rfl, rfl, rfl, rfl, rfl, rfl⟩
      exact ih (hu.takeNotice k)

theorem settle (h : Kept s t) : Kept s t.settle := h.drain _

theorem admitWaiting (n : Nat) (h : Kept s t) : Kept s (t.admitWaiting n) := by
  induction n generalizing t with
  | zero => exact h
  | succ n ih =>
    unfold State.admitWaiting
    split
    · exact h
    · split
      · exact ih h.admitOne.settle
      · exact h

end Kept

/-- The end of a step sets the lines from a state in which everything else stands as it will. -/
theorem finish_refreshes (s : State) : ∃ w : State, Kept s w ∧ s.finish = w.refreshLines :=
  ⟨_, ((Kept.refl s).settle.admitWaiting _).arbitrate, rfl⟩

end Sys2Proof.Machine.State
end

section
/-!
PROOFS. What each command writes (chapters 1 to 12): the frame of the field inputs' operations, and the footprint of every command that
is not one of power, LOADING or the store write.
-/
namespace Sys2Proof.Machine

open State

namespace State

/-! ## The field inputs -/

/-- The channel events leave the spill lines and the tachs alone. -/
theorem gasReport_field (s : State) (z : Fin 4) (a b : Bool) :
    (s.gasReport z a b).spills = s.spills ∧ (s.gasReport z a b).tachs = s.tachs := by
  obtain ⟨-, ⟨-, -, hspills, htachs, -⟩, -⟩ := gasReport_frame s z a b
  exact ⟨hspills, htachs⟩

theorem chanEvent_field (s : State) (c : Fin 8) (r : ChanRec) (w : Bool) :
    (s.chanEvent c r w).spills = s.spills ∧ (s.chanEvent c r w).tachs = s.tachs := by
  unfold chanEvent
  split
  · exact ⟨rfl, rfl⟩
  · exact gasReport_field _ _ _ _

theorem endAllTests_field (s : State) : s.endAllTests.spills = s.spills ∧ s.endAllTests.tachs = s.tachs := by
  have reports : ∀ (l : List (Fin 4)) (m : State → Fin 4 → Bool) (t : State),
      (l.foldl (fun s z => s.gasReport z (m s z) false) t).spills = t.spills ∧
        (l.foldl (fun s z => s.gasReport z (m s z) false) t).tachs = t.tachs := by
    intro l m
    induction l with
    | nil => exact fun t => ⟨rfl, rfl⟩
    | cons z l ih => exact fun t => ⟨(ih _).1.trans (gasReport_field _ _ _ _).1, (ih _).2.trans (gasReport_field _ _ _ _).2⟩
  have ends : ∀ (l : List (Fin 8)) (t : State), (l.foldl testEnded t).spills = t.spills ∧ (l.foldl testEnded t).tachs = t.tachs := by
    intro l
    induction l with
    | nil => exact fun t => ⟨rfl, rfl⟩
    | cons c l ih => exact fun t => ⟨(ih _).1.trans (by simp [testEnded]), (ih _).2.trans (by simp [testEnded])⟩
  exact ⟨(reports _ _ _).1.trans (ends _ s).1, (reports _ _ _).2.trans (ends _ s).2⟩

/-- Without settings no channel has a zone. -/
theorem gasReading_unset {s : State} (h : s.cfg = Settings.unset) (z : Fin 4) : s.gasReading z = none := by
  have hnone : s.zoneChannels z = [] := by simp [zoneChannels, h, Settings.unset]
  simp [gasReading, hnone]

/-- A report that ends no warm-up takes START from no zone, and without channels no hydrogen cause and no SENSOR_LOST sets. -/
theorem Kept.gasReport {s t : State} (h : Kept s t) (z : Fin 4) (a : Bool) {b : Bool} (hb : b = true → t.cfg ≠ Settings.unset) :
    Kept s (t.gasReport z a b) := by
  unfold State.gasReport
  dsimp only
  split
  · exact h
  · refine h.zoneEvent z _ _ fun hrun hv => ?_
    have hunset : t.cfg = Settings.unset := (hv hrun).1
    obtain rfl : b = false := by cases b with
      | false => rfl
      | true => exact absurd hunset (hb rfl)
    obtain ⟨hstate, hcause, hlock, hpurge⟩ := hv.zone hrun z
    have hnone : t.zoneChannels z = [] := by simp [zoneChannels, hunset, Settings.unset]
    have hlost : ∀ cs, t.sensorLost z cs = cs := by simp [sensorLost, zoneReads, hnone]
    have hreading := gasReading_unset hunset z
    simp only [Causes.anyLockout, Bool.or_eq_false_iff] at hlock
    by_cases hfresh : t.gasReading z ≠ (t.zones.get z).reading
    · have hhigh : ((t.zones.get z).causes.hydrogen (t.cfg.zones.get z) none).anyLockout = false := by
        simp [Causes.hydrogen, hydrogenCause, Causes.anyLockout, hlock.2]
      rw [decide_eq_true hfresh, hreading]
      simpa only [if_true, Bool.false_and, if_false, hlost, ite_self, Bool.false_eq_true] using ⟨hstate, hcause, hhigh, hpurge⟩
    · rw [decide_eq_false hfresh]
      simpa only [if_false, Bool.false_and, hlost, ite_self, Bool.false_eq_true] using
        ⟨hstate, hcause, by simp [Causes.anyLockout, hlock.1, hlock.2], hpurge⟩

theorem Kept.chanEvent {s t : State} (h : Kept s t) (c : Fin 8) (r : ChanRec) (w : Bool) : Kept s (t.chanEvent c r w) := by
  unfold State.chanEvent
  split
  · exact h.setChan c r
  · next z hz =>
    refine (h.setChan c r).gasReport z _ fun _ hunset => ?_
    have hcfg : t.cfg = Settings.unset := hunset
    simp [hcfg, Settings.unset] at hz

theorem Kept.chanSample {s t : State} (h : Kept s t) (c : Fin 8) (code : BitVec 12) : Kept s (t.chanSample c code) := by
  have hlog : ∀ (b : Bool) k z x y, Kept s (if b = true then t.append k z x y else t) := by
    intro b k z x y; split
    · exact h.append _ _ _ _
    · exact h
  unfold State.chanSample
  dsimp only
  split
  · exact Kept.chanEvent (hlog _ _ _ _ _) _ _ _
  · exact Kept.chanEvent (hlog _ _ _ _ _) _ _ _

theorem Kept.warmUpExpire {s t : State} (h : Kept s t) (c : Fin 8) : Kept s (t.warmUpExpire c) := by
  unfold State.warmUpExpire
  dsimp only
  split
  · split
    · split
      · exact (h.append _ _ _ _).chanEvent _ _ _
      · exact (h.append _ _ _ _).chanEvent _ _ _
    · exact h.chanEvent _ _ _
    · exact h.chanEvent _ _ _
  · exact h

theorem Kept.beginTest {s t : State} (h : Kept s t) (c : Fin 8) (v : Nat) : Kept s (t.beginTest c v) :=
  (h.append _ _ _ _).chanEvent _ _ _

theorem Kept.endTestOf {s t : State} (h : Kept s t) (c : Fin 8) : Kept s (t.endTestOf c) := by
  unfold State.endTestOf
  split
  · exact (h.append _ _ _ _).chanEvent _ _ _
  · exact h

theorem Kept.endAllTests {s t : State} (h : Kept s t) : Kept s t.endAllTests :=
  (h.foldl (fun _ _ k => (k.append _ _ _ _).setChan _ _) _).foldl
    (fun _ z k => k.gasReport z _ fun e => absurd e Bool.false_ne_true) _

theorem Kept.spillSample {s t : State} (h : Kept s t) (l : Fin 12) (high : Bool) : Kept s (t.spillSample l high) := by
  unfold State.spillSample
  dsimp only
  split
  · exact h.setSpill _ _
  · split
    · split
      · exact ((h.setSpill _ _).append _ _ _ _).zoneSpill _ _
      · exact (h.setSpill _ _).append _ _ _ _
    · exact (h.setSpill _ _).append _ _ _ _

theorem Kept.tachEvent {s t : State} (h : Kept s t) (i : Fin 8) (r : TachRec) (log : Option FanLog) :
    Kept s (t.tachEvent i r log) := by
  have hlog : Kept s (match log with
      | some .failed => (t.setTach i r).append .fanFailed (t.tachZone i) (some i.val) r.speed
      | some .proven => (t.setTach i r).append .fanProven (t.tachZone i) (some i.val) r.speed
      | none => t.setTach i r) := by
    split
    · exact (h.setTach _ _).append _ _ _ _
    · exact (h.setTach _ _).append _ _ _ _
    · exact h.setTach _ _
  unfold State.tachEvent
  dsimp only
  split
  · split
    · exact hlog.fanReport _
    · exact hlog
  · exact hlog

theorem Kept.delayExpire {s t : State} (h : Kept s t) (i : Fin 8) : Kept s (t.delayExpire i) := by
  unfold State.delayExpire
  dsimp only
  split
  · split
    · exact h.tachEvent _ _ _
    · exact h.tachEvent _ _ _
    · exact h.setTach _ _
    · exact h.setTach _ _
  · exact h

theorem tachEvent_field (s : State) (i : Fin 8) (r : TachRec) (log : Option FanLog) :
    (s.tachEvent i r log).chans = s.chans ∧ (s.tachEvent i r log).spills = s.spills ∧
      ∀ z, ((s.tachEvent i r log).zones.get z).reading = (s.zones.get z).reading := by
  have report : ∀ (b : Bool) (z : Fin 4) (t : State),
      (if b = true then t.fanReport z else t).chans = t.chans ∧ (if b = true then t.fanReport z else t).spills = t.spills ∧
        ∀ y, ((if b = true then t.fanReport z else t).zones.get y).reading = (t.zones.get y).reading := by
    intro b z t
    split
    · have k := inside_fanReport t z
      exact ⟨k.chans, k.spills, k.readings⟩
    · exact ⟨rfl, rfl, fun _ => rfl⟩
  have logged : ∀ t : State, t = (match log with
      | some .failed => (s.setTach i r).append .fanFailed (s.tachZone i) (some i.val) r.speed
      | some .proven => (s.setTach i r).append .fanProven (s.tachZone i) (some i.val) r.speed
      | none => s.setTach i r) → t.chans = s.chans ∧ t.spills = s.spills ∧ t.zones = s.zones := by
    rintro t rfl
    split <;> simp
  obtain ⟨hc, hs, hz⟩ := logged _ rfl
  unfold tachEvent
  dsimp only
  split
  · obtain ⟨hc', hs', hz'⟩ := report (decide ((s.tachs.get i).state ≠ r.state)) _ _
    exact ⟨hc'.trans hc, hs'.trans hs, fun z => (hz' z).trans (congrArg (fun zs => (zs.get z).reading) hz)⟩
  · exact ⟨hc, hs, fun z => congrArg (fun zs => (zs.get z).reading) hz⟩

theorem spillSample_field (s : State) (l : Fin 12) (high : Bool) :
    (s.spillSample l high).chans = s.chans ∧ (s.spillSample l high).tachs = s.tachs ∧
      ∀ z, ((s.spillSample l high).zones.get z).reading = (s.zones.get z).reading := by
  unfold spillSample
  dsimp only
  split
  · simp
  · split
    · split
      · have k := fun t : State => inside_zoneCause t
        exact ⟨by simp, by simp, fun z => ((inside_zoneCause _ _ _ _).readings z).trans (by simp)⟩
      · simp
    · simp

end State
end Sys2Proof.Machine
end

section
/-!
PROOFS. The footprint of a command: which part of the state a command of its kind may write before the end of its step, command by command
(chapters 1 to 12, log 31).
-/
namespace Sys2Proof.Machine

open State

/-- What the command `c` may have written from `s` to `u`, before the end of its step. -/
structure Footprint (c : Instr) (s u : State) : Prop where
  lines : c ≠ .pulseBoundary → u.lines = s.lines
  vented : s.heldInVent → u.heldInVent
  time : c.isTick = false → u.time = s.time
  seconds : c ≠ .tick1s → u.time.seconds = s.time.seconds
  chans : c.isChannel = false → c ≠ .tick1s → u.chans = s.chans
  readings : c.isChannel = false → ∀ z, (u.zones.get z).reading = (s.zones.get z).reading
  spills : (∀ l h, c ≠ .spillSample l h) → c ≠ .tick100ms → u.spills = s.spills
  tachs : (∀ i, c ≠ .tachPulse i) → (∀ i, c ≠ .windowEvent i) →
    ∀ i, (u.tachs.get i).count = (s.tachs.get i).count ∧ (u.tachs.get i).speed = (s.tachs.get i).speed
  staging : (∀ o n bs, c ≠ .writeStage o n bs) → u.staging = s.staging
  staged : s.staging.wf = true → u.staging.wf = true
  busReset : c ≠ .upstreamReset → c ≠ .upstreamResetRelease → u.busReset = s.busReset
  maint : c.isMaintenance = false → (∀ b, c ≠ .tick1ms b) → c ≠ .commissioningLineChange → u.maint = s.maint

namespace Footprint

variable {c : Instr} {s u : State}

/-- The blocks' own operations write none of it. -/
theorem of_inside (c : Instr) (k : Kept s u) (i : Inside s u) : Footprint c s u :=
  ⟨fun _ => k.lines, k.vented, fun _ => i.time, fun _ => by rw [i.time], fun _ _ => i.chans, fun _ => i.readings, fun _ _ => i.spills,
    fun _ _ j => ⟨i.counts j, i.speeds j⟩, fun _ => i.staging, fun h => by rw [i.staging]; exact h, fun _ _ => i.busReset,
    fun _ _ _ => i.maint⟩

theorem refl (c : Instr) (s : State) : Footprint c s s := of_inside c (Kept.refl s) (Inside.refl s)

/-- A channel's event may write the channels and the readings too. -/
theorem of_gas (hc : c.isChannel = true) (k : Kept s u) (hf : u.spills = s.spills ∧ u.tachs = s.tachs) : Footprint c s u :=
  ⟨fun _ => k.lines, k.vented, fun _ => k.time, fun _ => by rw [k.time], fun h => absurd (hc.symm.trans h) (by decide),
    fun h => absurd (hc.symm.trans h) (by decide), fun _ _ => hf.1, fun _ _ j => by rw [hf.2]; exact ⟨rfl, rfl⟩,
    fun _ => k.staging, fun h => by rw [k.staging]; exact h, fun _ _ => k.busReset, fun _ _ _ => k.maint⟩

/-- What a command of the maintenance port, a sample of the line or a change of it leaves in the maintenance unit is its own. -/
theorem withMaint (h : Footprint c s u) (hc : c.isMaintenance = true ∨ (∃ b, c = .tick1ms b) ∨ c = .commissioningLineChange)
    (m : Maintenance) : Footprint c s { u with maint := m } :=
  { h with
    maint := fun h1 h2 h3 => by
      obtain e | ⟨b, e⟩ | e := hc
      · exact absurd (h1.symm.trans e) (by decide)
      · exact absurd e (h2 b)
      · exact absurd e h3 }

theorem reply (h : Footprint c s u) (hc : c.isMaintenance = true) (r : Reply) : Footprint c s (u.reply r) := h.withMaint (.inl hc) _

/-- The end of a step writes only what is not in the footprint, but for the lines. -/
theorem of_finish (h : Footprint c s u) :
    (c.isTick = false → u.finish.time = s.time) ∧ (c ≠ .tick1s → u.finish.time.seconds = s.time.seconds) ∧
      (c.isChannel = false → c ≠ .tick1s → u.finish.chans = s.chans) ∧
      (c.isChannel = false → ∀ z, (u.finish.zones.get z).reading = (s.zones.get z).reading) ∧
      ((∀ l h, c ≠ .spillSample l h) → c ≠ .tick100ms → u.finish.spills = s.spills) ∧
      ((∀ i, c ≠ .tachPulse i) → (∀ i, c ≠ .windowEvent i) →
        ∀ i, (u.finish.tachs.get i).count = (s.tachs.get i).count ∧ (u.finish.tachs.get i).speed = (s.tachs.get i).speed) ∧
      ((∀ o n bs, c ≠ .writeStage o n bs) → u.finish.staging = s.staging) ∧
      (c ≠ .upstreamReset → c ≠ .upstreamResetRelease → u.finish.busReset = s.busReset) ∧
      (c.isMaintenance = false → (∀ b, c ≠ .tick1ms b) → c ≠ .commissioningLineChange → u.finish.maint = s.maint) := by
  have e := ended_finish u
  refine ⟨?_, ?_, ?_, ?_, ?_, ?_, ?_, ?_, ?_⟩
  · simpa using h.time
  · simpa using h.seconds
  · simpa using h.chans
  · simpa using h.readings
  · simpa using h.spills
  · exact fun h1 h2 i => ⟨(e.counts i).trans (h.tachs h1 h2 i).1, (e.speeds i).trans (h.tachs h1 h2 i).2⟩
  · simpa using h.staging
  · simpa using h.busReset
  · simpa using h.maint

end Footprint

/-- What a command comes to: its own writes, with or without the end of a step after them. -/
def Ends (c : Instr) (s t : State) : Prop := ∃ u, Footprint c s u ∧ (t = u ∨ t = u.finish)

namespace Ends

theorem at_once {c : Instr} {s t : State} (h : Footprint c s t) : Ends c s t := ⟨t, h, .inl rfl⟩

theorem finish {c : Instr} {s u : State} (h : Footprint c s u) : Ends c s u.finish := ⟨u, h, .inr rfl⟩

theorem inside {c : Instr} {s u : State} (k : Kept s u) (i : Inside s u) : Ends c s u.finish := finish (.of_inside c k i)

theorem unchanged (c : Instr) (s : State) : Ends c s s := at_once (.refl c s)

theorem reply {c : Instr} (s : State) (hc : c.isMaintenance = true) (r : Reply) : Ends c s (s.reply r) :=
  at_once ((Footprint.refl c s).reply hc r)

/-- A command decided by R188's order ends as the command carried out does, or with a reply. -/
theorem gated {c : Instr} {s t : State} (hc : c.isMaintenance = true) (a b : Bool) (h : Ends c s t) : Ends c s (s.gated a b t) := by
  unfold State.gated
  split
  · exact unchanged c s
  · split
    · exact reply s hc _
    · split
      · exact reply s hc _
      · split
        · exact reply s hc _
        · exact h

end Ends

/-! ## The ticks -/

theorem ends_tick1ms (b : Bool) {s t : State} (h : execTick1ms b s = .next t) : Ends (.tick1ms b) s t := by
  unfold execTick1ms at h
  split at h <;> cases h
  · refine Ends.at_once ⟨fun _ => rfl, id, fun h => Bool.noConfusion h, fun _ => rfl, fun _ _ => rfl, fun _ _ => rfl, fun _ _ => rfl,
      fun _ _ _ => ⟨rfl, rfl⟩, fun _ => rfl, id, fun _ _ => rfl, fun _ h => absurd rfl (h b)⟩
  · exact Ends.unchanged _ s

/-- Refresh timers hold no zone in VENT. -/
theorem ends_tick100ms {s t : State} (h : execTick100ms s = .next t) : Ends .tick100ms s t := by
  unfold execTick100ms at h
  split at h
  · dsimp only at h
    split at h <;> cases h
    · refine Ends.at_once ⟨fun _ => rfl, fun hv hrun => ⟨(hv hrun).1, fun z => ?_⟩, fun h => absurd h (by decide), fun _ => rfl, fun _ _ => rfl,
        fun _ z => ?_, fun _ h => absurd rfl h, fun _ _ _ => ⟨rfl, rfl⟩, fun _ => rfl, id, fun _ _ => rfl, fun _ _ _ => rfl⟩
      · simpa [tenthInRun, tickRefresh, tickSpills] using (hv hrun).2 z
      · simp [tenthInRun, tickRefresh, tickSpills]
    · exact Ends.at_once ⟨fun _ => rfl, id, fun h => absurd h (by decide), fun _ => rfl, fun _ _ => rfl, fun _ _ => rfl,
        fun _ _ => rfl, fun _ _ _ => ⟨rfl, rfl⟩, fun _ => rfl, id, fun _ _ => rfl, fun _ _ _ => rfl⟩
  · cases h; exact Ends.unchanged _ s

/-- What the 1 s tick in RUN leaves in the tables. -/
theorem secondInRun_fields (s : State) :
    s.secondInRun.lines = s.lines ∧ s.secondInRun.mode = s.mode ∧ s.secondInRun.cfg = s.cfg ∧ s.secondInRun.time = s.time ∧
      s.secondInRun.spills = s.spills ∧ s.secondInRun.staging = s.staging ∧ s.secondInRun.busReset = s.busReset ∧
      s.secondInRun.maint = s.maint ∧ s.secondInRun.zones = s.zones.map (fun r => { r with purge := r.purge.tick }) ∧
      s.secondInRun.tachs = s.tachs.map (fun r => { r with timer := r.timer.tick, due := r.due || s.windowOpen }) ∧
      s.secondInRun.chans = s.chans.map (fun r => { r with timer := r.timer.tick }) ∧
      s.secondInRun.force = s.force.map (fun r => { r with retry := r.retry.tick }) ∧ s.secondInRun.windowOpen = true ∧
      s.secondInRun.hold = s.hold ∧ s.secondInRun.posted = s.posted ∧ s.secondInRun.log = s.log := by
  unfold secondInRun tickMarks
  dsimp only
  split <;> simp [tickWarmUp, tickPurge, tickTachs, tickRetry]

/-- The 1 s tick in RUN keeps to its footprint. -/
theorem footprint_secondInRun {s v : State} (hm : v.mode = .run)
    (hv : v.lines = s.lines ∧ v.zones = s.zones ∧ v.spills = s.spills ∧ v.tachs = s.tachs ∧ v.staging = s.staging ∧
      v.busReset = s.busReset ∧ v.maint = s.maint) : Footprint .tick1s s v.secondInRun := by
  obtain ⟨elines, ezones, espills, etachs, estaging, ebus, emaint⟩ := hv
  obtain ⟨hlines, hmode, -, -, hspills, hstaging, hbus, hmaint, hzones, htachs, -⟩ := secondInRun_fields v
  refine ⟨fun _ => hlines.trans elines, fun _ hrun => absurd (hmode.trans hm) hrun, fun h => Bool.noConfusion h,
    fun h => absurd rfl h, fun _ h => absurd rfl h, fun _ z => ?_, fun _ _ => hspills.trans espills, fun _ _ i => ?_,
    fun _ => hstaging.trans estaging, fun h => by rw [hstaging, estaging]; exact h, fun _ _ => hbus.trans ebus,
    fun _ _ _ => hmaint.trans emaint⟩
  · rw [hzones, ezones, Tab.get_map]
  · rw [htachs, etachs, Tab.get_map]; exact ⟨rfl, rfl⟩

theorem ends_tick1s {s t : State} (h : execTick1s s = .next t) : Ends .tick1s s t := by
  by_cases hdue : s.time.running = true ∧ s.time.secondDue = true
  · by_cases hm : s.mode = .run
    · rw [tick1s_eq hdue hm] at h
      injection h with h
      rw [← h]
      exact Ends.finish (footprint_secondInRun hm ⟨rfl, rfl, rfl, rfl, rfl, rfl, rfl⟩)
    · rw [tick1s_other hdue hm] at h
      injection h with h
      rw [← h]
      exact Ends.at_once ⟨fun _ => rfl, id, fun h => Bool.noConfusion h, fun h => absurd rfl h, fun _ _ => rfl, fun _ _ => rfl,
        fun _ _ => rfl, fun _ _ _ => ⟨rfl, rfl⟩, fun _ => rfl, id, fun _ _ => rfl, fun _ _ _ => rfl⟩
  · unfold execTick1s at h
    rw [if_neg hdue] at h
    cases h; exact Ends.unchanged _ s

theorem ends_pulse (s : State) : Ends .pulseBoundary s s.pulse := by
  unfold pulse
  split
  · exact Ends.at_once ⟨fun h => absurd rfl h, id, fun h => absurd h (by decide), fun _ => rfl, fun _ _ => rfl, fun _ _ => rfl,
      fun _ _ => rfl, fun _ _ _ => ⟨rfl, rfl⟩, fun _ => rfl, id, fun _ _ => rfl, fun _ _ _ => rfl⟩
  · exact Ends.unchanged _ s

/-! ## The field inputs -/

theorem chanSample_field (s : State) (c : Fin 8) (code : BitVec 12) :
    (s.chanSample c code).spills = s.spills ∧ (s.chanSample c code).tachs = s.tachs := by
  unfold chanSample
  dsimp only
  split <;> split <;> exact ⟨(chanEvent_field _ _ _ _).1.trans (by simp), (chanEvent_field _ _ _ _).2.trans (by simp)⟩

theorem warmUpExpire_field (s : State) (c : Fin 8) :
    (s.warmUpExpire c).spills = s.spills ∧ (s.warmUpExpire c).tachs = s.tachs := by
  have after : ∀ (t : State) (r : ChanRec), t.spills = s.spills → t.tachs = s.tachs →
      (t.chanEvent c r true).spills = s.spills ∧ (t.chanEvent c r true).tachs = s.tachs :=
    fun t r h1 h2 => ⟨(chanEvent_field t c r true).1.trans h1, (chanEvent_field t c r true).2.trans h2⟩
  unfold warmUpExpire
  dsimp only
  split
  · split
    · split
      · exact after _ _ (by simp) (by simp)
      · exact after _ _ (by simp) (by simp)
    · exact after _ _ rfl rfl
    · exact after _ _ rfl rfl
  · exact ⟨rfl, rfl⟩

theorem beginTest_field (s : State) (c : Fin 8) (v : Nat) :
    (s.beginTest c v).spills = s.spills ∧ (s.beginTest c v).tachs = s.tachs :=
  ⟨(chanEvent_field _ _ _ _).1.trans (by simp), (chanEvent_field _ _ _ _).2.trans (by simp)⟩

theorem endTestOf_field (s : State) (c : Fin 8) :
    (s.endTestOf c).spills = s.spills ∧ (s.endTestOf c).tachs = s.tachs := by
  unfold endTestOf
  split
  · exact ⟨(chanEvent_field _ _ _ _).1.trans (by simp), (chanEvent_field _ _ _ _).2.trans (by simp)⟩
  · exact ⟨rfl, rfl⟩

theorem ends_channelSample (ch : Fin 8) (code : BitVec 12) {s t : State} (h : execChannelSample ch code s = .next t) :
    Ends (.channelSample ch code) s t := by
  unfold execChannelSample at h
  split at h
  · split at h <;> cases h
    · next rest _ _ =>
      have k : Kept s { s with scan := rest } := (Kept.refl s).same ⟨rfl, rfl, rfl, rfl, rfl, rfl, rfl, rfl⟩
      exact Ends.finish (.of_gas rfl (k.chanSample ch code) (chanSample_field { s with scan := rest } ch code))
    · exact Ends.unchanged _ s
  · cases h; exact Ends.unchanged _ s

theorem ends_warmUpExpiry (ch : Fin 8) {s t : State} (h : execWarmUpExpiry ch s = .next t) : Ends (.warmUpExpiry ch) s t := by
  unfold execWarmUpExpiry at h
  split at h <;> cases h
  · exact Ends.finish (.of_gas rfl ((Kept.refl s).warmUpExpire ch) (warmUpExpire_field s ch))
  · exact Ends.unchanged _ s

theorem ends_spillSample (l : Fin 12) (b : Bool) {s t : State} (h : execSpillSample l b s = .next t) : Ends (.spillSample l b) s t := by
  unfold execSpillSample at h
  split at h <;> cases h
  · have k := (Kept.refl s).spillSample l b
    obtain ⟨hchans, htachs, hreadings⟩ := spillSample_field s l b
    exact Ends.finish ⟨fun _ => k.lines, k.vented, fun _ => k.time, fun _ => by rw [k.time], fun _ _ => hchans, fun _ => hreadings,
      fun h => absurd rfl (h l b), fun _ _ i => by rw [htachs]; exact ⟨rfl, rfl⟩, fun _ => k.staging,
      fun h => by rw [k.staging]; exact h, fun _ _ => k.busReset, fun _ _ _ => k.maint⟩
  · exact Ends.unchanged _ s

theorem ends_tachPulse (i : Fin 8) {s t : State} (h : execTachPulse i s = .next t) : Ends (.tachPulse i) s t := by
  unfold execTachPulse at h
  split at h <;> cases h
  · exact Ends.at_once ⟨fun _ => rfl, id, fun _ => rfl, fun _ => rfl, fun _ _ => rfl, fun _ _ => rfl, fun _ _ => rfl,
      fun h => absurd rfl (h i), fun _ => rfl, id, fun _ _ => rfl, fun _ _ _ => rfl⟩
  · exact Ends.unchanged _ s

theorem ends_windowEvent (i : Fin 8) {s t : State} (h : execWindowEvent i s = .next t) : Ends (.windowEvent i) s t := by
  unfold execWindowEvent at h
  split at h <;> cases h
  · have k := (Kept.refl s).tachEvent i (windowStep (s.cfg.tachs.get i) (s.tachs.get i)).1 (windowStep (s.cfg.tachs.get i) (s.tachs.get i)).2
    obtain ⟨hchans, hspills, hreadings⟩ := tachEvent_field s i (windowStep (s.cfg.tachs.get i) (s.tachs.get i)).1
      (windowStep (s.cfg.tachs.get i) (s.tachs.get i)).2
    exact Ends.finish ⟨fun _ => k.lines, k.vented, fun _ => k.time, fun _ => by rw [tachWindow, k.time], fun _ _ => hchans, fun _ => hreadings,
      fun _ _ => hspills, fun _ h => absurd rfl (h i), fun _ => k.staging, fun h => by rw [tachWindow, k.staging]; exact h,
      fun _ _ => k.busReset, fun _ _ _ => k.maint⟩
  · exact Ends.unchanged _ s

/-- The delay timer's expiry moves no count and no speed. -/
theorem delayExpire_field (s : State) (i : Fin 8) :
    (s.delayExpire i).chans = s.chans ∧ (s.delayExpire i).spills = s.spills ∧
      (∀ z, ((s.delayExpire i).zones.get z).reading = (s.zones.get z).reading) ∧
      ∀ j, ((s.delayExpire i).tachs.get j).count = (s.tachs.get j).count ∧ ((s.delayExpire i).tachs.get j).speed = (s.tachs.get j).speed := by
  have set : ∀ (r : TachRec), r.count = (s.tachs.get i).count → r.speed = (s.tachs.get i).speed →
      ∀ j, ((s.tachs.set i r).get j).count = (s.tachs.get j).count ∧ ((s.tachs.set i r).get j).speed = (s.tachs.get j).speed := by
    intro r hcount hspeed j
    rw [Tab.get_set]
    split
    · next e => rw [← e]; exact ⟨hcount, hspeed⟩
    · exact ⟨rfl, rfl⟩
  have event : ∀ r : TachRec, r.count = (s.tachs.get i).count → r.speed = (s.tachs.get i).speed →
      (s.tachEvent i r (some .failed)).chans = s.chans ∧ (s.tachEvent i r (some .failed)).spills = s.spills ∧
        (∀ z, ((s.tachEvent i r (some .failed)).zones.get z).reading = (s.zones.get z).reading) ∧
        ∀ j, ((s.tachEvent i r (some .failed)).tachs.get j).count = (s.tachs.get j).count ∧
          ((s.tachEvent i r (some .failed)).tachs.get j).speed = (s.tachs.get j).speed := by
    intro r hcount hspeed
    obtain ⟨hchans, hspills, hreadings⟩ := tachEvent_field s i r (some .failed)
    rw [tachEvent_tachs]
    exact ⟨hchans, hspills, hreadings, set r hcount hspeed⟩
  unfold delayExpire
  dsimp only
  split
  · split
    · exact event _ rfl rfl
    · exact event _ rfl rfl
    · exact ⟨rfl, rfl, fun _ => rfl, set _ rfl rfl⟩
    · exact ⟨rfl, rfl, fun _ => rfl, set _ rfl rfl⟩
  · exact ⟨rfl, rfl, fun _ => rfl, fun _ => ⟨rfl, rfl⟩⟩

theorem ends_delayTimerExpiry (i : Fin 8) {s t : State} (h : execDelayTimerExpiry i s = .next t) : Ends (.delayTimerExpiry i) s t := by
  unfold execDelayTimerExpiry at h
  split at h <;> cases h
  · have k := (Kept.refl s).delayExpire i
    obtain ⟨hchans, hspills, hreadings, htachs⟩ := delayExpire_field s i
    exact Ends.finish ⟨fun _ => k.lines, k.vented, fun _ => k.time, fun _ => by rw [k.time], fun _ _ => hchans, fun _ => hreadings,
      fun _ _ => hspills, fun _ _ => htachs, fun _ => k.staging, fun h => by rw [k.staging]; exact h, fun _ _ => k.busReset,
      fun _ _ _ => k.maint⟩
  · exact Ends.unchanged _ s

/-! ## The host's bus, the queues and the port -/

theorem ends_present (c : Instr) (s : State) (r : HostRequest) : Ends c s (s.present r) :=
  Ends.finish ⟨fun _ => rfl, id, fun _ => rfl, fun _ => rfl, fun _ _ => rfl, fun _ _ => rfl, fun _ _ => rfl, fun _ _ _ => ⟨rfl, rfl⟩,
    fun _ => rfl, id, fun _ _ => rfl, fun _ _ _ => rfl⟩

theorem ends_claimSettlement (w : Claimant) {s t : State} (h : execClaimSettlement w s = .next t) : Ends (.claimSettlement w) s t := by
  unfold execClaimSettlement at h
  split at h
  · split at h <;> cases h
    · exact Ends.inside ((Kept.refl s).takeSettlement _ _ _) (inside_takeSettlement s _ _ _)
    · exact Ends.unchanged _ s
    · exact Ends.unchanged _ s
  · cases h; exact Ends.unchanged _ s

theorem ends_upstreamReset {s t : State} (h : execUpstreamReset s = .next t) : Ends .upstreamReset s t := by
  unfold execUpstreamReset at h
  split at h <;> cases h
  · exact Ends.unchanged _ s
  · have k := (Kept.refl { s with busReset := true }).abandonRequest.emptyHolds
    have i := (inside_abandonRequest { s with busReset := true }).trans (inside_emptyHolds _)
    have f := Footprint.of_inside .upstreamReset k i
    exact Ends.finish { f with busReset := fun h => absurd rfl h }

theorem ends_upstreamResetRelease {s t : State} (h : execUpstreamResetRelease s = .next t) : Ends .upstreamResetRelease s t := by
  unfold execUpstreamResetRelease at h
  split at h <;> cases h
  · exact Ends.finish ⟨fun _ => rfl, id, fun _ => rfl, fun _ => rfl, fun _ _ => rfl, fun _ _ => rfl, fun _ _ => rfl,
      fun _ _ _ => ⟨rfl, rfl⟩, fun _ => rfl, id, fun _ h => absurd rfl h, fun _ _ _ => rfl⟩
  · exact Ends.unchanged _ s

/-! ## The maintenance port -/

theorem ends_commissioningLineChange {s t : State} (h : execCommissioningLineChange s = .next t) :
    Ends .commissioningLineChange s t := by
  unfold execCommissioningLineChange at h
  split at h
  · next level _ =>
    injection h with h
    subst h
    unfold takeLine
    dsimp only
    have own := (Footprint.refl .commissioningLineChange s).withMaint (.inr (.inr rfl)) { s.maint with line := level, lineDue := none }
    split
    · exact Ends.at_once own
    · have f := Footprint.of_gas (c := .commissioningLineChange) rfl (Kept.refl { s with maint := _ }).endAllTests
        (endAllTests_field { s with maint := { s.maint with line := level, lineDue := none } })
      exact Ends.finish { f with maint := fun _ _ h => absurd rfl h }
  · cases h; exact Ends.unchanged _ s

theorem ends_writeStage (o n : Half) (bs : List Byte) {s t : State} (h : execWriteStage o n bs s = .next t) :
    Ends (.writeStage o n bs) s t := by
  unfold execWriteStage at h
  split at h
  · split at h <;> cases h
    · exact Ends.reply s rfl _
    · exact Ends.unchanged _ s
  · cases h
    refine Ends.gated rfl _ _ (Ends.at_once ⟨fun _ => rfl, id, fun _ => rfl, fun _ => rfl, fun _ _ => rfl, fun _ _ => rfl,
      fun _ _ => rfl, fun _ _ _ => ⟨rfl, rfl⟩, fun h => absurd rfl (h o n bs), fun h => Memory.writeAll_wf h _ _, fun _ _ => rfl,
      fun h => Bool.noConfusion h⟩)

theorem ends_commit (s : State) : Ends .commit s s.commitStaged := by
  unfold commitStaged commitOn
  split
  · exact Ends.reply s rfl _
  · have own := (Footprint.refl .commit s).withMaint (.inl rfl) { s.maint with storing := true, reply := .ok [] }
    have k := Footprint.of_inside .commit ((Kept.refl { s with maint := _ }).mark itemHeader)
      (inside_mark { s with maint := { s.maint with storing := true, reply := .ok [] } } itemHeader)
    exact Ends.finish { k with maint := fun h => absurd h (by decide) }

/-! ## Every command -/

/-- Every command but those of power and UNKNOWN_COMMAND keeps to its footprint. -/
theorem exec_ends_spelled {c : Instr} (hc : c.isPower = false) (hu : ∀ g, c ≠ .unknownCommand g) {s t : State}
    (h : exec c s = .next t) : Ends c s t := by
  cases c
  case supplyRise | brownOut | brownOutEnd | resetAssert | resetRelease | loadingEnd | storeWriteComplete =>
    exact absurd hc.symm Bool.false_ne_true
  case tick1ms => exact ends_tick1ms _ h
  case tick100ms => exact ends_tick100ms h
  case tick1s => exact ends_tick1s h
  case pulseBoundary => cases h; exact ends_pulse s
  case channelSample => exact ends_channelSample _ _ h
  case warmUpExpiry => exact ends_warmUpExpiry _ h
  case spillSample => exact ends_spillSample _ _ h
  case tachPulse => exact ends_tachPulse _ h
  case windowEvent => exact ends_windowEvent _ h
  case delayTimerExpiry => exact ends_delayTimerExpiry _ h
  case refreshExpiry z =>
    simp only [exec, execRefreshExpiry] at h
    split at h <;> cases h
    · exact Ends.inside ((Kept.refl s).refreshExpire z) (inside_refreshExpire s z)
    · exact Ends.unchanged _ s
  case purgeExpiry z =>
    simp only [exec, execPurgeExpiry] at h
    split at h <;> cases h
    · exact Ends.inside ((Kept.refl s).purgeExpire z) (inside_purgeExpire s z)
    · exact Ends.unchanged _ s
  case hostRead => cases h; exact ends_present _ s _
  case hostWrite => cases h; exact ends_present _ s _
  case claimSettlement => exact ends_claimSettlement _ h
  case placementEnters =>
    simp only [exec, execPlacementEnters] at h
    split at h <;> cases h
    · exact Ends.inside (Kept.refl s).enterNext (inside_enterNext s)
    · exact Ends.unchanged _ s
  case upstreamReset => exact ends_upstreamReset h
  case upstreamResetRelease => exact ends_upstreamResetRelease h
  case holdExpiry =>
    simp only [exec, execHoldExpiry] at h
    split at h <;> cases h
    · exact Ends.inside (Kept.refl s).expireHolds (inside_expireHolds s)
    · exact Ends.unchanged _ s
  case retryTimerExpiry e =>
    simp only [exec, execRetryTimerExpiry] at h
    split at h <;> cases h
    · exact Ends.inside ((Kept.refl s).retryExpire e) (inside_retryExpire s e)
    · exact Ends.unchanged _ s
  case memoryAnswer done data =>
    simp only [exec, execMemoryAnswer] at h
    split at h <;> cases h
    · exact Ends.inside ((Kept.refl s).answered done data) (inside_answered s done data)
    · exact Ends.unchanged _ s
    · exact Ends.unchanged _ s
  case downstreamTimeout =>
    simp only [exec, execDownstreamTimeout] at h
    split at h <;> cases h
    · exact Ends.inside (Kept.refl s).timedOut (inside_timedOut s)
    · exact Ends.unchanged _ s
  case settlingEnd =>
    simp only [exec, execSettlingEnd] at h
    split at h <;> cases h
    · exact Ends.inside (Kept.refl s).settled (inside_settled s)
    · exact Ends.unchanged _ s
  case reportAgingExpiry =>
    simp only [exec, execReportAgingExpiry] at h
    split at h <;> cases h
    · exact Ends.inside (Kept.refl s).reportAged (inside_reportAged s)
    · exact Ends.unchanged _ s
  case commissioningLineChange => exact ends_commissioningLineChange h
  case status => cases h; exact Ends.gated rfl _ _ (Ends.reply s rfl _)
  case readLog => cases h; exact Ends.gated rfl _ _ (Ends.reply s rfl _)
  case readStore => cases h; exact Ends.gated rfl _ _ (Ends.reply s rfl _)
  case readImage => cases h; exact Ends.gated rfl _ _ (Ends.reply s rfl _)
  case writeStage => exact ends_writeStage _ _ _ h
  case commit => cases h; exact Ends.gated rfl _ _ (ends_commit s)
  case testReading c v =>
    cases h
    exact Ends.gated rfl _ _ (Ends.finish ((Footprint.of_gas rfl ((Kept.refl s).beginTest _ _) (beginTest_field s _ _)).reply rfl _))
  case endTest c =>
    cases h
    exact Ends.gated rfl _ _ (Ends.finish ((Footprint.of_gas rfl ((Kept.refl s).endTestOf _) (endTestOf_field s _)).reply rfl _))
  case acknowledge z =>
    cases h
    exact Ends.gated rfl _ _
      (Ends.finish ((Footprint.of_inside _ ((Kept.refl s).zoneAcknowledge _) (inside_zoneAcknowledge s _)).reply rfl _))
  case unknownCommand f => exact absurd rfl (hu f)

/-- A command that a frame spells is no command of power. -/
theorem isPower_of_isMaintenance {c : Instr} (h : c.isMaintenance = true) : c.isPower = false := by
  cases c <;> first | rfl | exact absurd h Bool.false_ne_true

/-- Every command but those of power keeps to the footprint of the command it is run as (log 31). -/
theorem exec_ends {c : Instr} (hc : c.isPower = false) {s t : State} (h : exec c s = .next t) : Ends c.taken s t := by
  cases c
  case unknownCommand f =>
    obtain ⟨d, hd, e⟩ | ⟨hd, e⟩ := exec_unknown f s
    · have k := commandOf_kind hd
      have taken : (Instr.unknownCommand f).taken = d := by simp [Instr.taken, hd]
      rw [taken]
      exact exec_ends_spelled (isPower_of_isMaintenance k.1) k.2 (e.symm.trans h)
    · have taken : (Instr.unknownCommand f).taken = .unknownCommand f := by simp [Instr.taken, hd]
      rw [taken]
      rw [e] at h
      split at h <;> cases h
      · exact Ends.reply s rfl _
      · exact Ends.unchanged _ s
  all_goals exact exec_ends_spelled hc (fun _ => Instr.noConfusion) h

end Sys2Proof.Machine
end

section
/-!
PROOFS. The invariants of a step: what a command that is not one of power comes to (`exec_shape`, `exec_ends`), what one of power does
(`exec_powerShape`), and each invariant over the two (chapters 1 to 12).
-/
namespace Sys2Proof.Machine

open State

/-! ## What a step can come to -/

/-- Every command comes to one of the two shapes. -/
theorem exec_cases {c : Instr} {s t : State} (h : exec c s = .next t) :
    (c.isPower = false ∧ Shape s t ∧ Ends c.taken s t) ∨ (c.isPower = true ∧ PowerShape s t) := by
  cases hc : c.isPower
  · exact .inl ⟨rfl, exec_shape hc h, exec_ends hc h⟩
  · exact .inr ⟨rfl, exec_powerShape hc h⟩

/-- A property that says nothing of the queue holds after a step where every command keeps it. -/
theorem step_keeps {P : State → Prop} (queue : ∀ (s : State) rest, P s → P { s with pending := rest })
    (each : ∀ {c : Instr} {s t : State}, P s → exec c s = .next t → P t) {s t : State} (hs : P s) (h : step s = .next t) : P t := by
  obtain rfl | ⟨c, rest, -, hx⟩ := step_cases h
  · exact hs
  · exact each (queue s rest hs) hx

namespace State

/-! ## RUN and FALLBACK begin -/

theorem Kept.clearStart {s t : State} (h : Kept s t) (hm : t.mode = .run) (z : Fin 4) : Kept s (t.clearStart z) := by
  unfold State.clearStart
  split
  · exact h.zoneEvent z _ _ fun hrun => absurd hm hrun
  · exact h

theorem Kept.clearStarts {s : State} (hm : s.mode = .run) : Kept s s.clearStarts := by
  have fold : ∀ (l : List (Fin 4)) (t : State), Kept s t → t.mode = .run → Kept s (l.foldl State.clearStart t) := by
    intro l
    induction l with
    | nil => exact fun t h _ => h
    | cons z l ih => exact fun t h hm => ih _ (h.clearStart hm z) ((held_clearStart t z).mode.trans hm)
  exact fold _ s (Kept.refl s) hm

theorem Kept.logLive {s t : State} (h : Kept s t) : Kept s t.logLive := by
  refine h.foldl (fun t c k => ?_) _
  split
  · exact k.append _ _ _ _
  · exact k

/-- What the begin of RUN leaves alone. -/
theorem beginRun_keeps (s : State) (cfg : Settings) :
    (s.beginRun cfg).lines = s.lines ∧ (s.beginRun cfg).time = s.time ∧ (s.beginRun cfg).staging = s.staging ∧
      (s.beginRun cfg).maint = s.maint ∧ (s.beginRun cfg).nv = s.nv ∧ (s.beginRun cfg).mode = .run := by
  have hcl := held_cleared s cfg
  have path : ∀ v : State, v.beginPath.lines = v.lines ∧ v.beginPath.time = v.time ∧ v.beginPath.staging = v.staging ∧
      v.beginPath.maint = v.maint ∧ v.beginPath.nv = v.nv ∧ v.beginPath.mode = v.mode := fun _ => ⟨rfl, rfl, rfl, rfl, rfl, rfl⟩
  have hmode : (s.takeSettings cfg).mode = .run := by simp
  have k : Kept (s.takeSettings cfg) (s.takeSettings cfg).logLive.clearStarts :=
    (Kept.logLive (Kept.refl _)).trans (Kept.clearStarts ((held_logLive _).mode.trans hmode))
  have ht : (s.takeSettings cfg).lines = s.lines ∧ (s.takeSettings cfg).time = s.time ∧ (s.takeSettings cfg).staging = s.staging ∧
      (s.takeSettings cfg).maint = s.maint ∧ (s.takeSettings cfg).nv = s.nv := by simp [takeSettings]
  obtain ⟨hlines, htime, hstaging, hmaint, hnv⟩ := ht
  unfold beginRun
  generalize (s.takeSettings cfg).logLive.clearStarts = v at k hcl ⊢
  obtain ⟨plines, ptime, pstaging, pmaint, pnv, pmode⟩ := path v
  exact ⟨plines.trans (k.lines.trans hlines), ptime.trans (k.time.trans htime), pstaging.trans (k.staging.trans hstaging),
    pmaint.trans (k.maint.trans hmaint), pnv.trans (hcl.nv.trans hnv), pmode.trans (hcl.mode.trans hmode)⟩

/-- What the begin of FALLBACK leaves alone, and the mode and settings it sets. -/
theorem beginFallback_keeps (s : State) (code : Nat) :
    (s.beginFallback code).lines = s.lines ∧ (s.beginFallback code).time = s.time ∧ (s.beginFallback code).staging = s.staging ∧
      (s.beginFallback code).maint = s.maint ∧ (s.beginFallback code).nv = s.nv ∧ (s.beginFallback code).mode = .fallback ∧
      (s.beginFallback code).cfg = Settings.unset ∧ (s.beginFallback code).chans = s.chans ∧
      (s.beginFallback code).zones = s.zones.map (fun r => { r with causes := { Causes.empty with config := true } }) := by
  simp [beginFallback]

/-- LOADING's end: the begin of RUN or of FALLBACK, then the end of the step. -/
theorem endLoading_cases (s : State) (verdict : Option Nat) :
    (verdict = none ∧ s.endLoading verdict = (s.beginRun (Settings.ofImage s.nv.image)).finish) ∨
      ∃ code, verdict = some code ∧ s.endLoading verdict = (s.beginFallback code).finish := by
  cases verdict with
  | none => exact .inl ⟨rfl, rfl⟩
  | some code => exact .inr ⟨code, rfl, rfl⟩

/-- What a commit restart leaves in the fields the invariants speak of. -/
theorem commitRestart_fields (s : State) (nv : NvStore) :
    (s.commitRestart nv).mode = .loading ∧ (s.commitRestart nv).cfg = Settings.unset ∧ (s.commitRestart nv).nv = nv ∧
      (s.commitRestart nv).staging = [] ∧ (s.commitRestart nv).lines = Lines.safe s.lines.hold ∧ (s.commitRestart nv).agenda = [] ∧
      (s.commitRestart nv).zones = Tab.replicate 4 ZoneRec.initial := by
  simp [commitRestart, State.reset]

/-! ## The sound state -/

theorem reset_sound : State.reset.sound :=
  ⟨⟨by decide, by decide⟩, Nat.zero_le _, ⟨Nat.zero_le _, List.nodup_nil⟩, List.nodup_nil, CellStore.initial_sound⟩

theorem dark_sound (s : State) (a : Supply) (b : Bool) : (s.dark a b).sound :=
  ⟨⟨Nat.zero_le _, rfl⟩, reset_sound.2⟩

theorem commitRestart_sound {s : State} (h : s.sound) (nv : NvStore) : (s.commitRestart nv).sound :=
  (inside_append _ _ _ _ _).sound ⟨h.1, reset_sound.2⟩

theorem PowerShape.sound {s t : State} (h : s.sound) (k : PowerShape s t) : t.sound := by
  cases k with
  | same => exact h
  | up p => exact reset_sound
  | dark a b _ => exact dark_sound s a b
  | loaded r _ _ => exact sound_endLoading s _ h
  | committed _ => exact commitRestart_sound h _
  | badCommit _ => exact commitRestart_sound (s := { s with choices := s.choices + 1 }) h _

/-! ## The readings -/

theorem readings_unset {s : State} (hcfg : s.cfg = Settings.unset) (h : ∀ z, (s.zones.get z).reading = none) : s.readingsFollow :=
  ⟨fun z => (h z).trans (gasReading_unset hcfg z).symm, fun _ => hcfg⟩

theorem beginRun_readings {s : State} (h : s.readingsFollow) (hm : s.mode = .loading) (cfg : Settings) :
    (s.beginRun cfg).readingsFollow := by
  have k := clearStarts_readings (logLive_readings (takeSettings_readings h hm cfg))
  unfold beginRun
  generalize (s.takeSettings cfg).logLive.clearStarts = v at k ⊢
  exact k

theorem PowerShape.readings {s t : State} (h : s.readingsFollow) (k : PowerShape s t) : t.readingsFollow := by
  have initial : ∀ z : Fin 4, ((Tab.replicate 4 ZoneRec.initial).get z).reading = none := fun z => by rw [Tab.get_replicate]; rfl
  cases k with
  | same => exact h
  | up p => exact readings_unset rfl initial
  | dark a b _ => exact readings_unset rfl initial
  | loaded r _ hm =>
    obtain ⟨-, e⟩ | ⟨code, -, e⟩ := s.endLoading_cases (s.nv.check r) <;> rw [e] <;> refine (ended_finish _).readingsFollow ?_
    · exact beginRun_readings h hm _
    · obtain ⟨-, -, -, -, -, -, hcfg, -, hzones⟩ := s.beginFallback_keeps code
      refine readings_unset hcfg fun z => ?_
      rw [hzones, Tab.get_map]
      exact (h.1 z).trans (gasReading_unset (h.2 (by rw [hm]; decide)) z)
  | committed _ =>
    obtain ⟨-, hcfg, -, -, -, -, hzones⟩ := s.commitRestart_fields { image := s.staging, torn := none }
    exact readings_unset hcfg fun z => by rw [hzones]; exact initial z
  | badCommit _ =>
    obtain ⟨-, hcfg, -, -, -, -, hzones⟩ := State.commitRestart_fields { s with choices := s.choices + 1 } { s.nv with torn := some s.choices }
    exact readings_unset hcfg fun z => by rw [hzones]; exact initial z

theorem Shape.readings {s t : State} (h : s.readingsFollow) (k : Shape s t) : t.readingsFollow := by
  obtain k | ⟨u, -, hu, rfl⟩ := k
  · exact readings_of k.held.mode k.held.cfg k.gas (fun z => (k.zones z).2.2) h
  · exact (ended_finish u).readingsFollow (hu h)

/-! ## The quiet end -/

theorem portOpen_of_loading {s : State} (h : s.mode = .loading) : s.portOpen = false := by simp [portOpen, h]

theorem PowerShape.quiet {s t : State} (h : s.quiet) (k : PowerShape s t) : t.quiet := by
  cases k with
  | same => exact h
  | up p => exact ⟨rfl, .inr (portOpen_of_loading rfl)⟩
  | dark a b _ => exact ⟨rfl, .inr (portOpen_of_loading rfl)⟩
  | loaded r _ _ => obtain ⟨-, e⟩ | ⟨code, -, e⟩ := s.endLoading_cases (s.nv.check r) <;> rw [e] <;> exact finish_quiet _
  | committed _ =>
    obtain ⟨hmode, -, -, -, -, hagenda, -⟩ := s.commitRestart_fields { image := s.staging, torn := none }
    exact ⟨hagenda, .inr (portOpen_of_loading hmode)⟩
  | badCommit _ =>
    obtain ⟨hmode, -, -, -, -, hagenda, -⟩ := State.commitRestart_fields { s with choices := s.choices + 1 } { s.nv with torn := some s.choices }
    exact ⟨hagenda, .inr (portOpen_of_loading hmode)⟩

theorem Shape.quiet {s t : State} (h : s.quiet) (k : Shape s t) : t.quiet := by
  obtain k | ⟨u, -, -, rfl⟩ := k
  · refine ⟨k.agenda.trans h.1, ?_⟩
    have hopen : t.portOpen = s.portOpen := by
      unfold portOpen alive
      rw [k.held.supply, k.held.resetLine, k.held.mode, k.busReset, k.upstream]
    rw [k.hostWaiting, hopen]
    exact h.2
  · exact finish_quiet u

/-! ## The buffers and the settings -/

theorem PowerShape.buffers {s t : State} (h : s.buffersSound) (k : PowerShape s t) : t.buffersSound := by
  have cut : s.cutStore.image.wf = true := by
    unfold cutStore
    split
    · exact h.1
    · exact h.1
  cases k with
  | same => exact h
  | up p => exact ⟨cut, rfl⟩
  | dark a b _ => exact ⟨cut, rfl⟩
  | loaded r _ _ =>
    have of : ∀ u : State, u.nv = s.nv → u.staging = s.staging → u.finish.buffersSound := fun u hnv hstaging => by
      have e := ended_finish u
      unfold buffersSound
      rw [e.nv, e.staging]
      exact ⟨hnv ▸ h.1, hstaging ▸ h.2⟩
    obtain ⟨-, e⟩ | ⟨code, -, e⟩ := s.endLoading_cases (s.nv.check r) <;> rw [e]
    · obtain ⟨-, -, hstaging, -, hnv, -⟩ := s.beginRun_keeps (Settings.ofImage s.nv.image)
      exact of _ hnv hstaging
    · obtain ⟨-, -, hstaging, -, hnv, -⟩ := s.beginFallback_keeps code
      exact of _ hnv hstaging
  | committed _ =>
    obtain ⟨-, -, hnv, hstaging, -⟩ := s.commitRestart_fields { image := s.staging, torn := none }
    unfold buffersSound
    rw [hnv, hstaging]
    exact ⟨h.2, rfl⟩
  | badCommit _ =>
    obtain ⟨-, -, hnv, hstaging, -⟩ := State.commitRestart_fields { s with choices := s.choices + 1 } { s.nv with torn := some s.choices }
    unfold buffersSound
    rw [hnv, hstaging]
    exact ⟨h.1, rfl⟩

theorem settingsChecked_of {s t : State} (hmode : t.mode = s.mode) (hcfg : t.cfg = s.cfg) (h : s.settingsChecked) : t.settingsChecked := by
  unfold settingsChecked
  rw [hmode, hcfg]
  exact h

theorem settingsChecked_of_ne_run {s : State} (h : s.mode ≠ .run) : s.settingsChecked := fun hrun => absurd hrun h

/-- A store that passes its check holds an image that does. -/
theorem imageCheck_of_check {nv : NvStore} {r : Bool} (h : nv.check r = none) : nv.image.imageCheck = none := by
  unfold NvStore.check at h
  split at h
  · exact h
  · exact absurd h (by decide)

theorem PowerShape.settings {s t : State} (h : s.settingsChecked) (k : PowerShape s t) : t.settingsChecked := by
  cases k with
  | same => exact h
  | up p => exact settingsChecked_of_ne_run Mode.noConfusion
  | dark a b _ => exact settingsChecked_of_ne_run Mode.noConfusion
  | loaded r _ _ =>
    obtain ⟨hcheck, e⟩ | ⟨code, -, e⟩ := s.endLoading_cases (s.nv.check r) <;> rw [e]
    · have hcfg := cfg_beginRun s (Settings.ofImage s.nv.image)
      generalize s.beginRun (Settings.ofImage s.nv.image) = u at hcfg ⊢
      exact settingsChecked_of (ended_finish u).mode (ended_finish u).cfg (checked_ofImage (imageCheck_of_check hcheck) hcfg)
    · obtain ⟨-, -, -, -, -, hmode, -⟩ := s.beginFallback_keeps code
      exact settingsChecked_of_ne_run (by rw [(ended_finish _).mode, hmode]; decide)
  | committed _ =>
    exact settingsChecked_of_ne_run (by rw [(s.commitRestart_fields { image := s.staging, torn := none }).1]; decide)
  | badCommit _ =>
    exact settingsChecked_of_ne_run (by rw [(State.commitRestart_fields { s with choices := s.choices + 1 } _).1]; decide)

/-! ## A part outside RUN -/

theorem heldInVent_initial {s : State} (hcfg : s.cfg = Settings.unset) (h : s.zones = Tab.replicate 4 ZoneRec.initial) : s.heldInVent := by
  refine (heldInVent_iff s).2 fun _ => ⟨hcfg, fun z => ?_⟩
  rw [h, Tab.get_replicate]
  exact ⟨rfl, .inl rfl, rfl, rfl⟩

theorem heldInVent_finish {u : State} (h : u.heldInVent) : u.finish.heldInVent := by
  obtain ⟨w, k, e⟩ := finish_refreshes u
  rw [e]
  exact k.vented h

theorem PowerShape.vented {s t : State} (h : s.heldInVent) (k : PowerShape s t) : t.heldInVent := by
  cases k with
  | same => exact h
  | up p => exact heldInVent_initial rfl rfl
  | dark a b _ => exact heldInVent_initial rfl rfl
  | loaded r _ hm =>
    obtain ⟨-, e⟩ | ⟨code, -, e⟩ := s.endLoading_cases (s.nv.check r) <;> rw [e] <;> refine heldInVent_finish ?_
    · obtain ⟨-, -, -, -, -, hrun⟩ := s.beginRun_keeps (Settings.ofImage s.nv.image)
      exact fun hne => absurd hrun hne
    · obtain ⟨-, -, -, -, -, -, hcfg, -, hzones⟩ := s.beginFallback_keeps code
      refine (heldInVent_iff _).2 fun _ => ⟨hcfg, fun z => ?_⟩
      obtain ⟨hstate, -, -, hpurge⟩ := h.zone (by rw [hm]; decide) z
      rw [hzones, Tab.get_map]
      exact ⟨hstate, .inr rfl, rfl, hpurge⟩
  | committed _ =>
    obtain ⟨-, hcfg, -, -, -, -, hzones⟩ := s.commitRestart_fields { image := s.staging, torn := none }
    exact heldInVent_initial hcfg hzones
  | badCommit _ =>
    obtain ⟨-, hcfg, -, -, -, -, hzones⟩ := State.commitRestart_fields { s with choices := s.choices + 1 } { s.nv with torn := some s.choices }
    exact heldInVent_initial hcfg hzones

theorem vented_of_ends {c : Instr} {s t : State} (h : s.heldInVent) (k : Ends c s t) : t.heldInVent := by
  obtain ⟨u, f, rfl | rfl⟩ := k
  · exact f.vented h
  · exact heldInVent_finish (f.vented h)

/-! ## The lines -/

theorem linePattern_congr {s t : State} (hcfg : t.cfg = s.cfg) (hstore : t.store = s.store) (hhold : t.lines.hold = s.lines.hold)
    (hzones : ∀ z, (t.zones.get z).state = (s.zones.get z).state ∧ (t.zones.get z).unack = (s.zones.get z).unack) (i : Fin 8) :
    t.linePattern i = s.linePattern i := by
  unfold linePattern lineCell
  dsimp only
  rw [hcfg, hstore, hhold, (hzones (lineZone i)).1, (hzones (lineZone i)).2]

/-- A command that ends at once sets at most the levels of the signal lines. -/
theorem Plain.patterns {s t : State} (k : Plain s t) :
    t.lines.fanRun = s.lines.fanRun ∧ t.lines.charger = s.lines.charger ∧ t.lines.attention = s.lines.attention ∧
      t.lines.hold = s.lines.hold ∧ (∀ i, (t.lines.signals.get i).pattern = (s.lines.signals.get i).pattern) ∧
      ∀ i, (t.lines.signals.get i).level = (s.lines.signals.get i).level ∨
        (t.lines.signals.get i).level = (s.lines.signals.get i).pattern.level s.time.phase := by
  obtain e | e := k.lines <;> rw [e]
  · exact ⟨rfl, rfl, rfl, rfl, fun _ => rfl, fun _ => .inl rfl⟩
  · exact ⟨rfl, rfl, rfl, rfl, fun i => by rw [Tab.get_map], fun i => .inr (by rw [Tab.get_map])⟩

theorem running_congr {s t : State} (k : Held s t) : t.running ↔ s.running := by
  unfold running alive
  rw [k.supply, k.resetLine, k.mode]

theorem Plain.linesSafe {s t : State} (k : Plain s t) (h : s.linesSafe) : t.linesSafe := by
  obtain ⟨hfan, hcharger, hattention, hhold, hpattern, hlevel⟩ := k.patterns
  obtain ⟨hrun, hrest, hsteady⟩ := h
  refine ⟨fun hr => ?_, fun hr => ?_, k.held.steady hsteady⟩
  · obtain ⟨ffan, fcharger, fattention, fpattern⟩ := hrun ((running_congr k.held).1 hr)
    refine ⟨fun z => ?_, ?_, ?_, fun i => ?_⟩
    · rw [hfan, (k.zones z).1]; exact ffan z
    · rw [hcharger, fcharger]
      exact exists_congr fun z => by rw [(k.zones z).1]
    · rw [hattention, fattention]
      exact exists_congr fun z => by rw [(k.zones z).2.1]
    · rw [hpattern, linePattern_congr k.held.cfg k.store hhold fun z => ⟨(k.zones z).1, (k.zones z).2.1⟩]
      exact fpattern i
  · obtain ⟨rfan, rcharger, rattention, rsignals⟩ := hrest fun h => hr ((running_congr k.held).2 h)
    refine ⟨fun z => by rw [hfan]; exact rfan z, hcharger.trans rcharger, hattention.trans rattention, fun i => ?_⟩
    have hp := hpattern i
    have hl := hlevel i
    rw [rsignals i] at hp hl
    rw [hhold]
    revert hp hl
    generalize t.lines.signals.get i = l
    obtain ⟨p, b⟩ := l
    rintro rfl (rfl | rfl)
    · rfl
    · rfl

theorem Shape.linesSafe {s t : State} (h : s.linesSafe) (k : Shape s t) : t.linesSafe := by
  obtain k | ⟨u, hu, -, rfl⟩ := k
  · exact k.linesSafe h
  · exact finish_safe (hu.steady h.2.2)

theorem not_running_of_loading {s : State} (h : s.mode = .loading) : ¬s.running := fun hr => by
  have := h.symm.trans hr.2
  exact absurd this (by decide)

theorem steadyLines_of_lines {s t : State} (h : t.lines = s.lines) (hs : s.steadyLines) : t.steadyLines := by
  unfold steadyLines
  rw [h]
  exact hs

theorem PowerShape.linesSafe {s t : State} (h : s.linesSafe) (k : PowerShape s t) : t.linesSafe := by
  cases k with
  | same => exact h
  | up p => exact safe_safe _ (not_running_of_loading rfl) ⟨_, rfl⟩
  | dark a b _ => exact safe_safe _ (not_running_of_loading rfl) ⟨_, rfl⟩
  | loaded r _ _ =>
    obtain ⟨-, e⟩ | ⟨code, -, e⟩ := s.endLoading_cases (s.nv.check r) <;> rw [e] <;> refine finish_safe (steadyLines_of_lines ?_ h.2.2)
    · exact (s.beginRun_keeps (Settings.ofImage s.nv.image)).1
    · exact (s.beginFallback_keeps code).1
  | committed _ =>
    obtain ⟨hmode, -, -, -, hlines, -⟩ := s.commitRestart_fields { image := s.staging, torn := none }
    exact safe_safe _ (not_running_of_loading hmode) ⟨_, hlines⟩
  | badCommit _ =>
    obtain ⟨hmode, -, -, -, hlines, -⟩ := State.commitRestart_fields { s with choices := s.choices + 1 } { s.nv with torn := some s.choices }
    exact safe_safe _ (not_running_of_loading hmode) ⟨_, hlines⟩

/-- From `s` to `t` a signal line whose pattern changes in RUN takes the level its new pattern has at once (R164). -/
def levelAtOnce (s t : State) : Prop :=
  t.running → ∀ i, (t.lines.signals.get i).pattern ≠ (s.lines.signals.get i).pattern →
    (t.lines.signals.get i).level = (t.lines.signals.get i).pattern.level t.time.phase

theorem levelAtOnce_of_patterns {s t : State} (h : ∀ i, (t.lines.signals.get i).pattern = (s.lines.signals.get i).pattern) :
    s.levelAtOnce t := fun _ i hne => absurd (h i) hne

/-- The end of a step sets the level with the pattern. -/
theorem levelAtOnce_finish {s u : State} (h : u.lines = s.lines) : s.levelAtOnce u.finish := by
  obtain ⟨w, k, e⟩ := finish_refreshes u
  rw [e]
  intro hr i
  have hline : w.refreshLines.lines.signals.get i = w.lineAfter i := by
    unfold refreshLines
    rw [if_pos (show w.alive = true ∧ w.mode = .run from hr)]
    simp [runLines]
  rw [hline, ← h, ← k.lines]
  unfold lineAfter
  dsimp only
  split
  · exact fun hne => absurd rfl hne
  · exact fun _ => rfl

/-- Only the pulse boundary itself is taken as one: no frame spells it. -/
theorem taken_pulseBoundary {c : Instr} (h : c.taken = .pulseBoundary) : c = .pulseBoundary := by
  cases c with
  | unknownCommand f =>
    cases hd : commandOf f with
    | none => simp [Instr.taken, hd] at h
    | some d =>
      have hk := (commandOf_kind hd).1
      obtain rfl : d = .pulseBoundary := by simpa [Instr.taken, hd] using h
      exact absurd hk (by decide)
  | _ => exact h

theorem levelAtOnce_of_exec {c : Instr} {s t : State} (hc : c.isPower = false) (h : exec c s = .next t) : s.levelAtOnce t := by
  by_cases hp : c = .pulseBoundary
  · subst hp
    obtain rfl : s.pulse = t := by injection h
    refine levelAtOnce_of_patterns fun i => ?_
    unfold pulse
    split
    · simp
    · rfl
  · have hlines : ∀ {u : State}, Footprint c.taken s u → u.lines = s.lines := fun f => f.lines fun e => hp (taken_pulseBoundary e)
    obtain ⟨u, f, rfl | rfl⟩ := exec_ends hc h
    · exact levelAtOnce_of_patterns fun i => by rw [hlines f]
    · exact levelAtOnce_finish (hlines f)

theorem PowerShape.levelAtOnce {s t : State} (k : PowerShape s t) : s.levelAtOnce t := by
  cases k with
  | same => exact levelAtOnce_of_patterns fun _ => rfl
  | up p => exact fun hr => absurd hr (not_running_of_loading rfl)
  | dark a b _ => exact fun hr => absurd hr (not_running_of_loading rfl)
  | loaded r _ _ =>
    obtain ⟨-, e⟩ | ⟨code, -, e⟩ := s.endLoading_cases (s.nv.check r) <;> rw [e]
    · exact levelAtOnce_finish (s.beginRun_keeps _).1
    · exact levelAtOnce_finish (s.beginFallback_keeps code).1
  | committed _ => exact fun hr => absurd hr (not_running_of_loading (commitRestart_fields _ _).1)
  | badCommit _ => exact fun hr => absurd hr (not_running_of_loading (commitRestart_fields _ _).1)

end State

/-! ## The obligations on every step -/

/-- Settles O1. -/
theorem stepRunsFront : Obligations.StepRunsFront := by
  unfold Obligations.StepRunsFront
  refine ⟨fun s c rest h => ?_, fun s h => ?_⟩
  · simp [step, h]
  · simp [step, h]

/-- Settles O4. -/
theorem stepKeepsSound : Obligations.StepKeepsSound := by
  unfold Obligations.StepKeepsSound
  intro s t hs h
  refine step_keeps (P := State.sound) (fun _ _ => id) (fun {c s t} hs hx => ?_) hs h
  obtain ⟨-, k, -⟩ | ⟨-, k⟩ := exec_cases hx
  · exact k.held.sound hs
  · exact k.sound hs

/-- Settles O7: the events of the channels keep the readings by the operation's own law, the rest moves neither. -/
theorem stepKeepsReadings : Obligations.StepKeepsReadings := by
  unfold Obligations.StepKeepsReadings
  refine ⟨fun s t hs h => step_keeps (P := State.readingsFollow) (fun _ _ => id) (fun {c s t} hs hx => ?_) hs h, gasReading_spec⟩
  obtain ⟨-, k, -⟩ | ⟨-, k⟩ := exec_cases hx
  · exact k.readings hs
  · exact k.readings hs

/-- Settles O9. -/
theorem stepKeepsQuiet : Obligations.StepKeepsQuiet := by
  unfold Obligations.StepKeepsQuiet
  intro s t hs h
  refine step_keeps (P := State.quiet) (fun _ _ => id) (fun {c s t} hs hx => ?_) hs h
  obtain ⟨-, k, -⟩ | ⟨-, k⟩ := exec_cases hx
  · exact k.quiet hs
  · exact k.quiet hs

/-- Settles O6. -/
theorem stepKeepsBuffers : Obligations.StepKeepsBuffers := by
  unfold Obligations.StepKeepsBuffers
  intro s t hs h
  refine step_keeps (P := State.buffersSound) (fun _ _ => id) (fun {c s t} hs hx => ?_) hs h
  obtain ⟨-, k, u, f, e⟩ | ⟨-, k⟩ := exec_cases hx
  · have hnv : t.nv.image.wf = true := by rw [k.held.nv]; exact hs.1
    obtain rfl | rfl := e
    · exact ⟨hnv, f.staged hs.2⟩
    · exact ⟨hnv, by rw [(ended_finish u).staging]; exact f.staged hs.2⟩
  · exact k.buffers hs

/-- Settles O8. -/
theorem stepKeepsSettings : Obligations.StepKeepsSettings := by
  unfold Obligations.StepKeepsSettings
  intro s t hs h
  refine step_keeps (P := State.settingsChecked) (fun _ _ => id) (fun {c s t} hs hx => ?_) hs h
  obtain ⟨-, k, -⟩ | ⟨-, k⟩ := exec_cases hx
  · exact settingsChecked_of k.held.mode k.held.cfg hs
  · exact k.settings hs

/-- Settles O5: the lines are set at the end of a step, and a command without one moves nothing they depend on. -/
theorem stepKeepsLines : Obligations.StepKeepsLines := by
  unfold Obligations.StepKeepsLines
  refine ⟨fun s t hs h => ⟨step_keeps (P := State.linesSafe) (fun _ _ => id) (fun {c s t} hs hx => ?_) hs h, ?_⟩, linePattern_spec⟩
  · obtain ⟨-, k, -⟩ | ⟨-, k⟩ := exec_cases hx
    · exact k.linesSafe hs
    · exact k.linesSafe hs
  · obtain rfl | ⟨c, rest, -, hx⟩ := step_cases h
    · exact levelAtOnce_of_patterns fun _ => rfl
    · obtain ⟨hc, -⟩ | ⟨-, k⟩ := exec_cases hx
      · exact levelAtOnce_of_exec (s := { s with pending := rest }) hc hx
      · exact k.levelAtOnce

/-- Outside RUN every step leaves every zone in VENT: the last part of O16. -/
theorem step_heldInVent {s t : State} (hs : s.heldInVent) (h : step s = .next t) : t.heldInVent := by
  refine step_keeps (P := State.heldInVent) (fun _ _ => id) (fun {c s t} hs hx => ?_) hs h
  obtain ⟨-, -, k⟩ | ⟨-, k⟩ := exec_cases hx
  · exact vented_of_ends hs k
  · exact k.vented hs

/-- Settles O60: the footprints of the commands that are not of power. -/
theorem onlyTheirOwnEventsWrite : Obligations.OnlyTheirOwnEventsWrite := by
  unfold Obligations.OnlyTheirOwnEventsWrite
  intro i s t hi h c
  have k := (exec_shape hi h).held
  refine ⟨⟨k.supply, k.resetLine, k.mode, k.cfg, k.nv, k.holdLevels⟩, ?_⟩
  obtain ⟨u, f, rfl | rfl⟩ := exec_ends hi h
  · exact ⟨f.time, f.seconds, f.chans, f.readings, f.spills, f.tachs, f.staging, f.busReset, f.maint⟩
  · exact f.of_finish

end Sys2Proof.Machine
end

section
/-!
PROOFS. Reset, the power events, the commit restart and FALLBACK (chapters 8 and 12, R184 to R186).
-/
namespace Sys2Proof.Machine

open State

namespace State

theorem linesReleased_of_safe {s : State} {hold : Tab Bool 8} (h : s.lines = Lines.safe hold) : s.linesReleased := by
  unfold linesReleased
  rw [h]
  exact ⟨fun z => by simp [Lines.safe], rfl, rfl, fun i => by simp [Lines.safe]⟩

/-- A state that is the reset state but for what is outside the part, the choices and the hold levels has the power-up values. -/
theorem poweredUp_of_reset (pending : List Instr) (bus : Bool) (host : List HostRequest) (responses : List Response) (nv : NvStore)
    (choices : Nat) (hold : Tab Bool 8) :
    ({ State.reset with
        pending := pending, busReset := bus, hostWaiting := host, responses := responses, nv := nv, choices := choices,
        lines := Lines.safe hold } : State).poweredUp := by
  refine ⟨rfl, rfl, rfl, rfl, fun z => ?_, fun c => ?_, fun l => ?_, fun i => ?_, rfl, rfl, rfl, rfl, rfl, rfl, rfl, rfl, fun i => ?_, rfl,
    rfl, rfl, rfl, rfl, fun e => ?_, rfl, rfl, rfl, rfl, rfl, rfl, rfl, rfl, rfl, fun i => ?_, linesReleased_of_safe rfl, rfl, rfl, rfl,
    rfl, rfl, rfl, fun _ => rfl, rfl, rfl, rfl, rfl, rfl⟩ <;>
    simp [State.reset, CellStore.initial, ZoneRec.initial, ChanRec.initial, SpillRec.initial, TachRec.initial, ForceRec.initial]

theorem powerUp_poweredUp (s : State) (pins : BitVec 8) : (s.powerUp pins).poweredUp := poweredUp_of_reset _ _ _ _ _ _ _

/-- A store write that is cut off leaves the store torn, any other store as it was (R186). -/
theorem cutStore_spec (s : State) :
    s.cutStore.image = s.nv.image ∧ (s.maint.storing = false → s.cutStore = s.nv) ∧
      (s.maint.storing = true → ∀ r, s.cutStore.check r = some 1) := by
  unfold cutStore
  refine ⟨?_, fun h => by rw [h]; rfl, fun h r => by rw [h]; exact torn_check s.nv s.choices r⟩
  split
  · rfl
  · rfl

/-- The end of a step outside RUN rests the lines. -/
theorem finish_released {u : State} (h : ¬u.running) : u.finish.linesReleased := by
  obtain ⟨w, -, e⟩ := finish_refreshes u
  have hw : ¬(w.alive = true ∧ w.mode = .run) := by
    have := congrArg running e
    have hrun : u.finish.running ↔ u.running := by unfold running; simp
    intro hr
    exact h (hrun.1 (by rw [e]; exact hr))
  rw [e]
  refine linesReleased_of_safe (hold := w.lines.hold) ?_
  unfold refreshLines
  rw [if_neg hw]

end State

/-! ## Reset -/

/-- Settles O11. -/
theorem resetState : Obligations.ResetState := by
  unfold Obligations.ResetState
  exact ⟨poweredUp_of_reset _ _ _ _ _ _ _, rfl⟩

/-- Settles O10. -/
theorem resetMeetsInvariants : Obligations.ResetMeetsInvariants := by
  unfold Obligations.ResetMeetsInvariants
  exact ⟨reset_sound, safe_safe _ (not_running_of_loading rfl) ⟨_, rfl⟩, ⟨rfl, rfl⟩, readings_unset rfl fun z => by
    simp [State.reset, ZoneRec.initial], settingsChecked_of_ne_run Mode.noConfusion, ⟨rfl, .inl rfl⟩, heldInVent_initial rfl rfl⟩

/-! ## Power -/

theorem exec_powersUp {s : State} {pins : BitVec 8} {c : Instr}
    (h : (c = .supplyRise pins ∧ s.resetLine = false) ∨ (c = .brownOutEnd pins ∧ s.supply = .low ∧ s.resetLine = false) ∨
      (c = .resetRelease pins ∧ s.resetLine = true ∧ s.supply = .on)) : exec c s = .next (s.powerUp pins) := by
  obtain ⟨rfl, hreset⟩ | ⟨rfl, hlow, hreset⟩ | ⟨rfl, hreset, hon⟩ := h
  · simp [exec, execSupplyRise, hreset]
  · simp [exec, execBrownOutEnd, hlow, hreset]
  · simp [exec, execResetRelease, hreset, hon]

/-- Settles O12. -/
theorem powerUpRestart : Obligations.PowerUpRestart := by
  unfold Obligations.PowerUpRestart
  intro s pins c h
  obtain ⟨-, kept, torn⟩ := s.cutStore_spec
  refine ⟨s.powerUp pins, exec_powersUp h, s.powerUp_poweredUp pins, fun i => ?_, kept, torn, rfl, rfl, rfl, rfl, rfl⟩
  exact Tab.get_ofFn _ i

theorem exec_darkens {s : State} {pins : BitVec 8} {c : Instr}
    (h : (c = .brownOut ∧ s.supply = .on) ∨ (c = .resetAssert ∧ s.resetLine = false) ∨ (c = .supplyRise pins ∧ s.resetLine = true) ∨
      (c = .brownOutEnd pins ∧ s.supply = .low ∧ s.resetLine = true) ∨
      (c = .resetRelease pins ∧ s.resetLine = true ∧ s.supply ≠ .on)) :
    ∃ supply reset, (supply ≠ .on ∨ reset = true) ∧ exec c s = .next (s.dark supply reset) := by
  obtain ⟨rfl, hon⟩ | ⟨rfl, hreset⟩ | ⟨rfl, hreset⟩ | ⟨rfl, hlow, hreset⟩ | ⟨rfl, hreset, hoff⟩ := h
  · exact ⟨.low, s.resetLine, .inl (by decide), by simp [exec, execBrownOut, hon]⟩
  · exact ⟨s.supply, true, .inr rfl, by simp [exec, execResetAssert, hreset]⟩
  · exact ⟨.on, true, .inr rfl, by simp [exec, execSupplyRise, hreset]⟩
  · exact ⟨.on, true, .inr rfl, by simp [exec, execBrownOutEnd, hlow, hreset]⟩
  · exact ⟨s.supply, false, .inl hoff, by simp [exec, execResetRelease, hreset, hoff]⟩

theorem dark_alive (s : State) {supply : Supply} {reset : Bool} (h : supply ≠ .on ∨ reset = true) : (s.dark supply reset).alive = false := by
  show (decide (supply = .on) && !reset) = false
  obtain h | h := h
  · simp [h]
  · simp [h]

/-- Settles O13. -/
theorem powerBreaks : Obligations.PowerBreaks := by
  unfold Obligations.PowerBreaks
  intro s pins c h
  obtain ⟨supply, reset, hoff, hexec⟩ := exec_darkens h
  obtain ⟨hzones, hchans, hscan, hspills, htachs, hwindow, hforce, hsweep, hrequests, hcfg, hlines, hfill, hlist, hchecker, hengine,
    hidle, hup, hport, hwriter, hmarks, hagenda, hreply⟩ := dark_holds_nothing s supply reset
  obtain ⟨himage, kept, torn⟩ := s.cutStore_spec
  exact ⟨s.dark supply reset, hexec, dark_alive s hoff, rfl, linesReleased_of_safe rfl, rfl, rfl, fun _ => rfl, rfl, rfl, rfl, hzones,
    hchans, hscan, hspills, htachs, hwindow, hforce, hsweep, hrequests, hcfg, hlines, rfl, hfill, hlist, hchecker, hengine, hidle, hup,
    hport, hwriter, rfl, hmarks, hagenda, hreply, rfl, himage, kept, torn, rfl⟩

/-! ## The commit restart -/

/-- Outside RUN an append writes the log alone: nothing is marked. -/
theorem State.append_of_not_run {s : State} (h : s.mode ≠ .run) (kind : EventKind) (z : Option (Fin 4)) (a b : Option Nat) :
    s.append kind z a b = { s with log := (s.append kind z a b).log } := by
  have unmarked : ∀ (l : EventLog) (i : Fin 67), ({ s with log := l } : State).mark i = { s with log := l } :=
    fun l i => mark_of_not_run (s := { s with log := l }) h i
  have record : s.appendRecord kind z a b = { s with log := (s.appendRecord kind z a b).log } := by
    unfold appendRecord
    simp only [unmarked]
  unfold State.append
  split
  · split
    · unfold countRepeat
      split
      · simp only [unmarked]
      · rfl
    · exact record
  · exact record

/-- A commit restart, field by field (R185). -/
theorem State.commitRestart_spec (s : State) (nv : NvStore) :
    let t := s.commitRestart nv
    t = { State.reset with
      pending := s.pending, busReset := s.busReset, time := s.time, hostWaiting := s.hostWaiting, responses := s.responses,
      nv := nv, choices := s.choices, lines := Lines.safe s.lines.hold,
      chans := s.chans.map (fun (r : ChanRec) => ChanRec.initial r.warm), log := t.log,
      maint := { State.reset.maint with line := s.maint.line, sampled := s.maint.sampled, lineDue := s.maint.lineDue } } ∧
    t.log = EventLog.add s.time.seconds { s.log with commitCount := min 65535 (s.log.commitCount + 1), latch := false }
      { kind := .restart, zone := none, subject := none, value := some 2 } :=
  ⟨append_of_not_run Mode.noConfusion _ _ _ _, append_log _ _ _ _ _⟩

/-- What the commit restart leaves, whatever store it leaves. -/
theorem State.commitRestart_meets (s : State) (choices : Nat) (nv : NvStore) {readBack : Bool}
    (hgood : readBack = true → nv = { image := s.staging, torn := none }) (hbad : readBack = false → ∀ r, nv.check r = some 1) :
    let t := ({ s with choices := choices } : State).commitRestart nv
    t.alive = true ∧ t.mode = .loading ∧ t.cfg = Settings.unset ∧
      t.time = s.time ∧ t.lines.hold = s.lines.hold ∧ t.linesReleased ∧
      (∀ c, t.chans.get c = ChanRec.initial (s.chans.get c).warm) ∧ (∀ z, t.zones.get z = ZoneRec.initial) ∧
      (∀ l, t.spills.get l = SpillRec.initial) ∧ (∀ i, t.tachs.get i = TachRec.initial) ∧
      (∀ e, t.force.get e = ForceRec.initial) ∧ t.upstream = .idle ∧ t.posted = [] ∧ t.waiting = [] ∧ t.hold = [] ∧
      t.checker = .idle ∧ t.store = CellStore.initial ∧ t.sweep = none ∧ t.requests = [] ∧ t.port = Downstream.initial ∧
      t.scan = [] ∧ t.windowOpen = false ∧ t.agenda = [] ∧ (∀ i, t.marks.get i = false) ∧ t.writer = .idle ∧ t.lastItem = none ∧
      (∀ a, t.staging.read a = 0#8) ∧ t.maint.storing = false ∧ t.maint.reply = .none ∧
      t.maint.line = s.maint.line ∧ t.maint.sampled = s.maint.sampled ∧ t.hostWaiting = s.hostWaiting ∧ t.responses = s.responses ∧
      (∃ r, t.log.records = (if 32 ≤ s.log.records.length then s.log.records.drop 1 else s.log.records) ++ [r] ∧
        r.seq = s.log.nextSeq ∧ r.kind = .restart ∧ r.zone = none ∧ r.subject = none ∧ r.value = some 2 ∧
        r.time = s.time.seconds) ∧
      t.log.nextSeq = s.log.nextSeq + 1#16 ∧ t.log.commitCount = min 65535 (s.log.commitCount + 1) ∧
      t.log.lastClear = s.log.lastClear ∧ t.log.clearedThrough = s.log.clearedThrough ∧ t.log.latch = false ∧
      (readBack = true → t.nv = { image := s.staging, torn := none }) ∧ (readBack = false → ∀ r, t.nv.check r = some 1) := by
  intro t
  obtain ⟨hfields, hadd⟩ := State.commitRestart_spec { s with choices := choices } nv
  have hlog : t.log = _ := hadd.trans (EventLog.add_of_not_refusal _ _ (by simp) (by simp))
  rw [hlog, show t = _ from hfields]
  refine ⟨rfl, rfl, rfl, rfl, rfl, linesReleased_of_safe rfl, fun c => Tab.get_map _ _ _, fun z => Tab.get_replicate _ _,
    fun l => Tab.get_replicate _ _, fun i => Tab.get_replicate _ _, fun e => Tab.get_replicate _ _, rfl, rfl, rfl, rfl, rfl, rfl, rfl,
    rfl, rfl, rfl, rfl, rfl, fun i => Tab.get_replicate _ _, rfl, rfl, fun _ => rfl, rfl, rfl, rfl, rfl, rfl, rfl,
    ⟨_, rfl, rfl, rfl, rfl, rfl, rfl, rfl⟩, rfl, rfl, rfl, rfl, rfl, hgood, hbad⟩

/-- Settles O14. -/
theorem commitRestart : Obligations.CommitRestart := by
  unfold Obligations.CommitRestart
  intro s readBack halive hstoring
  cases readBack with
  | true =>
    refine ⟨s.commitRestart { image := s.staging, torn := none }, ?_, s.commitRestart_meets s.choices _ (fun _ => rfl) fun h => Bool.noConfusion h⟩
    simp [exec, execStoreWriteComplete, halive, hstoring]
  | false =>
    refine ⟨({ s with choices := s.choices + 1 } : State).commitRestart { s.nv with torn := some s.choices }, ?_,
      s.commitRestart_meets (s.choices + 1) _ (fun h => Bool.noConfusion h) fun _ r => torn_check s.nv s.choices r⟩
    simp [exec, execStoreWriteComplete, halive, hstoring]

/-! ## FALLBACK -/

/-- The begin of FALLBACK writes the mode, the settings, the log and the zones' causes alone. -/
theorem State.beginFallback_eq (s : State) (code : Nat) :
    s.beginFallback code =
      { s with
        mode := .fallback, cfg := Settings.unset, log := (s.beginFallback code).log
        zones := s.zones.map (fun r => { r with causes := { Causes.empty with config := true } }) } := by
  have h : ({ s with mode := .fallback, cfg := Settings.unset } : State).mode ≠ .run := Mode.noConfusion
  unfold beginFallback
  rw [append_of_not_run h]

theorem State.beginFallback_log (s : State) (code : Nat) :
    ∃ records r, (s.beginFallback code).log.records = records ++ [r] ∧ r.kind = .configFallback ∧ r.zone = none ∧ r.subject = none ∧
      r.value = some code ∧ r.time = s.time.seconds := by
  have hlog : (s.beginFallback code).log = _ :=
    (append_log { s with mode := .fallback, cfg := Settings.unset } .configFallback none none (some code)).trans
      (EventLog.add_of_not_refusal _ _ (by simp) (by simp))
  rw [hlog]
  exact ⟨_, _, rfl, rfl, rfl, rfl, rfl, rfl⟩

/-- Settles O16. -/
theorem loadingEndsInFallback : Obligations.LoadingEndsInFallback := by
  unfold Obligations.LoadingEndsInFallback
  refine ⟨fun s readable code halive hmode hcheck => ?_, fun nv readable h => ?_, fun nv h => ?_, fun s t => step_heldInVent⟩
  · obtain ⟨-, -, -, -, -, hfallback, hcfg, -, hzones⟩ := s.beginFallback_keeps code
    have hzone : ∀ z, (s.beginFallback code).zones.get z = { s.zones.get z with causes := { Causes.empty with config := true } } :=
      fun z => by rw [hzones, Tab.get_map]
    refine ⟨s.beginFallback code, ?_, hfallback, hcfg, (finish_mode _).trans hfallback, finish_released fun hr => ?_, fun z => ?_,
      fun hinit z => ?_, ?_, ?_⟩
    · simp [exec, execLoadingEnd, halive, hmode, hcheck, endLoading]
    · exact absurd (hfallback.symm.trans hr.2) (by decide)
    · rw [hzone]
    · rw [hzone, hinit]; exact ⟨rfl, rfl⟩
    · obtain ⟨records, r, hrecords, hr⟩ := s.beginFallback_log code
      exact ⟨r, by rw [hrecords, List.getLast?_concat], hr⟩
    · rw [s.beginFallback_eq code]
      exact ⟨rfl, rfl, rfl, rfl, rfl, rfl, rfl, rfl, rfl, rfl, rfl, rfl, rfl⟩
  · obtain rfl | h := h
    · rfl
    · cases hn : nv.torn with
      | none => simp [hn] at h
      | some k => simp [NvStore.check, hn]
  · simp [NvStore.check, h]

/-! ## Timers and tables -/

/-- Settles O17, by induction on the ticks. -/
theorem timerExpiresAtItsCount : Obligations.TimerExpiresAtItsCount := by
  unfold Obligations.TimerExpiresAtItsCount
  have running : ∀ k n : Nat, k < n → Timer.ticks k (.running n) = .running (n - k) := by
    intro k
    induction k with
    | zero => exact fun n _ => rfl
    | succ k ih =>
      intro n h
      rw [Timer.ticks, Timer.tick_running (by omega), ih (n - 1) (by omega), show n - 1 - k = n - (k + 1) by omega]
  have due : ∀ n : Nat, 0 < n → Timer.ticks n (.running n) = .due := by
    intro n
    induction n with
    | zero => exact fun h => absurd h (by decide)
    | succ n ih =>
      intro _
      by_cases hn : n = 0
      · subst hn; rfl
      · rw [Timer.ticks, Timer.tick_running (by omega)]
        exact ih (by omega)
  intro n k hn
  have hstart : Timer.start n = .running n := if_neg (by omega)
  rw [hstart]
  exact ⟨running k n, due n hn⟩

/-- One hydrogen cause by its threshold and its release point (R7). -/
theorem hydrogenCause_each (threshold hysteresis r : Nat) (before : Bool) :
    (threshold ≤ r → hydrogenCause threshold hysteresis (some r) before = true) ∧
      (threshold - hysteresis ≤ r → r < threshold → hydrogenCause threshold hysteresis (some r) before = before) ∧
      (r < threshold - hysteresis → hydrogenCause threshold hysteresis (some r) before = false) := by
  refine ⟨fun h => ?_, fun h1 h2 => ?_, fun h => ?_⟩
  · simp [hydrogenCause, h]
  · have hn : ¬threshold ≤ r := by omega
    simp [hydrogenCause, hn, h1]
  · have hn : ¬threshold ≤ r := by omega
    have hm : ¬threshold - hysteresis ≤ r := by omega
    simp [hydrogenCause, hn, hm]

/-- Settles O20. -/
theorem hydrogenTable : Obligations.HydrogenTable := by
  unfold Obligations.HydrogenTable
  intro cs cfg r each seen gone
  exact ⟨hydrogenCause_each _ _ r _, hydrogenCause_each _ _ r _, hydrogenCause_each _ _ r _, rfl, rfl, rfl⟩

/-- Settles O38. -/
theorem senseTable : Obligations.SenseTable := by
  unfold Obligations.SenseTable
  refine ⟨fun f n => ⟨?_, ?_, ?_⟩, fun m r => ⟨fun v h => ?_, fun h => ⟨?_, ?_⟩⟩⟩
  · exact decide_eq_true_iff
  · exact decide_eq_true_iff
  · exact decide_eq_true_iff
  · simp [releaseValue, h]
  · simp [releaseValue, h]
  · simp [releaseValue, h]

end Sys2Proof.Machine
end

section
/-!
PROOFS. What is not due, the ticks and the zones' events (chapters 1 and 2).
-/
namespace Sys2Proof.Machine

open State

/-! ## Every command is answered -/

namespace State

theorem beginRun_pending (s : State) (cfg : Settings) : (s.beginRun cfg).pending = s.pending := by
  have h := (held_cleared s cfg).pending
  have path : ∀ v : State, v.beginPath.pending = v.pending := fun _ => rfl
  unfold beginRun
  generalize (s.takeSettings cfg).logLive.clearStarts = v at h ⊢
  rw [path, h]
  simp [takeSettings]

theorem commitRestart_pending (s : State) (nv : NvStore) : (s.commitRestart nv).pending = s.pending := by simp [State.commitRestart]

theorem PowerShape.pending {s t : State} (k : PowerShape s t) : t.pending = s.pending := by
  cases k with
  | same => rfl
  | up p => rfl
  | dark a b _ => rfl
  | loaded r _ _ =>
    obtain ⟨-, e⟩ | ⟨code, -, e⟩ := s.endLoading_cases (s.nv.check r) <;> rw [e, finish_pending]
    · exact beginRun_pending s _
    · simp [beginFallback]
  | committed _ => exact commitRestart_pending s _
  | badCommit _ => exact commitRestart_pending { s with choices := s.choices + 1 } _

end State

/-- Settles O2. -/
theorem commandsAnswer : Obligations.CommandsAnswer := by
  unfold Obligations.CommandsAnswer
  intro c s
  obtain ⟨t, h⟩ := exec_next c s
  refine ⟨t, h, ?_⟩
  obtain ⟨-, k, -⟩ | ⟨-, k⟩ := exec_cases h
  · exact k.held.pending
  · exact k.pending

/-! ## What is not due -/

/-- A settlement is taken only where a claim of the claimant stands. -/
theorem claimSettlement_none {s : State} {w : Claimant} (h : s.store.claimOf w = none) : exec (.claimSettlement w) s = .next s := by
  simp [exec, execClaimSettlement, h]

theorem channelSample_not_next {s : State} {c : Fin 8} (code : BitVec 12) (h : s.scan.head? ≠ some c) :
    exec (.channelSample c code) s = .next s := by
  simp only [exec, execChannelSample]
  cases hs : s.scan with
  | nil => rfl
  | cons d rest =>
    have hne : ¬(d = c ∧ s.mode = .run) := by rintro ⟨rfl, -⟩; exact h (by rw [hs]; rfl)
    dsimp only
    rw [if_neg hne]

/-- Settles O3: each event's own guard. -/
theorem notDueChangesNothing : Obligations.NotDueChangesNothing := by
  unfold Obligations.NotDueChangesNothing
  intro s
  refine ⟨fun h => ?_, fun p h => ?_, fun h => ?_, fun p h => ?_, fun r h => ?_, fun r h => ?_, fun h => ?_, fun h => ?_, fun h => ?_,
    fun c code h => channelSample_not_next code h, fun c h => ?_, fun l b h => ?_, fun i h => ?_, fun i h => ?_, fun i h => ?_, fun z h => ?_,
    fun z h => ?_, fun w h => claimSettlement_none h, fun h => ?_, fun h => ?_, fun e h => ?_, fun h => ?_, fun h => ?_, fun h => ?_,
    fun h => ?_⟩
  · simp [exec, execBrownOut, h]
  · simp [exec, execBrownOutEnd, h]
  · simp [exec, execResetAssert, h]
  · simp [exec, execResetRelease, h]
  · simp [exec, execLoadingEnd, h]
  · simp [exec, execStoreWriteComplete, h]
  · simp [exec, execTick100ms, h]
  · simp [exec, execTick1s, h]
  · simp [exec, execPulseBoundary, pulse, h]
  · simp [exec, execWarmUpExpiry, h]
  · simp [exec, execSpillSample, h]
  · simp [exec, execTachPulse, h]
  · simp [exec, execWindowEvent, h]
  · simp [exec, execDelayTimerExpiry, h]
  · simp [exec, execRefreshExpiry, h]
  · simp [exec, execPurgeExpiry, h]
  · simp only [exec, execPlacementEnters]
    obtain h | h := h
    · simp [h]
    · simp [Nat.not_lt.2 h]
  · have hnone : s.hold.any (fun e => decide (e.expiry ≤ s.time.seconds)) = false :=
      List.any_eq_false.2 fun e he => by simpa using h e he
    simp only [exec, execHoldExpiry, hnone]
    rfl
  · simp [exec, execRetryTimerExpiry, h]
  · simp [exec, execDownstreamTimeout, h]
  · simp [exec, execSettlingEnd, h]
  · simp [exec, execReportAgingExpiry, h]
  · simp [exec, execCommissioningLineChange, h]

/-! ## The ticks -/

theorem TimeBase.advance_eq (t : TimeBase) :
    t.advance =
      { t with shortTicks := if t.shortTicks + 1 < 10 then t.shortTicks + 1 else 0
               tenthDue := t.tenthDue || decide (10 ≤ t.shortTicks + 1)
               phase := (t.phase + 1) % 1000
               pulseDue := t.pulseDue || decide ((t.phase + 1) % 1000 % 125 = 0) } := by
  by_cases h : 10 ≤ t.shortTicks + 1
  · simp [TimeBase.advance, countTick, shortTicksPerTenth, isPulseBoundary, h, Nat.not_lt.2 h]
  · simp [TimeBase.advance, countTick, shortTicksPerTenth, isPulseBoundary, h, Nat.lt_of_not_le h]

theorem TimeBase.tenth_eq (t : TimeBase) :
    t.tenth =
      { t with tenthDue := false, tenths := if t.tenths + 1 < 10 then t.tenths + 1 else 0
               secondDue := t.secondDue || decide (10 ≤ t.tenths + 1) } := by
  by_cases h : 10 ≤ t.tenths + 1
  · simp [TimeBase.tenth, countTick, tenthsPerSecond, h, Nat.not_lt.2 h]
  · simp [TimeBase.tenth, countTick, tenthsPerSecond, h, Nat.lt_of_not_le h]

/-- Settles O18. -/
theorem shortTicks : Obligations.ShortTicks := by
  unfold Obligations.ShortTicks
  refine ⟨fun s level h => ?_, fun s hrun hdue => ⟨fun hm => ?_, fun hm => ?_⟩, fun s h => ⟨s.pulse, rfl, ?_, fun i => ?_, ?_⟩,
    fun b phase => (pattern_levels b phase).1, fun phase => (pattern_levels true phase).2⟩
  · simp only [exec, execTick1ms, if_pos h]
    rw [TimeBase.advance_eq]
    simp only [tickPort, Maintenance.sample]
  · simp only [exec, execTick100ms, if_pos (And.intro hrun hdue), if_pos hm]
    rw [TimeBase.tenth_eq]
    rfl
  · simp only [exec, execTick100ms, if_pos (And.intro hrun hdue), if_neg hm]
    rw [TimeBase.tenth_eq]
  · simp [pulse, h]
  · simp [pulse, h]
  · simp [pulse, h]

namespace State

/-- What the 1 s tick marks in RUN (R17, R130, R170). -/
theorem secondInRun_marks {s : State} (hm : s.mode = .run) :
    s.secondInRun.toWrite itemHeader ∧ (∀ c, s.secondInRun.toWrite (itemChannel c)) ∧ (∀ i, s.secondInRun.toWrite (itemTach i)) ∧
      (∀ z, (s.zones.get z).purge.active = true → s.secondInRun.toWrite (itemZone z)) ∧
      (s.hold ≠ [] → s.secondInRun.toWrite itemHold) := by
  have last : ∀ (t : State) (i : Fin 67), t.mode = .run →
      (t.toWrite i ∨ i ∈ itemHeader :: (indices 8).map itemChannel ++ (indices 8).map itemTach) → t.tickMarks.toWrite i := by
    intro t i ht hi
    have hall : (t.markAll (itemHeader :: (indices 8).map itemChannel ++ (indices 8).map itemTach)).toWrite i := by
      obtain hi | hi := hi
      · exact toWrite_markAll hi _
      · exact toWrite_markAll_mem ht hi
    unfold tickMarks
    dsimp only
    split
    · exact hall
    · exact toWrite_mark hall _
  have hmode : s.tickWarmUp.tickPurge.tickTachs.tickRetry.mode = .run := by simp [tickRetry, tickTachs, tickPurge, tickWarmUp, hm]
  refine ⟨last _ _ hmode (.inr (by simp)), fun c => last _ _ hmode (.inr (by simp)), fun i => last _ _ hmode (.inr (by simp)),
    fun z hz => last _ _ hmode (.inl ?_), fun hh => ?_⟩
  · have hmem : itemZone z ∈ ((indices 4).filter (fun z => (s.zones.get z).purge.active)).map itemZone :=
      List.mem_map.2 ⟨z, by simp [hz], rfl⟩
    exact toWrite_markAll_mem (s := { s.tickWarmUp with zones := s.zones.map (fun (r : ZoneRec) => { r with purge := r.purge.tick }) }) hm hmem
  · have hhold : s.tickWarmUp.tickPurge.tickTachs.tickRetry.hold = s.hold := by simp [tickRetry, tickTachs, tickPurge, tickWarmUp]
    unfold secondInRun tickMarks
    generalize s.tickWarmUp.tickPurge.tickTachs.tickRetry = t at hmode hhold
    dsimp only
    rw [if_neg (by simpa [hhold] using hh)]
    exact toWrite_mark_self (by simpa using hmode) _

end State

/-- Settles O19. -/
theorem tick1s : Obligations.Tick1s := by
  unfold Obligations.Tick1s
  intro s hrun hdue time
  refine ⟨fun hm => tick1s_other ⟨hrun, hdue⟩ hm, fun hm => ?_⟩
  obtain ⟨v, hv⟩ : ∃ v : State, v = { s with time := s.time.second } := ⟨_, rfl⟩
  have hexec := tick1s_eq ⟨hrun, hdue⟩ hm
  rw [← hv] at hexec
  have same : v.mode = .run ∧ v.time = time ∧ v.zones = s.zones ∧ v.tachs = s.tachs ∧ v.chans = s.chans ∧ v.force = s.force ∧
      v.windowOpen = s.windowOpen ∧ v.hold = s.hold ∧ v.posted = s.posted ∧ v.log = s.log := by
    rw [hv]; exact ⟨hm, rfl, rfl, rfl, rfl, rfl, rfl, rfl, rfl, rfl⟩
  obtain ⟨vmode, vtime, vzones, vtachs, vchans, vforce, vwindow, vhold, vposted, vlog⟩ := same
  obtain ⟨-, -, -, htime, -, -, -, -, hzones, htachs, hchans, hforce, hwindow, hhold, hposted, hlog⟩ := secondInRun_fields v
  obtain ⟨mheader, mchans, mtachs, mzones, mhold⟩ := secondInRun_marks vmode
  generalize v.secondInRun = u at *
  have ended := ended_finish u
  refine ⟨u, hexec, ended.time.trans (htime.trans vtime), fun c => ?_, ended.windowOpen.trans hwindow, fun i => ?_, fun z => ?_,
    fun i => ?_, fun e => ?_, mheader, mchans, mtachs, fun z hz => mzones z (by rw [vzones]; exact hz), fun h => mhold (by rw [vhold]; exact h),
    hhold.trans vhold, hposted.trans vposted, hlog.trans vlog⟩
  · rw [ended.chans, hchans, Tab.get_map, vchans]
  · rw [ended.windows i, htachs, Tab.get_map, vtachs, vwindow]
  · rw [hzones, Tab.get_map, vzones]
  · rw [htachs, Tab.get_map, vtachs]
  · rw [hforce, Tab.get_map, vforce]

/-! ## Zones -/

/-- What a settled state comes to, by the first case of R16 that holds. -/
theorem settleState_cases (old : ZoneState) (cs : Causes) :
    (cs.anyLockout = true → settleState old cs = .lockout) ∧
      (cs.anyLockout = false → old = .lockout → settleState old cs = .lockout) ∧
      (cs.anyLockout = false → old ≠ .lockout → cs.anyVent = true → settleState old cs = .vent) ∧
      (cs.anyLockout = false → cs.anyVent = false → old = .vent → settleState old cs = .purge) ∧
      (cs.anyLockout = false → cs.anyVent = false → old = .purge → settleState old cs = .purge) ∧
      (cs.anyLockout = false → cs.anyVent = false → (old = .clear ∨ old = .alert) →
        settleState old cs = if cs.h2Alert then .alert else .clear) := by
  refine ⟨fun h => ?_, fun h ho => ?_, fun h ho hv => ?_, fun h hv ho => ?_, fun h hv ho => ?_, fun h hv ho => ?_⟩
  · simp [settleState, h]
  · simp [settleState, h, ho]
  · simp [settleState, h, hv, ho]
  · simp [settleState, h, hv, ho]
  · simp [settleState, h, hv, ho]
  · obtain rfl | rfl := ho
    · simp [settleState, h, hv]
    · simp [settleState, h, hv]

/-- The record a move of zone `z` leaves: the flag at a rise, the purge timer at a change (R16 to R18). -/
theorem State.moved_spec (s : State) (z : Fin 4) (r : ZoneRec) (new : ZoneState) :
    let n := s.moved z r new
    n.state = new ∧ n.unack = (r.unack || isRise r.state new) ∧ (new = r.state → n.purge = r.purge) ∧
      (new ≠ r.state → new = .purge → n.purge = Timer.start (s.cfg.zones.get z).purgeTime) ∧
      (new ≠ r.state → new ≠ .purge → n.purge = .stopped) := by
  unfold moved
  by_cases h : r.state = new
  · subst h
    simp [isRise_self]
  · have h' : new ≠ r.state := fun e => h e.symm
    rw [if_neg h]
    exact ⟨rfl, rfl, fun e => absurd e h', fun _ e => if_pos e, fun _ e => if_neg e⟩

/-- The log gains the record of a change of state last (R16). -/
theorem logged_concat_getLast (s : State) (es : List LogEntry) {e : LogEntry} (hr : e.kind ≠ .writeRefused) (ha : e.kind ≠ .writeAbsorbed) :
    ∃ r, (s.logged (es ++ [e])).records.getLast? = some r ∧ r.kind = e.kind ∧ r.zone = e.zone ∧ r.subject = e.subject ∧ r.value = e.value := by
  unfold State.logged
  rw [List.foldl_concat, EventLog.add_of_not_refusal _ _ hr ha]
  exact ⟨_, List.getLast?_concat, rfl, rfl, rfl, rfl⟩

/-- Settles O21. -/
theorem zoneEventSettles : Obligations.ZoneEventSettles := by
  unfold Obligations.ZoneEventSettles
  intro s z r cs u n
  have hn : n = s.moved z { r with causes := cs, unack := r.unack || Causes.anySet (s.zones.get z).causes cs } (settleState r.state cs) := by
    show (s.zoneEvent z r cs).zones.get z = _
    rw [zoneEvent_zones, Tab.get_set_self]
  obtain ⟨hstate, hunack, hsame, hpurge, hstop⟩ :=
    s.moved_spec z { r with causes := cs, unack := r.unack || Causes.anySet (s.zones.get z).causes cs } (settleState r.state cs)
  obtain ⟨-, hcauses, hreading, hpeak, hrefresh⟩ :=
    moved_fields s z { r with causes := cs, unack := r.unack || Causes.anySet (s.zones.get z).causes cs } (settleState r.state cs)
  have hlog : u.log = s.logged (zoneRecords z (s.zones.get z).causes cs r.state (settleState r.state cs)) := zoneEvent_log s z r cs
  obtain ⟨clock, cstay, cvent, cpurge, cstill, crest⟩ := settleState_cases r.state cs
  rw [← hn] at hstate hunack hsame hpurge hstop hcauses hreading hpeak hrefresh
  rw [hstate]
  refine ⟨hcauses, hreading, hpeak, hrefresh, clock, cstay, cvent, cpurge, cstill, crest, hunack, hsame, hpurge, hstop, fun hne => ?_,
    hlog, fun y hy => zoneEvent_others s z r cs y hy, ?_, ?_⟩
  · rw [hlog, zoneRecords, if_neg (Ne.symm hne)]
    exact logged_concat_getLast s _ (by simp) (by simp)
  · simp [u, samePath]
  · simp [u, sameField]

/-- Settles O22. -/
theorem zoneMoveNotices : Obligations.ZoneMoveNotices := by
  unfold Obligations.ZoneMoveNotices
  refine ⟨fun s z new hne => ?_, fun s z r cs => zoneEvent_notified s z r cs, fun s z => ?_, fun s z new => zoneMove_notified s z new,
    ⟨rfl, rfl⟩, ⟨rfl, rfl⟩, ⟨rfl, rfl⟩, ⟨rfl, rfl⟩, ⟨rfl, rfl⟩, fun _ _ => rfl⟩
  · obtain ⟨given, hagenda, -, hgiven⟩ := zoneMove_notified s z new
    refine ⟨given, hagenda, fun n => (hgiven n).trans ?_⟩
    have hnew : ((s.zoneMove z new).zones.get z).state = new := by
      rw [zoneMove_zones, Tab.get_set_self]
      exact (s.moved_spec z (s.zones.get z) new).1
    rw [hnew]
    exact Iff.rfl
  · obtain ⟨-, -, -, -, -, -, -, -, -, -, -, hnotified, -⟩ := zoneAcknowledge_spec s z
    exact hnotified

end Sys2Proof.Machine
end

section
/-!
PROOFS. The zones' timers, and the order in which the maintenance port decides its commands (chapters 1 and 12, R11, R17, R188).
-/
namespace Sys2Proof.Machine

open State

/-! ## The zones' timers -/

/-- Settles O24: the refresh timer's expiry is a zone event, the purge timer's a change of state without one. -/
theorem zoneTimersExpire : Obligations.ZoneTimersExpire := by
  unfold Obligations.ZoneTimersExpire
  intro s z old
  refine ⟨fun hdue => ?_, fun hdue hpurge => ?_⟩
  · have he : s.refreshExpire z = s.zoneEvent z { old with refresh := .rested } { old.causes with hostLost := true } := if_pos hdue
    refine ⟨s.refreshExpire z, if_pos hdue, by simp [samePath], by simp [sameField], ?_⟩
    rw [he]
    exact ⟨zoneEvent_others s z _ _, zoneEvent_settled s z _ _ rfl, zoneEvent_notified s z _ _ rfl, zoneEvent_said s z _ _ rfl rfl⟩
  · have he : s.purgeExpire z = s.zoneMove z (if old.causes.h2Alert then .alert else .clear) := if_pos hdue
    obtain ⟨given, hagenda, hnodup, hgiven⟩ := zoneMove_notified s z (if old.causes.h2Alert then .alert else .clear)
    have hnew : ((s.zoneMove z (if old.causes.h2Alert then .alert else .clear)).zones.get z) =
        { old with state := if old.causes.h2Alert then .alert else .clear, purge := .stopped } := by
      rw [zoneMove_zones, Tab.get_set_self]
      show s.moved z old _ = _
      cases old.causes.h2Alert <;> simp [moved, hpurge, isRise]
    refine ⟨s.purgeExpire z, if_pos hdue, by simp [samePath], by simp [sameField], ?_⟩
    rw [he]
    refine ⟨fun y hy => ?_, hnew, ?_, ⟨given, hagenda, hnodup, hgiven⟩, zoneMove_said s z _⟩
    · rw [zoneMove_zones, Tab.get_set_of_ne _ (Ne.symm hy)]
    · rw [hagenda, List.mem_append, hgiven, hnew]
      refine .inr (.inr (.inr (.inr ⟨rfl, by rw [show (s.zones.get z).state = .purge from hpurge]; rfl, ?_⟩)))
      cases old.causes.h2Alert <;> rfl

/-! ## The order of the maintenance commands (R188) -/

namespace State

section
variable {s t : State} {needsLine outOfRange : Bool}

theorem gated_busy (h : s.alive = true) (hb : s.mode = .loading ∨ s.maint.storing = true) :
    s.gated needsLine outOfRange t = s.reply .busy := by
  have hbusy : s.busyNow = true := by
    obtain hb | hb := hb
    · simp [busyNow, hb]
    · simp [busyNow, hb]
  simp [gated, h, hbusy]

theorem busyNow_of_served (h : s.served) : s.busyNow = false := by
  obtain ⟨-, hmode, hstoring⟩ := h
  simp [busyNow, hmode, hstoring]

theorem gated_denied (h : s.served) (hl : s.maint.line = false) : s.gated true outOfRange t = s.reply .denied := by
  simp [gated, h.1, busyNow_of_served h, lineAsserted, hl]

theorem gated_badRange (h : s.served) (hl : needsLine = true → s.maint.line = true) : s.gated needsLine true t = s.reply .badCommand := by
  have hline : (needsLine && !s.lineAsserted) = false := by
    cases needsLine with
    | false => rfl
    | true => simp [lineAsserted, hl rfl]
  simp [gated, h.1, busyNow_of_served h, hline]

theorem gated_carried (h : s.served) (hl : needsLine = true → s.maint.line = true) : s.gated needsLine false t = t := by
  have hline : (needsLine && !s.lineAsserted) = false := by
    cases needsLine with
    | false => rfl
    | true => simp [lineAsserted, hl rfl]
  simp [gated, h.1, busyNow_of_served h, hline]

end

end State

/-- Settles O23. -/
theorem acknowledgeZone : Obligations.AcknowledgeZone := by
  unfold Obligations.AcknowledgeZone
  intro s zone hserved hline hzone
  have hrange : decide (3 < zone.toNat) = false := by simpa using hzone
  refine ⟨(s.zoneAcknowledge (zoneOf zone)).reply (.ok []), ?_, ?_, by simp [samePath], by simp [sameField], zoneAcknowledge_spec s (zoneOf zone)⟩
  · simp only [exec, execAcknowledge, hrange]
    rw [gated_carried hserved fun _ => hline]
    rfl
  · simp

end Sys2Proof.Machine
end

section
/-!
PROOFS. The gas channels, the spill lines and the tachs (chapter 2 and 3).
-/
namespace Sys2Proof.Machine

open State

/-! ## A channel's event, with its own records -/

namespace State

/-- What a channel's event leaves, its own records `own` logged before its zone's. -/
def chanTaken (s u : State) (ch : Fin 8) (r : ChanRec) (warmed : Bool) (own : List LogEntry) : Prop :=
  u.chans = s.chans.set ch r ∧ u.scan = s.scan ∧ u.spills = s.spills ∧ u.tachs = s.tachs ∧ s.samePath u ∧ u.cfg = s.cfg ∧
    u.maint = s.maint ∧ ((s.cfg.channels.get ch).zone = none → u.zones = s.zones ∧ u.log = s.logged own) ∧
      ∀ z, (s.cfg.channels.get ch).zone = some z →
        s.gasReported u z (decide (s.channelState ch ≠ u.channelState ch)) warmed ∧ u.log = s.logged (own ++ s.zoneSaid u z)

theorem samePath_refl (s : State) : s.samePath s := ⟨rfl, rfl, rfl, rfl, rfl, rfl, rfl, rfl, rfl, rfl, rfl, rfl, rfl⟩

theorem samePath_append (s : State) (k : EventKind) (z : Option (Fin 4)) (a b : Option Nat) : s.samePath (s.append k z a b) := by
  simp [samePath]

/-- An event with no record of its own. -/
theorem chanTaken_chanEvent (s : State) (ch : Fin 8) (r : ChanRec) (warmed : Bool) :
    s.chanTaken (s.chanEvent ch r warmed) ch r warmed [] :=
  chanEvent_after s ch r warmed [] s rfl rfl rfl rfl rfl rfl s.samePath_refl rfl rfl rfl rfl

/-- An event after the append of the channel's record. -/
theorem chanTaken_append (s : State) (ch : Fin 8) (r : ChanRec) (warmed : Bool) (k : EventKind) (z : Option (Fin 4)) (a b : Option Nat) :
    s.chanTaken ((s.append k z a b).chanEvent ch r warmed) ch r warmed [{ kind := k, zone := z, subject := a, value := b }] :=
  chanEvent_after s ch r warmed _ _ (append_logged_nil s k z a b) (by simp) (by simp) (by simp) (by simp) (by simp)
    (s.samePath_append k z a b) (by simp) (by simp) (by simp) (by simp)

/-- An event that logs its channel's record where a test holds. -/
theorem chanTaken_appendIf (s : State) (ch : Fin 8) (r : ChanRec) (warmed : Bool) (b : Bool) (k : EventKind) (z : Option (Fin 4))
    (x y : Option Nat) :
    s.chanTaken ((if b then s.append k z x y else s).chanEvent ch r warmed) ch r warmed
      (if b then [{ kind := k, zone := z, subject := x, value := y }] else []) := by
  cases b with
  | false => exact s.chanTaken_chanEvent ch r warmed
  | true => exact s.chanTaken_append ch r warmed k z x y

theorem chanSample_good {s : State} {c : Fin 8} {code : BitVec 12} (h : goodCode (s.cfg.channels.get c) code.toNat = true) :
    let next := goodSample { s.chans.get c with raw := some code } (scaled (s.cfg.channels.get c) code.toNat)
    s.chanTaken (s.chanSample c code) c next.1 false
      (if next.2 then [{ kind := .channelLive, zone := (s.cfg.channels.get c).zone, subject := some c.val, value := none }] else []) := by
  intro next
  have e : s.chanSample c code =
      (if next.2 then s.append .channelLive (s.cfg.channels.get c).zone (some c.val) none else s).chanEvent c next.1 false := if_pos h
  rw [e]
  exact s.chanTaken_appendIf c _ false _ _ _ _ _

theorem chanSample_bad {s : State} {c : Fin 8} {code : BitVec 12} (h : goodCode (s.cfg.channels.get c) code.toNat = false) :
    let next := badSample { s.chans.get c with raw := some code }
    s.chanTaken (s.chanSample c code) c next.1 false
      (if next.2 then [{ kind := .channelFault, zone := (s.cfg.channels.get c).zone, subject := some c.val, value := some code.toNat }]
        else []) := by
  intro next
  have e : s.chanSample c code =
      (if next.2 then s.append .channelFault (s.cfg.channels.get c).zone (some c.val) (some code.toNat) else s).chanEvent c next.1 false :=
    if_neg (by rw [h]; decide)
  rw [e]
  exact s.chanTaken_appendIf c _ false _ _ _ _ _

end State

theorem goodCode_iff (cfg : ChanCfg) (code : Nat) : goodCode cfg code = true ↔ cfg.openLimit ≤ code ∧ code ≤ cfg.overLimit := by
  simp [goodCode]

/-- The channel's own record by the class of its sample: at a good sample the first test decides, at a bad one the second. -/
theorem said_of_good {α : Type} {p q r : Prop} [Decidable p] [Decidable q] [Decidable r] {b : Bool} (hp : p) (hb : b = decide q)
    (x y z : α) : (if b = true then x else z) = if p ∧ q then x else if ¬p ∧ r then y else z := by
  subst hb
  by_cases hq : q <;> simp [hp, hq]

theorem said_of_bad {α : Type} {p q r : Prop} [Decidable p] [Decidable q] [Decidable r] {b : Bool} (hp : ¬p) (hb : b = decide r)
    (x y z : α) : (if b = true then y else z) = if p ∧ q then x else if ¬p ∧ r then y else z := by
  subst hb
  by_cases hr : r <;> simp [hp, hr]

/-- Settles O25: a good and a bad sample each by the table of its own step. -/
theorem channelSample : Obligations.ChannelSample := by
  unfold Obligations.ChannelSample
  intro s ch code rest hm hscan
  obtain ⟨v, hv⟩ : ∃ v : State, v = { s with scan := rest } := ⟨_, rfl⟩
  have hexec : exec (.channelSample ch code) s = .next (v.chanSample ch code).finish := by
    show execChannelSample ch code s = _
    unfold execChannelSample
    rw [hscan, hv]
    exact if_pos ⟨rfl, hm⟩
  have taken : ∀ (r : ChanRec) (own : List LogEntry), v.chanTaken (v.chanSample ch code) ch r false own →
      (v.chanSample ch code).chans.get ch = r ∧ (v.chanSample ch code).finish.scan = rest ∧
        (∀ c, c ≠ ch → (v.chanSample ch code).chans.get c = s.chans.get c) ∧ (v.chanSample ch code).spills = s.spills ∧
        (v.chanSample ch code).tachs = s.tachs ∧ s.samePath (v.chanSample ch code) ∧
        ((s.cfg.channels.get ch).zone = none → (v.chanSample ch code).zones = s.zones ∧ (v.chanSample ch code).log = s.logged own) ∧
        ∀ z, (s.cfg.channels.get ch).zone = some z →
          s.gasReported (v.chanSample ch code) z (decide (s.channelState ch ≠ (v.chanSample ch code).channelState ch)) false ∧
            (v.chanSample ch code).log = s.logged (own ++ s.zoneSaid (v.chanSample ch code) z) := by
    intro r own h
    obtain ⟨hchans, hsc, hspills, htachs, hpath, -, -, hnone, hsome⟩ := h
    subst hv
    generalize State.chanSample { s with scan := rest } ch code = u at *
    exact ⟨by rw [hchans, Tab.get_set_self], by rw [finish_scan, hsc], fun c hc => by rw [hchans, Tab.get_set_of_ne _ (Ne.symm hc)], hspills,
      htachs, hpath, hnone, hsome⟩
  have hcfg : v.cfg.channels.get ch = s.cfg.channels.get ch := by rw [hv]
  have hold : v.chans.get ch = s.chans.get ch := by rw [hv]
  refine ⟨v.chanSample ch code, hexec, ?_⟩
  have hchans : (v.chanSample ch code).finish.chans = (v.chanSample ch code).chans := finish_chans _
  by_cases hgood : goodCode (s.cfg.channels.get ch) code.toNat = true
  · have k := taken _ _ (chanSample_good (s := v) (by rw [hcfg]; exact hgood))
    rw [hcfg, hold] at k
    obtain ⟨hnew, hrest, hothers, hspills, htachs, hpath, hnone, hsome⟩ := k
    obtain ⟨hsaid, hraw, htest, htimer, hwarm, hbad, hcount, hlive, hwarmup, hstill, hback, hcold⟩ :=
      goodSample_spec { s.chans.get ch with raw := some code } (scaled (s.cfg.channels.get ch) code.toNat)
    have hown := (goodCode_iff _ _).1 hgood
    refine ⟨hrest, hchans, hothers, hspills, htachs, hpath, ?_⟩
    intro cfg old new good w own
    rw [show _ = own from said_of_good hown hsaid _ _ _] at hnone hsome
    rw [show new = _ from hnew]
    exact ⟨hraw, htest, htimer, hwarm, fun _ => ⟨hbad, hcount, hlive, hwarmup, hstill, hback, hcold⟩, fun h => absurd hown h, hnone, hsome⟩
  · have hbadCode : goodCode (s.cfg.channels.get ch) code.toNat = false := by simpa using hgood
    have k := taken _ _ (chanSample_bad (s := v) (by rw [hcfg]; exact hbadCode))
    rw [hcfg, hold] at k
    obtain ⟨hnew, hrest, hothers, hspills, htachs, hpath, hnone, hsome⟩ := k
    obtain ⟨hsaid, hraw, htest, htimer, hwarm, hcount, hbad, hfault, hstill⟩ := badSample_spec { s.chans.get ch with raw := some code }
    have hown : ¬((s.cfg.channels.get ch).openLimit ≤ code.toNat ∧ code.toNat ≤ (s.cfg.channels.get ch).overLimit) :=
      fun h => hgood ((goodCode_iff _ _).2 h)
    refine ⟨hrest, hchans, hothers, hspills, htachs, hpath, ?_⟩
    intro cfg old new good w own
    rw [show _ = own from said_of_bad hown hsaid _ _ _] at hnone hsome
    rw [show new = _ from hnew]
    exact ⟨hraw, htest, htimer, hwarm, fun h => absurd h hown, fun _ => ⟨hcount, hbad, hfault, hstill⟩, hnone, hsome⟩

/-- Settles O26. -/
theorem warmUpExpires : Obligations.WarmUpExpires := by
  unfold Obligations.WarmUpExpires
  intro s ch hdue
  have hexec : exec (.warmUpExpiry ch) s = .next (s.warmUpExpire ch).finish := if_pos hdue
  have answer : ∀ (r : ChanRec) (own : List LogEntry), s.chanTaken (s.warmUpExpire ch) ch r true own →
      (s.warmUpExpire ch).chans.get ch = r ∧ (s.warmUpExpire ch).finish.chans = (s.warmUpExpire ch).chans ∧
        (∀ c, c ≠ ch → (s.warmUpExpire ch).chans.get c = s.chans.get c) ∧ (s.warmUpExpire ch).spills = s.spills ∧
        (s.warmUpExpire ch).tachs = s.tachs ∧ s.samePath (s.warmUpExpire ch) ∧
        ((s.cfg.channels.get ch).zone = none → (s.warmUpExpire ch).zones = s.zones ∧ (s.warmUpExpire ch).log = s.logged own) ∧
        ∀ z, (s.cfg.channels.get ch).zone = some z →
          s.gasReported (s.warmUpExpire ch) z (decide (s.channelState ch ≠ (s.warmUpExpire ch).channelState ch)) true ∧
            (s.warmUpExpire ch).log = s.logged (own ++ s.zoneSaid (s.warmUpExpire ch) z) := by
    intro r own h
    obtain ⟨hchans, -, hspills, htachs, hpath, -, -, hnone, hsome⟩ := h
    exact ⟨by rw [hchans, Tab.get_set_self], finish_chans _, fun c hc => by rw [hchans, Tab.get_set_of_ne _ (Ne.symm hc)], hspills,
      htachs, hpath, hnone, hsome⟩
  refine ⟨s.warmUpExpire ch, hexec, ?_⟩
  by_cases hw : (s.chans.get ch).sample = .warmup
  · by_cases hbad : (s.chans.get ch).bad = 0
    · have e : s.warmUpExpire ch = (s.append .channelLive (s.cfg.channels.get ch).zone (some ch.val) none).chanEvent ch
          { s.chans.get ch with timer := .stopped, warm := true, sample := .live, filter := [] } true := by
        simp [warmUpExpire, hdue, hw, hbad]
      obtain ⟨hnew, hchans, hothers, hspills, htachs, hpath, hnone, hsome⟩ := answer _ _ (e ▸ s.chanTaken_append ch _ true _ _ _ _)
      refine ⟨hchans, hothers, hspills, htachs, hpath, ?_⟩
      dsimp only
      rw [hnew, if_pos ⟨hw, hbad⟩]
      exact ⟨rfl, rfl, rfl, rfl, rfl, rfl, fun _ _ => ⟨rfl, rfl⟩, fun _ h => absurd hbad h, fun h => absurd hw h, hnone, hsome⟩
    · have e : s.warmUpExpire ch =
          (s.append .channelFault (s.cfg.channels.get ch).zone (some ch.val) ((s.chans.get ch).raw.map BitVec.toNat)).chanEvent ch
          { s.chans.get ch with timer := .stopped, warm := true, sample := .fault, filter := [] } true := by
        simp [warmUpExpire, hdue, hw, hbad]
      obtain ⟨hnew, hchans, hothers, hspills, htachs, hpath, hnone, hsome⟩ := answer _ _ (e ▸ s.chanTaken_append ch _ true _ _ _ _)
      refine ⟨hchans, hothers, hspills, htachs, hpath, ?_⟩
      dsimp only
      rw [hnew, if_neg fun h => hbad h.2, if_pos hw]
      exact ⟨rfl, rfl, rfl, rfl, rfl, rfl, fun _ h => absurd h hbad, fun _ _ => ⟨rfl, rfl⟩, fun h => absurd hw h, hnone, hsome⟩
  · have e : s.warmUpExpire ch = s.chanEvent ch { s.chans.get ch with timer := .stopped, warm := true } true := by
      cases hs : (s.chans.get ch).sample with
      | warmup => exact absurd hs hw
      | live => simp [warmUpExpire, hdue, hs]
      | fault => simp [warmUpExpire, hdue, hs]
    obtain ⟨hnew, hchans, hothers, hspills, htachs, hpath, hnone, hsome⟩ := answer _ _ (e ▸ s.chanTaken_chanEvent ch _ true)
    refine ⟨hchans, hothers, hspills, htachs, hpath, ?_⟩
    dsimp only
    rw [hnew, if_neg fun h => hw h.1, if_neg hw]
    exact ⟨rfl, rfl, rfl, rfl, rfl, rfl, fun h => absurd h hw, fun h => absurd h hw, fun _ => ⟨rfl, rfl⟩, hnone, hsome⟩

end Sys2Proof.Machine
end

section
/-!
PROOFS. The spill lines and the tachs (chapters 2 and 3).
-/
namespace Sys2Proof.Machine

open State

/-! ## Spill lines -/

/-- A sample of a line by the table of R43. -/
theorem spillStep_spec (debounce : Nat) (old : SpillRec) (wet : Bool) :
    (spillStep debounce old wet).2 = decide (wet ≠ old.wet ∧ debounce ≤ old.run + 1) ∧
      (spillStep debounce old wet).1 =
        { wet := if wet ≠ old.wet ∧ debounce ≤ old.run + 1 then wet else old.wet
          run := if wet = old.wet ∨ (wet ≠ old.wet ∧ debounce ≤ old.run + 1) then 0 else old.run + 1
          last := some wet, due := false } := by
  unfold spillStep
  dsimp only
  by_cases hsame : wet = old.wet
  · simp [hsame]
  · by_cases hrun : old.run + 1 < debounce
    · have hn : ¬debounce ≤ old.run + 1 := by omega
      simp [hsame, hrun, hn]
    · have hn : debounce ≤ old.run + 1 := by omega
      simp [hsame, hrun, hn]

/-- A cause that sets raises the flag (R5). -/
theorem anySet_spill {cs : Causes} (h : cs.spill = false) : Causes.anySet cs { cs with spill := true } = true := by
  unfold Causes.anySet Causes.changes
  rw [List.any_eq_true]
  refine ⟨(.spill, true), ?_, rfl⟩
  simp [Cause.all, Causes.has, h]

/-- SPILL set in a zone by an event with records `own` of its own before it (R5, R9). -/
theorem zoneSpill_after {s x : State} {z : Fin 4} {own : List LogEntry} (hz : x.zones = s.zones) (hc : x.cfg = s.cfg)
    (ha : x.agenda = s.agenda) (ht : x.time = s.time) (hl : x.log = s.logged own) :
    let u := x.zoneCause z .spill true
    s.otherZones u z ∧
      u.zones.get z = ZoneRec.settledBy (s.cfg.zones.get z) (s.zones.get z) { (s.zones.get z).causes with spill := true } ∧
      ((s.zones.get z).causes.spill = false → (u.zones.get z).unack = true) ∧ s.notified u z ∧
      u.log = s.logged (own ++ s.zoneSaid u z) := by
  intro u
  have hsettled : u.zones.get z = ZoneRec.settledBy (s.cfg.zones.get z) (s.zones.get z) { (s.zones.get z).causes with spill := true } := by
    rw [← hz, ← hc]
    exact zoneEvent_settled x z _ _ rfl
  have hsaid : u.log = x.logged (x.zoneSaid u z) := zoneEvent_said x z _ _ rfl rfl
  refine ⟨fun y hy => (zoneEvent_others x z _ _ y hy).trans (by rw [hz]), hsettled, fun h => ?_,
    notified_congr hz ha (zoneEvent_notified x z _ _ rfl), ?_⟩
  · rw [hsettled]
    simp [ZoneRec.settledBy, anySet_spill h]
  · rw [hsaid, logged_append hl (by rw [ht]), zoneSaid_congr _ _ hz]

/-- Settles O27. -/
theorem spillSample : Obligations.SpillSample := by
  unfold Obligations.SpillSample
  intro s l high hdue cfg old wet turns
  obtain ⟨hmoves, hrec⟩ := spillStep_spec cfg.debounce old wet
  have hspills := spillSample_spills s l high
  obtain ⟨hchans, htachs, -⟩ := spillSample_field s l high
  have hget : (s.spillSample l high).spills.get l = (spillStep cfg.debounce old wet).1 := by rw [hspills, Tab.get_set_self]
  refine ⟨s.spillSample l high, if_pos hdue, finish_spills _, ?_, hchans, htachs, fun m hm => ?_, hget.trans hrec, fun hno => ?_,
    fun hturn hdry => ?_, fun hturn hwet hnone => ?_, fun hturn hwet z hzone => ?_⟩
  · unfold State.spillSample
    dsimp only
    split
    · simp [samePath]
    · split
      · split <;> simp [samePath]
      · simp [samePath]
  · rw [hspills, Tab.get_set_of_ne _ (Ne.symm hm)]
  · have hstill : (!(spillStep cfg.debounce old wet).2) = true := by rw [hmoves, decide_eq_false hno]; rfl
    have e : s.spillSample l high = s.setSpill l (spillStep cfg.debounce old wet).1 := if_pos hstill
    rw [e]
    exact ⟨by simp, by simp⟩
  all_goals
    have hmove : ¬(!(spillStep cfg.debounce old wet).2) = true := by rw [hmoves, decide_eq_true hturn]; decide
    have hnow : (spillStep cfg.debounce old wet).1.wet = wet := by rw [hrec]; exact if_pos hturn
    have e : s.spillSample l high = _ := if_neg hmove
    have hwetIs : (spillStep (s.cfg.spills.get l).debounce (s.spills.get l) (decide (high = (s.cfg.spills.get l).wetHigh))).1.wet = wet := hnow
    rw [e, hwetIs]
  · rw [hdry]
    have hlog : ∀ r : SpillRec, ((s.setSpill l r).append .spillDry cfg.zone (some l.val) none).log =
        (s.append .spillDry cfg.zone (some l.val) none).log := fun r => by simp [append_log]
    cases hzone : (s.cfg.spills.get l).zone with
    | none => exact ⟨by simp, by simpa [cfg, hzone] using hlog _⟩
    | some z => exact ⟨by simp, by simpa [cfg, hzone] using hlog _⟩
  · rw [hwet, show (s.cfg.spills.get l).zone = none from hnone]
    exact ⟨by simp, by simp [append_log]⟩
  · rw [hwet, show (s.cfg.spills.get l).zone = some z from hzone]
    have hlog : ∀ r : SpillRec, ((s.setSpill l r).append .spillWet (some z) (some l.val) none).log =
        s.logged [{ kind := .spillWet, zone := some z, subject := some l.val, value := none }] := fun r => by
      rw [append_logged_nil]
      exact logged_congr (by simp) (by simp) _
    exact zoneSpill_after (by simp) (by simp) (by simp) (by simp) (hlog _)

/-! ## Tachs -/

/-- A tach's window by the tables of R52 to R54. -/
theorem windowStep_spec (cfg : TachCfg) (old : TachRec) :
    let speed := min 65535 (old.count * 60 / cfg.pulses)
    let reaches := cfg.proofSpeed ≤ speed
    let new := (windowStep cfg old).1
    (windowStep cfg old).2 = (if old.state = .failed ∧ reaches then some .proven else none) ∧
      (old.state = .failed ∧ reaches → new.state = .proven) ∧ new.count = 0 ∧ new.speed = some speed ∧ new.due = false ∧
      new.required = old.required ∧
      (old.state = .idle → new.state = .idle ∧ new.timer = old.timer) ∧
      (old.state = .proving → reaches → new.state = .proven ∧ new.timer = .stopped) ∧
      (old.state = .proving → ¬reaches → new.state = .proving ∧ new.timer = old.timer) ∧
      (old.state = .proven → reaches → new.state = .proven ∧ new.timer = .stopped) ∧
      (old.state = .proven → ¬reaches → old.timer = .stopped → new.state = .proven ∧ new.timer = Timer.start cfg.proofDelay) ∧
      (old.state = .proven → ¬reaches → old.timer ≠ .stopped → new.state = .proven ∧ new.timer = old.timer) ∧
      (old.state = .failed → reaches → new.state = .proven ∧ new.timer = .stopped) ∧
      (old.state = .failed → ¬reaches → new.state = .failed ∧ new.timer = old.timer) := by
  intro speed reaches new
  by_cases hr : cfg.proofSpeed ≤ min 65535 (old.count * 60 / cfg.pulses)
  · cases hs : old.state <;> simp [new, speed, reaches, windowStep, windowSpeed, hs, hr]
  · by_cases ht : old.timer = .stopped
    · cases hs : old.state <;> simp [new, speed, reaches, windowStep, windowSpeed, hs, hr, ht]
    · cases hs : old.state <;> simp [new, speed, reaches, windowStep, windowSpeed, hs, hr, ht]

namespace State

theorem samePath_trans {s t u : State} (h : s.samePath t) (k : t.samePath u) : s.samePath u := by
  obtain ⟨h1, h2, h3, h4, h5, h6, h7, h8, h9, h10, h11, h12, h13⟩ := h
  obtain ⟨k1, k2, k3, k4, k5, k6, k7, k8, k9, k10, k11, k12, k13⟩ := k
  exact ⟨k1.trans h1, k2.trans h2, k3.trans h3, k4.trans h4, k5.trans h5, k6.trans h6, k7.trans h7, k8.trans h8, k9.trans h9,
    k10.trans h10, k11.trans h11, k12.trans h12, k13.trans h13⟩

theorem samePath_tachEvent (s : State) (i : Fin 8) (r : TachRec) (log : Option FanLog) : s.samePath (s.tachEvent i r log) := by
  have report : ∀ (b : Bool) (z : Fin 4) (t : State), t.samePath (if b = true then t.fanReport z else t) := by
    intro b z t
    cases b with
    | false => exact t.samePath_refl
    | true => simp [fanReport, samePath]
  have logged : s.samePath (match log with
      | some .failed => (s.setTach i r).append .fanFailed (s.tachZone i) (some i.val) r.speed
      | some .proven => (s.setTach i r).append .fanProven (s.tachZone i) (some i.val) r.speed
      | none => s.setTach i r) := by
    split <;> simp [samePath]
  unfold tachEvent
  dsimp only
  split
  · exact samePath_trans logged (report _ _ _)
  · exact logged

/-- The record a tach's event logs of the tach (R54). -/
def fanSaid (s : State) (i : Fin 8) (speed : Option Nat) : Option FanLog → List LogEntry
  | none => []
  | some .failed => [{ kind := .fanFailed, zone := s.tachZone i, subject := some i.val, value := speed }]
  | some .proven => [{ kind := .fanProven, zone := s.tachZone i, subject := some i.val, value := speed }]

theorem tachEvent_tells (s : State) (i : Fin 8) (r : TachRec) (log : Option FanLog)
    (h : log ≠ none → (s.tachs.get i).state ≠ r.state) :
    let u := s.tachEvent i r log
    (r.state = (s.tachs.get i).state ∨ s.tachZone i = none → u.zones = s.zones ∧ u.log = s.logged (s.fanSaid i r.speed log)) ∧
      ∀ z, s.tachZone i = some z → r.state ≠ (s.tachs.get i).state →
        s.fanReported u z ∧ u.log = s.logged (s.fanSaid i r.speed log ++ s.zoneSaid u z) := by
  match log with
  | none => exact tachEvent_spec s i r none h
  | some .failed => exact tachEvent_spec s i r (some .failed) h
  | some .proven => exact tachEvent_spec s i r (some .proven) h

end State

/-- The required condition of a tach: its entry is not IDLE and its zone is forcing (R50). -/
theorem tachRequired_iff (s : State) (i : Fin 8) :
    s.tachRequired i = true ↔
      ∃ e f, (s.cfg.tachs.get i).binding = some e ∧ s.cfg.forces.get e = some f ∧ (s.force.get e).state ≠ .idle ∧
        (s.zones.get f.zone).state.forcing = true := by
  unfold tachRequired tachZone
  cases hb : (s.cfg.tachs.get i).binding with
  | none => simp
  | some e =>
    cases hf : s.cfg.forces.get e with
    | none => simp [hf]
    | some f => simp [hf]

theorem requireStep_spec (cfg : TachCfg) (r : TachRec) :
    (r.required = false → r.state = .idle →
      requireStep cfg r true = { r with required := true, state := .proving, timer := Timer.start cfg.proofDelay }) ∧
      (r.required = true → requireStep cfg r false = { r with required := false, state := .idle, timer := .stopped }) ∧
      requireStep cfg r r.required = r := by
  refine ⟨fun h hi => ?_, fun h => ?_, ?_⟩
  · simp [requireStep, h, hi]
  · simp [requireStep, h]
  · cases h : r.required <;> simp [requireStep, h]

/-- While a notice stands that the fan proof unit takes first, the force engine does not go on (R50, log 8). -/
theorem pickNotice_fanFirst {s u : State} {n : Notice} (h : s.pickNotice = some (n, u)) {m : Notice} (hm : m ∈ s.agenda)
    (hfirst : s.fanFirst m = true) : n ≠ .engineGo := by
  have turn : s.engineTurn ≠ .engineGo := fun e => by
    have := engineTurn_fanFirst e m hm
    rw [hfirst] at this
    exact absurd this (by decide)
  unfold pickNotice at h
  split at h
  · cases h
  · split at h
    · cases h; exact turn
    · next k rest ha hk =>
      split at h
      · split at h
        · cases h; exact hk
        · cases h; exact turn
      · cases h; exact hk

/-- Settles O28. -/
theorem tachCounts : Obligations.TachCounts := by
  unfold Obligations.TachCounts
  refine ⟨fun s i hm hw => if_pos ⟨hm, hw⟩, fun s i hdue => ?_, tachRequired_iff, requireStep_spec,
    fun s z => fanRecompute_spec s z (s.zoneTachs z), fun s u n hpick hwaits => ?_, fun s e f hf => ?_⟩
  · intro cfg old speed reaches own
    obtain ⟨hlog, hproven, hcount, hspeed, hnotDue, hrequired, htable⟩ := windowStep_spec cfg old
    have htachs : (s.tachWindow i).tachs = s.tachs.set i (windowStep cfg old).1 := tachEvent_tachs s i _ _
    have hnew : (s.tachWindow i).tachs.get i = (windowStep cfg old).1 := by rw [htachs, Tab.get_set_self]
    obtain ⟨hchans, hspills, -⟩ := tachEvent_field s i (windowStep cfg old).1 (windowStep cfg old).2
    have hspoken : (windowStep cfg old).2 ≠ none → (s.tachs.get i).state ≠ (windowStep cfg old).1.state := by
      intro hne he
      rw [hlog] at hne
      by_cases hf : old.state = .failed ∧ cfg.proofSpeed ≤ min 65535 (old.count * 60 / cfg.pulses)
      · have := hproven hf
        rw [← he] at this
        exact absurd (hf.1.symm.trans this) (by decide)
      · rw [if_neg hf] at hne; exact hne rfl
    have hevent := s.tachEvent_tells i (windowStep cfg old).1 (windowStep cfg old).2 hspoken
    have hown : s.fanSaid i (windowStep cfg old).1.speed (windowStep cfg old).2 = own := by
      rw [hlog, hspeed]
      by_cases hf : old.state = .failed ∧ cfg.proofSpeed ≤ min 65535 (old.count * 60 / cfg.pulses)
      · rw [if_pos hf]; exact (if_pos hf).symm
      · rw [if_neg hf]; exact (if_neg hf).symm
    have ended := ended_finish (s.tachWindow i)
    refine ⟨s.tachWindow i, if_pos hdue, samePath_tachEvent s i _ _, hchans, hspills, ?_, ?_, ?_, fun j hj => ?_, ?_⟩
    · rw [ended.counts, hnew, hcount]
    · rw [ended.speeds, hnew, hspeed]
    · rw [ended.windows, hnew, hnotDue]
    · rw [htachs, Tab.get_set_of_ne _ (Ne.symm hj)]
    · intro new
      rw [show new = _ from hnew]
      obtain ⟨t1, t2, t3, t4, t5, t6, t7, t8⟩ := htable
      refine ⟨hrequired, t1, t2, t3, t4, t5, t6, t7, t8, ?_⟩
      rw [← hown]
      exact hevent
  · obtain ⟨z, hz⟩ | ⟨e, he, hstate⟩ := hwaits
    · exact pickNotice_fanFirst hpick hz rfl
    · exact pickNotice_fanFirst hpick he (by simpa [fanFirst] using hstate)
  · have e' : s.takeNotice (.entryIdle e) = s.fanRecompute f.zone (s.entryTachs e) := by simp [takeNotice, entryMoved, hf]
    rw [e']
    exact fanRecompute_spec s f.zone (s.entryTachs e)

/-- Settles O29. -/
theorem delayTimerExpires : Obligations.DelayTimerExpires := by
  unfold Obligations.DelayTimerExpires
  intro s i hdue hstate said
  have e : s.delayExpire i = s.tachEvent i { s.tachs.get i with state := .failed, timer := .stopped } (some .failed) := by
    obtain h | h := hstate
    · simp [delayExpire, hdue, h]
    · simp [delayExpire, hdue, h]
  have hmoves : (s.tachs.get i).state ≠ .failed := by
    obtain h | h := hstate
    · rw [h]; decide
    · rw [h]; decide
  obtain ⟨hstill, htells⟩ := s.tachEvent_tells i { s.tachs.get i with state := .failed, timer := .stopped } (some .failed) fun _ => hmoves
  obtain ⟨hchans, hspills, -⟩ := tachEvent_field s i { s.tachs.get i with state := .failed, timer := .stopped } (some .failed)
  refine ⟨s.delayExpire i, if_pos hdue, ?_⟩
  rw [e]
  refine ⟨samePath_tachEvent s i _ _, hchans, hspills, fun j hj => ?_, ?_, fun h => hstill (.inr h), fun z hz => htells z hz (Ne.symm hmoves)⟩
  · rw [tachEvent_tachs, Tab.get_set_of_ne _ (Ne.symm hj)]
  · rw [tachEvent_tachs, Tab.get_set_self]

end Sys2Proof.Machine
end

section
/-!
PROOFS. The maintenance port: the commissioning line, the staging buffer, COMMIT and the test readings (chapter 12).
-/
namespace Sys2Proof.Machine

open State

/-! ## The commissioning line -/

namespace State

/-- The reports at a release of the line ask the settings alone which zones they are of. -/
theorem gasReports_of_settings (testing : List (Fin 8)) (m : Fin 4 → Bool) (l : List (Fin 4)) (s : State)
    (hm : ∀ z, m z = testing.any (fun c => (s.cfg.channels.get c).zone == some z)) :
    l.foldl (fun s z => s.gasReport z (testing.any (fun c => (s.cfg.channels.get c).zone == some z)) false) s =
      l.foldl (fun s z => s.gasReport z (m z) false) s := by
  induction l generalizing s with
  | nil => rfl
  | cons z l ih =>
    rw [List.foldl_cons, List.foldl_cons, ← hm z]
    refine ih _ fun y => ?_
    rw [(held_gasReport s z (m z) false).cfg]
    exact hm y

/-- What the end of every test reading leaves (R36, R37). -/
theorem endAllTests_spec (s : State) :
    let testing := (indices 8).filter (fun c => (s.chans.get c).test.isSome)
    let u := s.endAllTests
    (∀ c, u.chans.get c = { s.chans.get c with test := none }) ∧ s.samePath u ∧ u.scan = s.scan ∧ u.spills = s.spills ∧
      u.tachs = s.tachs ∧ u.cfg = s.cfg ∧ u.maint = s.maint ∧
      (∀ z, s.gasZone u z (testing.any (fun c => (s.cfg.channels.get c).zone == some z)) false) ∧
      (∃ given, u.agenda = s.agenda ++ given ∧
        ∀ n, n ∈ given ↔ ∃ z, noticeDue z (s.zones.get z).state (u.zones.get z).state n) ∧
      u.log = s.logged
        (testing.map (fun c => { kind := .testEnd, zone := (s.cfg.channels.get c).zone, subject := some c.val, value := none }) ++
          (indices 4).flatMap (fun z => s.zoneSaid u z)) := by
  intro testing u
  obtain ⟨echans, epath, escan, espills, etachs, ecfg, ezones, etime, emaint, eagenda, elog⟩ :=
    testEnds_spec testing ((List.nodup_finRange 8).filter _) s
  obtain ⟨v, hv⟩ : ∃ v : State, v = testing.foldl testEnded s := ⟨_, rfl⟩
  obtain ⟨m, hm⟩ : ∃ m : Fin 4 → Bool, ∀ z, m z = testing.any (fun c => (s.cfg.channels.get c).zone == some z) := ⟨_, fun _ => rfl⟩
  rw [← hv] at echans epath escan espills etachs ecfg ezones etime emaint eagenda elog
  have hu : u = (indices 4).foldl (fun s z => s.gasReport z (m z) false) v := by
    rw [← gasReports_of_settings testing m (indices 4) v (by rw [ecfg]; exact hm), hv]
    rfl
  obtain ⟨rchans, rpath, ⟨-, rscan, rspills, rtachs, -⟩, rcfg, -, rmaint, rgas, -, ⟨given, ragenda, rgiven⟩, rlog⟩ :=
    gasReports_spec (indices 4) (List.nodup_finRange 4) v m
  rw [← hu] at rchans rpath rscan rspills rtachs rcfg rmaint rgas ragenda rgiven rlog
  clear_value u
  refine ⟨fun c => ?_, samePath_trans epath rpath, rscan.trans escan, rspills.trans espills, rtachs.trans etachs, rcfg.trans ecfg,
    rmaint.trans emaint, fun z => ?_, ⟨given, by rw [ragenda, eagenda], fun n => (rgiven n).trans ?_⟩, ?_⟩
  · rw [rchans, echans]
    split
    · rfl
    · next hc =>
      have hnone : (s.chans.get c).test = none := by simpa [testing, indices] using hc
      rw [← hnone]
  · rw [← hm z]
    exact gasZone_congr (by rw [ezones]) ecfg (rgas z (List.mem_finRange z))
  · rw [ezones]
    exact ⟨fun ⟨z, _, h⟩ => ⟨z, h⟩, fun ⟨z, h⟩ => ⟨z, List.mem_finRange z, h⟩⟩
  · rw [rlog, logged_append elog (by rw [etime])]
    simp only [zoneSaid_congr u _ ezones]

end State

/-- Settles O54. -/
theorem commissioningLineChange : Obligations.CommissioningLineChange := by
  unfold Obligations.CommissioningLineChange
  intro s level hdue
  obtain ⟨v, hv⟩ : ∃ v : State, v = { s with maint := { s.maint with line := level, lineDue := none } } := ⟨_, rfl⟩
  have hexec : exec .commissioningLineChange s = .next (if level then v else v.endAllTests.finish) := by
    show execCommissioningLineChange s = _
    unfold execCommissioningLineChange
    rw [hdue, hv]
    rfl
  refine ⟨_, hexec, ?_⟩
  cases level with
  | true =>
    rw [if_pos rfl, hv]
    exact ⟨rfl, fun _ => rfl, fun h => Bool.noConfusion h, fun h => Bool.noConfusion h⟩
  | false =>
    obtain ⟨hchans, hpath, hscan, hspills, htachs, hcfg, hmaint, hgas, hnotices, hlog⟩ := v.endAllTests_spec
    rw [if_neg (by decide)]
    subst hv
    refine ⟨(finish_maint _).trans hmaint, fun h => Bool.noConfusion h, fun _ c => ?_, fun _ => ?_⟩
    · rw [finish_chans]
      exact hchans c
    · exact ⟨_, rfl, (finish_chans _).symm, hpath, hscan, hspills, htachs, hcfg, hgas, hnotices, hlog⟩

/-! ## The staging buffer and COMMIT -/

/-- Settles O57. -/
theorem writeStage : Obligations.WriteStage := by
  unfold Obligations.WriteStage
  intro s o n bs hserved hline hlen hrange hwf
  have hread := Memory.read_writeAll hwf o.toNat (bs.take n.toNat)
  have htake : (bs.take n.toNat).length = n.toNat := by simp [hlen]
  refine ⟨s.staging.writeAll o.toNat (bs.take n.toNat), ?_, Memory.writeAll_wf hwf _ _, fun i hi => ?_, fun a ha => ?_⟩
  · show execWriteStage o n bs s = _
    unfold execWriteStage
    rw [if_neg (by omega), hrange, gated_carried hserved fun _ => hline]
    rfl
  · rw [hread, dif_pos ⟨by omega, by omega⟩]
    simp only [Nat.add_sub_cancel_left, List.getElem_take]
    exact (List.getElem?_eq_getElem (by omega)).symm
  · rw [hread, dif_neg (by omega)]

/-- Settles O58. -/
theorem commit : Obligations.Commit := by
  unfold Obligations.Commit
  refine ⟨fun s hserved hline => ?_, imageCheck_iff, imageCheck_none_iff, BitVec.eq_of_toNat_eq ((crc32_eq _).symm.trans (by decide))⟩
  have hexec : exec .commit s = .next s.commitStaged := congrArg _ (gated_carried hserved fun _ => hline)
  refine ⟨fun code hcode => ?_, fun hgood => ?_⟩
  · rw [hexec, commitStaged, hcode]
    rfl
  · intro u
    refine ⟨by rw [hexec, commitStaged, hgood]; rfl, ?_, ?_, ?_, ?_, ?_, ?_, ?_, fun hm => ?_⟩
    · rw [finish_maint]; simp [u]
    · rw [finish_staging]; simp [u]
    · rw [finish_nv]; simp [u]
    · simp [u, samePath]
    · simp [u, sameField]
    · simp [u]
    · simp [u]
    · have hrun : ({ s with maint := { s.maint with storing := true, reply := .ok [] } } : State).mode = .run := hm
      exact toWrite_mark_self hrun itemHeader

/-! ## Test readings -/

theorem beginTest_eq (s : State) (c : Fin 8) (v : Nat) :
    s.beginTest c v =
      (s.append .testBegin (s.cfg.channels.get c).zone (some c.val) (some v)).chanEvent c { s.chans.get c with test := some v } false := by
  simp [beginTest]

theorem endTestOf_eq {s : State} {c : Fin 8} (h : (s.chans.get c).test.isSome = true) :
    s.endTestOf c =
      (s.append .testEnd (s.cfg.channels.get c).zone (some c.val) none).chanEvent c { s.chans.get c with test := none } false := by
  simp [endTestOf, h]

/-- A used channel is in TEST while it has a test concentration (R26). -/
theorem chanState_test {cfg : ChanCfg} {r : ChanRec} {z : Fin 4} (hz : cfg.zone = some z) : chanState cfg r = .test ↔ r.test.isSome = true := by
  unfold chanState
  rw [hz]
  cases r.test with
  | none => cases r.sample <;> simp
  | some v => simp

/-- Settles O59. -/
theorem testReadings : Obligations.TestReadings := by
  unfold Obligations.TestReadings
  intro s c hserved hline hc ch old
  refine ⟨fun v z hz hv => ?_, ?_⟩
  · have taken := s.chanTaken_append ch { old with test := some v.toNat } false .testBegin (s.cfg.channels.get ch).zone (some ch.val) (some v.toNat)
    rw [← beginTest_eq] at taken
    obtain ⟨hchans, -, hspills, htachs, hpath, hcfg, hmaint, -, hsome⟩ := taken
    obtain ⟨hgas, hlog⟩ := hsome z hz
    have hstate : (s.beginTest ch v.toNat).channelState ch = .test := by
      unfold channelState
      rw [hcfg, hchans, Tab.get_set_self, chanState_test hz]
      rfl
    rw [hstate] at hgas
    rw [hz] at hlog
    refine ⟨(s.beginTest ch v.toNat).reply (.ok []), ?_, by simp [hmaint], finish_chans _, hchans, hstate, hpath, hspills, htachs, hgas, hlog⟩
    show execTestReading c v s = _
    unfold execTestReading
    have hrange : (decide (7 < c.toNat) || (s.cfg.channels.get (channelOf c)).zone.isNone || decide (1000 < v.toNat)) = false := by
      rw [show (s.cfg.channels.get (channelOf c)).zone = some z from hz]
      simp [hc, hv]
    rw [hrange, gated_carried hserved fun _ => hline]
    rfl
  · have hexec : exec (.endTest c) s = .next ((s.endTestOf ch).reply (.ok [])).finish := by
      show execEndTest c s = _
      unfold execEndTest
      rw [decide_eq_false (by omega), gated_carried hserved fun _ => hline]
      rfl
    by_cases htest : old.test.isSome = true
    · have taken := s.chanTaken_append ch { old with test := none } false .testEnd (s.cfg.channels.get ch).zone (some ch.val) none
      rw [← endTestOf_eq htest] at taken
      obtain ⟨hchans, -, hspills, htachs, hpath, hcfg, hmaint, hnone, hsome⟩ := taken
      refine ⟨(s.endTestOf ch).reply (.ok []), hexec, by simp [hmaint], finish_chans _, hchans, hpath, hspills, htachs,
        fun h => ?_, fun _ hz => ?_, fun z _ hz => ?_⟩
      · rw [h] at htest; exact Bool.noConfusion htest
      · have h := hnone hz
        rw [hz] at h
        exact h
      · obtain ⟨hgas, hlog⟩ := hsome z hz
        have hbefore : s.channelState ch = .test := (chanState_test hz).2 htest
        have hafter : (s.endTestOf ch).channelState ch ≠ .test := by
          unfold channelState
          rw [hcfg, hchans, Tab.get_set_self, ne_eq, chanState_test hz]
          exact Bool.false_ne_true
        rw [hbefore, decide_eq_true (Ne.symm hafter)] at hgas
        rw [hz] at hlog
        exact ⟨hgas, hlog⟩
    · have hnone : old.test = none := by simpa using htest
      have e : s.endTestOf ch = s := by
        have h : ¬(s.chans.get ch).test.isSome = true := htest
        simp [endTestOf, h]
      rw [e] at hexec
      refine ⟨s.reply (.ok []), hexec, by simp, finish_chans _, ?_, s.samePath_refl, rfl, rfl, fun _ => ⟨rfl, rfl⟩,
        fun h => absurd h htest, fun _ h => absurd h htest⟩
      rw [← hnone]
      exact (Tab.set_get_self _ _).symm

end Sys2Proof.Machine
end

section
/-!
PROOFS. The order of the maintenance commands, the frames that spell them, and the read commands (chapter 12, R187, R188, R190).
-/
namespace Sys2Proof.Machine

open State

/-! ## Frames -/

theorem commandOf_of_badFrame {frame : List Byte} (h : badFrame frame = true) : commandOf frame = none ∧ frame ≠ [] := by
  cases frame with
  | nil => exact absurd h Bool.false_ne_true
  | cons code params =>
    refine ⟨?_, List.cons_ne_nil _ _⟩
    simp [commandOf, h]

/-- Which frames are bad, code by code (R188). -/
theorem badFrame_cons (code : Byte) (params : List Byte) :
    badFrame (code :: params) = true ↔
      (code.toNat ∈ [0x01, 0x02, 0x03, 0x11] ∧ params.length < 0) ∨ (code = 0x04#8 ∧ params.length < 4) ∨
        (code = 0x10#8 ∧ params.length < 4 + leValue [params.getD 2 0#8, params.getD 3 0#8]) ∨ (code = 0x12#8 ∧ params.length < 3) ∨
        (code.toNat ∈ [0x13, 0x14] ∧ params.length < 1) ∨
        code.toNat ∉ [0x01, 0x02, 0x03, 0x04, 0x10, 0x11, 0x12, 0x13, 0x14] := by
  have hcode : ∀ k : Byte, code = k ↔ code.toNat = k.toNat := fun k => BitVec.toNat_inj.symm
  rw [hcode 0x04#8, hcode 0x10#8, hcode 0x12#8]
  unfold badFrame frameNeeds
  dsimp only
  split
  · next h =>
    split at h <;> simp_all
  · next n h =>
    split at h <;> cases h <;> simp_all [leValue]

/-- A 2-byte parameter, least significant byte first. -/
theorem ofNat_leValue_two (lo hi : Byte) : BitVec.ofNat 16 (leValue [lo, hi]) = (hi ++ lo : Half) := by
  apply BitVec.eq_of_toNat_eq
  have hl := lo.isLt
  have hh := hi.isLt
  rw [BitVec.toNat_append, BitVec.toNat_ofNat, Nat.shiftLeft_eq, ← Nat.mul_comm (2 ^ 8), ← Nat.two_pow_add_eq_or_of_lt hl]
  simp only [leValue]
  omega

theorem leValue_two_lt (lo hi : Byte) : leValue [lo, hi] < 65536 := by
  have hl := lo.isLt
  have hh := hi.isLt
  simp only [leValue]
  omega

/-- The frames that spell the commands (R187, R188). -/
theorem commandOf_spells (rest bs : List Byte) (b0 b1 b2 b3 : Byte) :
    let two := fun (lo hi : Byte) => (hi ++ lo : Half)
    commandOf (0x01 :: rest) = some .status ∧ commandOf (0x02 :: rest) = some .readLog ∧ commandOf (0x03 :: rest) = some .readStore ∧
      commandOf (0x04 :: b0 :: b1 :: b2 :: b3 :: rest) = some (.readImage (two b0 b1) (two b2 b3) true) ∧
      ((two b2 b3).toNat = bs.length →
        commandOf (0x10 :: b0 :: b1 :: b2 :: b3 :: (bs ++ rest)) = some (.writeStage (two b0 b1) (two b2 b3) bs)) ∧
      commandOf (0x11 :: rest) = some .commit ∧ commandOf (0x12 :: b0 :: b1 :: b2 :: rest) = some (.testReading b0 (two b1 b2)) ∧
      commandOf (0x13 :: b0 :: rest) = some (.endTest b0) ∧ commandOf (0x14 :: b0 :: rest) = some (.acknowledge b0) := by
  intro two
  have good : ∀ (code : Byte) (params : List Byte) (n : Nat), frameNeeds code params = some n → n ≤ params.length →
      badFrame (code :: params) = false := fun code params n hneeds hn => by simp [badFrame, hneeds, hn]
  have half : ∀ lo hi : Byte, two lo hi = BitVec.ofNat 16 (leValue [lo, hi]) := fun lo hi => (ofNat_leValue_two lo hi).symm
  refine ⟨?_, ?_, ?_, ?_, fun hlen => ?_, ?_, ?_, ?_, ?_⟩
  · simp [commandOf, good 0x01#8 rest 0 rfl (by simp)]
  · simp [commandOf, good 0x02#8 rest 0 rfl (by simp)]
  · simp [commandOf, good 0x03#8 rest 0 rfl (by simp)]
  · simp [commandOf, good 0x04#8 (b0 :: b1 :: b2 :: b3 :: rest) 4 rfl (by simp), frameHalf, half]
  · have hn : leValue [b2, b3] = bs.length := by
      rw [half, BitVec.toNat_ofNat, Nat.mod_eq_of_lt (leValue_two_lt b2 b3)] at hlen
      exact hlen
    have hgood := good 0x10#8 (b0 :: b1 :: b2 :: b3 :: (bs ++ rest)) (4 + leValue [b2, b3]) (by simp [frameNeeds, leValue]) (by simp; omega)
    have hmod : bs.length % 65536 = bs.length := Nat.mod_eq_of_lt (hn ▸ leValue_two_lt b2 b3)
    simp [commandOf, hgood, frameHalf, half, hn, hmod]
  · simp [commandOf, good 0x11#8 rest 0 rfl (by simp)]
  · simp [commandOf, good 0x12#8 (b0 :: b1 :: b2 :: rest) 3 rfl (by simp), frameHalf, half]
  · simp [commandOf, good 0x13#8 (b0 :: rest) 1 rfl (by simp)]
  · simp [commandOf, good 0x14#8 (b0 :: rest) 1 rfl (by simp)]

/-! ## The order -/

/-- Every command of the port, whole, is decided by R188's order. -/
theorem exec_gated {c : Instr} (hc : c.isMaintenance = true) (hwf : c.wf = true) (hu : ∀ f, c ≠ .unknownCommand f) (s : State) :
    ∃ needsLine outOfRange t, exec c s = .next (s.gated needsLine outOfRange t) := by
  cases c
  case status | readLog | readStore | readImage | commit | testReading | endTest | acknowledge => exact ⟨_, _, _, rfl⟩
  case writeStage o n bs => exact ⟨_, _, _, if_neg (Nat.not_lt.2 (of_decide_eq_true hwf))⟩
  case unknownCommand f => exact absurd rfl (hu f)
  all_goals exact absurd hc Bool.false_ne_true

/-- Settles O55. -/
theorem maintenanceOrder : Obligations.MaintenanceOrder := by
  unfold Obligations.MaintenanceOrder
  refine ⟨fun s halive => ⟨fun frame h => ?_, fun frame c h => ?_, fun o n bs h => ?_, fun c hc hwf hu hb => ?_, fun hmode hstoring => ?_⟩,
    fun frame => ?_, commandOf_spells, rfl, fun _ => rfl, rfl, rfl, fun _ => rfl, rfl, fun r n h => ?_⟩
  · obtain ⟨hnone, hne⟩ := commandOf_of_badFrame h
    obtain ⟨c, hsome, -⟩ | ⟨-, e⟩ := exec_unknown frame s
    · rw [hnone] at hsome; cases hsome
    · rw [e, if_pos ⟨halive, hne⟩]
  · obtain ⟨d, hsome, e⟩ | ⟨hnone, -⟩ := exec_unknown frame s
    · rw [hsome] at h; cases h; exact e
    · rw [hnone] at h; cases h
  · show execWriteStage o n bs s = _
    unfold execWriteStage
    rw [if_pos h, if_pos halive]
  · obtain ⟨needs, range, t, e⟩ := exec_gated hc hwf hu s
    rw [e, gated_busy halive hb]
  · have hserved : s.served := ⟨halive, hmode, hstoring⟩
    refine ⟨fun hline => ⟨fun o n bs h => ?_, congrArg _ (gated_denied hserved hline), fun c v => congrArg _ (gated_denied hserved hline),
      fun c => congrArg _ (gated_denied hserved hline), fun z => congrArg _ (gated_denied hserved hline)⟩, fun o n r h => ?_,
      fun hline => ⟨fun o n bs h hr => ?_, fun c v h => ?_, fun c h => ?_, fun z h => ?_⟩⟩
    · show execWriteStage o n bs s = _
      unfold execWriteStage
      rw [if_neg (Nat.not_lt.2 h), gated_denied hserved hline]
    · show execReadImage o n r s = _
      unfold execReadImage
      rw [h, gated_badRange hserved fun h => absurd h (by decide)]
    · show execWriteStage o n bs s = _
      unfold execWriteStage
      rw [if_neg (Nat.not_lt.2 h), hr, gated_badRange hserved fun _ => hline]
    · have hrange : (decide (7 < c.toNat) || (s.cfg.channels.get (channelOf c)).zone.isNone || decide (1000 < v.toNat)) = true := by
        obtain h | h | h := h <;> simp [h]
      show execTestReading c v s = _
      unfold execTestReading
      rw [hrange, gated_badRange hserved fun _ => hline]
    · show execEndTest c s = _
      unfold execEndTest
      rw [decide_eq_true h, gated_badRange hserved fun _ => hline]
    · show execAcknowledge z s = _
      unfold execAcknowledge
      rw [decide_eq_true h, gated_badRange hserved fun _ => hline]
  · cases frame with
    | nil => simp [badFrame]
    | cons code params =>
      rw [badFrame_cons]
      exact ⟨fun h => ⟨code, params, rfl, h⟩, fun ⟨c, p, e, h⟩ => by cases e; exact h⟩
  · simp [Reply.clocked, h]

/-! ## The read commands -/

theorem tab_items_four {α : Type} (t : Tab α 4) : t.items = [t.get 0, t.get 1, t.get 2, t.get 3] := by
  obtain ⟨items, size⟩ := t
  match items, size with
  | [a, b, c, d], _ => rfl

/-- The causes' word is at most that of all ten causes. -/
theorem Causes.word_lt (cs : Causes) : cs.word < 1024 := by
  have h : cs.word ≤ (Cause.all.map (fun c => 2 ^ c.number)).sum := by
    unfold Causes.word
    refine List.sum_le_sum fun c _ => ?_
    split
    · exact Nat.le_refl _
    · exact Nat.zero_le _
  have hall : (Cause.all.map (fun c => 2 ^ c.number)).sum = 1023 := rfl
  omega

/-- The bytes of STATUS, one by one (R190). -/
theorem State.statusBytes_eq (s : State) :
    let zone := fun (z : Fin 4) =>
      let r := s.zones.get z
      BitVec.ofNat 8 r.state.code :: (leBytes 2 r.causes.word ++ [flagByte r.unack])
    s.statusBytes =
      [BitVec.ofNat 8 s.mode.code, flagByte s.maint.line] ++ zone 0 ++ zone 1 ++ zone 2 ++ zone 3 ++
        (indices 8).map (fun c => BitVec.ofNat 8 (s.channelState c).code) ++
        [BitVec.ofNat 8 (s.posted.filter (fun p => p.origin == .host)).length,
          BitVec.ofNat 8 (s.posted.filter (fun p => p.origin == .release)).length,
          BitVec.ofNat 8 (s.hold.filter (fun e => e.origin == .host)).length,
          BitVec.ofNat 8 (s.hold.filter (fun e => e.origin == .part)).length, flagByte s.store.busy] ++
        leBytes 4 s.time.seconds ++ leBytes 2 s.log.nextSeq.toNat := by
  intro zone
  unfold statusBytes
  rw [tab_items_four]
  simp [leBytes, zone, indices, List.finRange, lineAsserted]

theorem State.storeBytes_length {s : State} (h : s.store.lru.length = 16) : s.storeBytes.length = 272 := by
  have hl : (s.store.lines.items.flatMap Line.bytes).length = 256 := by
    rw [List.length_flatMap, List.map_congr_left (fun x _ => Line.bytes_length x)]
    simp [s.store.lines.size]
  have ho : (s.store.lru.flatMap (fun i => leBytes 1 i.val)).length = s.store.lru.length := by
    simp [List.length_flatMap]
  rw [storeBytes, List.length_append, hl, ho, h]

/-- Settles O56: STATUS by its bytes one by one, the others by the laws of their snapshots. -/
theorem readCommands : Obligations.ReadCommands := by
  unfold Obligations.ReadCommands
  intro s hserved
  have hmode : BitVec.ofNat 8 s.mode.code = if s.mode = .run then 1#8 else 3#8 := by
    have hne := hserved.2.1
    cases hm : s.mode with
    | loading => exact absurd hm hne
    | run => rfl
    | fallback => rfl
  have hbusy : flagByte s.store.busy = if s.store.fill.isSome = true ∨ s.store.list ≠ [] then 1#8 else 0#8 := by
    cases hf : s.store.fill.isSome <;> cases hl : s.store.list <;> simp [CellStore.busy, flagByte, hf, hl]
  have hbytes := s.statusBytes_eq
  have hword : ∀ z, leValue (leBytes 2 (s.zones.get z).causes.word) = (s.zones.get z).causes.word := fun z => by
    rw [leValue_leBytes, Nat.mod_eq_of_lt]
    have := (s.zones.get z).causes.word_lt
    omega
  refine ⟨congrArg _ (gated_carried hserved fun h => absurd h (by decide)), ?_, ?_, ?_, fun z => ?_, fun c => ?_, ?_, ?_, ?_, ?_, ?_, ?_, ?_,
    congrArg _ (gated_carried hserved fun h => absurd h (by decide)), congrArg _ (gated_carried hserved fun h => absurd h (by decide)),
    storeBytes_length, fun i => ?_, storeBytes_lru s, fun o n r hrange => ⟨?_, ?_, fun i hi => ?_⟩⟩
  · rw [hbytes]; rfl
  · rw [hbytes, ← hmode]; rfl
  · rw [hbytes]; rfl
  · rw [hbytes]
    match z with
    | 0 => exact ⟨rfl, hword 0, rfl⟩
    | 1 => exact ⟨rfl, hword 1, rfl⟩
    | 2 => exact ⟨rfl, hword 2, rfl⟩
    | 3 => exact ⟨rfl, hword 3, rfl⟩
  · rw [hbytes]
    match c with
    | 0 | 1 | 2 | 3 | 4 | 5 | 6 | 7 => rfl
  · rw [hbytes]; rfl
  · rw [hbytes]; rfl
  · rw [hbytes]; rfl
  · rw [hbytes]; rfl
  · rw [hbytes, ← hbusy]; rfl
  · rw [hbytes]
    exact leValue_leBytes 4 s.time.seconds
  · rw [hbytes]
    refine (leValue_leBytes 2 s.log.nextSeq.toNat).trans (Nat.mod_eq_of_lt s.log.nextSeq.isLt)
  · intro line b
    rw [show b = _ from storeBytes_line s i]
    exact Line.bytes_spec line
  · show execReadImage o n r s = _
    unfold execReadImage
    rw [hrange, gated_carried hserved fun h => absurd h (by decide)]
  · simp [imageBytes]
  · simp [imageBytes, hi]

end Sys2Proof.Machine
end

section
/-!
PROOFS. The transit path at a request of the host and at a placement that enters (chapter 4).
-/
namespace Sys2Proof.Machine

open State

namespace State

/-! ## A request taken, and the end of its step -/

theorem samePosted_trans {l m n : List Posted} (h : samePosted l m) (k : samePosted m n) : samePosted l n := h.trans k

theorem takeRequest_read (s : State) {a : Addr} {w : Width} (d : Data) (h : a.toNat % w.bytes = 0) :
    s.takeRequest { write := false, addr := a, width := w, data := d } = s.takeRead { write := false, addr := a, width := w, data := d } := by
  simp [takeRequest, Width.aligned, h]

theorem takeRequest_write (s : State) {a : Addr} {w : Width} (d : Data) (h : a.toNat % w.bytes = 0) :
    s.takeRequest { write := true, addr := a, width := w, data := d } = s.takeWrite { write := true, addr := a, width := w, data := d } := by
  simp [takeRequest, Width.aligned, h]

/-- An aligned write at a port that is ready is taken at once. -/
theorem exec_hostWrite {s : State} (hs : s.hostReady) {a : Addr} {w : Width} (d : Data) (h : a.toNat % w.bytes = 0) :
    exec (.hostWrite a w d) s = .next (s.takeWrite { write := true, addr := a, width := w, data := d }).settle.conclude := by
  rw [← takeRequest_write s d h, ← present_of_ready hs]
  rfl

/-- Where the taking of a write gives no notice, only the conclusion follows. -/
theorem exec_hostWrite_calm {s : State} (hs : s.hostReady) {a : Addr} {w : Width} (d : Data) (h : a.toNat % w.bytes = 0)
    (hcalm : (s.takeWrite { write := true, addr := a, width := w, data := d }).agenda = []) :
    exec (.hostWrite a w d) s = .next (s.takeWrite { write := true, addr := a, width := w, data := d }).conclude := by
  rw [exec_hostWrite hs d h, settle_of_calm hcalm]

/-- The port is IDLE or holds a write after the conclusion as before it. -/
theorem Concluded.upstream_eq {s t : State} (k : Concluded s t) (h : ∀ a w z b, s.upstream ≠ .reading a w z b) : t.upstream = s.upstream := by
  have hu := k.upstream
  revert hu
  cases he : s.upstream with
  | reading a w z b => exact absurd he (h a w z b)
  | idle | judging | placing => exact fun hu => hu

/-! ## A placement enters, or waits -/

/-- The posted entry a placement becomes (R70). -/
def entryOf (p : Placement) : Posted :=
  { addr := p.addr, width := p.width, data := p.data,
    origin := match p.source with | .host _ _ => .host | .hold | .engine _ => .release,
    checked := p.checked, zone := p.zone, inFlight := false, ahead := false }

/-- The cell store after a placement has entered: a flagged one is written through (R110). -/
def storeAfter (s : State) (p : Placement) : CellStore :=
  if p.checked then s.store.writeThrough p.addr (cellValue p.data) else s.store

theorem place_of_room {s : State} (h : s.posted.length < 8 ∧ s.waiting = []) (p : Placement) : s.place p = s.enter p := if_pos h

theorem place_of_full {s : State} (h : ¬(s.posted.length < 8 ∧ s.waiting = [])) (p : Placement) :
    s.place p = { s with waiting := s.waiting ++ [p] } := if_neg h

/-- What an entering placement writes before its source is told. -/
structure Entered (s x : State) (p : Placement) : Prop where
  posted : x.posted = s.posted ++ [entryOf p]
  store : x.store = s.storeAfter p
  waiting : x.waiting = s.waiting
  hold : x.hold = s.hold
  force : x.force = s.force
  zones : x.zones = s.zones
  cfg : x.cfg = s.cfg
  log : x.log = s.log
  time : x.time = s.time
  agenda : x.agenda = s.agenda
  field : s.sameField x
  sweep : x.sweep = s.sweep
  requests : x.requests = s.requests
  checker : x.checker = s.checker
  port : x.port = s.port

/-- The state in which an entering placement's source is told. -/
def entering (s : State) (p : Placement) : State :=
  let t := s.setPosted (s.posted ++ [entryOf p])
  if p.checked then t.setStore (t.store.writeThrough p.addr (cellValue p.data)) else t

theorem entering_spec (s : State) (p : Placement) :
    Entered s (s.entering p) p ∧ (s.entering p).responses = s.responses ∧ (s.entering p).upstream = s.upstream := by
  unfold entering
  dsimp only
  cases hc : p.checked with
  | false =>
    refine ⟨⟨?_, ?_, ?_, ?_, ?_, ?_, ?_, ?_, ?_, ?_, ?_, ?_, ?_, ?_, ?_⟩, ?_, ?_⟩ <;> simp [storeAfter, hc, sameField]
  | true =>
    refine ⟨⟨?_, ?_, ?_, ?_, ?_, ?_, ?_, ?_, ?_, ?_, ?_, ?_, ?_, ?_, ?_⟩, ?_, ?_⟩ <;> simp [storeAfter, hc, sameField]

/-- A host's placement is answered as it enters, and makes its observation (R67, R68, R70). -/
theorem enter_host {s : State} {p : Placement} {kind : ResponseKind} {watch : Option Observation} (h : p.source = .host kind watch) :
    s.enter p = ((s.entering p).answerHost kind none).observe watch := by
  unfold State.enter
  dsimp only
  rw [h]
  simp [entering, entryOf, h]

theorem enter_hold {s : State} {p : Placement} (h : p.source = .hold) :
    s.enter p = (s.entering p).setHold ((s.entering p).hold.filter (fun h => h.cell != p.addr)) := by
  unfold State.enter
  dsimp only
  rw [h]
  simp [entering, entryOf, h]

theorem enter_engine {s : State} {p : Placement} {e : Fin 16} (h : p.source = .engine e) : s.enter p = (s.entering p).releaseDone e := by
  unfold State.enter
  dsimp only
  rw [h]
  simp [entering, entryOf, h]

/-- A host's placement that enters: the entry, the answer and the observation. -/
theorem enter_host_spec (s : State) {p : Placement} {kind : ResponseKind} {watch : Option Observation} (h : p.source = .host kind watch) :
    let u := s.enter p
    u.posted = s.posted ++ [entryOf p] ∧ u.store = s.storeAfter p ∧ u.responses = s.responses ++ [{ kind := kind, data := none }] ∧
      u.upstream = .idle ∧ u.waiting = s.waiting ∧ u.hold = s.hold ∧ u.force = s.force ∧ s.sameField u ∧ s.observed u watch := by
  intro u
  obtain ⟨k, hresponses, -⟩ := s.entering_spec p
  obtain ⟨f1, f2, f3, f4, f5⟩ := k.field
  have hu : u = ((s.entering p).answerHost kind none).observe watch := enter_host h
  obtain ⟨ohold, oforce, oposted, owaiting, oresponses, oupstream, ostore, ⟨o1, o2, o3, o4, o5⟩, -, -⟩ :=
    observe_frame ((s.entering p).answerHost kind none) watch
  have hobs := observe_spec s ((s.entering p).answerHost kind none) watch (by simp [k.zones]) (by simp [k.cfg]) (by simp [f3])
    (by simp [k.log]) (by simp [k.time]) (by simp [k.agenda])
  rw [← hu] at ohold oforce oposted owaiting oresponses oupstream ostore o1 o2 o3 o4 o5 hobs
  refine ⟨oposted.trans (by simp [k.posted]), ostore.trans (by simp [k.store]), oresponses.trans (by simp [hresponses]),
    oupstream.trans (by simp), owaiting.trans (by simp [k.waiting]), ohold.trans (by simp [k.hold]), oforce.trans (by simp [k.force]),
    ⟨o1.trans (by simp [f1]), o2.trans (by simp [f2]), o3.trans (by simp [f3]), o4.trans (by simp [f4]), o5.trans (by simp [f5])⟩, hobs⟩

theorem logClear_log_congr {s x : State} (hl : x.log = s.log) (q : Half) : (x.logClear q).log = (s.logClear q).log := by
  unfold logClear
  dsimp only
  simp [hl]

/-- The observation seen from a state that agrees on what an observation reads. -/
theorem observed_of_same {s x u : State} {watch : Option Observation} (hz : x.zones = s.zones) (hc : x.cfg = s.cfg)
    (hs : x.spills = s.spills) (hl : x.log = s.log) (ht : x.time = s.time) (ha : x.agenda = s.agenda) (h : x.observed u watch) :
    s.observed u watch := by
  have hlg : ∀ es, x.logged es = s.logged es := fun es => logged_congr hl (by rw [ht]) es
  rcases watch with _ | z | z | q
  · exact ⟨h.1.trans hz, h.2.trans hl⟩
  · exact acknowledged_congr hz hc hs hl ht ha h
  · obtain ⟨h1, h2⟩ := h
    refine ⟨?_, ?_⟩
    · unfold refreshed otherZones notified at h1 ⊢
      rw [hz, hc, ha] at h1
      exact h1
    · rw [zoneSaid_congr _ _ hz, hlg] at h2
      exact h2
  · exact ⟨h.1.trans hz, h.2.trans (logClear_log_congr hl q)⟩

/-- Without an observation nothing but the queue, the cell store and the host's answer changes. -/
theorem enter_host_silent (s : State) {p : Placement} {kind : ResponseKind} (h : p.source = .host kind none) :
    (s.enter p).zones = s.zones ∧ (s.enter p).log = s.log ∧ (s.enter p).agenda = s.agenda := by
  obtain ⟨k, -, -⟩ := s.entering_spec p
  rw [enter_host h]
  exact ⟨by simp [observe, k.zones], by simp [observe, k.log], by simp [observe, k.agenda]⟩

end State

/-! ## Reads and writes that are not judged -/

/-- Settles O31. -/
theorem hostReadWaits : Obligations.HostReadWaits := by
  unfold Obligations.HostReadWaits
  intro s a w hs hal
  obtain ⟨u, hu⟩ : ∃ u : State, u = s.takeRead { write := false, addr := a, width := w, data := 0#32 } := ⟨_, rfl⟩
  have hcalm : u.agenda = [] := by rw [hu]; exact hs.1
  have hup : u.upstream = .reading a w (s.cfg.zoneAt a) false := by rw [hu]; rfl
  have hposted : u.posted = s.posted.map (fun p => { p with ahead := true }) := by rw [hu]; rfl
  have hkept : u.responses = s.responses ∧ u.log = s.log ∧ u.zones = s.zones ∧ u.hold = s.hold ∧ u.waiting = s.waiting := by
    rw [hu]; exact ⟨rfl, rfl, rfl, rfl, rfl⟩
  have hexec : exec (.hostRead a w) s = .next u.conclude := by
    rw [← settle_of_calm hcalm, hu, ← takeRequest_read s 0#32 hal, ← present_of_ready hs]
    rfl
  clear hu
  obtain ⟨hresponses, hlog, hzones, hhold, hwaiting⟩ := hkept
  have k := concluded_conclude u
  obtain ⟨flying, hflying⟩ : ∃ b, u.conclude.upstream = .reading a w (s.cfg.zoneAt a) b := by
    have h := k.upstream
    rw [hup] at h
    exact h
  refine ⟨u.conclude, flying, hexec, hflying, samePosted_trans k.posted ?_, k.ahead ?_, k.responses.trans hresponses, k.log.trans hlog,
    k.zones.trans hzones, k.hold.trans hhold, k.waiting.trans hwaiting⟩
  · rw [hposted]; simp [samePosted, still]
  · rw [hposted]; simp

/-- A write posted unjudged: what it takes the part to, before the end of its step. -/
theorem State.postHost_spec (s : State) (a : Addr) (w : Width) (d : Data) (zone : Option (Fin 4)) (watch : Option Observation) :
    let u := s.postHost { write := true, addr := a, width := w, data := d } zone watch
    (s.posted.length < 8 ∧ s.waiting = [] →
      u.posted = s.posted ++ [{ addr := a, width := w, data := w.cut d, origin := .host, checked := false, zone := zone,
                                inFlight := false, ahead := false }] ∧
        u.responses = s.responses ++ [{ kind := .done, data := none }] ∧ u.upstream = .idle ∧ u.waiting = [] ∧ u.hold = s.hold ∧
        u.force = s.force ∧ s.sameField u ∧ s.observed u watch ∧ (watch = none → u.agenda = s.agenda)) ∧
      (¬(s.posted.length < 8 ∧ s.waiting = []) →
        u = { s with
          upstream := .placing
          waiting := s.waiting ++ [{ source := .host .done watch, addr := a, width := w, data := w.cut d, checked := false, zone := zone }] }) := by
  refine ⟨fun hroom => ?_, fun hfull => place_of_full (s := { s with upstream := .placing }) hfull _⟩
  unfold State.postHost
  rw [place_of_room (s := { s with upstream := .placing }) hroom]
  have k := enter_host_spec { s with upstream := .placing }
    (p := { source := .host .done watch, addr := a, width := w, data := w.cut d, checked := false, zone := zone }) rfl
  obtain ⟨hposted, -, hresponses, hupstream, hwaiting, hhold, hforce, hfield, hobs⟩ := k
  refine ⟨hposted, hresponses, hupstream, hwaiting.trans hroom.2, hhold, hforce, hfield,
    observed_of_same (x := { s with upstream := .placing }) rfl rfl rfl rfl rfl rfl hobs, fun hnone => ?_⟩
  · subst hnone
    exact (enter_host_silent { s with upstream := .placing } rfl).2.2

/-- Settles O32. -/
theorem openWriteIsPosted : Obligations.OpenWriteIsPosted := by
  unfold Obligations.OpenWriteIsPosted
  intro s a w d hs hal hopen
  obtain ⟨u, hu⟩ : ∃ u : State, u = s.postHost { write := true, addr := a, width := w, data := d } none none := ⟨_, rfl⟩
  have htake : s.takeWrite { write := true, addr := a, width := w, data := d } = u := by
    rw [hu]
    unfold takeWrite
    obtain h | ⟨win, h, hcls⟩ := hopen
    · simp only [h]
    · simp only [h, hcls]
  obtain ⟨room, full⟩ := s.postHost_spec a w d none none
  rw [← hu] at room full
  by_cases hroom : s.posted.length < 8 ∧ s.waiting = []
  · obtain ⟨hposted, hresponses, hupstream, hwaiting, hhold, hforce, -, ⟨hzones, hlog⟩, hagenda⟩ := room hroom
    have k := concluded_conclude u
    refine ⟨u.conclude, ?_, k.log.trans hlog, k.zones.trans hzones, k.hold.trans hhold, k.force.trans hforce, fun _ => ⟨?_, ?_, ?_, ?_⟩,
      fun h => absurd hroom h⟩
    · rw [← htake]
      exact exec_hostWrite_calm hs d hal (by rw [htake, hagenda rfl]; exact hs.1)
    · rw [← hposted]; exact k.posted
    · exact k.responses.trans hresponses
    · exact (k.upstream_eq (by rw [hupstream]; exact fun _ _ _ _ => Upstream.noConfusion)).trans hupstream
    · exact k.waiting.trans hwaiting
  · have he := full hroom
    have k := concluded_conclude u
    refine ⟨u.conclude, ?_, ?_, ?_, ?_, ?_, fun h => absurd h hroom, fun _ => ⟨?_, ?_, ?_, ?_⟩⟩
    · rw [← htake]
      exact exec_hostWrite_calm hs d hal (by rw [htake, he]; exact hs.1)
    · rw [k.log, he]
    · rw [k.zones, he]
    · rw [k.hold, he]
    · rw [k.force, he]
    · refine samePosted_trans k.posted ?_
      rw [he]; rfl
    · rw [k.responses, he]
    · rw [k.upstream_eq (by rw [he]; exact fun _ _ _ _ => Upstream.noConfusion), he]
    · rw [k.waiting, he]

/-- Settles O33. -/
theorem watchedWriteIsObserved : Obligations.WatchedWriteIsObserved := by
  unfold Obligations.WatchedWriteIsObserved
  intro s a w d win hs hal hgov hcls
  have hzone : s.cfg.zoneAt a = if win.func = .logClear then none else some win.zone := by
    simp [Settings.zoneAt, hgov, hcls]
  obtain ⟨zone, hz⟩ : ∃ zone : Option (Fin 4), zone = if win.func = .logClear then none else some win.zone := ⟨_, rfl⟩
  obtain ⟨obs, ho⟩ : ∃ obs : Observation, obs = observation win { write := true, addr := a, width := w, data := d } := ⟨_, rfl⟩
  obtain ⟨u, hu⟩ : ∃ u : State, u = s.postHost { write := true, addr := a, width := w, data := d } zone (some obs) := ⟨_, rfl⟩
  have htake : s.takeWrite { write := true, addr := a, width := w, data := d } = u := by
    unfold takeWrite
    simp only [hgov, hcls, hzone]
    rw [hu, hz, ho]
  intro zone₀ observation₀
  obtain rfl : zone₀ = zone := hz.symm
  obtain rfl : observation₀ = obs := ho.symm
  obtain ⟨room, full⟩ := s.postHost_spec a w d zone₀ (some observation₀)
  rw [← hu] at room full
  refine ⟨fun hroom => ?_, fun hfull => ?_⟩
  · obtain ⟨hposted, hresponses, hupstream, hwaiting, hhold, hforce, hfield, hobs, -⟩ := room hroom
    exact ⟨u, by rw [exec_hostWrite hs d hal, htake], hposted, hresponses, hupstream, hwaiting, hhold, hforce, hfield, hobs⟩
  · have he := full hfull
    have k := concluded_conclude u
    obtain ⟨i1, i2, i3, i4, i5⟩ : s.sameField u := by rw [he]; exact ⟨rfl, rfl, rfl, rfl, rfl⟩
    refine ⟨u.conclude, ?_, ?_, ?_, ?_, ?_, ?_, ?_, ?_, ?_, ⟨k.inside.chans.trans i1, k.inside.scan.trans i2, k.inside.spills.trans i3,
      k.tachs.trans i4, k.inside.windowOpen.trans i5⟩⟩
    · rw [← htake]
      exact exec_hostWrite_calm hs d hal (by rw [htake, he]; exact hs.1)
    · refine samePosted_trans k.posted ?_
      rw [he]; rfl
    · rw [k.responses, he]
    · rw [k.upstream_eq (by rw [he]; exact fun _ _ _ _ => Upstream.noConfusion), he]
    · rw [k.waiting, he]
    · rw [k.zones, he]
    · rw [k.log, he]
    · rw [k.hold, he]
    · rw [k.force, he]

/-- Settles O34. -/
theorem refusedByClassOrWidth : Obligations.RefusedByClassOrWidth := by
  unfold Obligations.RefusedByClassOrWidth
  refine ⟨fun s a w d style zone hs hal hrefuses => ?_, governing_spec⟩
  obtain ⟨u, hu⟩ : ∃ u : State, u = s.refuse style zone a (lowHalf w d) := ⟨_, rfl⟩
  have htake : s.takeWrite { write := true, addr := a, width := w, data := d } = u := by
    rw [hu]
    unfold takeWrite
    obtain ⟨hgov, rfl, rfl⟩ | ⟨win, hgov, rfl, ⟨hcls, rfl⟩ | ⟨hcls, hw, rfl⟩⟩ := hrefuses
    · simp only [hgov]
    · simp only [hgov, hcls]
    · simp only [hgov, hcls, if_neg hw]
  obtain ⟨hzones, -, -, hagenda, hchecker, -, hhold, hposted, hforce, hupstream, hresponses, hlog⟩ := refuse_spec s style zone a (lowHalf w d)
  have hwaiting : u.waiting = s.waiting := by rw [hu]; unfold State.refuse; cases style <;> simp
  rw [← hu] at hzones hagenda hchecker hhold hposted hforce hupstream hresponses hlog
  have k := concluded_conclude u
  refine ⟨u.conclude, ?_, ?_, samePosted_trans k.posted (by rw [hposted]; rfl), k.waiting.trans hwaiting, k.zones.trans hzones,
    k.hold.trans hhold, k.force.trans hforce, k.checker.trans hchecker, k.responses.trans hresponses, ?_⟩
  · rw [← htake]
    exact exec_hostWrite_calm hs d hal (by rw [htake, hagenda]; exact hs.1)
  · exact (k.upstream_eq (by rw [hupstream]; exact fun _ _ _ _ => Upstream.noConfusion)).trans hupstream
  · rw [k.log, hlog, append_log]
    cases style <;> rfl

/-- Settles O40: the placement enters and its source is told. -/
theorem placementEnters : Obligations.PlacementEnters := by
  unfold Obligations.PlacementEnters
  intro s p rest hwaiting hroom
  obtain ⟨v, hv⟩ : ∃ v : State, v = { s with waiting := rest } := ⟨_, rfl⟩
  have hexec : exec .placementEnters s = .next (v.enter p).finish := by
    have hne : s.waiting ≠ [] ∧ s.posted.length < Config.postedCapacity := ⟨by rw [hwaiting]; exact List.cons_ne_nil _ _, hroom⟩
    have he : s.enterNext = v.enter p := by
      unfold State.enterNext
      rw [hwaiting, hv]
      exact if_pos hroom
    rw [← he]
    exact if_pos hne
  obtain ⟨k, hresponses, hupstream⟩ := v.entering_spec p
  have told : (v.enter p).posted = s.posted ++ [entryOf p] ∧ (v.enter p).store = s.storeAfter p ∧ (v.enter p).waiting = rest := by
    cases hsource : p.source with
    | host kind watch =>
      obtain ⟨h1, h2, -, -, h3, -⟩ := v.enter_host_spec hsource
      rw [h1, h2, h3, hv]
      exact ⟨rfl, rfl, rfl⟩
    | hold =>
      rw [enter_hold hsource]
      simp only [setHold_frame, k.posted, k.store, k.waiting]
      rw [hv]
      exact ⟨rfl, rfl, rfl⟩
    | engine e =>
      rw [enter_engine hsource]
      simp only [releaseDone, entryBoundary, notify_frame, setForce_frame, k.posted, k.store, k.waiting]
      rw [hv]
      exact ⟨rfl, rfl, rfl⟩
  obtain ⟨hposted, hstore, hwait⟩ := told
  refine ⟨v.enter p, hexec, hwait, hposted, hstore, fun kind watch hsource => ?_, fun hsource => ?_, fun e hsource => ?_⟩
  · obtain ⟨-, -, hres, hup, -, hhold, hforce, -, hobs⟩ := v.enter_host_spec hsource
    subst hv
    exact ⟨hres, hup, hhold, hforce, observed_of_same (x := { s with waiting := rest }) rfl rfl rfl rfl rfl rfl hobs⟩
  · rw [enter_hold hsource]
    simp only [setHold_frame, setHold_hold, hresponses, k.hold, k.force, k.zones, k.log]
    rw [hv]
    exact ⟨rfl, rfl, rfl, rfl, rfl⟩
  · rw [enter_engine hsource]
    subst hv
    refine ⟨?_, ?_, ?_, ?_, ?_, ?_, ?_, ?_⟩ <;> simp [releaseDone, entryBoundary, hresponses, k.hold, k.zones, k.log]

end Sys2Proof.Machine
end

section
/-!
PROOFS. The verdict step by step, and the step limits (chapter 5).
-/
namespace Sys2Proof.Machine

open State

/-! ## Values moved to a bound -/

theorem raiseTo_toNat (lo v : Half) : (raiseTo lo v).toNat = max lo.toNat v.toNat := by
  unfold raiseTo
  split <;> omega

theorem lowerTo_toNat (hi v : Half) : (lowerTo hi v).toNat = min hi.toNat v.toNat := by
  unfold lowerTo
  split <;> omega

/-- The fall limit at a current value: a value below it becomes it. -/
def fallen (p : Profile) (n v : Nat) : Nat := if p.fall = 0#16 then v else max (n - p.fall.toNat) v

/-- The rise limit at a current value: a value above it becomes it. -/
def risen (p : Profile) (n v : Nat) : Nat := if p.rise = 0#16 then v else min (n + p.rise.toNat) v

/-- The step limits in numbers: the fall limit, the rise limit, then the bounds. -/
theorem step_toNat (p : Profile) (b : LevelBounds) (n v : Half) :
    (p.step b n v).toNat = min b.high.toNat (max b.low.toNat (risen p n.toNat (fallen p n.toNat v.toNat))) := by
  unfold Profile.step fallen risen
  rw [lowerTo_toNat, raiseTo_toNat]
  have hn := n.isLt
  have hv := v.isLt
  by_cases hfall : p.fall = 0#16 <;> by_cases hrise : p.rise = 0#16 <;>
    simp only [hfall, hrise, if_true, if_false, raiseTo_toNat, lowerTo_toNat, BitVec.toNat_ofNat] <;> omega

theorem ne_zero_iff (v : Half) : v ≠ 0#16 ↔ 0 < v.toNat := by
  rw [Nat.pos_iff_ne_zero, Ne, Ne, not_iff_not]
  exact ⟨fun h => congrArg BitVec.toNat h, fun h => BitVec.eq_of_toNat_eq h⟩

/-- The fall limit by its cases; a limit of 0 lowers nothing. -/
theorem fallen_cases (p : Profile) (n v : Nat) :
    (0 < p.fall.toNat → v < n - p.fall.toNat → fallen p n v = n - p.fall.toNat) ∧
      (0 < p.fall.toNat → n - p.fall.toNat ≤ v → fallen p n v = v) ∧ (p.fall.toNat = 0 → fallen p n v = v) := by
  unfold fallen
  by_cases hz : p.fall = 0#16
  · simp [hz]
  · have := (ne_zero_iff _).mp hz
    rw [if_neg hz]
    omega

theorem risen_cases (p : Profile) (n v : Nat) :
    (0 < p.rise.toNat → n + p.rise.toNat < v → risen p n v = n + p.rise.toNat) ∧
      (0 < p.rise.toNat → v ≤ n + p.rise.toNat → risen p n v = v) ∧ (p.rise.toNat = 0 → risen p n v = v) := by
  unfold risen
  by_cases hz : p.rise = 0#16
  · simp [hz]
  · have := (ne_zero_iff _).mp hz
    rw [if_neg hz]
    omega

/-- Settles O37. -/
theorem stepLimits : Obligations.StepLimits := by
  unfold Obligations.StepLimits
  intro p b n v hb r bounded below above
  have hr : r.toNat = min b.high.toNat (max b.low.toNat (risen p n.toNat (fallen p n.toNat v.toNat))) := step_toNat p b n v
  have hsame : r.toNat = v.toNat → r = v := BitVec.eq_of_toNat_eq
  have hfall := fallen_cases p n.toNat v.toNat
  have hrise := risen_cases p n.toNat (fallen p n.toNat v.toNat)
  generalize fallen p n.toNat v.toNat = fl at hr hfall hrise
  generalize risen p n.toNat fl = rs at hr hrise
  simp only [below, above, bounded, ne_zero_iff]
  refine ⟨⟨?_, ?_⟩, ?_, ?_, ?_, ?_, ?_, fun h1 h2 h3 h4 => hsame ?_⟩ <;> omega

/-! ## The bounds of a level -/

/-- A value lies between the bounds of a level. -/
theorem inBounds_iff (b : LevelBounds) (v : Half) : b.inBounds v = true ↔ b.low.toNat ≤ v.toNat ∧ v.toNat ≤ b.high.toNat := by
  simp [LevelBounds.inBounds]

theorem LevelBounds.judge_inside {b : LevelBounds} {v : Half} (h : b.low.toNat ≤ v.toNat ∧ v.toNat ≤ b.high.toNat) :
    b.judge v = .value v := if_pos h

theorem LevelBounds.judge_below {b : LevelBounds} {v : Half} (h : v.toNat < b.low.toNat) (hrule : b.rule = .clamp) :
    b.judge v = .value b.low := by
  unfold LevelBounds.judge
  rw [if_neg (by omega), hrule]
  exact congrArg _ (if_pos h)

theorem LevelBounds.judge_above {b : LevelBounds} {v : Half} (hlow : b.low.toNat ≤ v.toNat) (h : b.high.toNat < v.toNat)
    (hrule : b.rule = .clamp) : b.judge v = .value b.high := by
  unfold LevelBounds.judge
  rw [if_neg (by omega), hrule]
  exact congrArg _ (if_neg (by omega))

theorem LevelBounds.judge_outside {b : LevelBounds} {v : Half} (h : ¬(b.low.toNat ≤ v.toNat ∧ v.toNat ≤ b.high.toNat)) :
    (b.rule = .refuse → b.judge v = .refuse) ∧ (b.rule = .hold → b.judge v = .hold) := by
  unfold LevelBounds.judge
  rw [if_neg h]
  exact ⟨fun hrule => by rw [hrule], fun hrule => by rw [hrule]⟩

/-- A value the bounds give lies between them. -/
theorem LevelBounds.inside_of_judge {b : LevelBounds} {v x : Half} (hb : b.low.toNat ≤ b.high.toNat) (h : b.judge v = .value x) :
    b.low.toNat ≤ x.toNat ∧ x.toNat ≤ b.high.toNat := by
  unfold LevelBounds.judge at h
  split at h
  next hin => cases h; exact hin
  next hout =>
    split at h
    · split at h <;> cases h <;> omega
    · cases h
    · cases h

namespace State

/-! ## The force on a cell -/

theorem forceOn_some {s : State} {a : Addr} {e : Fin 16} {f : ForceCfg} (h : s.forceOn a = some (e, f)) :
    s.cfg.forces.get e = some f ∧ f.cell = a ∧ (s.force.get e).state.underForce = true := by
  obtain ⟨e', -, he⟩ := List.exists_of_findSome?_eq_some h
  cases hf : s.cfg.forces.get e' with
  | none => simp [hf] at he
  | some f' =>
    simp only [hf] at he
    split at he
    next hunder =>
      cases he
      exact ⟨hf, hunder⟩
    next => cases he

theorem forceOn_none {s : State} {a : Addr} (h : s.forceOn a = none) {e : Fin 16} {f : ForceCfg} (hf : s.cfg.forces.get e = some f)
    (hcell : f.cell = a) : (s.force.get e).state.underForce = false := by
  have he := List.findSome?_eq_none_iff.mp h e (List.mem_finRange e)
  simpa [hf, hcell] using he

theorem underForce_iff (x : ForceState) : x.underForce = true ↔ x = .applying ∨ x = .active ∨ x = .failed := by
  cases x <;> simp [ForceState.underForce]

theorem not_underForce_iff (x : ForceState) : x.underForce = false ↔ x = .idle ∨ x = .releasing := by
  cases x <;> simp [ForceState.underForce]

theorem Sense.move_satisfied (sense : Sense) (f v : Half) : sense.satisfied f (sense.move f v) = true := by
  cases sense with
  | floor => simp [Sense.satisfied, Sense.move, raiseTo_toNat]
  | ceiling => simp [Sense.satisfied, Sense.move, lowerTo_toNat]
  | exact_ => simp [Sense.satisfied, Sense.move]

theorem forceStep_free {s : State} {a : Addr} (h : s.forceOn a = none) (b : LevelBounds) (x : Half) : s.forceStep a b x = .pass x := by
  simp [forceStep, h]

theorem forceStep_forced {s : State} {a : Addr} {e : Fin 16} {f : ForceCfg} (h : s.forceOn a = some (e, f)) (b : LevelBounds) (x : Half) :
    s.forceStep a b x =
      if b.low.toNat ≤ (f.sense.move f.forced x).toNat ∧ (f.sense.move f.forced x).toNat ≤ b.high.toNat
        then .pass (f.sense.move f.forced x) else .kept := by
  simp [forceStep, h, LevelBounds.inBounds]

/-- What passes the force step lies in bounds and satisfies the force. -/
theorem pass_of_forceStep {s : State} {a : Addr} {b : LevelBounds} {x v' : Half}
    (hx : b.low.toNat ≤ x.toNat ∧ x.toNat ≤ b.high.toNat) (h : s.forceStep a b x = .pass v') :
    (b.low.toNat ≤ v'.toNat ∧ v'.toNat ≤ b.high.toNat) ∧
      ∀ e f, s.forceOn a = some (e, f) → f.sense.satisfied f.forced v' = true := by
  cases hon : s.forceOn a with
  | none =>
    rw [forceStep_free hon] at h
    cases h
    exact ⟨hx, fun e f h => nomatch h⟩
  | some ef =>
    obtain ⟨e, f⟩ := ef
    rw [forceStep_forced hon] at h
    split at h
    next hin =>
      cases h
      refine ⟨hin, fun e' f' h => ?_⟩
      cases h
      exact Sense.move_satisfied _ _ _
    next => cases h

/-! ## The verdict by its steps -/

/-- The verdict on a value the bounds hold (R91, R92). -/
theorem judge_hold {s : State} {a : Addr} {v : Half} {z : Fin 4} {p : Fin 8}
    (h : ((s.cfg.profiles.get p).levels.get (s.zoneLevel z)).judge v = .hold) (n : Option Half) :
    (∀ ef, s.forceOn a = some ef → s.judge a v z p n = .kept) ∧
      (s.forceOn a = none → ((∃ e ∈ s.hold, e.cell = a) ∨ s.hold.length < 8) → s.judge a v z p n = .held) ∧
      (s.forceOn a = none → (∀ e ∈ s.hold, e.cell ≠ a) → 8 ≤ s.hold.length → s.judge a v z p n = .full) := by
  have hheld : (s.holdOf a).isSome = true ↔ ∃ e ∈ s.hold, e.cell = a := by simp [holdOf, List.find?_isSome]
  unfold State.judge
  dsimp only
  rw [h]
  refine ⟨fun ef hon => by simp [hon], fun hon hroom => ?_, fun hon hnone hlen => ?_⟩
  · rw [← hheld] at hroom
    have hb : ((s.holdOf a).isSome || decide (s.hold.length < Config.holdCapacity)) = true := by
      rw [Bool.or_eq_true, decide_eq_true_iff]
      exact hroom
    simp only [hon, hb, if_true, Option.isSome_none, Bool.false_eq_true, if_false]
  · have hno : (s.holdOf a).isSome = false := by
      rw [Bool.eq_false_iff, Ne, hheld]
      exact fun ⟨e, he, hc⟩ => hnone e he hc
    simp [hon, hno, hlen]

theorem judge_refuse {s : State} {a : Addr} {v : Half} {z : Fin 4} {p : Fin 8}
    (h : ((s.cfg.profiles.get p).levels.get (s.zoneLevel z)).judge v = .refuse) (n : Option Half) : s.judge a v z p n = .refused := by
  unfold State.judge
  dsimp only
  rw [h]

theorem stepped_iff (p : Profile) : p.stepped = true ↔ p.fall ≠ 0#16 ∨ p.rise ≠ 0#16 := by simp [Profile.stepped]

theorem not_stepped {p : Profile} (hfall : p.fall = 0#16) (hrise : p.rise = 0#16) : p.stepped = false := by
  simp [Profile.stepped, hfall, hrise]

/-- The verdict on a value the bounds give: the step limits where there are any, then the force step (R86 to R89). -/
theorem judge_value {s : State} {a : Addr} {v x : Half} {z : Fin 4} {p : Fin 8}
    (h : ((s.cfg.profiles.get p).levels.get (s.zoneLevel z)).judge v = .value x) (n : Option Half) :
    let profile := s.cfg.profiles.get p
    let b := profile.levels.get (s.zoneLevel z)
    (profile.stepped = false → s.judge a v z p n = s.forceStep a b x) ∧
      (profile.stepped = true →
        (∀ m, n = some m → s.judge a v z p n = s.forceStep a b (profile.step b m x)) ∧
          (n = none → profile.unknown = .boundsOnly → s.judge a v z p n = s.forceStep a b x) ∧
          (n = none → profile.unknown = .refuse → s.judge a v z p n = .refused)) := by
  intro profile b
  have hjudge : s.judge a v z p n = if !profile.stepped then s.forceStep a b x else
      match n, profile.unknown with
      | some m, _ => s.forceStep a b (profile.step b m x)
      | none, .boundsOnly => s.forceStep a b x
      | none, .refuse => .refused := by
    unfold State.judge
    dsimp only
    rw [h] <;> rfl
  clear_value profile b
  rw [hjudge]
  refine ⟨fun hs => by rw [hs]; rfl, fun hs => ⟨fun m hm => ?_, fun hn hu => ?_, fun hn hu => ?_⟩⟩
  · rw [hs, hm]; rfl
  · rw [hs, hn, hu]; rfl
  · rw [hs, hn, hu]; rfl

/-- A passing value came through the force step from a value in bounds. -/
theorem forceStep_of_pass {s : State} {a : Addr} {v v' : Half} {z : Fin 4} {p : Fin 8} {n : Option Half}
    (hb : ((s.cfg.profiles.get p).levels.get (s.zoneLevel z)).low.toNat ≤ ((s.cfg.profiles.get p).levels.get (s.zoneLevel z)).high.toNat)
    (h : s.judge a v z p n = .pass v') :
    ∃ x : Half, (((s.cfg.profiles.get p).levels.get (s.zoneLevel z)).low.toNat ≤ x.toNat ∧
        x.toNat ≤ ((s.cfg.profiles.get p).levels.get (s.zoneLevel z)).high.toNat) ∧
      s.forceStep a ((s.cfg.profiles.get p).levels.get (s.zoneLevel z)) x = .pass v' := by
  cases hj : ((s.cfg.profiles.get p).levels.get (s.zoneLevel z)).judge v with
  | hold =>
    obtain ⟨hkept, hheld, hfull⟩ := judge_hold (a := a) hj n
    cases hon : s.forceOn a with
    | some ef => rw [hkept ef hon] at h; cases h
    | none =>
      by_cases hroom : (∃ e ∈ s.hold, e.cell = a) ∨ s.hold.length < 8
      · rw [hheld hon hroom] at h; cases h
      · rw [not_or] at hroom
        rw [hfull hon (fun e he hc => hroom.1 ⟨e, he, hc⟩) (by omega)] at h
        cases h
  | refuse => rw [judge_refuse hj] at h; cases h
  | value x =>
    have hx := LevelBounds.inside_of_judge hb hj
    obtain ⟨hplain, hstepped⟩ := judge_value (a := a) hj n
    cases hs : (s.cfg.profiles.get p).stepped with
    | false => exact ⟨x, hx, hplain hs ▸ h⟩
    | true =>
      obtain ⟨hknown, hopen, hrefuse⟩ := hstepped hs
      cases n with
      | some m =>
        refine ⟨_, ?_, hknown m rfl ▸ h⟩
        rw [step_toNat]
        omega
      | none =>
        cases hu : (s.cfg.profiles.get p).unknown with
        | boundsOnly => exact ⟨x, hx, hopen rfl hu ▸ h⟩
        | refuse => rw [hrefuse rfl hu] at h; cases h

end State

/-- Settles O36: the bounds first, then the step limits, then the force. -/
theorem passedValuesAreInBounds : Obligations.PassedValuesAreInBounds := by
  unfold Obligations.PassedValuesAreInBounds
  intro s a v z p current profile b d inside forced bounded
  have hforced : ∀ x, s.forceStep a b x = forced x := by
    intro x
    cases hon : s.forceOn a with
    | none => simp only [forced, hon]; exact forceStep_free hon b x
    | some ef => simp only [forced, hon]; exact forceStep_forced hon b x
  have hbounded : ∀ x, b.judge v = .value x → bounded x := by
    intro x hj
    obtain ⟨hplain, hstepped⟩ := judge_value (a := a) hj current
    refine ⟨fun hfall hrise => ?_, fun hlimits => ?_⟩
    · exact (hplain (not_stepped hfall hrise)).trans (hforced x)
    · obtain ⟨hknown, hopen, hrefuse⟩ := hstepped ((stepped_iff _).mpr hlimits)
      exact ⟨fun n hn => (hknown n hn).trans (hforced _), fun hn hu => (hopen hn hu).trans (hforced x), hrefuse⟩
  refine ⟨fun hin => hbounded v (LevelBounds.judge_inside hin), fun h hrule => hbounded _ (LevelBounds.judge_below h hrule),
    fun hlow h hrule => hbounded _ (LevelBounds.judge_above hlow h hrule),
    fun hout hrule => judge_refuse ((LevelBounds.judge_outside hout).1 hrule) current, fun hout hrule => ?_, fun f x => ⟨rfl, rfl, rfl⟩,
    fun e f hon => ?_, fun hon e f hf hcell => (not_underForce_iff _).mp (forceOn_none hon hf hcell), fun hb v' hpass => ?_⟩
  · obtain ⟨hkept, hheld, hfull⟩ := judge_hold (a := a) ((LevelBounds.judge_outside hout).2 hrule) current
    exact ⟨fun ⟨e, f, hon⟩ => hkept _ hon, hheld, hfull⟩
  · obtain ⟨hcfg, hcell, hunder⟩ := forceOn_some hon
    exact ⟨hcfg, hcell, (underForce_iff _).mp hunder⟩
  · obtain ⟨x, hx, hstep⟩ := forceStep_of_pass hb hpass
    exact pass_of_forceStep hx hstep

end Sys2Proof.Machine
end

section
/-!
PROOFS. The operations of the cell store (chapter 6), each by its equation.
-/
namespace Sys2Proof.Machine

namespace CellStore

/-! ## A line and a cell changed -/

@[simp] theorem get_setLine_self (c : CellStore) (i : Fin 16) (l : Line) : (c.setLine i l).lines.get i = l := by simp [setLine]

theorem get_setLine_of_ne (c : CellStore) {i j : Fin 16} (h : j ≠ i) (l : Line) : (c.setLine i l).lines.get j = c.lines.get j :=
  Tab.get_set_of_ne _ (Ne.symm h) _

@[simp] theorem cell_setCell_self (c : CellStore) (i : Fin 16) (k : Fin 4) (r : CellRec) : (c.setCell i k r).cell i k = r := by
  simp [setCell, cell]

theorem cell_setCell_of_ne (c : CellStore) (i : Fin 16) {k m : Fin 4} (h : m ≠ k) (r : CellRec) :
    (c.setCell i k r).cell i m = c.cell i m := by
  simp [setCell, cell, Tab.get_set_of_ne _ (Ne.symm h)]

theorem lines_setCell_of_ne (c : CellStore) {i j : Fin 16} (h : j ≠ i) (k : Fin 4) (r : CellRec) :
    (c.setCell i k r).lines.get j = c.lines.get j := get_setLine_of_ne c h _

/-- No change of a cell changes a tag. -/
theorem tag_setCell (c : CellStore) (i j : Fin 16) (k : Fin 4) (r : CellRec) :
    ((c.setCell i k r).lines.get j).tag = (c.lines.get j).tag := by
  by_cases h : j = i
  · subst h; simp [setCell]
  · rw [lines_setCell_of_ne c h]

theorem setCell_same (c : CellStore) (i : Fin 16) (k : Fin 4) : c.setCell i k (c.cell i k) = c := by
  unfold setCell setLine cell
  rw [Tab.set_get_self]
  exact congrArg (fun ls => { c with lines := ls }) (Tab.set_get_self _ _)

/-! ## Claims -/

theorem claimOf_onClaims (c : CellStore) (p : Claim → Bool) (stage : ClaimStage) {who : Claimant} {k : Claim}
    (h : c.claimOf who = some k) : (c.onClaims p stage).claimOf who = some (if p k then { k with stage := stage } else k) := by
  cases who with
  | checker =>
    have h' : c.checkerClaim = some k := h
    simp [onClaims, claimOf, onClaim, h']
  | engine =>
    have h' : c.engineClaim = some k := h
    simp [onClaims, claimOf, onClaim, h']

theorem claimOf_settleCell (c : CellStore) (a : Addr) (v : Option Half) {who : Claimant} {k : Claim} (h : c.claimOf who = some k) :
    (c.settleCell a v).claimOf who =
      some (if k.stage = .joined ∧ k.cell = a then { k with stage := .settled v } else k) := by
  unfold settleCell
  rw [claimOf_onClaims c _ _ h]
  simp

theorem claimOf_settleLater (c : CellStore) (g : Addr) (pos : Nat) {who : Claimant} {k : Claim} (h : c.claimOf who = some k) :
    (c.settleLater g pos).claimOf who =
      some (if k.stage = .joined ∧ groupOf k.cell = g ∧ pos ≤ (cellIndex k.cell).val then { k with stage := .settled none } else k) := by
  unfold settleLater
  rw [claimOf_onClaims c _ _ h]
  simp [and_assoc]

/-! ## Write-through and lookup -/

theorem writeThrough_of_absent {c : CellStore} {a : Addr} (h : c.find (groupOf a) = none) (v : Half) : c.writeThrough a v = c := by
  simp [writeThrough, h]

theorem writeThrough_of_held {c : CellStore} {a : Addr} {i : Fin 16} (h : c.find (groupOf a) = some i) (v : Half) :
    c.writeThrough a v =
      c.setCell i (cellIndex a)
        { valid := true, value := v, written := (c.cell i (cellIndex a)).written || c.unsettled i (cellIndex a) } := by
  simp [writeThrough, h]

theorem lookup_hit {c : CellStore} {a : Addr} {i : Fin 16} (h : c.find (groupOf a) = some i)
    (hv : (c.cell i (cellIndex a)).valid = true) (q : Addr → Option Half) (who : Claimant) :
    c.lookup q who a = (some (c.cell i (cellIndex a)).value, c.touch i) := by
  unfold lookup
  simp only [h]
  exact if_pos hv

theorem lookup_invalid {c : CellStore} {a : Addr} {i : Fin 16} (h : c.find (groupOf a) = some i)
    (hv : (c.cell i (cellIndex a)).valid = false) (q : Addr → Option Half) (who : Claimant) :
    c.lookup q who a = (none, ((c.touch i).addClaim who a).settleFills q) := by
  unfold lookup
  simp only [h]
  exact if_neg (by rw [show (c.touch i).cell i (cellIndex a) = c.cell i (cellIndex a) from rfl, hv]; decide)

theorem lookup_absent {c : CellStore} {a : Addr} (h : c.find (groupOf a) = none) (q : Addr → Option Half) (who : Claimant) :
    c.lookup q who a = (none, (c.addClaim who a).settleFills q) := by
  simp [lookup, h]

/-- A new claim on the cell joins the fill in progress. -/
def claimJoins (c : CellStore) (a : Addr) : Prop :=
  ∃ f, c.fill = some f ∧ (c.lines.get f.line).tag = some (groupOf a) ∧ f.pos ≤ (cellIndex a).val

theorem addClaim_joins {c : CellStore} {a : Addr} (h : c.claimJoins a) (who : Claimant) :
    (c.addClaim who a).list = c.list ∧ (c.addClaim who a).claimOf who = some { cell := a, stage := .joined, abandoned := false } := by
  obtain ⟨f, hf, htag, hpos⟩ := h
  cases who <;> simp [addClaim, claimOf, hf, htag, hpos]

theorem addClaim_waits {c : CellStore} {a : Addr} (h : ¬c.claimJoins a) (who : Claimant) :
    (c.addClaim who a).list = c.list ++ [{ group := groupOf a, start := cellIndex a,
                                           who := match who with | .checker => .checker | .engine => .engine }] ∧
      (c.addClaim who a).claimOf who = some { cell := a, stage := .listed, abandoned := false } := by
  cases hf : c.fill with
  | none => cases who <;> simp [addClaim, claimOf, hf]
  | some f =>
    have hno : ((c.lines.get f.line).tag == some (groupOf a) && decide (f.pos ≤ (cellIndex a).val)) = false := by
      rw [Bool.eq_false_iff, Ne, Bool.and_eq_true, beq_iff_eq, decide_eq_true_iff]
      exact fun ⟨htag, hpos⟩ => h ⟨f, hf, htag, hpos⟩
    cases who <;> simp [addClaim, claimOf, hf, hno]

/-! ## The victim, and the start of a fill -/

/-- The least recently used line that is neither pinned nor filling (R105). -/
theorem victim_some {c : CellStore} {i : Fin 16} (h : c.victim = some i) :
    ∃ newer older, c.lru = newer ++ i :: older ∧ (c.lines.get i).pinned = false ∧ (c.lines.get i).filling = false ∧
      ∀ j ∈ older, (c.lines.get j).pinned = true ∨ (c.lines.get j).filling = true := by
  obtain ⟨hi, before, after, hlist, hbefore⟩ := List.find?_eq_some_iff_append.mp h
  have hpins : (c.lines.get i).pinned = false ∧ (c.lines.get i).filling = false := by simpa using hi
  refine ⟨after.reverse, before.reverse, ?_, hpins.1, hpins.2, fun j hj => ?_⟩
  · rw [← List.reverse_reverse c.lru, hlist]
    simp
  · have hno := hbefore j (List.mem_reverse.mp hj)
    cases hp : (c.lines.get j).pinned with
    | true => exact .inl rfl
    | false => exact .inr (by simpa [hp] using hno)

theorem victim_none {c : CellStore} (h : c.victim = none) {j : Fin 16} (hj : j ∈ c.lru) :
    (c.lines.get j).pinned = true ∨ (c.lines.get j).filling = true := by
  have hno := List.find?_eq_none.mp h j (List.mem_reverse.mpr hj)
  cases hp : (c.lines.get j).pinned with
  | true => exact .inl rfl
  | false => exact .inr (by simpa [hp] using hno)

/-- A fill of the line from a cell has nothing to fill. -/
def nothingToFill (c : CellStore) (i : Fin 16) (start : Fin 4) : Prop := ∀ k : Fin 4, start.val ≤ k.val → (c.cell i k).valid = true

theorem validFrom_iff (c : CellStore) (i : Fin 16) (start : Fin 4) : c.validFrom i start = true ↔ c.nothingToFill i start := by
  unfold validFrom nothingToFill
  rw [List.all_eq_true]
  refine forall_congr' fun k => ?_
  simp only [List.mem_finRange, true_implies, Bool.or_eq_true, decide_eq_true_iff]
  exact ⟨fun h hk => h.resolve_left (by omega), fun h => (Nat.lt_or_ge k.val start.val).imp id h⟩

theorem startRequest_claimed {c : CellStore} {r : FillRequest} {i : Fin 16} (h : c.find r.group = some i)
    (hwho : r.who = .checker ∨ r.who = .engine) :
    ((c.cell i r.start).valid = true → c.startRequest r = (c.settleRequest r (c.cell i r.start).value).touch i) ∧
      ((c.cell i r.start).valid = false → c.startRequest r = (c.touch i).beginFill i r.group r.start) := by
  unfold startRequest
  rw [h]
  dsimp only
  obtain hw | hw := hwho <;> rw [hw] <;> exact ⟨fun hv => if_pos hv, fun hv => if_neg (by rw [hv]; decide)⟩

theorem startRequest_nobody {c : CellStore} {r : FillRequest} {i : Fin 16} (h : c.find r.group = some i) (hwho : r.who = .nobody) :
    (c.nothingToFill i r.start → c.startRequest r = c) ∧
      (¬c.nothingToFill i r.start → c.startRequest r = c.beginFill i r.group r.start) := by
  unfold startRequest
  rw [h, ← validFrom_iff]
  dsimp only
  rw [hwho]
  exact ⟨fun hv => if_pos hv, fun hv => if_neg hv⟩

/-- Settling a claim at once changes no cell. -/
theorem settleRequest_lines (c : CellStore) (r : FillRequest) (v : Half) : (c.settleRequest r v).lines = c.lines := by
  unfold settleRequest
  split <;> rfl

theorem startRequest_abandoned {c : CellStore} {r : FillRequest} {i : Fin 16} (h : c.find r.group = some i) (hwho : r.who = .abandoned) :
    let d := if (c.cell i r.start).valid then c.settleRequest r (c.cell i r.start).value else c
    (c.nothingToFill i r.start → c.startRequest r = d) ∧ (¬c.nothingToFill i r.start → c.startRequest r = d.beginFill i r.group r.start) := by
  intro d
  have hd : d.validFrom i r.start = true ↔ c.nothingToFill i r.start := by
    rw [validFrom_iff]
    unfold nothingToFill cell d
    split <;> simp [settleRequest_lines]
  have hstart : c.startRequest r = if d.validFrom i r.start then d else d.beginFill i r.group r.start := by
    unfold startRequest
    rw [h]
    dsimp only
    rw [hwho]
  rw [← hd, hstart]
  exact ⟨fun hv => if_pos hv, fun hv => if_neg hv⟩

/-- The victim's line given to a group: its tag set, no cell valid or written. -/
def retag (c : CellStore) (i : Fin 16) (g : Addr) : CellStore :=
  c.setLine i { c.lines.get i with
    tag := some g, cells := (c.lines.get i).cells.map (fun x => { x with valid := false, written := false }) }

theorem startRequest_victim {c : CellStore} {r : FillRequest} {i : Fin 16} (h : c.find r.group = none) (hi : c.victim = some i) :
    c.startRequest r = ((c.retag i r.group).touch i).beginFill i r.group r.start := by
  unfold startRequest retag
  rw [h, hi]

theorem cell_retag (c : CellStore) (i : Fin 16) (g : Addr) (k : Fin 4) :
    ((c.retag i g).cell i k).valid = false ∧ ((c.retag i g).cell i k).written = false := by
  simp [retag, cell]

theorem beginFill_spec (c : CellStore) (i : Fin 16) (g : Addr) (start : Fin 4) :
    let t := c.beginFill i g start
    t.fill = some { line := i, pos := start.val, reading := false } ∧ (t.lines.get i).filling = true ∧ t.lru = c.lru ∧
      t.list = c.list.filter (fun r => !(decide (r.who ≠ .nobody) && decide (r.group = g) && decide (start.val ≤ r.start.val))) ∧
      ∀ who k, c.claimOf who = some k →
        t.claimOf who = some (if k.stage = .listed ∧ groupOf k.cell = g ∧ start.val ≤ (cellIndex k.cell).val
          then { k with stage := .joined } else k) := by
  intro t
  refine ⟨rfl, by simp [t, beginFill, onClaims], rfl, ?_, fun who k hk => ?_⟩
  · unfold t beginFill onClaims setLine
    dsimp only
    congr 1
    funext r
    simp [bne, Bool.beq_eq_decide_eq]
  · unfold t beginFill
    rw [claimOf_onClaims _ _ _ (k := k) (by cases who <;> exact hk)]
    simp [and_assoc]

/-! ## A move of the fills -/

/-- The cell at which a fill stands. -/
def fillCell (c : CellStore) (f : Fill) : Addr := cellAt (((c.lines.get f.line).tag).getD 0#24) f.pos

theorem advance_reading {c : CellStore} {f : Fill} (hf : c.fill = some f) (hr : f.reading = true) (q : Addr → Option Half) :
    c.advance q = none := (waitsForRead_iff q c).mp (.inl ⟨f, hf, hr⟩)

/-- A fill that presents no read skips a believed cell, takes a queued value, or presents the read (R106). -/
theorem advance_fill {c : CellStore} {f : Fill} (h : f.pos < 4) (hf : c.fill = some f) (hr : f.reading = false) (q : Addr → Option Half) :
    let k := c.cell f.line ⟨f.pos, h⟩
    let next : Option Fill := some { f with pos := f.pos + 1, reading := false }
    (k.valid = true → c.advance q = some ({ c with fill := next }.settleCell (c.fillCell f) (some k.value))) ∧
      (∀ v, k.valid = false → q (c.fillCell f) = some v →
        c.advance q =
          some ({ c.setCell f.line ⟨f.pos, h⟩ { k with valid := true, value := v } with fill := next }.settleCell (c.fillCell f) (some v))) ∧
      (k.valid = false → q (c.fillCell f) = none → c.advance q = some { c with fill := some { f with reading := true } }) := by
  obtain ⟨line, pos, reading⟩ := f
  dsimp only at h hr
  subst hr
  intro k next
  unfold advance
  rw [hf]
  dsimp only
  rw [if_neg Bool.false_ne_true, dif_pos h]
  refine ⟨fun hv => if_pos hv, fun v hv hq => ?_, fun hv hq => ?_⟩
  · rw [if_neg (by rw [Bool.not_eq_true]; exact hv)]
    unfold fillCell at hq
    simp only [hq]
    rfl
  · rw [if_neg (by rw [Bool.not_eq_true]; exact hv)]
    unfold fillCell at hq
    simp only [hq]

theorem advance_ended {c : CellStore} {f : Fill} (hf : c.fill = some f) (hpos : 4 ≤ f.pos) (hr : f.reading = false)
    (q : Addr → Option Half) : c.advance q = some (c.endFill f) := by
  unfold advance
  simp [hf, hr, hpos]

theorem advance_request {c : CellStore} {r : FillRequest} {rest : List FillRequest} (hf : c.fill = none) (hl : c.list = r :: rest)
    (q : Addr → Option Half) : c.advance q = some ({ c with list := rest }.startRequest r) := by
  unfold advance
  rw [hf, hl]

theorem advance_rest {c : CellStore} (hf : c.fill = none) (hl : c.list = []) (q : Addr → Option Half) : c.advance q = none :=
  (waitsForRead_iff q c).mp (.inr ⟨hf, hl⟩)

theorem readAddress_reading {c : CellStore} {f : Fill} (hf : c.fill = some f) (hr : f.reading = true) :
    c.readAddress = some (c.fillCell f) := by
  simp [readAddress, hf, hr, fillCell]

/-- A read's completion stores its value, unless a write has gone to the cell since, and settles (R107). -/
theorem readDone_unwritten {c : CellStore} {f : Fill} (h : f.pos < 4) (hf : c.fill = some f)
    (hw : (c.cell f.line ⟨f.pos, h⟩).written = false) (q : Addr → Option Half) (v : Half) :
    c.readDone q v =
      ({ c.setCell f.line ⟨f.pos, h⟩ { c.cell f.line ⟨f.pos, h⟩ with valid := true, value := v } with
          fill := some { f with pos := f.pos + 1, reading := false } }.settleCell (c.fillCell f) (some v)).settleFills q := by
  unfold readDone
  rw [hf]
  dsimp only
  rw [dif_pos h, if_neg (by rw [hw]; decide)]
  rfl

theorem readDone_written {c : CellStore} {f : Fill} (h : f.pos < 4) (hf : c.fill = some f)
    (hw : (c.cell f.line ⟨f.pos, h⟩).written = true) (q : Addr → Option Half) (v : Half) :
    c.readDone q v =
      ({ c with fill := some { f with pos := f.pos + 1, reading := false } }.settleCell (c.fillCell f)
        (some (c.cell f.line ⟨f.pos, h⟩).value)).settleFills q := by
  unfold readDone
  rw [hf]
  dsimp only
  rw [dif_pos h, if_pos hw, setCell_same]
  rfl

theorem readFault_fill {c : CellStore} {f : Fill} (h : f.pos < 4) (hf : c.fill = some f) (q : Addr → Option Half) :
    c.readFault q =
      (((c.settleCell (c.fillCell f)
          (if (c.cell f.line ⟨f.pos, h⟩).written then some (c.cell f.line ⟨f.pos, h⟩).value else none)).settleLater
            (((c.lines.get f.line).tag).getD 0#24) (f.pos + 1)).endFill f).settleFills q := by
  unfold readFault
  rw [hf]
  exact dif_pos h

theorem endFill_spec (c : CellStore) (f : Fill) :
    (c.endFill f).fill = none ∧ ((c.endFill f).lines.get f.line).filling = false ∧
      (∀ k, (c.endFill f).cell f.line k = { c.cell f.line k with written := false }) ∧
      ∀ j, j ≠ f.line → (c.endFill f).lines.get j = c.lines.get j := by
  refine ⟨rfl, by simp [endFill], fun k => by simp [endFill, cell], fun j hj => get_setLine_of_ne c hj _⟩

/-! ## A cell made invalid -/

theorem invalidate_absent {c : CellStore} {a : Addr} (h : c.find (groupOf a) = none) (q : Addr → Option Half) : c.invalidate q a = c := by
  simp [invalidate, h]

/-- The cell made invalid, before what the fills do. -/
def withoutCell (c : CellStore) (i : Fin 16) (k : Fin 4) : CellStore :=
  c.setCell i k { c.cell i k with valid := false, written := false }

theorem invalidate_held {c : CellStore} {a : Addr} {i : Fin 16} (h : c.find (groupOf a) = some i) (q : Addr → Option Half) :
    c.invalidate q a = ((c.withoutCell i (cellIndex a)).repair i (groupOf a) (cellIndex a)).settleFills q := by
  simp [invalidate, h, withoutCell]

theorem pinned_setCell (c : CellStore) (i : Fin 16) (k : Fin 4) (r : CellRec) :
    ((c.setCell i k r).lines.get i).pinned = (c.lines.get i).pinned := by
  simp [setCell]

/-- A request without claimant stands for a group. -/
def requested (c : CellStore) (g : Addr) : Prop := ∃ r ∈ c.list, (r.who = .nobody ∨ r.who = .abandoned) ∧ r.group = g

theorem any_unclaimed_iff (c : CellStore) (g : Addr) : c.list.any (fun r => r.who.unclaimed && r.group == g) = true ↔ c.requested g := by
  have hwho : ∀ w : FillFor, w.unclaimed = true ↔ w = .nobody ∨ w = .abandoned := fun w => by cases w <;> simp [FillFor.unclaimed]
  simp [requested, hwho]

theorem repair_requests {c : CellStore} {i : Fin 16} {g : Addr} (hp : (c.lines.get i).pinned = true) (hr : ¬c.requested g)
    (start : Fin 4) : c.repair i g start = { c with list := c.list ++ [{ group := g, start := start, who := .nobody }] } := by
  rw [← any_unclaimed_iff] at hr
  unfold repair
  exact if_pos (by rw [hp, Bool.eq_false_iff.mpr hr]; rfl)

theorem repair_rests {c : CellStore} {i : Fin 16} {g : Addr} (h : (c.lines.get i).pinned = false ∨ c.requested g) (start : Fin 4) :
    c.repair i g start = c := by
  rw [← any_unclaimed_iff] at h
  unfold repair
  exact if_neg (by obtain h | h := h <;> simp [h])

end CellStore

/-! ## The obligation -/

open CellStore

/-- Settles O42: each operation by its equation. -/
theorem writeThrough : Obligations.WriteThrough := by
  unfold Obligations.WriteThrough
  refine ⟨fun c a v => ⟨fun h => writeThrough_of_absent h v, fun i h => ?_⟩,
    fun q c who a => ⟨fun i h hv => lookup_hit h hv q who, fun i h hv => lookup_invalid h hv q who, fun h => lookup_absent h q who,
      fun h => addClaim_joins h who, fun h => addClaim_waits h who⟩,
    fun c => ⟨fun i h => victim_some h, fun h j hj => victim_none h hj⟩,
    fun c r => ⟨fun i h hwho => startRequest_claimed h hwho, fun i h hwho => startRequest_nobody h hwho,
      fun i h hwho => startRequest_abandoned h hwho, fun i h hi => ?_⟩,
    beginFill_spec,
    fun q c f h hf => ⟨fun hr => advance_fill h hf hr q, fun hr => ⟨advance_reading hf hr q, readAddress_reading hf hr⟩,
      fun v hw => readDone_unwritten h hf hw q v, fun v hw => readDone_written h hf hw q v, readFault_fill h hf q⟩,
    fun c a g pos v who k hk => ⟨claimOf_settleCell c a v hk, claimOf_settleLater c g pos hk⟩, endFill_spec,
    fun q c => ⟨settleFills_done q c, fun f hf hpos hr => advance_ended hf hpos hr q, fun r rest hf hl => advance_request hf hl q,
      fun hf hl => advance_rest hf hl q⟩,
    fun q c a => ⟨fun h => invalidate_absent h q, fun i h => ⟨fun hp hr => ?_, fun hrest => ?_⟩⟩⟩
  · intro t k
    have ht : t = c.setCell i (cellIndex a) _ := writeThrough_of_held h v
    have hk : k = _ := congrArg (fun d => CellStore.cell d i (cellIndex a)) ht
    rw [cell_setCell_self] at hk
    rw [hk, ht]
    exact ⟨rfl, rfl, rfl, rfl, rfl, rfl, rfl, rfl, fun j => tag_setCell c i j _ _, fun j hj => lines_setCell_of_ne c hj _ _,
      fun m hm => cell_setCell_of_ne c i hm _⟩
  · exact ⟨c.retag i r.group, startRequest_victim h hi, rfl, rfl, rfl, rfl, by simp [retag], cell_retag c i r.group,
      fun j hj => get_setLine_of_ne c hj _⟩
  · have hpin : ((c.withoutCell i (cellIndex a)).lines.get i).pinned = true := (pinned_setCell c i _ _).trans hp
    have hno : ¬(c.withoutCell i (cellIndex a)).requested (groupOf a) := hr
    rw [invalidate_held h, repair_requests hpin hno]
    rfl
  · have hstill : ((c.withoutCell i (cellIndex a)).lines.get i).pinned = false ∨ (c.withoutCell i (cellIndex a)).requested (groupOf a) :=
      hrest.imp (pinned_setCell c i _ _).trans id
    rw [invalidate_held h, repair_rests hstill]
    rfl

end Sys2Proof.Machine
end

section
/-!
PROOFS. A checked write at the host (chapter 5), and the settlement of a claim (chapters 5, 6 and 8).
-/
namespace Sys2Proof.Machine

/-! ## What the fills leave of a claim -/

/-- The cell a claim is on, and whether it was abandoned. -/
def claimed (k : Option Claim) : Option (Addr × Bool) := k.map (fun k => (k.cell, k.abandoned))

namespace CellStore

/-- Two cell stores hold the same claims, whatever their stages. -/
def sameClaims (c d : CellStore) : Prop := claimed d.checkerClaim = claimed c.checkerClaim ∧ claimed d.engineClaim = claimed c.engineClaim

theorem sameClaims_refl (c : CellStore) : c.sameClaims c := ⟨rfl, rfl⟩

theorem sameClaims_trans {c d e : CellStore} (h : c.sameClaims d) (k : d.sameClaims e) : c.sameClaims e :=
  ⟨k.1.trans h.1, k.2.trans h.2⟩

theorem sameClaims_onClaims (c : CellStore) (p : Claim → Bool) (stage : ClaimStage) : c.sameClaims (c.onClaims p stage) := by
  have h : ∀ k, claimed (onClaim p stage k) = claimed k := by
    intro k
    unfold claimed onClaim
    rw [Option.map_map]
    congr 1
    funext k
    dsimp only [Function.comp]
    split <;> rfl
  exact ⟨h _, h _⟩

theorem sameClaims_settleRequest (c : CellStore) (r : FillRequest) (v : Half) : c.sameClaims (c.settleRequest r v) := by
  unfold settleRequest
  split <;> simp [sameClaims, claimed, Function.comp_def]

theorem sameClaims_beginFill (c : CellStore) (i : Fin 16) (g : Addr) (start : Fin 4) : c.sameClaims (c.beginFill i g start) :=
  sameClaims_trans (d := { c with }) (sameClaims_refl c) (sameClaims_onClaims _ _ _)

theorem sameClaims_startRequest (c : CellStore) (r : FillRequest) : c.sameClaims (c.startRequest r) := by
  have hfill : ∀ (d : CellStore) (i : Fin 16), c.sameClaims d → c.sameClaims (d.beginFill i r.group r.start) :=
    fun d i h => sameClaims_trans h (sameClaims_beginFill d i r.group r.start)
  have hnow : ∀ v, c.sameClaims (c.settleRequest r v) := sameClaims_settleRequest c r
  cases hf : c.find r.group with
  | none =>
    cases hv : c.victim with
    | none => rw [show c.startRequest r = c by simp [startRequest, hf, hv]]; exact sameClaims_refl c
    | some i => rw [startRequest_victim hf hv]; exact hfill _ i (sameClaims_refl c)
  | some i =>
    have claimant : r.who = .checker ∨ r.who = .engine → c.sameClaims (c.startRequest r) := by
      intro hwho
      obtain ⟨hit, miss⟩ := startRequest_claimed hf hwho
      cases hv : (c.cell i r.start).valid with
      | true => rw [hit hv]; exact hnow _
      | false => rw [miss hv]; exact hfill _ i (sameClaims_refl c)
    cases hwho : r.who with
    | checker => exact claimant (.inl hwho)
    | engine => exact claimant (.inr hwho)
    | nobody =>
      obtain ⟨full, part⟩ := startRequest_nobody hf hwho
      by_cases hn : c.nothingToFill i r.start
      · rw [full hn]; exact sameClaims_refl c
      · rw [part hn]; exact hfill c i (sameClaims_refl c)
    | abandoned =>
      obtain ⟨full, part⟩ := startRequest_abandoned hf hwho
      have hd : c.sameClaims (if (c.cell i r.start).valid then c.settleRequest r (c.cell i r.start).value else c) := by
        split
        · exact hnow _
        · exact sameClaims_refl c
      by_cases hn : c.nothingToFill i r.start
      · rw [full hn]; exact hd
      · rw [part hn]; exact hfill _ i hd

theorem sameClaims_advance {q : Addr → Option Half} {c d : CellStore} (h : c.advance q = some d) : c.sameClaims d := by
  cases hf : c.fill with
  | none =>
    cases hl : c.list with
    | nil => rw [advance_rest hf hl] at h; cases h
    | cons r rest =>
      rw [advance_request hf hl] at h
      cases h
      exact sameClaims_startRequest { c with list := rest } r
  | some f =>
    cases hr : f.reading with
    | true => rw [advance_reading hf hr] at h; cases h
    | false =>
      by_cases hpos : f.pos < 4
      · obtain ⟨skip, take, present⟩ := advance_fill hpos hf hr q
        cases hv : (c.cell f.line ⟨f.pos, hpos⟩).valid with
        | true => rw [skip hv] at h; cases h; exact sameClaims_onClaims _ _ _
        | false =>
          cases hq : q (c.fillCell f) with
          | some v => rw [take v hv hq] at h; cases h; exact sameClaims_onClaims _ _ _
          | none => rw [present hv hq] at h; cases h; exact sameClaims_refl c
      · rw [advance_ended hf (by omega) hr] at h
        cases h
        exact sameClaims_refl c

theorem sameClaims_runFills (q : Addr → Option Half) (n : Nat) (c : CellStore) : c.sameClaims (runFills q n c) := by
  induction n generalizing c with
  | zero => exact sameClaims_refl c
  | succ n ih =>
    unfold runFills
    cases h : c.advance q with
    | none => exact sameClaims_refl c
    | some d => exact sameClaims_trans (sameClaims_advance h) (ih d)

theorem sameClaims_settleFills (q : Addr → Option Half) (c : CellStore) : c.sameClaims (c.settleFills q) := sameClaims_runFills q _ c

theorem claimOf_addClaim (c : CellStore) (who : Claimant) (a : Addr) : claimed ((c.addClaim who a).claimOf who) = some (a, false) := by
  by_cases h : c.claimJoins a
  · rw [(addClaim_joins h who).2]; rfl
  · rw [(addClaim_waits h who).2]; rfl

/-- A lookup that gives no value leaves a claim of its own on the cell (R103). -/
theorem lookup_claims {q : Addr → Option Half} {c : CellStore} {a : Addr} (h : (c.lookup q .checker a).1 = none) :
    ∃ k, (c.lookup q .checker a).2.checkerClaim = some k ∧ k.cell = a ∧ k.abandoned = false := by
  have hadd : ∀ d : CellStore, claimed ((d.addClaim .checker a).settleFills q).checkerClaim = some (a, false) :=
    fun d => (sameClaims_settleFills q _).1.trans (claimOf_addClaim d .checker a)
  have hclaimed : claimed (c.lookup q .checker a).2.checkerClaim = some (a, false) := by
    cases hf : c.find (groupOf a) with
    | none => rw [lookup_absent hf]; exact hadd c
    | some i =>
      cases hv : (c.cell i (cellIndex a)).valid with
      | true => rw [lookup_hit hf hv] at h; cases h
      | false => rw [lookup_invalid hf hv]; exact hadd (c.touch i)
  obtain ⟨k, hk, hpair⟩ := Option.map_eq_some_iff.mp hclaimed
  obtain ⟨hcell, hab⟩ := Prod.mk.inj hpair
  exact ⟨k, hk, hcell, hab⟩

end CellStore

namespace State

/-! ## A verdict seen after the end of its step -/

theorem verdictTaken_upstream {s u : State} {a : Addr} {v : Half} {z : Fin 4} {p : Fin 8} {style : Style} {d : Verdict}
    (h : s.verdictTaken u a v z p style d) : u.upstream = .idle ∨ u.upstream = .placing := by
  obtain ⟨-, -, -, h⟩ := h
  cases d with
  | pass v' =>
    obtain ⟨-, hroom, hfull⟩ := h
    by_cases hr : s.posted.length < 8 ∧ s.waiting.filter (fun q => !q.isHoldOf a) = []
    · obtain ⟨-, -, hu⟩ := hroom hr
      exact .inl hu
    · obtain ⟨-, -, hu, -⟩ := hfull hr
      exact .inr hu
  | kept => obtain ⟨-, -, -, hu⟩ := h; exact .inl hu
  | held => obtain ⟨-, -, hu, -⟩ := h; exact .inl hu
  | full => obtain ⟨-, -, hu, -⟩ := h; exact .inl hu
  | refused => obtain ⟨-, -, hu, -⟩ := h; exact .inl hu

/-- The end of a step takes nothing from a verdict that gave no notice. -/
theorem verdictTaken_concluded {s u t : State} (k : Concluded u t) {a : Addr} {v : Half} {z : Fin 4} {p : Fin 8} {style : Style}
    {d : Verdict} (h : s.verdictTaken u a v z p style d) : s.verdictTaken t a v z p style d := by
  have hup : t.upstream = u.upstream := by
    refine k.upstream_eq fun b w y fl hr => ?_
    obtain hu | hu := verdictTaken_upstream h <;> rw [hu] at hr <;> cases hr
  have hposted : ∀ {l}, samePosted u.posted l → samePosted t.posted l := samePosted_trans k.posted
  obtain ⟨hlast, hre, hlog, hrest⟩ := h
  refine ⟨fun hd e f hf => by rw [k.force]; exact hlast hd e f hf, ?_, ?_, ?_⟩
  · unfold refreshed otherZones notified at hre ⊢
    rw [k.zones, k.agenda]
    exact hre
  · unfold zoneSaid at hlog ⊢
    rw [k.log, k.zones]
    exact hlog
  · cases d with
    | pass v' =>
      dsimp only at hrest ⊢
      obtain ⟨hhold, hroom, hfull⟩ := hrest
      rw [k.hold, k.responses, k.waiting, hup]
      refine ⟨hhold, fun hr => ?_, fun hr => ?_⟩
      · obtain ⟨hp, hr⟩ := hroom hr
        exact ⟨hposted hp, hr⟩
      · obtain ⟨hp, hr⟩ := hfull hr
        exact ⟨hposted hp, hr⟩
    | kept | held | full | refused =>
      dsimp only at hrest ⊢
      rw [k.hold, k.responses, hup]
      exact ⟨hposted hrest.1, hrest.2⟩

/-- Where HOST_LOST does not stand a restart of the refresh timer gives no notice. -/
theorem refreshed_calm {s u : State} {z : Fin 4} (h : s.refreshed u z) (hlost : (s.zones.get z).causes.hostLost = false) :
    u.agenda = s.agenda ∧
      u.zones.get z = { s.zones.get z with
        refresh := if (s.cfg.zones.get z).refreshPeriod = 0 then (s.zones.get z).refresh
          else .running (s.cfg.zones.get z).refreshPeriod } := by
  obtain ⟨-, ⟨given, hgiven, -, hdue⟩, hz⟩ := h
  have hzone : u.zones.get z = { s.zones.get z with
      refresh := if (s.cfg.zones.get z).refreshPeriod = 0 then (s.zones.get z).refresh
        else .running (s.cfg.zones.get z).refreshPeriod } := by
    rw [hz, hlost]
    split <;> rfl
  refine ⟨?_, hzone⟩
  have hnone : given = [] := by
    rw [List.eq_nil_iff_forall_not_mem]
    intro n hn
    have hd := (hdue n).mp hn
    rw [hzone] at hd
    simp [noticeDue] at hd
  rw [hgiven, hnone, List.append_nil]

/-! ## A write handed to the checker -/

theorem takeWrite_checked {s : State} {a : Addr} {win : Window} (hgov : s.cfg.governing a = .window win) (hcls : win.cls = .checked)
    (d : Data) : s.takeWrite { write := true, addr := a, width := .w2, data := d } = s.handOver a (cellValue d) win.zone win.profile win.style := by
  unfold takeWrite
  simp only [hgov, hcls, if_true]

/-- A settled claim of the checker, or none, holds no lookup back. -/
theorem no_unsettled {s : State} (h : ∀ k, s.store.checkerClaim = some k → k.unsettled = false) :
    s.store.checkerClaim.any Claim.unsettled = false := by
  cases hk : s.store.checkerClaim with
  | none => rfl
  | some k => exact h k hk

theorem handOver_unstepped {s : State} {p : Fin 8} (h : (s.cfg.profiles.get p).stepped = false) (a : Addr) (v : Half) (z : Fin 4)
    (style : Style) : s.handOver a v z p style = { s with upstream := .judging }.verdict a v z p style none := by
  unfold handOver
  dsimp only
  rw [h]
  rfl

theorem handOver_stepped {s : State} {p : Fin 8} (h : (s.cfg.profiles.get p).stepped = true) (a : Addr) (v : Half) (z : Fin 4)
    (style : Style) :
    (s.store.checkerClaim.any Claim.unsettled = true →
      s.handOver a v z p style = { s with upstream := .judging, checker := .awaiting a v z p style true }) ∧
      (s.store.checkerClaim.any Claim.unsettled = false →
        s.handOver a v z p style = { s with upstream := .judging }.checkerLookup a v z p style) := by
  unfold handOver
  dsimp only
  rw [h]
  exact ⟨fun hk => by rw [hk]; rfl, fun hk => by rw [hk]; rfl⟩

theorem checkerLookup_hit {s : State} {a : Addr} {n : Half} (h : (s.store.lookup s.queued .checker a).1 = some n) (v : Half)
    (z : Fin 4) (p : Fin 8) (style : Style) :
    s.checkerLookup a v z p style = (s.setStore (s.store.lookup s.queued .checker a).2).verdict a v z p style (some n) := by
  unfold checkerLookup
  dsimp only
  rw [h]

theorem checkerLookup_miss {s : State} {a : Addr} (h : (s.store.lookup s.queued .checker a).1 = none) (v : Half) (z : Fin 4) (p : Fin 8)
    (style : Style) :
    s.checkerLookup a v z p style =
      { s with store := (s.store.lookup s.queued .checker a).2, checker := .awaiting a v z p style false } := by
  unfold checkerLookup
  dsimp only
  rw [h]
  rfl

theorem alike_judging (s : State) : Alike s { s with upstream := .judging } := ⟨rfl, rfl, rfl, rfl, rfl, rfl, rfl, rfl, rfl, rfl⟩

/-- The verdict on a checked write is reached at once: its profile has no step limit, or the cell store knows the value (R83). -/
def verdictAtOnce (s : State) (a : Addr) (p : Fin 8) (current : Option Half) : Prop :=
  ((s.cfg.profiles.get p).stepped = false ∧ current = none) ∨
    ((s.cfg.profiles.get p).stepped = true ∧ (∀ k, s.store.checkerClaim = some k → k.unsettled = false) ∧
      (s.store.lookup s.queued .checker a).1 = current ∧ current.isSome = true)

theorem handOver_judged {s : State} {a : Addr} {p : Fin 8} {current : Option Half} (h : s.verdictAtOnce a p current) (v : Half)
    (z : Fin 4) (style : Style) :
    s.verdictTaken (s.handOver a v z p style) a v z p style (s.judge a v z p current) ∧ (s.handOver a v z p style).checker = .idle := by
  obtain ⟨hs, rfl⟩ | ⟨hs, hk, hlook, hsome⟩ := h
  · rw [handOver_unstepped hs]
    obtain ⟨V, C, -⟩ := verdict_taken s.alike_judging a v z p style none
    exact ⟨V, C⟩
  · obtain ⟨n, rfl⟩ := Option.isSome_iff_exists.mp hsome
    rw [(handOver_stepped hs a v z style).2 (no_unsettled hk), checkerLookup_hit (s := { s with upstream := .judging }) hlook]
    generalize (CellStore.lookup _ _ _ _).2 = c
    have alike : Alike s (State.setStore { s with upstream := .judging } c) := ⟨rfl, rfl, rfl, rfl, rfl, rfl, rfl, rfl, rfl, rfl⟩
    obtain ⟨V, C, -⟩ := verdict_taken alike a v z p style (some n)
    exact ⟨V, C⟩

end State

open State CellStore

/-- Settles O35. -/
theorem checkedWriteIsJudged : Obligations.CheckedWriteIsJudged := by
  unfold Obligations.CheckedWriteIsJudged
  refine ⟨fun s a d win current hs hal hgov hcls hlost hknown => ?_, fun s a d win current hs hal hgov hcls hknown => ?_,
    fun s a d win hs hal hgov hcls hstep hk hmiss => ?_, fun s a d win k hs hal hgov hcls hstep hk hstage => ?_⟩
  · obtain ⟨V, C⟩ := handOver_judged (s := s) hknown (cellValue d) win.zone win.style
    have htake := takeWrite_checked hgov hcls d
    generalize s.handOver a (cellValue d) win.zone win.profile win.style = u at V C htake
    have hre : s.refreshed u win.zone := V.2.1
    obtain ⟨hagenda, hzone⟩ := refreshed_calm hre hlost
    have k := concluded_conclude u
    refine ⟨u.conclude, ?_, k.checker.trans C, verdictTaken_concluded k V, fun z hz => ?_, ?_⟩
    · rw [← htake]
      exact exec_hostWrite_calm hs d hal (by rw [htake, hagenda]; exact hs.1)
    · rw [k.zones]; exact hre.1 z hz
    · rw [k.zones]; exact hzone
  · obtain ⟨V, C⟩ := handOver_judged (s := s) hknown (cellValue d) win.zone win.style
    exact ⟨_, by rw [exec_hostWrite hs d hal, takeWrite_checked hgov hcls], C, V⟩
  · have htake := takeWrite_checked hgov hcls d
    rw [(handOver_stepped hstep _ _ _ _).2 (no_unsettled hk), checkerLookup_miss (s := { s with upstream := .judging }) hmiss] at htake
    obtain ⟨k, hclaim, hcell, hab⟩ := lookup_claims hmiss
    have hq : State.queued { s with upstream := .judging } = s.queued := rfl
    rw [hq] at htake
    generalize (s.store.lookup s.queued .checker a).2 = c at htake hclaim
    obtain ⟨u, hu⟩ : ∃ u : State, u = { s with
      upstream := .judging, store := c, checker := .awaiting a (cellValue d) win.zone win.profile win.style false } := ⟨_, rfl⟩
    have hcalm : u.agenda = [] := by rw [hu]; exact hs.1
    have hexec := exec_hostWrite_calm hs d hal (by rw [htake, ← hu]; exact hcalm)
    rw [htake, ← hu] at hexec
    have j := concluded_conclude u
    refine ⟨u.conclude, hexec, ?_, ?_, ?_, samePosted_trans j.posted (by rw [hu]; rfl), ?_, ?_, ?_, k, ?_, hcell, hab⟩
    · rw [j.checker, hu]
    · rw [j.upstream_eq (by rw [hu]; exact fun _ _ _ _ => Upstream.noConfusion), hu]
    · rw [j.responses, hu]
    · rw [j.hold, hu]
    · rw [j.zones, hu]
    · rw [j.log, hu]
    · rw [j.claims.1, hu]; exact hclaim
  · have htake := takeWrite_checked hgov hcls d
    have hun : s.store.checkerClaim.any Claim.unsettled = true := by
      obtain ⟨cell, stage, ab⟩ := k
      rw [hk]
      obtain rfl | rfl := hstage <;> rfl
    rw [(handOver_stepped hstep _ _ _ _).1 hun] at htake
    obtain ⟨u, hu⟩ : ∃ u : State, u = { s with
      upstream := .judging, checker := .awaiting a (cellValue d) win.zone win.profile win.style true } := ⟨_, rfl⟩
    have hcalm : u.agenda = [] := by rw [hu]; exact hs.1
    have hexec := exec_hostWrite_calm hs d hal (by rw [htake, ← hu]; exact hcalm)
    rw [htake, ← hu] at hexec
    have j := concluded_conclude u
    refine ⟨u.conclude, hexec, ?_, ?_, ?_, ?_, ?_, ?_, samePosted_trans j.posted (by rw [hu]; rfl), ?_, ?_, ?_⟩
    · rw [j.checker, hu]
    · rw [j.upstream_eq (by rw [hu]; exact fun _ _ _ _ => Upstream.noConfusion), hu]
    · rw [j.claims.1, hu]; exact hk
    · rw [j.lists.1, hu]
    · rw [j.lists.2, hu]
    · rw [j.responses, hu]
    · rw [j.hold, hu]
    · rw [j.zones, hu]
    · rw [j.log, hu]

end Sys2Proof.Machine
end

section
/-!
PROOFS. The force engine at its cell's value and at a failed attempt (chapter 8), and the settlement of a claim (chapter 6).
-/
namespace Sys2Proof.Machine

namespace State

/-! ## The force engine's entry -/

/-- What the engine leaves alone as it works an entry. -/
structure EntryWorked (s u : State) (e : Fin 16) : Prop where
  posted : u.posted = s.posted
  hold : u.hold = s.hold
  responses : u.responses = s.responses
  others : ∀ e', e' ≠ e → u.force.get e' = s.force.get e'

/-- An entry becomes ACTIVE (R139, R141). -/
theorem forceActive_spec (s : State) (e : Fin 16) (f : ForceCfg) (n : Nat) :
    let u := s.forceActive e f n
    EntryWorked s u e ∧ u.store = s.store ∧ (u.force.get e).state = .active ∧ (u.force.get e).attempts = n ∧
      (u.force.get e).prior = (s.force.get e).prior ∧
      u.log = if (s.force.get e).fromFailed then s.logged [forceSaid .forceRecovered e f] else s.log := by
  unfold forceActive entryBoundary
  dsimp only
  cases (s.force.get e).fromFailed with
  | false =>
    refine ⟨⟨by simp, by simp, by simp, fun e' he => ?_⟩, by simp, by simp, by simp, by simp, by simp⟩
    simp [Tab.get_set_of_ne _ (Ne.symm he)]
  | true =>
    refine ⟨⟨by simp, by simp, by simp, fun e' he => ?_⟩, by simp, by simp, by simp, by simp, ?_⟩
    · simp [Tab.get_set_of_ne _ (Ne.symm he)]
    · simp only [if_true, notify_frame]
      rw [append_logged_nil]
      exact logged_congr (by simp) (by simp) _

/-- A prior value is kept, else the cell's value taken; then the sense decides. -/
theorem engineValue_eq (s : State) (e : Fin 16) (f : ForceCfg) (n : Half) :
    s.engineValue e f n =
      if f.sense.satisfied f.forced n
        then (s.setForce e { s.force.get e with prior := some ((s.force.get e).prior.getD n) }).forceActive e f (s.force.get e).attempts
        else (s.setForce e { s.force.get e with prior := some ((s.force.get e).prior.getD n) }).setWork .writing := by
  unfold engineValue
  dsimp only
  cases (s.force.get e).prior <;> rfl

/-- The engine at its cell's value: a prior value is kept or taken, and the sense decides (R138, R139). -/
theorem engineValue_spec (s : State) (e : Fin 16) (f : ForceCfg) (n : Half) :
    let u := s.engineValue e f n
    EntryWorked s u e ∧ u.store = s.store ∧ (u.force.get e).prior = some ((s.force.get e).prior.getD n) ∧
      (f.sense.satisfied f.forced n = true →
        (u.force.get e).state = .active ∧
          u.log = if (s.force.get e).fromFailed then s.logged [forceSaid .forceRecovered e f] else s.log) ∧
      (f.sense.satisfied f.forced n = false →
        (u.force.get e).state = (s.force.get e).state ∧ u.sweep = s.sweep.map (fun w => { w with work := .writing }) ∧ u.log = s.log) := by
  dsimp only
  rw [engineValue_eq]
  generalize some ((s.force.get e).prior.getD n) = prior
  cases hsat : f.sense.satisfied f.forced n with
  | true =>
    obtain ⟨⟨hposted, hhold, hresponses, hothers⟩, hstore, hstate, -, hp, hlog⟩ :=
      forceActive_spec (s.setForce e { s.force.get e with prior := prior }) e f (s.force.get e).attempts
    rw [if_pos rfl]
    refine ⟨⟨by rw [hposted]; simp, by rw [hhold]; simp, by rw [hresponses]; simp, fun e' he => ?_⟩, by rw [hstore]; simp,
      by rw [hp]; simp, fun _ => ⟨hstate, ?_⟩, fun h => absurd h (by decide)⟩
    · rw [hothers e' he]; simp [Tab.get_set_of_ne _ (Ne.symm he)]
    · rw [hlog, logged_congr (s := s) (by simp) (by simp)]; simp
  | false =>
    rw [if_neg (by decide)]
    refine ⟨⟨by simp, by simp, by simp, fun e' he => ?_⟩, by simp, by simp, fun h => absurd h (by decide), fun _ => ⟨by simp, ?_, by simp⟩⟩
    · simp [Tab.get_set_of_ne _ (Ne.symm he)]
    · simp [setWork]

/-- A failed attempt works its entry alone. -/
theorem attemptFailed_worked (s : State) (e : Fin 16) (f : ForceCfg) : EntryWorked s (s.attemptFailed e f) e := by
  unfold attemptFailed
  dsimp only
  split
  · obtain ⟨-, -, -, -, hhold, hposted, -, -, hresponses, hothers⟩ :=
      engineLookup_spec (s.setForce e { s.force.get e with attempts := (s.force.get e).attempts + 1 }) e f
    refine ⟨by rw [hposted]; simp, by rw [hhold]; simp, by rw [hresponses]; simp, fun e' he => ?_⟩
    rw [hothers e' he]
    simp [Tab.get_set_of_ne _ (Ne.symm he)]
  · refine ⟨by simp [entryBoundary, zoneFlagged], by simp [entryBoundary, zoneFlagged], by simp [entryBoundary, zoneFlagged],
      fun e' he => ?_⟩
    simp [entryBoundary, zoneFlagged, Tab.get_set_of_ne _ (Ne.symm he)]

theorem engineSettles_some {s : State} {e : Fin 16} {f : ForceCfg} (he : s.sweepEntry = some e) (hf : s.cfg.forces.get e = some f) (n : Half) :
    s.engineSettles (some n) = s.engineValue e f n := by
  simp [engineSettles, he, hf]

theorem engineSettles_none {s : State} {e : Fin 16} {f : ForceCfg} (he : s.sweepEntry = some e) (hf : s.cfg.forces.get e = some f) :
    s.engineSettles none = s.attemptFailed e f := by
  simp [engineSettles, he, hf]

/-! ## A lookup and a verdict seen from a state that agrees -/

theorem verdictTaken_congr {s t u : State} (h : Alike s t) {a : Addr} {v : Half} {z : Fin 4} {p : Fin 8} {style : Style} {d : Verdict}
    (k : t.verdictTaken u a v z p style d) : s.verdictTaken u a v z p style d := by
  have hfo : t.forceOn a = s.forceOn a := by
    unfold forceOn
    rw [h.cfg, h.force]
  have hlg : ∀ es, t.logged es = s.logged es := fun es => logged_congr h.log (by rw [h.time]) es
  obtain ⟨hlast, hre, hlog, hrest⟩ := k
  refine ⟨fun hd e f hf => hlast hd e f (hfo.trans hf), refreshed_congr h.zones h.cfg h.agenda hre, ?_, ?_⟩
  · rw [zoneSaid_congr _ _ h.zones, hlg, hlg] at hlog
    exact hlog
  · rw [h.hold, h.posted, h.waiting, h.responses, h.time, h.cfg] at hrest
    exact hrest

theorem lookedUp_congr {s t u : State} (h : Alike s t) (hup : t.upstream = s.upstream) {c : CellStore} {a : Addr} {v : Half} {z : Fin 4}
    {p : Fin 8} {style : Style} (k : t.lookedUp u c a v z p style) : s.lookedUp u c a v z p style := by
  unfold lookedUp at k ⊢
  rw [queued_congr h.posted] at k
  obtain ⟨hit, miss⟩ := k
  refine ⟨fun n hn => ?_, fun hn => ?_⟩
  · obtain ⟨hchecker, hclaim, hverdict⟩ := hit n hn
    rw [judge_congr h] at hverdict
    exact ⟨hchecker, hclaim, verdictTaken_congr h hverdict⟩
  · have hmiss := miss hn
    rw [hup, h.responses, h.posted, h.waiting, h.hold, h.zones, h.force, h.log, h.agenda] at hmiss
    exact hmiss

/-! ## A transfer of the fills that completes -/

/-- The port changed. -/
def withPort (s : State) (p : Downstream) : State := { s with port := p }

theorem alike_withPort (s : State) (p : Downstream) : Alike s (s.withPort p) := ⟨rfl, rfl, rfl, rfl, rfl, rfl, rfl, rfl, rfl, rfl⟩

theorem filled_withPort (s : State) (p : Downstream) (done : Bool) (data : Data) : (s.withPort p).filled done data = s.filled done data := rfl

theorem alike_fillSaid_withPort (s : State) (p : Downstream) (x : Transfer) (done : Bool) :
    Alike (s.fillSaid x done) ((s.withPort p).fillSaid x done) := ⟨rfl, rfl, rfl, rfl, rfl, rfl, rfl, rfl, rfl, rfl⟩

/-- The completion of a fill's read does not look at the port. -/
theorem fillTaken_withPort {s u : State} {p : Downstream} {x : Transfer} {done : Bool} {data : Data}
    (h : (s.withPort p).fillTaken u x done data) : s.fillTaken u x done data := by
  obtain ⟨hrest, hfrees⟩ := h
  refine ⟨hrest, fun hf => ?_⟩
  obtain ⟨hidle, hheld⟩ := hfrees hf
  exact ⟨hidle, fun a w z q style hw => lookedUp_congr (alike_fillSaid_withPort s p x done) rfl (hheld a w z q style hw)⟩

theorem fillReadDone_withPort (s : State) (p : Downstream) (x : Transfer) (done : Bool) (data : Data) :
    s.fillTaken ((s.withPort p).fillReadDone done x.addr data) x done data :=
  fillTaken_withPort (fillReadDone_spec (s.withPort p) x done data)

theorem exec_memoryAnswer_busy {s : State} {x : Transfer} (h : s.port.state = .busy x) (done : Bool) (data : Data) :
    exec (.memoryAnswer done data) s =
      .next ((s.withPort { s.port with state := .idle, timeout := .stopped }).handOutcome x done data).finish := by
  show execMemoryAnswer done data s = _
  unfold execMemoryAnswer answered
  simp only [h]
  rfl

theorem exec_downstreamTimeout_busy {s : State} {x : Transfer} (h : s.port.state = .busy x) (hdue : s.port.timeout = .due) :
    exec .downstreamTimeout s =
      .next ((s.withPort { s.port with state := .settling, timeout := .stopped, settleDue := false }).handOutcome x false 0#32).finish := by
  show execDownstreamTimeout s = _
  unfold execDownstreamTimeout timedOut
  rw [if_pos hdue]
  simp only [h, if_pos hdue]
  rfl

theorem handOutcome_fill {x : Transfer} (h : x.who = .fill) (s : State) (done : Bool) (data : Data) :
    s.handOutcome x done data = s.fillReadDone done x.addr data := by
  unfold handOutcome
  rw [h]

/-! ## The settlement of a claim -/

theorem exec_claimSettlement {s : State} {who : Claimant} {k : Claim} {value : Option Half} (h : s.store.claimOf who = some k)
    (hk : k.stage = .settled value) : exec (.claimSettlement who) s = .next (s.takeSettlement who k value).finish := by
  show execClaimSettlement who s = _
  unfold execClaimSettlement
  simp only [h, hk]

/-- The checker's claim settles: its verdict (R83, R113). -/
theorem checkerSettles_spec {s : State} {k : Claim} {value : Option Half} (hab : k.abandoned = false) {a : Addr} {v : Half} {z : Fin 4}
    {p : Fin 8} {style : Style} (hw : s.checker = .awaiting a v z p style false) :
    let u := s.takeSettlement .checker k value
    u.checker = .idle ∧ u.store.checkerClaim = none ∧ s.verdictTaken u a v z p style (s.judge a v z p value) := by
  intro u
  have hu : u = (s.setStore (s.store.dropClaim .checker)).verdict a v z p style value := by
    show (s.setStore (s.store.dropClaim .checker)).checkerSettles k.abandoned value = _
    unfold checkerSettles
    rw [show (s.setStore (s.store.dropClaim .checker)).checker = s.checker from rfl, hw, hab]
    rfl
  have alike : Alike s (s.setStore (s.store.dropClaim .checker)) := ⟨rfl, rfl, rfl, rfl, rfl, rfl, rfl, rfl, rfl, rfl⟩
  obtain ⟨V, C, K⟩ := verdict_taken alike a v z p style value
  rw [hu]
  exact ⟨C, K, V⟩

end State

open State

/-- Settles O39. -/
theorem claimSettlement : Obligations.ClaimSettlement := by
  unfold Obligations.ClaimSettlement
  refine fun s k value hstage => ⟨fun a v z p style hk hab hw => ?_, fun x done data a v z p style hbusy hwho hw hk hab => ?_,
    fun e f hk he hf => ?_⟩
  · exact ⟨_, exec_claimSettlement (who := .checker) hk hstage, checkerSettles_spec hab hw⟩
  · have made : ∀ port, (s.fillSaid x done).lookedUp ((s.withPort port).fillReadDone done x.addr data)
        { s.filled done data with checkerClaim := none } a v z p style := by
      intro port
      obtain ⟨-, hfrees⟩ := s.fillReadDone_withPort port x done data
      obtain ⟨-, hheld⟩ := hfrees ⟨k, value, hk, hab, hstage⟩
      exact hheld a v z p style hw
    refine ⟨⟨_, exec_memoryAnswer_busy hbusy done data, ?_⟩, fun hfault hdue => ⟨_, exec_downstreamTimeout_busy hbusy hdue, ?_⟩⟩
    · rw [handOutcome_fill hwho]; exact made _
    · subst hfault
      rw [handOutcome_fill hwho]; exact made _
  · obtain ⟨w, hw⟩ : ∃ w : State, w = s.setStore { s.store with engineClaim := none } := ⟨_, rfl⟩
    have hsame : w.posted = s.posted ∧ w.hold = s.hold ∧ w.responses = s.responses ∧ w.force = s.force ∧ w.sweep = s.sweep ∧
        w.log = s.log ∧ w.cfg = s.cfg ∧ w.zones = s.zones ∧ w.agenda = s.agenda ∧ w.time = s.time := by simp [hw]
    obtain ⟨hposted, hhold, hresponses, hforce, hsweep, hlog, hcfg, hzones, hagenda, htime⟩ := hsame
    have hstore : w.store = { s.store with engineClaim := none } := by rw [hw]; rfl
    have hentry : w.sweepEntry = some e := by rw [← he]; unfold sweepEntry; rw [hsweep]
    have hcf : w.cfg.forces.get e = some f := by rw [hcfg]; exact hf
    have hexec := exec_claimSettlement (who := .engine) hk hstage
    rw [show s.takeSettlement .engine k value = w.engineSettles value by rw [hw]; rfl] at hexec
    clear hw
    cases value with
    | none =>
      rw [engineSettles_none hentry hcf] at hexec
      obtain ⟨kposted, khold, kresponses, kothers⟩ := attemptFailed_worked w e f
      refine ⟨_, hexec, kposted.trans hposted, khold.trans hhold, kresponses.trans hresponses,
        fun e' h => (kothers e' h).trans (by rw [hforce]), fun n h => (nomatch h), fun _ => ?_⟩
      rw [← hstore]
      exact attemptFailed_spec s w e f hforce hsweep hcfg hzones hposted hlog hagenda htime
    | some n =>
      rw [engineSettles_some hentry hcf] at hexec
      obtain ⟨⟨kposted, khold, kresponses, kothers⟩, kstore, kprior, kactive, kwriting⟩ := engineValue_spec w e f n
      rw [hforce] at kprior kactive kwriting
      refine ⟨_, hexec, kposted.trans hposted, khold.trans hhold, kresponses.trans hresponses,
        fun e' h => (kothers e' h).trans (by rw [hforce]), fun m h => ?_, fun h => (nomatch h)⟩
      obtain rfl : n = m := Option.some.inj h
      refine ⟨by rw [kstore, hstore], ?_, fun hsat => ?_, fun hsat => ?_⟩
      · rw [kprior]; cases (s.force.get e).prior <;> rfl
      · obtain ⟨hstate, hl⟩ := kactive hsat
        rw [hlog, logged_congr hlog (by rw [htime])] at hl
        exact ⟨hstate, hl⟩
      · obtain ⟨hstate, hsw, hl⟩ := kwriting hsat
        exact ⟨hstate, by rw [hsw, hsweep], hl.trans hlog⟩

end Sys2Proof.Machine
end

section
/-!
PROOFS. A transfer that completes, at its requester (chapter 9).
-/
namespace Sys2Proof.Machine

namespace State

/-! ## The port is the port's own -/

@[simp] theorem entryBoundary_port (s : State) (e : Fin 16) : (s.entryBoundary e).port = s.port := by simp [entryBoundary]

@[simp] theorem forceActive_port (s : State) (e : Fin 16) (f : ForceCfg) (n : Nat) : (s.forceActive e f n).port = s.port := by
  unfold forceActive
  dsimp only
  split <;> simp

@[simp] theorem engineValue_port (s : State) (e : Fin 16) (f : ForceCfg) (n : Half) : (s.engineValue e f n).port = s.port := by
  rw [engineValue_eq]
  split <;> simp

@[simp] theorem engineLookup_port (s : State) (e : Fin 16) (f : ForceCfg) : (s.engineLookup e f).port = s.port := by
  unfold engineLookup
  dsimp only
  split <;> simp

@[simp] theorem attemptFailed_port (s : State) (e : Fin 16) (f : ForceCfg) : (s.attemptFailed e f).port = s.port := by
  unfold attemptFailed
  dsimp only
  split <;> simp

theorem forceWritten_port (s : State) (done : Bool) : (s.forceWritten done).port = s.port := by
  unfold forceWritten
  split
  · rfl
  · split
    · rfl
    · split <;> simp

@[simp] theorem deliveryDone_port (s : State) (p : Posted) : (s.deliveryDone p).port = s.port := by
  unfold deliveryDone
  split
  · split
    · split <;> simp
    · rfl
  · rfl

theorem postedDone_port (s : State) (done : Bool) : (s.postedDone done).port = s.port := by
  unfold postedDone
  split
  · rfl
  · cases done
    · dsimp only
      rw [if_neg (by decide)]
      split <;> simp
    · simp

theorem hostReadDone_port (s : State) (done : Bool) (d : Data) : (s.hostReadDone done d).port = s.port := by
  unfold hostReadDone
  split
  · split <;> simp
  all_goals rfl

theorem reportWritten_port (s : State) (done : Bool) (a : Addr) : (s.reportWritten done a).port = s.port := by
  unfold reportWritten
  split
  · rfl
  · dsimp only
    split
    · split <;> simp
    · split <;> simp

@[simp] theorem enter_port (s : State) (p : Placement) : (s.enter p).port = s.port := by
  obtain ⟨k, -, -⟩ := s.entering_spec p
  cases h : p.source with
  | host kind watch =>
    rw [enter_host h, ← k.port]
    rcases watch with _ | z | z | q <;> simp [observe, logClear]
  | hold => rw [enter_hold h, ← k.port]; simp
  | engine e => rw [enter_engine h, ← k.port]; simp [releaseDone]

@[simp] theorem place_port (s : State) (p : Placement) : (s.place p).port = s.port := by
  unfold place
  split
  · simp
  · rfl

@[simp] theorem keepRequest_port (s : State) (a : Addr) (v : Half) : (s.keepRequest a v).port = s.port := by
  unfold keepRequest
  split <;> simp

@[simp] theorem refuse_port (s : State) (style : Style) (z : Option (Fin 4)) (a : Addr) (v : Half) : (s.refuse style z a v).port = s.port := by
  cases style <;> simp [State.refuse]

@[simp] theorem carryOut_port (s : State) (a : Addr) (v : Half) (z : Fin 4) (p : Fin 8) (style : Style) (d : Verdict) :
    (s.carryOut a v z p style d).port = s.port := by
  cases d <;> simp [carryOut, Verdict.setsRequest, dropHold, joinHold]

theorem verdict_port (s : State) (a : Addr) (v : Half) (z : Fin 4) (p : Fin 8) (style : Style) (n : Option Half) :
    (s.verdict a v z p style n).port = s.port := by
  unfold State.verdict
  dsimp only
  split
  · split <;> simp
  · simp

theorem checkerLookup_port (s : State) (a : Addr) (v : Half) (z : Fin 4) (p : Fin 8) (style : Style) :
    (s.checkerLookup a v z p style).port = s.port := by
  cases h : (s.store.lookup s.queued .checker a).1 with
  | none => rw [checkerLookup_miss h]
  | some n => rw [checkerLookup_hit h, verdict_port]; simp

theorem checkerSettles_port (s : State) (b : Bool) (v : Option Half) : (s.checkerSettles b v).port = s.port := by
  unfold checkerSettles
  split
  · rfl
  · split
    · split
      · exact checkerLookup_port _ _ _ _ _ _
      · rfl
    · split
      · rfl
      · exact verdict_port _ _ _ _ _ _ _

theorem fillReadDone_port (s : State) (done : Bool) (a : Addr) (d : Data) : (s.fillReadDone done a d).port = s.port := by
  have habandoned : ∀ w : State, w.abandonedSettles.port = w.port := by
    intro w
    obtain ⟨k, v, -, -, -, he⟩ | ⟨-, he⟩ := abandonedSettles_cases w
    · rw [he, checkerSettles_port]; simp
    · rw [he]
  unfold fillReadDone
  rw [habandoned]
  split <;> simp

theorem handOutcome_port (s : State) (x : Transfer) (done : Bool) (d : Data) : (s.handOutcome x done d).port = s.port := by
  unfold handOutcome
  split
  · exact forceWritten_port _ _
  · exact fillReadDone_port _ _ _ _
  · split
    · exact postedDone_port _ _
    · exact hostReadDone_port _ _ _
  · exact reportWritten_port _ _ _

/-! ## A posted delivery -/

/-- The delivery is told to a force engine that waits for it, and to no other (R137). -/
theorem deliveryDone_spec (s : State) (p : Posted) :
    (∀ e f, s.awaitsDelivery p e f → s.deliveryDone p = s.engineLookup e f) ∧
      ((∀ e f, ¬s.awaitsDelivery p e f) → s.deliveryDone p = s) := by
  refine ⟨fun e f ⟨⟨w, hw, hwork⟩, he, hf, hp⟩ => ?_, fun hno => ?_⟩
  · unfold deliveryDone
    simp [hw, he, hf, hwork, hp]
  · unfold deliveryDone
    split
    next w e hw he =>
      split
      next f hf =>
        exact if_neg fun ⟨hwork, hp⟩ => hno e f ⟨⟨w, hw, hwork⟩, he, hf, hp⟩
      next => rfl
    next => rfl

theorem awaitsDelivery_congr {s t : State} (hsweep : t.sweep = s.sweep) (hcfg : t.cfg = s.cfg) (p : Posted) (e : Fin 16) (f : ForceCfg) :
    t.awaitsDelivery p e f ↔ s.awaitsDelivery p e f := by
  unfold awaitsDelivery sweepEntry
  rw [hsweep, hcfg]

/-- The queue without its delivered entry, and a fault logged and believed (R72, R111). -/
def delivered (s : State) (p : Posted) (rest : List Posted) (done : Bool) : State :=
  if done then s.setPosted rest
  else
    let t := (s.setPosted rest).append .writeFault p.zone (some p.addr.toNat) (some (lowHalf p.width p.data).toNat)
    if p.checked then t.setStore (t.store.invalidate t.queued p.addr) else t

theorem postedDone_cons {s : State} {p : Posted} {rest : List Posted} (h : s.posted = p :: rest) (done : Bool) :
    s.postedDone done = (s.delivered p rest done).deliveryDone p := by
  unfold postedDone delivered
  rw [h]

theorem delivered_spec (s : State) (p : Posted) (rest : List Posted) (done : Bool) :
    let v := s.delivered p rest done
    v.posted = rest ∧ v.hold = s.hold ∧ v.responses = s.responses ∧ v.force = s.force ∧ v.sweep = s.sweep ∧ v.cfg = s.cfg ∧
      v.log = (if done then s.log
        else s.logged [{ kind := .writeFault, zone := p.zone, subject := some p.addr.toNat,
                         value := some (lowHalf p.width p.data).toNat }]) ∧
      v.store = (if done = false ∧ p.checked = true then s.store.invalidate { s with posted := rest }.queued p.addr else s.store) := by
  unfold delivered
  cases done with
  | true => simp
  | false =>
    have hlog : ((s.setPosted rest).append .writeFault p.zone (some p.addr.toNat) (some (lowHalf p.width p.data).toNat)).log =
        s.logged [{ kind := .writeFault, zone := p.zone, subject := some p.addr.toNat, value := some (lowHalf p.width p.data).toNat }] := by
      rw [append_logged_nil]
      exact logged_congr (by simp) (by simp) _
    have hqueued : ((s.setPosted rest).append .writeFault p.zone (some p.addr.toNat) (some (lowHalf p.width p.data).toNat)).queued =
        State.queued { s with posted := rest } := queued_congr (by simp)
    cases hc : p.checked with
    | true => simp [hlog, hqueued]
    | false => simp [hlog]

/-! ## A host read, the force write and a report write -/

theorem hostReadDone_reading {s : State} {a : Addr} {w : Width} {z : Option (Fin 4)} (h : s.upstream = .reading a w z true) (done : Bool)
    (data : Data) :
    let u := s.hostReadDone done data
    u.upstream = .idle ∧ u.posted = s.posted ∧
      u.responses = s.responses ++
        [if done then { kind := .done, data := some (w.cut data) } else { kind := .refused, data := none }] ∧
      u.log = if done then s.log else s.logged [{ kind := .readFault, zone := z, subject := some a.toNat, value := none }] := by
  unfold hostReadDone
  rw [h]
  cases done with
  | true => simp
  | false => simp [append_logged_nil]

theorem hostReadDone_other {s : State} (h : ∀ a w z, s.upstream ≠ .reading a w z true) (done : Bool) (data : Data) :
    s.hostReadDone done data = s := by
  unfold hostReadDone
  split
  next a w z hr => exact absurd hr (h a w z)
  all_goals rfl

theorem forceWritten_working {s : State} {e : Fin 16} {f : ForceCfg} (he : s.sweepEntry = some e) (hf : s.cfg.forces.get e = some f)
    (done : Bool) :
    s.forceWritten done =
      if done then s.forceActive e f 0 else (s.setStore (s.store.invalidate s.queued f.cell)).attemptFailed e f := by
  simp [forceWritten, he, hf]

/-- The item an IDLE writer chooses depends on the marks, the item it last started and what the items show. -/
theorem chooseItem_writer_congr {s t : State} (hw : t.writer = s.writer) (hm : t.mode = s.mode) (hlast : t.lastItem = s.lastItem)
    (hmarks : t.marks = s.marks) (hbytes : t.itemBytes = s.itemBytes) : t.chooseItem.writer = s.chooseItem.writer := by
  unfold chooseItem
  rw [hw, hm, hlast, hmarks, hbytes]
  cases s.writer with
  | writing i b off => exact hw
  | idle =>
    by_cases hrun : s.mode = .run
    · simp only [hrun, if_true]
      cases (writerOrder s.lastItem).find? (fun i => s.marks.get i) with
      | none => exact hw
      | some i => rfl
    · simp only [if_neg hrun]
      exact hw

theorem mark_outside_run {s : State} (h : s.mode ≠ .run) (i : Fin 67) : s.mark i = s := if_neg h

theorem append_writer_outside_run {s : State} (h : s.mode ≠ .run) (k : EventKind) (z : Option (Fin 4)) (a b : Option Nat) :
    (s.append k z a b).writer = s.writer := by
  have hmark : ∀ (t : State) (i : Fin 67), t.mode = s.mode → t.writer = s.writer → (t.mark i).writer = s.writer :=
    fun t i hm hw => (congrArg State.writer (mark_outside_run (hm ▸ h) i)).trans hw
  unfold State.append
  split
  · split
    · unfold countRepeat
      split
      · exact hmark _ _ rfl rfl
      · rfl
    · unfold appendRecord
      exact hmark _ _ (by simp) (hmark _ _ rfl rfl)
  · unfold appendRecord
    exact hmark _ _ (by simp) (hmark _ _ rfl rfl)

/-- A report write that completes: the writer goes on, or chooses again (R173, R174). -/
theorem reportWritten_done {s : State} {i : Fin 67} {snapshot : List Byte} {off : Nat} (h : s.writer = .writing i snapshot off) (a : Addr) :
    let u := s.reportWritten true a
    u.posted = s.posted ∧ u.hold = s.hold ∧ u.responses = s.responses ∧ u.log = { s.log with latch := false } ∧
      (off + 4 < (Item.at i).size → u.writer = .writing i snapshot (off + 4)) ∧
      ((Item.at i).size ≤ off + 4 → u.writer = { s with writer := .idle }.chooseItem.writer) := by
  unfold reportWritten
  rw [h]
  dsimp only
  rw [if_pos rfl]
  by_cases hoff : off + 4 < (Item.at i).size
  · rw [if_pos hoff]
    exact ⟨rfl, rfl, rfl, rfl, fun _ => rfl, fun h => absurd hoff (by omega)⟩
  · rw [if_neg hoff]
    exact ⟨by simp, by simp, by simp, by simp, fun h => absurd h hoff, fun _ => chooseItem_writer_congr rfl rfl rfl rfl rfl⟩

/-- A report write that faults: its item is due again, and the fault is logged once (R174). -/
theorem reportWritten_fault {s : State} {i : Fin 67} {snapshot : List Byte} {off : Nat} (h : s.writer = .writing i snapshot off) (a : Addr) :
    let u := s.reportWritten false a
    u.posted = s.posted ∧ u.hold = s.hold ∧ u.responses = s.responses ∧ (s.mode = .run → u.toWrite i) ∧
      (s.mode ≠ .run → u.writer = .idle) ∧
      u.log = if s.log.latch then s.log
        else { s.logged [{ kind := .reportFault, zone := none, subject := some a.toNat, value := none }] with latch := true } := by
  obtain ⟨t, ht⟩ : ∃ t : State, t = { s with writer := .idle }.mark i := ⟨_, rfl⟩
  have hsame : t.posted = s.posted ∧ t.hold = s.hold ∧ t.responses = s.responses ∧ t.log = s.log ∧ t.time = s.time ∧ t.mode = s.mode := by
    rw [ht]; simp
  obtain ⟨hposted, hhold, hresponses, hlog, htime, hmode⟩ := hsame
  have hdue : s.mode = .run → t.toWrite i := fun hrun => by
    rw [ht]; exact toWrite_mark_self (s := { s with writer := .idle }) hrun i
  have hidle : s.mode ≠ .run → t.writer = .idle := fun hrun => by
    rw [ht, mark_outside_run (s := { s with writer := .idle }) hrun]
  have hu : s.reportWritten false a =
      if t.log.latch then t
      else
        { t.append .reportFault none (some a.toNat) none with
          log := { (t.append .reportFault none (some a.toNat) none).log with latch := true } } := by
    unfold reportWritten
    rw [h, ht]
    rfl
  rw [hu, hlog]
  clear hu ht
  cases s.log.latch with
  | true => exact ⟨hposted, hhold, hresponses, hdue, hidle, hlog⟩
  | false =>
    rw [if_neg (by decide)]
    refine ⟨by simp [hposted], by simp [hhold], by simp [hresponses], fun hrun => ?_, fun hrun => ?_, ?_⟩
    · exact toWrite_append (hdue hrun) _ _ _ _
    · exact (append_writer_outside_run (by rw [hmode]; exact hrun) _ _ _ _).trans (hidle hrun)
    · rw [if_neg (by decide), append_logged_nil, logged_congr hlog (by rw [htime])]

theorem reportWritten_idle {s : State} (h : s.writer = .idle) (done : Bool) (a : Addr) : s.reportWritten done a = s := by
  unfold reportWritten
  rw [h]

/-! ## The outcome at its requester -/

/-- The outcome of a transfer, handed to its requester once the port is free (R150). -/
theorem outcomeTaken_handOutcome (s : State) (p : Downstream) (x : Transfer) (done : Bool) (data : Data) :
    s.outcomeTaken x done data ((s.withPort p).handOutcome x done data) := by
  unfold outcomeTaken handOutcome
  cases x.who with
  | transit =>
    dsimp only
    cases x.write with
    | true =>
      simp only [if_true]
      intro q rest hq
      rw [postedDone_cons (s := s.withPort p) hq]
      obtain ⟨hposted, hhold, hresponses, hforce, hsweep, hcfg, hlog, hstore⟩ := (s.withPort p).delivered_spec q rest done
      obtain ⟨hwait, hnone⟩ := ((s.withPort p).delivered q rest done).deliveryDone_spec q
      have hawaits := fun e f => awaitsDelivery_congr (s := s) hsweep hcfg q e f
      exact ⟨_, hposted, hhold, hresponses, hforce, hsweep, hlog, hstore, fun e f h => hwait e f ((hawaits e f).mpr h),
        fun h => hnone fun e f ha => h e f ((hawaits e f).mp ha)⟩
    | false =>
      simp only [Bool.false_eq_true, if_false]
      refine ⟨fun a w z hr => hostReadDone_reading (s := s.withPort p) hr done data, fun hr => ?_⟩
      rw [hostReadDone_other (s := s.withPort p) hr]
      exact ⟨rfl, rfl, rfl⟩
  | fill => exact s.fillReadDone_withPort p x done data
  | engine =>
    intro e f he hf
    dsimp only
    rw [forceWritten_working (s := s.withPort p) he hf]
    cases done with
    | true =>
      obtain ⟨k, hstore, hstate, hattempts, -, hlog⟩ := forceActive_spec (s.withPort p) e f 0
      exact ⟨k.posted, k.hold, k.responses, fun _ => ⟨hstate, hattempts, hstore, hlog⟩, fun h => absurd h (by decide)⟩
    | false =>
      rw [if_neg (by decide)]
      obtain ⟨w, hw⟩ : ∃ w : State, w = (s.withPort p).setStore (s.store.invalidate s.queued f.cell) := ⟨_, rfl⟩
      have k := attemptFailed_worked w e f
      have hcounted := attemptFailed_spec s w e f (by rw [hw]; rfl) (by rw [hw]; rfl) (by rw [hw]; rfl) (by rw [hw]; rfl) (by rw [hw]; rfl)
        (by rw [hw]; rfl) (by rw [hw]; rfl) (by rw [hw]; rfl)
      have hsame : w.posted = s.posted ∧ w.hold = s.hold ∧ w.responses = s.responses := by rw [hw]; exact ⟨rfl, rfl, rfl⟩
      obtain ⟨hposted, hhold, hresponses⟩ := hsame
      rw [show (s.withPort p).setStore ((s.withPort p).store.invalidate (s.withPort p).queued f.cell) = w from hw.symm]
      rw [show w.store = s.store.invalidate s.queued f.cell by rw [hw]; rfl] at hcounted
      exact ⟨k.posted.trans hposted, k.hold.trans hhold, k.responses.trans hresponses, fun h => absurd h (by decide), fun _ => hcounted⟩
  | report =>
    dsimp only
    cases hw : s.writer with
    | idle =>
      rw [reportWritten_idle (s := s.withPort p) hw]
      exact ⟨rfl, rfl, rfl, fun i b off h => nomatch h⟩
    | writing i b off =>
      cases done with
      | true =>
        obtain ⟨hposted, hhold, hresponses, hlog, hmore, hlast⟩ := reportWritten_done (s := s.withPort p) hw x.addr
        refine ⟨hposted, hhold, hresponses, fun j c o h => ?_⟩
        cases h
        exact ⟨fun _ => ⟨hlog, hmore, fun h => (hlast h).trans (chooseItem_writer_congr rfl rfl rfl rfl rfl)⟩, fun h => absurd h (by decide)⟩
      | false =>
        obtain ⟨hposted, hhold, hresponses, hrun, hrest, hlog⟩ := reportWritten_fault (s := s.withPort p) hw x.addr
        refine ⟨hposted, hhold, hresponses, fun j c o h => ?_⟩
        cases h
        exact ⟨fun h => absurd h (by decide), fun _ => ⟨hrun, hrest, hlog⟩⟩

end State

open State

/-- Settles O48. -/
theorem transferCompletes : Obligations.TransferCompletes := by
  unfold Obligations.TransferCompletes
  refine ⟨fun s x hbusy => ⟨fun done data => ⟨_, exec_memoryAnswer_busy hbusy done data, ?_, ?_, outcomeTaken_handOutcome s _ x done data⟩,
    fun hdue => ⟨_, exec_downstreamTimeout_busy hbusy hdue, ?_, ?_, ?_, outcomeTaken_handOutcome s _ x false 0#32⟩⟩,
    fun s done data h => ?_⟩
  · rw [handOutcome_port]; rfl
  · rw [handOutcome_port]; rfl
  · rw [handOutcome_port]; rfl
  · rw [handOutcome_port]; rfl
  · rw [handOutcome_port]; rfl
  · show execMemoryAnswer done data s = _
    unfold execMemoryAnswer
    obtain h | h := h <;> rw [h]

end Sys2Proof.Machine
end

section
/-!
PROOFS. An upstream reset and its release (chapters 4 to 7).
-/
namespace Sys2Proof.Machine

namespace State

/-! ## The request the port held -/

/-- What an upstream reset leaves alone. -/
structure ResetKept (s u : State) : Prop where
  busReset : u.busReset = s.busReset
  responses : u.responses = s.responses
  zones : u.zones = s.zones
  force : u.force = s.force
  sweep : u.sweep = s.sweep
  requests : u.requests = s.requests
  port : u.port = s.port
  field : s.sameField u
  agenda : u.agenda = s.agenda
  hostWaiting : u.hostWaiting = s.hostWaiting
  posted : samePosted u.posted s.posted
  time : u.time = s.time

theorem ResetKept.trans {s t u : State} (h : ResetKept s t) (k : ResetKept t u) : ResetKept s u := by
  obtain ⟨h1, h2, h3, h4, h5⟩ := h.field
  obtain ⟨k1, k2, k3, k4, k5⟩ := k.field
  exact ⟨k.busReset.trans h.busReset, k.responses.trans h.responses, k.zones.trans h.zones, k.force.trans h.force, k.sweep.trans h.sweep,
    k.requests.trans h.requests, k.port.trans h.port, ⟨k1.trans h1, k2.trans h2, k3.trans h3, k4.trans h4, k5.trans h5⟩,
    k.agenda.trans h.agenda, k.hostWaiting.trans h.hostWaiting, samePosted_trans k.posted h.posted, k.time.trans h.time⟩

/-- What an upstream reset drops of a waiting placement: a hold entry's, and the host's where the request itself waited. -/
def resetDrops (s : State) (q : Placement) : Bool :=
  match q.source with
  | .host _ _ => decide (s.upstream = .placing)
  | .hold => true
  | .engine _ => false

/-- The request the port holds is abandoned, by where it stands (R78, R97, R117). -/
theorem abandonRequest_spec (s : State) :
    let u := s.abandonRequest
    ResetKept s u ∧ u.upstream = .idle ∧ u.hold = s.hold ∧ u.log = s.log ∧
      u.waiting.filter (fun q => q.source != .hold) = s.waiting.filter (fun q => !s.resetDrops q) ∧
      u.checker = (if s.upstream = .judging then .idle else s.checker) ∧
      (∀ a v z p style, s.upstream = .judging → s.checker = .awaiting a v z p style false → u.store = s.store.abandon) ∧
      ((∀ a v z p style, s.upstream = .judging → s.checker ≠ .awaiting a v z p style false) → u.store = s.store) := by
  have kept : ∀ u : State, u = { s with upstream := u.upstream, posted := u.posted, waiting := u.waiting, checker := u.checker, store := u.store } →
      samePosted u.posted s.posted → ResetKept s u := by
    intro u hu hposted
    have hf : s.sameField u := by rw [hu]; exact ⟨rfl, rfl, rfl, rfl, rfl⟩
    exact ⟨by rw [hu], by rw [hu], by rw [hu], by rw [hu], by rw [hu], by rw [hu], by rw [hu], hf, by rw [hu], by rw [hu], hposted, by rw [hu]⟩
  have stays : s.upstream ≠ .placing →
      s.waiting.filter (fun q => q.source != .hold) = s.waiting.filter (fun q => !s.resetDrops q) := by
    intro hno
    refine List.filter_congr fun q _ => ?_
    unfold resetDrops
    cases q.source <;> simp [hno]
  unfold abandonRequest
  cases hup : s.upstream with
  | idle =>
    exact ⟨kept s rfl rfl, hup, rfl, rfl, stays (by rw [hup]; decide), by simp, fun _ _ _ _ _ h => (nomatch h), fun _ => rfl⟩
  | reading a w z flying =>
    refine ⟨kept _ rfl ?_, rfl, rfl, rfl, stays (by rw [hup]; exact Upstream.noConfusion), by simp, fun _ _ _ _ _ h => (nomatch h), fun _ => rfl⟩
    simp [samePosted, still]
  | placing =>
    refine ⟨kept _ rfl rfl, rfl, rfl, rfl, ?_, by simp, fun _ _ _ _ _ h => (nomatch h), fun _ => rfl⟩
    rw [List.filter_filter]
    refine List.filter_congr fun q _ => ?_
    unfold resetDrops
    cases q.source <;> simp [hup]
  | judging =>
    have hwait := stays (by rw [hup]; decide)
    cases hw : s.checker with
    | idle => exact ⟨kept _ rfl rfl, rfl, rfl, rfl, hwait, by simp, fun _ _ _ _ _ _ h => (nomatch h), fun _ => rfl⟩
    | awaiting a v z p style held =>
      cases held with
      | true =>
        refine ⟨kept _ rfl rfl, rfl, rfl, rfl, hwait, by simp, fun _ _ _ _ _ _ h => ?_, fun _ => rfl⟩
        cases h
      | false =>
        exact ⟨kept _ rfl rfl, rfl, rfl, rfl, hwait, by simp, fun _ _ _ _ _ _ _ => rfl, fun h => absurd rfl (h a v z p style rfl)⟩

/-- The hold queue emptied (R127). -/
theorem emptyHolds_spec (s : State) :
    let u := s.emptyHolds
    ResetKept s u ∧ u.upstream = s.upstream ∧ u.checker = s.checker ∧ u.store = s.store ∧ u.hold = [] ∧
      u.waiting = s.waiting.filter (fun q => q.source != .hold) ∧
      u.log = (if s.hold = [] then s.log
        else s.logged [{ kind := .holdDiscarded, zone := none, subject := none, value := some s.hold.length }]) := by
  obtain ⟨t, ht⟩ : ∃ t : State, t = { s.setHold [] with waiting := s.waiting.filter (fun q => q.source != .hold) } := ⟨_, rfl⟩
  have hu : s.emptyHolds = if s.hold.length = 0 then t else t.append .holdDiscarded none none (some s.hold.length) := by
    rw [ht]
    unfold emptyHolds
    simp
  have hsame : ResetKept s t ∧ t.upstream = s.upstream ∧ t.checker = s.checker ∧ t.store = s.store ∧ t.hold = [] ∧
      t.waiting = s.waiting.filter (fun q => q.source != .hold) ∧ t.log = s.log := by
    rw [ht]
    refine ⟨⟨by simp, by simp, by simp, by simp, by simp, by simp, by simp, by simp [sameField], by simp, by simp, by simp [samePosted],
      by simp⟩, by simp, by simp, by simp, by simp, rfl, by simp⟩
  clear ht
  obtain ⟨k, hupstream, hchecker, hstore, hhold, hwaiting, hlog⟩ := hsame
  rw [hu]
  cases hq : s.hold with
  | nil => exact ⟨k, hupstream, hchecker, hstore, hhold, hwaiting, hlog⟩
  | cons e rest =>
    rw [if_neg (by simp), if_neg (by simp)]
    refine ⟨k.trans ⟨by simp, by simp, by simp, by simp, by simp, by simp, by simp, by simp [sameField], by simp, by simp,
      by simp [samePosted], by simp⟩, by simp [hupstream], by simp [hchecker], by simp [hstore], by simp [hhold], by simp [hwaiting], ?_⟩
    rw [append_logged_nil, logged_congr hlog (by rw [k.time])]

/-! ## A claim abandoned -/

/-- An abandoned claim that has not settled stays; one that has is gone (R97, R117). -/
theorem abandon_spec (c : CellStore) :
    (∀ k, c.checkerClaim = some k →
      (k.stage = .listed ∨ k.stage = .joined → c.abandon.checkerClaim = some { k with abandoned := true }) ∧
        ∀ value, k.stage = .settled value → c.abandon.checkerClaim = none) ∧
      c.abandon.lines = c.lines ∧ c.abandon.lru = c.lru ∧ c.abandon.fill = c.fill ∧ c.abandon.engineClaim = c.engineClaim := by
  refine ⟨fun k hk => ?_, rfl, rfl, rfl, rfl⟩
  obtain ⟨cell, stage, ab⟩ := k
  refine ⟨fun hs => ?_, fun value hs => ?_⟩
  · obtain rfl | rfl := hs <;> simp [CellStore.abandon, hk, Claim.unsettled, Option.filter]
  · subst hs
    simp [CellStore.abandon, hk, Claim.unsettled, Option.filter]

/-! ## The part after a reset -/

/-- The state an upstream reset takes the part to, before the end of its step. -/
def upstreamReset (s : State) : State := { s with busReset := true }.abandonRequest.emptyHolds

theorem exec_upstreamReset {s : State} (h : s.busReset = false) : exec .upstreamReset s = .next s.upstreamReset.finish :=
  if_neg (by rw [h]; decide)

theorem portOpen_in_reset {s : State} (h : s.busReset = true) : s.portOpen = false := by simp [portOpen, h]

end State

open State

/-- Settles O41. -/
theorem upstreamResets : Obligations.UpstreamResets := by
  unfold Obligations.UpstreamResets
  intro s
  refine ⟨fun hreset => ?_, fun hreset => ⟨if_pos hreset, fun halive hmode hidle => ?_, fun hcalm hhost => ?_⟩, fun h => if_pos h,
    fun h => if_neg (by rw [h]; decide)⟩
  · obtain ⟨ka, aup, ahold, alog, awaiting, achecker, aabandon, astore⟩ := abandonRequest_spec { s with busReset := true }
    obtain ⟨kb, bup, bchecker, bstore, bhold, bwaiting, blog⟩ := emptyHolds_spec { s with busReset := true }.abandonRequest
    have k := ka.trans kb
    have hlog : s.upstreamReset.log = (if s.hold = [] then s.log
        else s.logged [{ kind := .holdDiscarded, zone := none, subject := none, value := some s.hold.length }]) := by
      rw [ahold, alog] at blog
      rw [logged_congr (s := s) alog (by rw [ka.time])] at blog
      exact blog
    have hwaiting := bwaiting.trans awaiting
    have hchecker := bchecker.trans achecker
    have hupstream := bup.trans aup
    have hexec := exec_upstreamReset hreset
    have hdef : { s with busReset := true }.abandonRequest.emptyHolds = s.upstreamReset := rfl
    have hstore : s.upstreamReset.store = { s with busReset := true }.abandonRequest.store := bstore
    rw [hdef] at k bhold hwaiting hchecker hupstream
    clear hdef
    generalize s.upstreamReset = u at *
    refine ⟨u, hexec, k.busReset, hupstream, k.responses, bhold, k.zones, k.force, k.sweep, k.requests, k.port, k.field, k.agenda,
      k.hostWaiting, k.posted, hwaiting.trans (List.filter_congr fun q _ => ?_), hchecker, fun a v z p style hj hw => ?_, fun h => ?_, hlog,
      fun hcalm => ?_⟩
    · unfold resetDrops
      cases q.source <;> rfl
    · obtain ⟨hclaim, hlines, hlru, hfill, hengine⟩ := abandon_spec s.store
      have hst : u.store = s.store.abandon := hstore.trans (aabandon a v z p style hj hw)
      rw [hst]
      exact ⟨rfl, hclaim, hlines, hlru, hfill, hengine⟩
    · exact hstore.trans (astore h)
    · have hfinish : u.finish = u.conclude := finish_of_calm (k.agenda.trans hcalm) (.inr (portOpen_in_reset k.busReset))
      have j := concluded_conclude u
      rw [hfinish]
      exact ⟨j.inside.busReset.trans k.busReset,
        (j.upstream_eq (by rw [hupstream]; exact fun _ _ _ _ => Upstream.noConfusion)).trans hupstream, j.responses.trans k.responses,
        j.hold.trans bhold, j.zones.trans k.zones, j.force.trans k.force, j.waiting, j.checker, j.inside.hostWaiting.trans k.hostWaiting,
        samePosted_trans j.posted k.posted, j.log⟩
  · simp [portOpen, hmode, hidle]
    exact halive
  · intro t
    obtain ⟨u, hu⟩ : ∃ u : State, u = { s with busReset := false } := ⟨_, rfl⟩
    have ht : t = u.conclude := by
      have := finish_of_calm (s := u) (by rw [hu]; exact hcalm) (.inl (by rw [hu]; exact hhost))
      rw [hu] at this ⊢
      exact this
    have j := concluded_conclude u
    rw [ht]
    refine ⟨j.inside.busReset.trans (by rw [hu]), fun hidle => ?_, j.hold.trans (by rw [hu]), j.zones.trans (by rw [hu]),
      j.log.trans (by rw [hu]), j.responses.trans (by rw [hu])⟩
    have hui : u.upstream = .idle := by rw [hu]; exact hidle
    exact (j.upstream_eq (by rw [hui]; exact fun _ _ _ _ => Upstream.noConfusion)).trans hui

end Sys2Proof.Machine
end

section
/-!
PROOFS. The hold queue at an expiry and at a level change (chapter 7).
-/
namespace Sys2Proof.Machine

theorem cellValue_cellData (v : Half) : cellValue (cellData v) = v := by
  unfold cellValue cellData
  simp

namespace State

/-! ## Entries that leave -/

/-- The entries whose cells are not among those of `l`. -/
def holdWithout (s : State) (l : List HoldEntry) : List HoldEntry := s.hold.filter (fun h => !l.any (fun e => e.cell == h.cell))

/-- One entry expires. -/
def expireOne (s : State) (e : HoldEntry) : State :=
  (s.dropHold e.cell).append .holdExpired (some e.zone) (some e.cell.toNat) (some e.value.toNat)

theorem dropHold_hold (s : State) (a : Addr) : (s.dropHold a).hold = s.hold.filter (fun h => h.cell != a) := by simp [dropHold]

/-- What hold entries that leave for themselves alone leave as it was. -/
structure HoldsLeft (s u : State) : Prop where
  posted : u.posted = s.posted
  responses : u.responses = s.responses
  zones : u.zones = s.zones
  force : u.force = s.force
  store : u.store = s.store
  time : u.time = s.time

/-- Entries expire one after another: each leaves with its record. -/
theorem expireAll_spec (l : List HoldEntry) (s : State) :
    HoldsLeft s (l.foldl expireOne s) ∧ (l.foldl expireOne s).hold = s.holdWithout l ∧
      (l.foldl expireOne s).log = s.logged (l.map (fun e => cellSaid .holdExpired e.zone e.cell e.value)) := by
  induction l generalizing s with
  | nil => exact ⟨⟨rfl, rfl, rfl, rfl, rfl, rfl⟩, by simp [holdWithout], rfl⟩
  | cons e l ih =>
    obtain ⟨t, ht⟩ : ∃ t : State, t = s.expireOne e := ⟨_, rfl⟩
    have kept : HoldsLeft s t := by
      rw [ht]
      refine ⟨?_, ?_, ?_, ?_, ?_, ?_⟩ <;> simp [expireOne, dropHold]
    have hhold : t.hold = s.hold.filter (fun h => h.cell != e.cell) := by rw [ht]; simp [expireOne, dropHold]
    have hlog : t.log = s.logged [cellSaid .holdExpired e.zone e.cell e.value] := by
      rw [ht]
      exact (append_logged_nil _ _ _ _ _).trans (logged_congr (by simp [dropHold]) (by simp [dropHold]) _)
    rw [List.foldl_cons, ← ht]
    obtain ⟨k, khold, klog⟩ := ih t
    refine ⟨⟨k.posted.trans kept.posted, k.responses.trans kept.responses, k.zones.trans kept.zones, k.force.trans kept.force,
      k.store.trans kept.store, k.time.trans kept.time⟩, ?_, ?_⟩
    · rw [khold]
      unfold holdWithout
      rw [hhold, List.filter_filter]
      refine List.filter_congr fun h _ => ?_
      rw [List.any_cons, Bool.not_or, Bool.and_comm, bne, Bool.beq_comm]
    · rw [klog, List.map_cons, logged_append hlog (by rw [kept.time])]
      rfl

/-- In a sound hold queue one entry stands for a cell. -/
theorem hold_cell_unique {s : State} (h : s.holdSound) {a b : HoldEntry} (ha : a ∈ s.hold) (hb : b ∈ s.hold) (hc : a.cell = b.cell) :
    a = b := List.inj_on_of_nodup_map h.2 ha hb hc

/-- Taking away the cells of some of its entries takes away those entries. -/
theorem holdWithout_filter {s : State} (h : s.holdSound) (p : HoldEntry → Bool) :
    s.holdWithout (s.hold.filter p) = s.hold.filter (fun e => !p e) := by
  refine List.filter_congr fun e he => ?_
  rw [Bool.not_inj_iff]
  cases hp : p e with
  | true => exact List.any_eq_true.mpr ⟨e, List.mem_filter.mpr ⟨he, hp⟩, beq_self_eq_true _⟩
  | false =>
    refine List.any_eq_false.mpr fun d hd => ?_
    obtain ⟨hmem, hpd⟩ := List.mem_filter.mp hd
    rw [beq_iff_eq]
    intro hc
    rw [hold_cell_unique h hmem he hc, hp] at hpd
    cases hpd

end State

open State

/-- Settles O43. -/
theorem holdExpires : Obligations.HoldExpires := by
  unfold Obligations.HoldExpires
  intro s hsound hdue
  obtain ⟨k, hhold, hlog⟩ := expireAll_spec (s.hold.filter (fun e => decide (e.expiry ≤ s.time.seconds))) s
  refine ⟨s.expireHolds, if_pos ?_, hhold.trans ?_, k.posted, k.responses, k.zones, k.force, k.store, expireHolds_waiting s, hlog⟩
  · obtain ⟨e, he, hexp⟩ := hdue
    exact List.any_eq_true.mpr ⟨e, he, decide_eq_true hexp⟩
  · rw [holdWithout_filter hsound]
    refine List.filter_congr fun e _ => ?_
    rw [← decide_not, decide_eq_decide, Nat.not_le]

namespace State

/-! ## Entries judged again -/

/-- The entry for a cell RELEASING, with the value it is released with. -/
def holdReleasing (s : State) (a : Addr) (v : Half) : List HoldEntry :=
  s.hold.map (fun h => if h.cell = a then { h with value := v, releasing := true } else h)

theorem holdReleasing_others (s : State) (a : Addr) (v : Half) :
    (s.holdReleasing a v).filter (fun h => h.cell != a) = s.hold.filter (fun h => h.cell != a) := by
  unfold holdReleasing
  induction s.hold with
  | nil => rfl
  | cons h l ih =>
    rw [List.map_cons, List.filter_cons, List.filter_cons, ih]
    by_cases hc : h.cell = a
    · simp [hc]
    · simp [hc]

/-- The placement of a hold entry released with a value (R122). -/
def holdPlacement (e : HoldEntry) (v : Half) : Placement :=
  { source := .hold, addr := e.cell, width := .w2, data := cellData v, checked := true, zone := some e.zone }

theorem storeAfter_checked {s : State} {p : Placement} (h : p.checked = true) :
    s.storeAfter p = s.store.writeThrough p.addr (cellValue p.data) := if_pos h

/-- An entry released: it enters the posted queue where there is room, else waits RELEASING (R122). -/
theorem releaseHold_spec (s : State) (e : HoldEntry) (v : Half) :
    let t := s.releaseHold e v
    t.log = s.log ∧ t.responses = s.responses ∧
      (s.posted.length < 8 ∧ s.waiting = [] →
        t.hold = s.hold.filter (fun h => h.cell != e.cell) ∧ t.store = s.store.writeThrough e.cell v ∧ t.waiting = [] ∧
          t.posted = s.posted ++ [entryOf (holdPlacement e v)]) ∧
      (¬(s.posted.length < 8 ∧ s.waiting = []) →
        t.posted = s.posted ∧ t.store = s.store ∧ t.hold = s.holdReleasing e.cell v ∧ t.waiting = s.waiting ++ [holdPlacement e v]) := by
  obtain ⟨w, hw⟩ : ∃ w : State, w = s.setHold (s.holdReleasing e.cell v) := ⟨_, rfl⟩
  have ht : s.releaseHold e v = w.place (holdPlacement e v) := by rw [hw]; rfl
  have hsame : w.log = s.log ∧ w.responses = s.responses ∧ w.posted = s.posted ∧ w.waiting = s.waiting ∧ w.store = s.store ∧
      w.hold = s.holdReleasing e.cell v := by rw [hw]; simp
  rw [ht]
  clear ht hw
  obtain ⟨hlog, hresponses, hposted, hwaiting, hstore, hhold⟩ := hsame
  by_cases hroom : s.posted.length < 8 ∧ s.waiting = []
  · rw [place_of_room (by rw [hposted, hwaiting]; exact hroom), enter_hold rfl]
    obtain ⟨k, kresponses, -⟩ := w.entering_spec (holdPlacement e v)
    refine ⟨by simp [k.log, hlog], by simp [kresponses, hresponses], fun _ => ⟨?_, ?_, ?_, ?_⟩, fun h => absurd hroom h⟩
    · rw [setHold_hold, k.hold, hhold]
      exact holdReleasing_others s e.cell v
    · simp only [setHold_frame, k.store]
      rw [storeAfter_checked rfl, hstore]
      exact congrArg _ (cellValue_cellData v)
    · simp [k.waiting, hwaiting, hroom.2]
    · simp [k.posted, hposted]
  · rw [place_of_full (by rw [hposted, hwaiting]; exact hroom)]
    exact ⟨hlog, hresponses, fun h => absurd h hroom, fun _ => ⟨hposted, hstore, hhold, by rw [hwaiting]⟩⟩

theorem rejudgeEntry_value {s : State} {level : Fin 4} {e : HoldEntry} {v : Half}
    (h : ((s.cfg.profiles.get e.profile).levels.get level).judge e.value = .value v) : s.rejudgeEntry level e = s.releaseHold e v := by
  unfold State.rejudgeEntry
  rw [h]

theorem rejudgeEntry_hold {s : State} {level : Fin 4} {e : HoldEntry}
    (h : ((s.cfg.profiles.get e.profile).levels.get level).judge e.value = .hold) : s.rejudgeEntry level e = s := by
  unfold State.rejudgeEntry
  rw [h]

theorem rejudgeEntry_refuse {s : State} {level : Fin 4} {e : HoldEntry}
    (h : ((s.cfg.profiles.get e.profile).levels.get level).judge e.value = .refuse) :
    s.rejudgeEntry level e =
      (s.dropHold e.cell).append .holdDiscarded (some e.zone) (some e.cell.toNat) (some e.value.toNat) := by
  unfold State.rejudgeEntry
  rw [h]

/-- An entry judged again leaves the entries of the other cells. -/
theorem rejudgeEntry_others {s : State} (level : Fin 4) (e : HoldEntry) {h : HoldEntry} (hmem : h ∈ s.hold) (hc : h.cell ≠ e.cell) :
    h ∈ (s.rejudgeEntry level e).hold := by
  have hstays : h ∈ s.hold.filter (fun h => h.cell != e.cell) := List.mem_filter.mpr ⟨hmem, by simpa using hc⟩
  cases hj : ((s.cfg.profiles.get e.profile).levels.get level).judge e.value with
  | hold => rw [rejudgeEntry_hold hj]; exact hmem
  | refuse => rw [rejudgeEntry_refuse hj]; simpa [dropHold_hold] using ⟨hmem, hc⟩
  | value v =>
    rw [rejudgeEntry_value hj]
    obtain ⟨-, -, hroom, hfull⟩ := s.releaseHold_spec e v
    by_cases hr : s.posted.length < 8 ∧ s.waiting = []
    · obtain ⟨hhold, -⟩ := hroom hr
      rw [hhold]; exact hstays
    · obtain ⟨-, -, hhold, -⟩ := hfull hr
      rw [hhold]
      exact List.mem_map.mpr ⟨h, hmem, if_neg hc⟩

theorem rejudgeAll_others (level : Fin 4) {h : HoldEntry} (l : List HoldEntry) (hl : ∀ e ∈ l, h.cell ≠ e.cell) {s : State}
    (hmem : h ∈ s.hold) : h ∈ (l.foldl (fun s e => s.rejudgeEntry level e) s).hold := by
  induction l generalizing s with
  | nil => exact hmem
  | cons e l ih =>
    rw [List.foldl_cons]
    exact ih (fun d hd => hl d (List.mem_cons_of_mem _ hd)) (rejudgeEntry_others level e hmem (hl e List.mem_cons_self))

end State

/-- Settles O44. -/
theorem rejudgement : Obligations.Rejudgement := by
  unfold Obligations.Rejudgement
  have hzone : ∀ (s : State) (z level : Fin 4), s.takeNotice (.levelChange z level) =
      (s.hold.filter (fun e => decide (e.zone = z) && !e.releasing)).foldl (fun s e => s.rejudgeEntry level e) s := fun _ _ _ => rfl
  refine ⟨hzone, fun s z level h hsound hmem hother => ?_, fun s level e => ⟨rejudgeEntry_hold, fun hj => ?_, fun v hj => ?_⟩⟩
  · rw [hzone]
    refine rejudgeAll_others level _ (fun e he hc => ?_) hmem
    obtain ⟨hin, hjudged⟩ := List.mem_filter.mp he
    rw [Bool.and_eq_true, decide_eq_true_iff, Bool.not_eq_true'] at hjudged
    rw [hold_cell_unique hsound hmem hin hc, hjudged.2] at hother
    exact hother.elim (fun hz => hz hjudged.1) (fun hr => nomatch hr)
  · rw [rejudgeEntry_refuse hj]
    refine ⟨by simp [dropHold_hold], by simp [dropHold], by simp [dropHold], ?_⟩
    exact (append_logged_nil _ _ _ _ _).trans (logged_congr (by simp [dropHold]) (by simp [dropHold]) _)
  · rw [rejudgeEntry_value hj]
    exact s.releaseHold_spec e v

end Sys2Proof.Machine
end

section
/-!
PROOFS. A force apply and a force release at their entry (chapter 8).
-/
namespace Sys2Proof.Machine

namespace State

/-! ## A release that ends -/

/-- An entry's release has ended: the entry is IDLE, the fan proof unit and the engine are told, the sweep is past the entry (R136, R144). -/
structure Released (t u : State) (e : Fin 16) : Prop where
  entry : u.force.get e = { t.force.get e with state := .idle, prior := none, last := none }
  others : ∀ e', e' ≠ e → u.force.get e' = t.force.get e'
  sweep : u.sweep = t.sweep.map (fun w => { w with work := .boundary, entry := e.val + 1 })
  agenda : u.agenda = t.agenda ++ [.entryIdle e, .engineGo]
  waiting : u.waiting = t.waiting
  zones : u.zones = t.zones
  responses : u.responses = t.responses
  posted : u.posted = t.posted
  hold : u.hold = t.hold
  log : u.log = t.log
  store : u.store = t.store

theorem releaseDone_spec (t : State) (e : Fin 16) : Released t (t.releaseDone e) e := by
  unfold releaseDone entryBoundary
  dsimp only
  refine ⟨by simp, fun e' he => ?_, by simp, by simp, by simp, by simp, by simp, by simp, by simp, by simp, by simp⟩
  simp [Tab.get_set_of_ne _ (Ne.symm he)]

/-- The entry taken for its release (R143). -/
def releasing (s : State) (e : Fin 16) : State := s.setForce e { s.force.get e with state := .releasing, retry := .stopped }

/-- What a release that ends at once comes to, of the state it began in. -/
theorem Released.of_releasing {s t u : State} {e : Fin 16} (h : Released t u e)
    (hforce : t.force = s.force.set e { s.force.get e with state := .releasing, retry := .stopped })
    (hsweep : t.sweep = s.sweep ∨ t.sweep = s.sweep.map (fun w => { w with work := .placing })) (hagenda : t.agenda = s.agenda) :
    u.force.get e = { s.force.get e with state := .idle, prior := none, last := none, retry := .stopped } ∧
      u.sweep = s.sweep.map (fun w => { w with work := .boundary, entry := e.val + 1 }) ∧
      u.agenda = s.agenda ++ [.entryIdle e, .engineGo] := by
  refine ⟨by rw [h.entry, hforce, Tab.get_set_self], ?_, by rw [h.agenda, hagenda]⟩
  rw [h.sweep]
  obtain hs | hs := hsweep
  · rw [hs]
  · rw [hs, Option.map_map]
    rfl

/-- What every release leaves alone. -/
structure ReleaseKept (s u : State) (e : Fin 16) : Prop where
  zones : u.zones = s.zones
  responses : u.responses = s.responses
  others : ∀ e', e' ≠ e → u.force.get e' = s.force.get e'

/-- A state in which a release goes on: only its entry has changed. -/
theorem ReleaseKept.of_releasing {s t : State} {e : Fin 16}
    (hforce : t.force = s.force.set e { s.force.get e with state := .releasing, retry := .stopped }) (hzones : t.zones = s.zones)
    (hresponses : t.responses = s.responses) : ReleaseKept s t e :=
  ⟨hzones, hresponses, fun e' he => by rw [hforce, Tab.get_set_of_ne _ (Ne.symm he)]⟩

theorem ReleaseKept.released {s t u : State} {e : Fin 16} (h : ReleaseKept s t e) (k : Released t u e) : ReleaseKept s u e :=
  ⟨k.zones.trans h.zones, k.responses.trans h.responses, fun e' he => (k.others e' he).trans (h.others e' he)⟩

/-- The placement of a release's value (R144). -/
def releasePlacement (e : Fin 16) (f : ForceCfg) (v : Half) : Placement :=
  { source := .engine e, addr := f.cell, width := .w2, data := cellData v, checked := true, zone := some f.zone }

/-! ## The release value judged (R119, R144) -/

/-- The release value placed: at once, or as a placement that waits. -/
theorem release_placed {s t u : State} {e : Fin 16} {f : ForceCfg} {v : Half} (ht : t = s.releasing e)
    (hu : u = (t.setWork .placing).place (releasePlacement e f v)) :
    ReleaseKept s u e ∧ u.hold = s.hold ∧ u.log = s.log ∧
      (s.posted.length < 8 ∧ s.waiting = [] →
        (u.force.get e = { s.force.get e with state := .idle, prior := none, last := none, retry := .stopped } ∧
          u.sweep = s.sweep.map (fun w => { w with work := .boundary, entry := e.val + 1 }) ∧
          u.agenda = s.agenda ++ [.entryIdle e, .engineGo] ∧ u.waiting = s.waiting) ∧
        u.store = s.store.writeThrough f.cell v ∧ u.posted = s.posted ++ [entryOf (releasePlacement e f v)]) ∧
      (¬(s.posted.length < 8 ∧ s.waiting = []) →
        u.force.get e = { s.force.get e with state := .releasing, retry := .stopped } ∧ u.posted = s.posted ∧ u.store = s.store ∧
          u.sweep = s.sweep.map (fun x => { x with work := .placing }) ∧ u.agenda = s.agenda ∧
          u.waiting = s.waiting ++ [releasePlacement e f v]) := by
  obtain ⟨w, hw⟩ : ∃ w : State, w = t.setWork .placing := ⟨_, rfl⟩
  have hforce : w.force = s.force.set e { s.force.get e with state := .releasing, retry := .stopped } := by
    rw [hw, ht]; simp [releasing]
  have hsweep : w.sweep = s.sweep.map (fun x => { x with work := .placing }) := by rw [hw, ht]; rfl
  have hsame : w.zones = s.zones ∧ w.responses = s.responses ∧ w.hold = s.hold ∧ w.log = s.log ∧ w.posted = s.posted ∧
      w.waiting = s.waiting ∧ w.store = s.store ∧ w.agenda = s.agenda := by rw [hw, ht]; simp [releasing]
  rw [← hw] at hu
  clear hw ht
  obtain ⟨hzones, hresponses, hhold, hlog, hposted, hwaiting, hstore, hagenda⟩ := hsame
  by_cases hroom : s.posted.length < 8 ∧ s.waiting = []
  · rw [place_of_room (by rw [hposted, hwaiting]; exact hroom), enter_engine rfl] at hu
    obtain ⟨k, kresponses, -⟩ := w.entering_spec (releasePlacement e f v)
    have r := (w.entering (releasePlacement e f v)).releaseDone_spec e
    rw [← hu] at r
    clear hu
    obtain ⟨hentry, hsw, hag⟩ := r.of_releasing (k.force.trans hforce) (.inr (k.sweep.trans hsweep)) (k.agenda.trans hagenda)
    refine ⟨(ReleaseKept.of_releasing (k.force.trans hforce) (k.zones.trans hzones) (kresponses.trans hresponses)).released r,
      r.hold.trans (k.hold.trans hhold), r.log.trans (k.log.trans hlog), fun _ => ⟨⟨hentry, hsw, hag,
        r.waiting.trans (k.waiting.trans hwaiting)⟩, ?_, ?_⟩, fun h => absurd hroom h⟩
    · rw [r.store, k.store, storeAfter_checked rfl, hstore]
      exact congrArg _ (cellValue_cellData v)
    · rw [r.posted, k.posted, hposted]
  · rw [place_of_full (by rw [hposted, hwaiting]; exact hroom)] at hu
    rw [hu]
    exact ⟨.of_releasing hforce hzones hresponses, hhold, hlog, fun h => absurd h hroom,
      fun _ => ⟨by dsimp only; rw [hforce, Tab.get_set_self], hposted, hstore, hsweep, hagenda, by rw [hwaiting]⟩⟩

/-- What the part's own hold entry leaves alone, and what it becomes (R119). -/
theorem holdPart_spec (t : State) (a : Addr) (v : Half) (z : Fin 4) (p : Fin 8) :
    let u := t.holdPart a v z p
    u.force = t.force ∧ u.sweep = t.sweep ∧ u.agenda = t.agenda ∧ u.zones = t.zones ∧ u.responses = t.responses ∧ u.posted = t.posted ∧
      u.store = t.store ∧
      ((∃ h ∈ t.hold, h.cell = a) → u.hold = t.hold ∧ u.log = t.logged [cellSaid .holdDiscarded z a v]) ∧
      ((∀ h ∈ t.hold, h.cell ≠ a) → t.hold.length < 8 →
        u.log = t.logged [cellSaid .holdEntered z a v] ∧
          u.hold = t.hold ++ [{ cell := a, value := v, zone := z, profile := p, origin := .part, entered := t.time.seconds,
                                expiry := t.time.seconds + (t.cfg.profiles.get p).holdLimit, releasing := false }]) ∧
      ((∀ h ∈ t.hold, h.cell ≠ a) → 8 ≤ t.hold.length → u.hold = t.hold ∧ u.log = t.logged [cellSaid .holdFull z a v]) := by
  have hsome : (t.holdOf a).isSome = true ↔ ∃ h ∈ t.hold, h.cell = a := by simp [holdOf, List.find?_isSome]
  unfold holdPart
  by_cases hex : ∃ h ∈ t.hold, h.cell = a
  · rw [if_pos (hsome.mpr hex)]
    obtain ⟨h, hmem, hc⟩ := hex
    refine ⟨by simp, by simp, by simp, by simp, by simp, by simp, by simp, fun _ => ⟨by simp, append_logged_nil _ _ _ _ _⟩,
      fun hno => absurd hc (hno h hmem), fun hno => absurd hc (hno h hmem)⟩
  · have hno : ∀ h ∈ t.hold, h.cell ≠ a := fun h hmem hc => hex ⟨h, hmem, hc⟩
    rw [if_neg (fun h => hex (hsome.mp h))]
    by_cases hlen : t.hold.length < 8
    · rw [if_pos hlen]
      have hkeep : t.hold.filter (fun h => h.cell != a) = t.hold := List.filter_eq_self.mpr (fun h hmem => by simpa using hno h hmem)
      refine ⟨by simp [joinHold], by simp [joinHold], by simp [joinHold], by simp [joinHold], by simp [joinHold], by simp [joinHold],
        by simp [joinHold], fun h => absurd h hex, fun _ _ => ⟨?_, by simp [joinHold, hkeep]⟩, fun _ h => absurd hlen (by omega)⟩
      exact (append_logged_nil _ _ _ _ _).trans (logged_congr (by simp) (by simp) _)
    · rw [if_neg hlen]
      exact ⟨by simp, by simp, by simp, by simp, by simp, by simp, by simp, fun h => absurd h hex, fun _ h => absurd h hlen,
        fun _ _ => ⟨by simp, append_logged_nil _ _ _ _ _⟩⟩

theorem forceRelease_none {s : State} {e : Fin 16} {f : ForceCfg} (h : releaseValue f.release (s.force.get e) = none) :
    s.forceRelease e f = (s.releasing e).releaseDone e := by
  unfold forceRelease releasing
  dsimp only
  rw [h]

theorem forceRelease_some {s : State} {e : Fin 16} {f : ForceCfg} {v : Half} (h : releaseValue f.release (s.force.get e) = some v) :
    s.forceRelease e f = (s.releasing e).forceJudge e f v := by
  unfold forceRelease releasing
  dsimp only
  rw [h]

theorem forceJudge_none {s : State} {f : ForceCfg} (h : s.cfg.checkedAt f.cell = none) (e : Fin 16) (v : Half) :
    s.forceJudge e f v = s.releaseDone e := by
  unfold forceJudge
  rw [h]

/-- The release value by its bounds judgement. -/
theorem forceJudge_some {s : State} {f : ForceCfg} {w : Window} (h : s.cfg.checkedAt f.cell = some w) (e : Fin 16) (v : Half) :
    let b := (s.cfg.profiles.get w.profile).levels.get (s.zoneLevel f.zone)
    (∀ v', b.judge v = .value v' → s.forceJudge e f v = (s.setWork .placing).place (releasePlacement e f v')) ∧
      (b.judge v = .hold → s.forceJudge e f v = (s.holdPart f.cell v f.zone w.profile).releaseDone e) ∧
      (b.judge v = .refuse →
        s.forceJudge e f v = (s.append .holdDiscarded (some f.zone) (some f.cell.toNat) (some v.toNat)).releaseDone e) := by
  intro b
  unfold forceJudge
  rw [h]
  dsimp only
  refine ⟨fun v' hj => ?_, fun hj => ?_, fun hj => ?_⟩ <;> rw [hj]
  rfl

/-- The states in which a release judges and ends differ from the one it began in at its entry alone. -/
theorem releasing_spec (s : State) (e : Fin 16) :
    (s.releasing e).force = s.force.set e { s.force.get e with state := .releasing, retry := .stopped } ∧
      (s.releasing e).sweep = s.sweep ∧ (s.releasing e).agenda = s.agenda ∧ (s.releasing e).zones = s.zones ∧
      (s.releasing e).responses = s.responses ∧ (s.releasing e).posted = s.posted ∧ (s.releasing e).store = s.store ∧
      (s.releasing e).hold = s.hold ∧ (s.releasing e).log = s.log ∧ (s.releasing e).waiting = s.waiting ∧ (s.releasing e).cfg = s.cfg ∧
      (s.releasing e).time = s.time := by
  simp [releasing]

/-- A release, by what it writes and by the judgement of that (R143, R144). -/
theorem forceRelease_kept (s : State) (e : Fin 16) (f : ForceCfg) : ReleaseKept s (s.forceRelease e f) e := by
  obtain ⟨hforce, -, -, hzones, hresponses, -, -, -, -, -, hcfg, -⟩ := s.releasing_spec e
  have start : ReleaseKept s (s.releasing e) e := .of_releasing hforce hzones hresponses
  cases hv : releaseValue f.release (s.force.get e) with
  | none => rw [forceRelease_none hv]; exact start.released (releaseDone_spec _ e)
  | some v =>
    rw [forceRelease_some hv]
    cases hw : s.cfg.checkedAt f.cell with
    | none =>
      rw [forceJudge_none (by rw [hcfg]; exact hw)]
      exact start.released (releaseDone_spec _ e)
    | some w =>
      obtain ⟨jvalue, jhold, jrefuse⟩ := forceJudge_some (s := s.releasing e) (by rw [hcfg]; exact hw) e v
      cases hj : (((s.releasing e).cfg.profiles.get w.profile).levels.get ((s.releasing e).zoneLevel f.zone)).judge v with
      | value v' =>
        rw [jvalue v' hj]
        obtain ⟨k, -⟩ := release_placed (s := s) (e := e) (f := f) (v := v') rfl rfl
        exact k
      | hold =>
        rw [jhold hj]
        obtain ⟨hf, -, -, hz, hr, -⟩ := (s.releasing e).holdPart_spec f.cell v f.zone w.profile
        exact (ReleaseKept.of_releasing (hf.trans hforce) (hz.trans hzones) (hr.trans hresponses)).released (releaseDone_spec _ e)
      | refuse =>
        rw [jrefuse hj]
        exact (ReleaseKept.of_releasing (by simp [hforce]) (by simp [hzones]) (by simp [hresponses])).released (releaseDone_spec _ e)

theorem forceRelease_nothing {s : State} {e : Fin 16} {f : ForceCfg} (h : releaseValue f.release (s.force.get e) = none) :
    let u := s.forceRelease e f
    (u.force.get e = { s.force.get e with state := .idle, prior := none, last := none, retry := .stopped } ∧
        u.sweep = s.sweep.map (fun w => { w with work := .boundary, entry := e.val + 1 }) ∧
        u.agenda = s.agenda ++ [.entryIdle e, .engineGo] ∧ u.waiting = s.waiting) ∧
      u.posted = s.posted ∧ u.hold = s.hold ∧ u.log = s.log := by
  obtain ⟨hforce, hsweep, hagenda, -, -, hposted, -, hhold, hlog, hwaiting, -⟩ := s.releasing_spec e
  rw [forceRelease_none h]
  have r := (s.releasing e).releaseDone_spec e
  obtain ⟨hentry, hsw, hag⟩ := r.of_releasing hforce (.inl hsweep) hagenda
  exact ⟨⟨hentry, hsw, hag, r.waiting.trans hwaiting⟩, r.posted.trans hposted, r.hold.trans hhold, r.log.trans hlog⟩

theorem forceRelease_refused {s : State} {e : Fin 16} {f : ForceCfg} {v : Half} {w : Window}
    (hv : releaseValue f.release (s.force.get e) = some v) (hw : s.cfg.checkedAt f.cell = some w)
    (hj : ((s.cfg.profiles.get w.profile).levels.get (s.zoneLevel f.zone)).judge v = .refuse) :
    let u := s.forceRelease e f
    (u.force.get e = { s.force.get e with state := .idle, prior := none, last := none, retry := .stopped } ∧
        u.sweep = s.sweep.map (fun w => { w with work := .boundary, entry := e.val + 1 }) ∧
        u.agenda = s.agenda ++ [.entryIdle e, .engineGo] ∧ u.waiting = s.waiting) ∧
      u.posted = s.posted ∧ u.hold = s.hold ∧ u.log = s.logged [cellSaid .holdDiscarded f.zone f.cell v] := by
  obtain ⟨hforce, hsweep, hagenda, hzones, -, hposted, -, hhold, hlog, hwaiting, hcfg, htime⟩ := s.releasing_spec e
  obtain ⟨-, -, jrefuse⟩ := forceJudge_some (s := s.releasing e) (by rw [hcfg]; exact hw) e v
  rw [forceRelease_some hv, jrefuse (by unfold zoneLevel at hj ⊢; rw [hcfg, hzones]; exact hj)]
  obtain ⟨x, hx⟩ : ∃ x : State, x = (s.releasing e).append .holdDiscarded (some f.zone) (some f.cell.toNat) (some v.toNat) := ⟨_, rfl⟩
  have hxlog : x.log = s.logged [cellSaid .holdDiscarded f.zone f.cell v] := by
    rw [hx, append_logged_nil]
    exact logged_congr hlog (by rw [htime]) _
  have r := x.releaseDone_spec e
  obtain ⟨hentry, hsw, hag⟩ := r.of_releasing (s := s) (by rw [hx]; simp [hforce]) (.inl (by rw [hx]; simp [hsweep]))
    (by rw [hx]; simp [hagenda])
  rw [← hx]
  exact ⟨⟨hentry, hsw, hag, r.waiting.trans (by rw [hx]; simp [hwaiting])⟩, r.posted.trans (by rw [hx]; simp [hposted]),
    r.hold.trans (by rw [hx]; simp [hhold]), r.log.trans hxlog⟩

theorem forceRelease_held {s : State} {e : Fin 16} {f : ForceCfg} {v : Half} {w : Window}
    (hv : releaseValue f.release (s.force.get e) = some v) (hw : s.cfg.checkedAt f.cell = some w)
    (hj : ((s.cfg.profiles.get w.profile).levels.get (s.zoneLevel f.zone)).judge v = .hold) :
    let u := s.forceRelease e f
    u.posted = s.posted ∧ u.store = s.store ∧
      u.force.get e = { s.force.get e with state := .idle, prior := none, last := none, retry := .stopped } ∧
      u.sweep = s.sweep.map (fun w => { w with work := .boundary, entry := e.val + 1 }) ∧
      u.agenda = s.agenda ++ [.entryIdle e, .engineGo] ∧
      ((∃ h ∈ s.hold, h.cell = f.cell) → u.hold = s.hold ∧ u.log = s.logged [cellSaid .holdDiscarded f.zone f.cell v]) ∧
      ((∀ h ∈ s.hold, h.cell ≠ f.cell) → s.hold.length < 8 →
        u.log = s.logged [cellSaid .holdEntered f.zone f.cell v] ∧
          u.hold = s.hold ++ [{ cell := f.cell, value := v, zone := f.zone, profile := w.profile, origin := .part,
                                entered := s.time.seconds,
                                expiry := s.time.seconds + (s.cfg.profiles.get w.profile).holdLimit, releasing := false }]) ∧
      ((∀ h ∈ s.hold, h.cell ≠ f.cell) → 8 ≤ s.hold.length →
        u.hold = s.hold ∧ u.log = s.logged [cellSaid .holdFull f.zone f.cell v]) := by
  obtain ⟨hforce, hsweep, hagenda, hzones, -, hposted, hstore, hhold, hlog, -, hcfg, htime⟩ := s.releasing_spec e
  obtain ⟨-, jhold, -⟩ := forceJudge_some (s := s.releasing e) (by rw [hcfg]; exact hw) e v
  rw [forceRelease_some hv, jhold (by unfold zoneLevel at hj ⊢; rw [hcfg, hzones]; exact hj)]
  obtain ⟨xforce, xsweep, xagenda, -, -, xposted, xstore, discarded, entered, full⟩ :=
    (s.releasing e).holdPart_spec f.cell v f.zone w.profile
  have hlg : ∀ es, (s.releasing e).logged es = s.logged es := fun es => logged_congr hlog (by rw [htime]) es
  rw [hhold, hlg, htime, hcfg] at entered
  rw [hhold, hlg] at discarded full
  have r := ((s.releasing e).holdPart f.cell v f.zone w.profile).releaseDone_spec e
  obtain ⟨hentry, hsw, hag⟩ := r.of_releasing (xforce.trans hforce) (.inl (xsweep.trans hsweep)) (xagenda.trans hagenda)
  refine ⟨r.posted.trans (xposted.trans hposted), r.store.trans (xstore.trans hstore), hentry, hsw, hag, fun h => ?_, fun h hl => ?_,
    fun h hl => ?_⟩
  · rw [r.hold, r.log]; exact discarded h
  · rw [r.hold, r.log]; exact entered h hl
  · rw [r.hold, r.log]; exact full h hl

theorem forceRelease_placed {s : State} {e : Fin 16} {f : ForceCfg} {v v' : Half} {w : Window}
    (hv : releaseValue f.release (s.force.get e) = some v) (hw : s.cfg.checkedAt f.cell = some w)
    (hj : ((s.cfg.profiles.get w.profile).levels.get (s.zoneLevel f.zone)).judge v = .value v') :
    s.forceRelease e f = ((s.releasing e).setWork .placing).place (releasePlacement e f v') := by
  obtain ⟨-, -, -, hzones, -, -, -, -, -, -, hcfg, -⟩ := s.releasing_spec e
  obtain ⟨jvalue, -⟩ := forceJudge_some (s := s.releasing e) (by rw [hcfg]; exact hw) e v
  rw [forceRelease_some hv]
  exact jvalue v' (by unfold zoneLevel at hj ⊢; rw [hcfg, hzones]; exact hj)

/-! ## A force apply (R137) -/

/-- The last request an apply takes for an entry that was IDLE. -/
theorem last_of_cancelled {s v : State} {e : Fin 16} {f : ForceCfg} (h : s.cancelled v e f) (hidle : (s.force.get e).state = .idle) :
    (v.force.get e).last = takenRequest (s.holdOf f.cell) (s.waiting.find? (fun p => p.isHostWrite f.cell))
      (s.posted.filter (fun p => p.removable f.cell)) := by
  obtain ⟨-, -, -, -, -, -, -, -, -, -, -, -, -, -, last, hforce, -, htaken⟩ := h
  obtain ⟨hheld, hwithdrawn, hremoved⟩ := htaken hidle
  have hlast : (v.force.get e).last = last := by rw [hforce, Tab.get_set_self]
  rw [hlast]
  unfold takenRequest
  cases hh : s.holdOf f.cell with
  | some h => exact hheld h hh
  | none =>
    have hno : ∀ h ∈ s.hold, h.cell ≠ f.cell := by simpa [holdOf] using hh
    cases hq : s.waiting.find? (fun p => p.isHostWrite f.cell) with
    | some q => exact hwithdrawn hno q hq
    | none =>
      obtain ⟨hsome, hnone⟩ := hremoved hno hq
      obtain hl | ⟨before, p, hl⟩ := (s.posted.filter (fun p => p.removable f.cell)).eq_nil_or_concat
      · rw [hl, hnone hl]; rfl
      · rw [List.concat_eq_append] at hl
        rw [hl, hsome before p hl]
        simp

/-- What an apply has cancelled before the engine works its entry. -/
theorem cancelled_facts {s v : State} {e : Fin 16} {f : ForceCfg} (h : s.cancelled v e f) :
    (v.force.get e).state = .applying ∧ (v.force.get e).attempts = 0 ∧ (v.force.get e).retry = .stopped ∧
      (∀ h ∈ v.hold, h.cell ≠ f.cell) ∧ (∀ p ∈ v.posted, p.checked = true → p.addr = f.cell → p.inFlight = true) ∧
      (∀ q ∈ v.waiting, q.isHostWrite f.cell = false ∧ q.isHoldOf f.cell = false) ∧
      ((s.force.get e).state ≠ .idle → (v.force.get e).last = (s.force.get e).last) ∧ v.zones = s.zones ∧
      ∀ e', e' ≠ e → v.force.get e' = s.force.get e' := by
  obtain ⟨hposted, hhold, hwaiting, -, -, -, -, -, hzones, -, -, -, -, -, last, hforce, hkept, -⟩ := h
  refine ⟨by rw [hforce, Tab.get_set_self], by rw [hforce, Tab.get_set_self], by rw [hforce, Tab.get_set_self], fun h hmem => ?_,
    fun p hmem hc ha => ?_, fun q hmem => ?_, fun hs => by rw [hforce, Tab.get_set_self]; exact hkept hs, hzones,
    fun e' he => by rw [hforce, Tab.get_set_of_ne _ (Ne.symm he)]⟩
  · rw [hhold, List.mem_filter] at hmem
    simpa using hmem.2
  · rw [hposted, List.mem_filter] at hmem
    simpa [hc, ha] using hmem.2
  · rw [hwaiting, List.mem_filter] at hmem
    simpa using hmem.2

/-! ## The value still queued (R74), the engine's lookup (R138) -/

theorem queued_none {s : State} {a : Addr} (h : ∀ p ∈ s.posted, p.checked = true → p.addr ≠ a) : s.queued a = none := by
  have hno : s.posted.filter (fun p => p.checked && p.addr == a) = [] :=
    List.filter_eq_nil_iff.mpr fun p hp hb => by
      rw [Bool.and_eq_true, beq_iff_eq] at hb
      exact h p hp hb.1 hb.2
  unfold queued
  rw [hno]
  rfl

theorem queued_newest {s : State} {a : Addr} {before after : List Posted} {p : Posted} (hposted : s.posted = before ++ p :: after)
    (hc : p.checked = true) (ha : p.addr = a) (h : ∀ q ∈ after, q.checked = true → q.addr ≠ a) : s.queued a = some (cellValue p.data) := by
  have hno : after.filter (fun p => p.checked && p.addr == a) = [] :=
    List.filter_eq_nil_iff.mpr fun q hq hb => by
      rw [Bool.and_eq_true, beq_iff_eq] at hb
      exact h q hq hb.1 hb.2
  unfold queued
  rw [hposted, List.filter_append, List.filter_cons_of_pos (by simp [hc, ha]), hno]
  simp

theorem correct_value (q : Addr → Option Half) (c : CellStore) (a : Addr) (v : Half) :
    (c.find (groupOf a) = none → c.correct q a (some v) = c) ∧
      ∀ i, c.find (groupOf a) = some i →
        c.correct q a (some v) = c.setCell i (cellIndex a) { c.cell i (cellIndex a) with valid := true, value := v } := by
  unfold CellStore.correct
  exact ⟨fun h => by rw [h], fun i h => by rw [h]⟩

theorem engineLookup_found (s : State) (e : Fin 16) (f : ForceCfg) :
    let found := s.store.lookup s.queued .engine f.cell
    (∀ n, found.1 = some n → s.engineLookup e f = { s with store := found.2 }.engineValue e f n) ∧
      (found.1 = none →
        s.engineLookup e f = { s with store := found.2, sweep := s.sweep.map (fun w => { w with work := .claim }) }) := by
  unfold engineLookup
  dsimp only
  refine ⟨fun n hn => ?_, fun hn => ?_⟩ <;> rw [hn] <;> rfl

end State

open State

/-- Settles O46. -/
theorem forceApplyCancelsWrites : Obligations.ForceApplyCancelsWrites := by
  unfold Obligations.ForceApplyCancelsWrites
  refine ⟨fun s e f hstate => ?_, fun s a => ⟨queued_none, fun before p after => queued_newest⟩,
    fun q c a => ⟨rfl, correct_value q c a⟩, engineLookup_found, fun s e f => ?_⟩
  · intro u
    obtain ⟨v, hcancel, hwait, hgo⟩ := forceApply_spec s e f
    have hu : s.forceApply e f = u := rfl
    rw [hu] at hwait hgo
    clear_value u
    clear hu
    obtain ⟨kstate, kattempts, kretry, khold, kposted, kwaiting, klast, kzones, kothers⟩ := cancelled_facts hcancel
    have hidle := last_of_cancelled hcancel
    have hfailed : (s.force.get e).state = .failed → (v.force.get e).last = (s.force.get e).last :=
      fun h => klast (by rw [h]; decide)
    by_cases hflying : ∃ p ∈ s.posted, p.checked = true ∧ p.addr = f.cell ∧ p.inFlight = true
    · have same : u.force = v.force ∧ u.hold = v.hold ∧ u.posted = v.posted ∧ u.waiting = v.waiting ∧ u.zones = v.zones := by
        rw [hwait hflying]; exact ⟨rfl, rfl, rfl, rfl, rfl⟩
      obtain ⟨hforce, hhold, hposted, hwaiting, hzones⟩ := same
      rw [hforce, hhold, hposted, hwaiting, hzones]
      exact ⟨.inl kstate, kattempts, kretry, khold, kposted, kwaiting, hfailed, hidle, kzones, kothers, v, hcancel, hwait, hgo⟩
    · have hall : ∀ p ∈ s.posted, p.checked = true → p.addr = f.cell → p.inFlight = false := fun p hp hc ha =>
        Bool.eq_false_iff.mpr fun hfly => hflying ⟨p, hp, hc, ha, hfly⟩
      obtain ⟨lstate, lattempts, lretry, llast, lhold, lposted, lwaiting, lzones, -, lothers⟩ := engineLookup_spec v e f
      rw [← hgo hall] at lstate lattempts lretry llast lhold lposted lwaiting lzones lothers
      rw [lhold, lposted, lwaiting, lzones, lattempts, lretry, llast]
      rw [kstate] at lstate
      exact ⟨lstate, kattempts, kretry, khold, kposted, kwaiting, hfailed, hidle, kzones,
        fun e' he => (lothers e' he).trans (kothers e' he), v, hcancel, hwait, hgo⟩
  · intro old u boundary idle
    obtain ⟨hzones, hresponses, hothers⟩ := forceRelease_kept s e f
    refine ⟨hzones, hresponses, hothers, forceRelease_nothing, fun v w hv hw => ⟨fun v' hj => ?_, fun hj => ?_, fun hj => ?_⟩⟩
    · obtain ⟨-, hhold, hlog, hroom, hfull⟩ := release_placed rfl (forceRelease_placed hv hw hj)
      exact ⟨hhold, hlog, hroom, hfull⟩
    · exact forceRelease_refused hv hw hj
    · exact forceRelease_held hv hw hj

end Sys2Proof.Machine
end

section
/-!
PROOFS. The sweep queue and the retry timers (chapter 8).
-/
namespace Sys2Proof.Machine

namespace State

/-! ## A request in the sweep queue (R135) -/

theorem queueSweep_none {s : State} {z : Fin 4} (h : s.pendingSweep z = none) (k : SweepKind) : s.queueSweep z k = s.pendSweep z k := by
  unfold queueSweep
  rw [h]

theorem queueSweep_same {s : State} {z : Fin 4} {r : SweepRequest} (h : s.pendingSweep z = some r) : s.queueSweep z r.kind = s := by
  unfold queueSweep
  rw [h]
  exact if_pos rfl

theorem queueSweep_apply {s : State} {z : Fin 4} {r : SweepRequest} (h : s.pendingSweep z = some r) (hk : r.kind = .release) :
    s.queueSweep z .apply = s.pendSweep z .apply := by
  unfold queueSweep
  rw [h]
  exact if_neg (by rw [hk]; decide)

/-- A release with nothing to release replaces a pending apply by nothing. -/
theorem queueSweep_release {s : State} {z : Fin 4} {r : SweepRequest} (h : s.pendingSweep z = some r) (hk : r.kind = .apply) :
    ((∃ e ∈ s.zoneEntries z, (s.force.get e).state ≠ .idle) → s.queueSweep z .release = s.pendSweep z .release) ∧
      ((∀ e ∈ s.zoneEntries z, (s.force.get e).state = .idle) → s.queueSweep z .release = { s with requests := s.otherRequests z }) := by
  have hany : (s.zoneEntries z).any (fun e => decide ((s.force.get e).state ≠ .idle)) = true ↔
      ∃ e ∈ s.zoneEntries z, (s.force.get e).state ≠ .idle := by simp
  unfold queueSweep
  rw [h]
  dsimp only
  rw [if_neg (by rw [hk]; decide)]
  exact ⟨fun hex => if_pos (hany.mpr hex), fun hall => if_neg fun hb => by
    obtain ⟨e, he, hne⟩ := hany.mp hb
    exact hne (hall e he)⟩

theorem queueSweep_sweep (s : State) (z : Fin 4) (k : SweepKind) : (s.queueSweep z k).sweep = s.sweep := by
  unfold queueSweep
  split
  · rfl
  · split
    · rfl
    · split
      · rfl
      · split <;> rfl

/-- The sweep in progress is stopped or started again by a request: its zone's, of its kind while stopped, or of the other while not. -/
def sweepClashes (s : State) (z : Fin 4) (k : SweepKind) : Prop :=
  (∃ w, s.sweep = some w ∧ w.zone = z ∧ w.kind = k ∧ w.stop = true) ∨ (∃ w, s.sweep = some w ∧ w.zone = z ∧ w.kind ≠ k ∧ w.stop = false)

theorem takeSweepRequest_restart {s : State} {w : Sweep} (h : s.sweep = some w) (hstop : w.stop = true) :
    s.takeSweepRequest w.zone w.kind = { s with sweep := some { w with stop := false }, requests := s.otherRequests w.zone } := by
  unfold takeSweepRequest
  rw [h]
  exact if_pos ⟨rfl, rfl, hstop⟩

theorem takeSweepRequest_stop {s : State} {w : Sweep} {k : SweepKind} (h : s.sweep = some w) (hk : w.kind ≠ k) (hstop : w.stop = false) :
    s.takeSweepRequest w.zone k = { s.pendSweep w.zone k with sweep := some { w with stop := true } } := by
  unfold takeSweepRequest
  rw [h]
  dsimp only
  rw [if_neg (fun ⟨_, hc, _⟩ => hk hc), if_pos ⟨rfl, hk, hstop⟩]

theorem takeSweepRequest_queue {s : State} {z : Fin 4} {k : SweepKind} (h : ¬s.sweepClashes z k) :
    s.takeSweepRequest z k = s.queueSweep z k := by
  unfold takeSweepRequest
  cases hw : s.sweep with
  | none => rfl
  | some w =>
    dsimp only
    rw [if_neg (fun ⟨hz, hk, hs⟩ => h (.inl ⟨w, hw, hz, hk, hs⟩)), if_neg (fun ⟨hz, hk, hs⟩ => h (.inr ⟨w, hw, hz, hk, hs⟩))]

/-! ## The engine goes on (R136) -/

theorem engineGo_free {s : State} (h : s.sweep = none) : s.engineGo = s.takeSweep := by
  unfold engineGo
  rw [h]

/-- The oldest pending apply, or the oldest pending release where no apply is pending. -/
theorem oldestRequest_spec {s : State} {r : SweepRequest}
    (h : (∃ before after, s.requests = before ++ r :: after ∧ r.kind = .apply ∧ ∀ q ∈ before, q.kind = .release) ∨
      (∃ after, s.requests = r :: after ∧ ∀ q ∈ s.requests, q.kind = .release)) : s.oldestRequest = some r := by
  unfold oldestRequest
  obtain ⟨before, after, hreq, hk, hbefore⟩ | ⟨after, hreq, hall⟩ := h
  · have hfind : s.requests.find? (fun r => r.kind == SweepKind.apply) = some r := by
      rw [hreq, List.find?_append, List.find?_eq_none.mpr (fun q hq => by rw [hbefore q hq]; decide)]
      simp [hk]
    rw [hfind]
  · have hnone : s.requests.find? (fun r => r.kind == SweepKind.apply) = none :=
      List.find?_eq_none.mpr fun q hq => by rw [hall q hq]; decide
    rw [hnone]
    dsimp only
    have hr : r.kind = .release := hall r (by rw [hreq]; exact List.mem_cons_self)
    rw [hreq, List.find?_cons_of_pos (by rw [hr]; rfl)]

theorem oldestRequest_none {s : State} (h : s.requests = []) : s.oldestRequest = none := by
  unfold oldestRequest
  rw [h]
  rfl

/-- The sweep `w` works entry `e`: a defined entry of its zone, not passed yet, in a state its kind acts on. -/
def sweepWorks (s : State) (w : Sweep) (e : Fin 16) (f : ForceCfg) : Prop :=
  s.cfg.forces.get e = some f ∧ f.zone = w.zone ∧ w.entry ≤ e.val ∧
    match w.kind with
    | .apply => (s.force.get e).state = .idle ∨ (s.force.get e).state = .failed
    | .release => (s.force.get e).state = .active ∨ (s.force.get e).state = .failed

theorem works_iff (k : SweepKind) (x : ForceState) :
    k.works x = true ↔ match k with | .apply => x = .idle ∨ x = .failed | .release => x = .active ∨ x = .failed := by
  cases k <;> cases x <;> simp [SweepKind.works]

/-- The entries of the sweep's zone that it would work. -/
def worksEntry (s : State) (w : Sweep) (e : Fin 16) : Bool := decide (w.entry ≤ e.val) && w.kind.works (s.force.get e).state

theorem mem_zoneEntries (s : State) (z : Fin 4) (e : Fin 16) : e ∈ s.zoneEntries z ↔ ∃ f, s.cfg.forces.get e = some f ∧ f.zone = z := by
  simp [zoneEntries, List.mem_filter]

theorem worksEntry_iff (s : State) (w : Sweep) (e : Fin 16) :
    (e ∈ s.zoneEntries w.zone ∧ s.worksEntry w e = true) ↔ ∃ f, s.sweepWorks w e f := by
  unfold worksEntry sweepWorks
  rw [mem_zoneEntries, Bool.and_eq_true, decide_eq_true_iff, works_iff]
  exact ⟨fun ⟨⟨f, hf, hz⟩, he, hk⟩ => ⟨f, hf, hz, he, hk⟩, fun ⟨f, hf, hz, he, hk⟩ => ⟨⟨f, hf, hz⟩, he, hk⟩⟩

/-- The entry a sweep works next is the first of its zone that it would work. -/
theorem nextEntry_some {s : State} {w : Sweep} {e : Fin 16} {f : ForceCfg} (h : s.sweepWorks w e f)
    (hfirst : ∀ e' f', e'.val < e.val → ¬s.sweepWorks w e' f') : (s.zoneEntries w.zone).find? (s.worksEntry w) = some e := by
  obtain ⟨hmem, hworks⟩ := (s.worksEntry_iff w e).mpr ⟨f, h⟩
  have hsorted : (s.zoneEntries w.zone).Pairwise (· < ·) := (List.pairwise_lt_finRange 16).filter _
  obtain ⟨before, after, hlist⟩ := List.append_of_mem hmem
  rw [List.find?_eq_some_iff_append]
  refine ⟨hworks, before, after, hlist, fun d hd => ?_⟩
  rw [hlist] at hsorted
  have hlt : d < e := (List.pairwise_append.mp hsorted).2.2 d hd e List.mem_cons_self
  rw [Bool.not_eq_true', Bool.eq_false_iff]
  intro hw
  obtain ⟨g, hg⟩ := (s.worksEntry_iff w d).mp ⟨by rw [hlist]; exact List.mem_append_left _ hd, hw⟩
  exact hfirst d g hlt hg

theorem nextEntry_none {s : State} {w : Sweep} (h : ∀ e f, ¬s.sweepWorks w e f) : (s.zoneEntries w.zone).find? (s.worksEntry w) = none := by
  rw [List.find?_eq_none]
  intro e he hw
  obtain ⟨f, hf⟩ := (s.worksEntry_iff w e).mp ⟨he, hw⟩
  exact h e f hf

theorem engineGo_waits {s : State} {w : Sweep} (h : s.sweep = some w) (hwork : w.work ≠ .boundary) : s.engineGo = s := by
  unfold engineGo
  rw [h]
  exact if_pos hwork

theorem engineGo_ends {s : State} {w : Sweep} (h : s.sweep = some w) (hwork : w.work = .boundary)
    (hend : w.stop = true ∨ ∀ e f, ¬s.sweepWorks w e f) : s.engineGo = s.endSweep := by
  unfold engineGo
  rw [h]
  dsimp only
  rw [if_neg (fun hne => hne hwork)]
  by_cases hstop : w.stop = true
  · exact if_pos hstop
  · rw [if_neg hstop]
    have hnone : (s.zoneEntries w.zone).find? (fun e => decide (w.entry ≤ e.val) && w.kind.works (s.force.get e).state) = none :=
      nextEntry_none (hend.resolve_left hstop)
    rw [hnone]

theorem engineGo_works {s : State} {w : Sweep} (h : s.sweep = some w) (hwork : w.work = .boundary) (hstop : w.stop = false) {e : Fin 16}
    {f : ForceCfg} (hworks : s.sweepWorks w e f) (hfirst : ∀ e' f', e'.val < e.val → ¬s.sweepWorks w e' f') :
    (w.kind = .apply → s.engineGo = { s with sweep := some { w with entry := e.val } }.forceApply e f) ∧
      (w.kind = .release → s.engineGo = { s with sweep := some { w with entry := e.val } }.forceRelease e f) := by
  have hnext : (s.zoneEntries w.zone).find? (fun e => decide (w.entry ≤ e.val) && w.kind.works (s.force.get e).state) = some e :=
    nextEntry_some hworks hfirst
  unfold engineGo
  rw [h]
  dsimp only
  rw [if_neg (fun hne => hne hwork), if_neg (by rw [hstop]; decide), hnext]
  dsimp only
  rw [hworks.1]
  exact ⟨fun hk => by rw [hk], fun hk => by rw [hk]⟩

end State

open State

/-- Settles O45. -/
theorem sweepRequestCases : Obligations.SweepRequestCases := by
  unfold Obligations.SweepRequestCases
  refine ⟨fun s z k => ⟨fun w hw hz hk hstop => ?_, fun w hw hz hk hstop => ?_, fun hno => ?_⟩, fun s z k => ⟨fun h => if_pos h,
    fun h => if_neg h⟩, fun s r hfree hold => ?_, fun s hfree hnone => ?_, fun s w hw => ⟨engineGo_waits hw, fun hwork hend =>
      engineGo_ends hw hwork hend, fun e f hwork hstop hworks hfirst => ?_⟩⟩
  · subst hz hk
    rw [takeSweepRequest_restart hw hstop]
    exact ⟨rfl, rfl⟩
  · subst hz
    rw [takeSweepRequest_stop hw hk hstop]
    exact ⟨rfl, rfl⟩
  · rw [takeSweepRequest_queue hno]
    refine ⟨queueSweep_sweep s z k, fun h => by rw [queueSweep_none h]; rfl, fun r h hk => ?_, fun r h hr hk => ?_, fun r h hr hk => ?_⟩
    · subst hk
      rw [queueSweep_same h]
    · subst hk
      rw [queueSweep_apply h hr]
      rfl
    · subst hk
      obtain ⟨hsome, hnone⟩ := queueSweep_release h hr
      exact ⟨fun hex => by rw [hsome hex]; rfl, fun hall => by rw [hnone hall]; rfl⟩
  · show s.engineGo = _
    rw [engineGo_free hfree]
    unfold takeSweep
    rw [oldestRequest_spec hold]
    rfl
  · show s.engineGo = s
    rw [engineGo_free hfree]
    unfold takeSweep
    rw [oldestRequest_none hnone]
  · obtain ⟨happly, hrelease⟩ := engineGo_works hw hwork hstop hworks hfirst
    show s.engineGo = _
    obtain ⟨zone, kind, entry, stop, work⟩ := w
    cases kind with
    | apply => exact happly rfl
    | release => exact hrelease rfl

namespace State

/-! ## A retry timer (R141) -/

theorem takeSweepRequest_kept (s : State) (z : Fin 4) (k : SweepKind) :
    (s.takeSweepRequest z k).force = s.force ∧ (s.takeSweepRequest z k).zones = s.zones ∧ (s.takeSweepRequest z k).posted = s.posted ∧
      (s.takeSweepRequest z k).hold = s.hold ∧ (s.takeSweepRequest z k).responses = s.responses ∧ (s.takeSweepRequest z k).log = s.log ∧
      (s.takeSweepRequest z k).agenda = s.agenda := by
  have hqueue : ∀ u : State, u = s.queueSweep z k → u.force = s.force ∧ u.zones = s.zones ∧ u.posted = s.posted ∧ u.hold = s.hold ∧
      u.responses = s.responses ∧ u.log = s.log ∧ u.agenda = s.agenda := by
    rintro u rfl
    unfold queueSweep pendSweep
    split
    · exact ⟨rfl, rfl, rfl, rfl, rfl, rfl, rfl⟩
    · split
      · exact ⟨rfl, rfl, rfl, rfl, rfl, rfl, rfl⟩
      · split
        · exact ⟨rfl, rfl, rfl, rfl, rfl, rfl, rfl⟩
        · split <;> exact ⟨rfl, rfl, rfl, rfl, rfl, rfl, rfl⟩
  unfold takeSweepRequest
  split
  · exact hqueue _ rfl
  · split
    · exact ⟨rfl, rfl, rfl, rfl, rfl, rfl, rfl⟩
    · split
      · exact ⟨rfl, rfl, rfl, rfl, rfl, rfl, rfl⟩
      · exact hqueue _ rfl

/-- A sweep request does not look at the retry timers. -/
theorem takeSweepRequest_congr {s t : State} (hsweep : t.sweep = s.sweep) (hreq : t.requests = s.requests) (hcfg : t.cfg = s.cfg)
    (hforce : ∀ e, (t.force.get e).state = (s.force.get e).state) (z : Fin 4) (k : SweepKind) :
    (t.takeSweepRequest z k).requests = (s.takeSweepRequest z k).requests ∧
      (t.takeSweepRequest z k).sweep = (s.takeSweepRequest z k).sweep := by
  have hqueue : (t.queueSweep z k).requests = (s.queueSweep z k).requests := by
    unfold queueSweep pendSweep otherRequests pendingSweep zoneEntries
    simp only [hreq, hcfg, hforce]
    split
    · rfl
    · split
      · exact hreq
      · split
        · rfl
        · split <;> rfl
  unfold takeSweepRequest
  rw [hsweep]
  cases hw : s.sweep with
  | none => exact ⟨hqueue, by rw [queueSweep_sweep, queueSweep_sweep, hsweep]⟩
  | some w =>
    dsimp only
    split
    · exact ⟨by unfold otherRequests; rw [hreq], rfl⟩
    · split
      · exact ⟨by unfold pendSweep otherRequests; rw [hreq], rfl⟩
      · exact ⟨hqueue, by rw [queueSweep_sweep, queueSweep_sweep, hsweep]⟩

theorem requestSweep_kept (s : State) (z : Fin 4) (k : SweepKind) :
    (s.requestSweep z k).force = s.force ∧ (s.requestSweep z k).zones = s.zones ∧ (s.requestSweep z k).posted = s.posted ∧
      (s.requestSweep z k).hold = s.hold ∧ (s.requestSweep z k).responses = s.responses ∧ (s.requestSweep z k).log = s.log := by
  obtain ⟨hforce, hzones, hposted, hhold, hresponses, hlog, -⟩ := s.takeSweepRequest_kept z k
  unfold requestSweep
  split
  · exact ⟨hforce, hzones, hposted, hhold, hresponses, hlog⟩
  · exact ⟨rfl, rfl, rfl, rfl, rfl, rfl⟩

/-- The retry timer at rest, before any request. -/
def retryRested (s : State) (e : Fin 16) : State := s.setForce e { s.force.get e with retry := .rested }

theorem retryExpire_eq {s : State} {e : Fin 16} (h : (s.force.get e).retry = .due) :
    (s.cfg.forces.get e = none → s.retryExpire e = s.retryRested e) ∧
      ∀ f, s.cfg.forces.get e = some f →
        s.retryExpire e = if (s.zones.get f.zone).state.forcing then (s.retryRested e).requestSweep f.zone .apply else s.retryRested e := by
  unfold retryExpire
  dsimp only
  rw [if_pos h]
  refine ⟨fun hn => ?_, fun f hf => ?_⟩
  · rw [show (s.setForce e { s.force.get e with retry := .rested }).cfg = s.cfg by simp, hn]
    rfl
  · rw [show (s.setForce e { s.force.get e with retry := .rested }).cfg = s.cfg by simp, hf]
    rfl

end State

/-- Settles O47. -/
theorem retryTimerExpires : Obligations.RetryTimerExpires := by
  unfold Obligations.RetryTimerExpires
  intro s e hdue
  obtain ⟨hundefined, hdefined⟩ := retryExpire_eq hdue
  obtain ⟨t, ht⟩ : ∃ t : State, t = s.retryRested e := ⟨_, rfl⟩
  have hforce : t.force = s.force.set e { s.force.get e with retry := .rested } := by rw [ht]; simp [retryRested]
  have hstate : ∀ e', (t.force.get e').state = (s.force.get e').state := by
    intro e'
    rw [hforce, Tab.get_set]
    split
    next h => rw [← h]
    next => rfl
  have hsame : t.zones = s.zones ∧ t.posted = s.posted ∧ t.hold = s.hold ∧ t.responses = s.responses ∧ t.log = s.log ∧
      t.requests = s.requests ∧ t.sweep = s.sweep ∧ t.agenda = s.agenda ∧ t.cfg = s.cfg ∧ t.mode = s.mode := by
    rw [ht]; simp [retryRested]
  rw [← ht] at hundefined hdefined
  clear ht
  obtain ⟨hzones, hposted, hhold, hresponses, hlog, hrequests, hsweep, hagenda, hcfg, hmode⟩ := hsame
  refine ⟨s.retryExpire e, if_pos hdue, ?_⟩
  cases hf : s.cfg.forces.get e with
  | none =>
    rw [hundefined hf]
    exact ⟨hforce, hzones, hposted, hhold, hresponses, hlog, fun f h => nomatch h⟩
  | some f =>
    obtain ⟨kforce, kzones, kposted, khold, kresponses, klog⟩ := t.requestSweep_kept f.zone .apply
    rw [hdefined f hf]
    by_cases hforcing : (s.zones.get f.zone).state.forcing = true
    · rw [if_pos hforcing]
      refine ⟨kforce.trans hforce, kzones.trans hzones, kposted.trans hposted, khold.trans hhold, kresponses.trans hresponses,
        klog.trans hlog, fun g hg => ?_⟩
      cases hg
      refine ⟨fun hno => ?_, fun _ hrun => ?_⟩
      · have hrest : t.requestSweep f.zone .apply = t :=
          if_neg (by rw [hmode]; exact hno.resolve_left (by rw [hforcing]; decide))
        rw [hrest]
        exact ⟨hrequests, hsweep, hagenda⟩
      · have hgo : t.requestSweep f.zone .apply = (t.takeSweepRequest f.zone .apply).notify .engineGo := if_pos (hmode.trans hrun)
        obtain ⟨hr, hsw⟩ := takeSweepRequest_congr hsweep hrequests hcfg hstate f.zone .apply
        obtain ⟨-, -, -, -, -, -, hag⟩ := t.takeSweepRequest_kept f.zone .apply
        rw [hgo]
        refine ⟨hr, hsw, by rw [← hagenda, ← hag]; rfl, fun hfree hpend => hr.trans ?_⟩
        have hclash : ¬s.sweepClashes f.zone .apply := by
          unfold sweepClashes
          rw [hfree]
          rintro (⟨w, hw, -⟩ | ⟨w, hw, -⟩) <;> cases hw
        have hothers : s.otherRequests f.zone = s.requests :=
          List.filter_eq_self.mpr fun r hr => by simpa [pendingSweep] using List.find?_eq_none.mp hpend r hr
        rw [takeSweepRequest_queue hclash, queueSweep_none hpend]
        exact congrArg (· ++ _) hothers
    · rw [if_neg hforcing]
      exact ⟨hforce, hzones, hposted, hhold, hresponses, hlog, fun g hg => by
        cases hg
        exact ⟨fun _ => ⟨hrequests, hsweep, hagenda⟩, fun h => absurd h hforcing⟩⟩

end Sys2Proof.Machine
end

section
/-!
PROOFS. The arbiter of the downstream port (chapter 9), and an append to the event log (chapter 11).
-/
namespace Sys2Proof.Machine

namespace State

/-! ## The transfers presented -/

theorem grant_state (s : State) (x : Transfer) : (s.grant x).port.state = .busy x := by
  unfold grant
  dsimp only
  split
  · rfl
  · rfl
  · split <;> rfl
  · rfl

theorem startAging_state (s : State) : s.startAging.port.state = s.port.state := by
  unfold startAging
  split <;> rfl

/-- Where the engine has a settlement to take, the port is granted or stays idle (R113, R152). -/
theorem arbitrate_coming {s : State} {x : Transfer} {rest : List Transfer} (hidle : s.port.state = .idle) (hp : s.presented = x :: rest)
    (he : s.engineComing = true) : s.arbitrate.port.state = .busy x ∨ s.arbitrate.port.state = .idle := by
  unfold arbitrate grantNext
  rw [startAging_state, if_pos hidle, hp]
  dsimp only
  rw [if_pos he]
  split
  · exact .inl (grant_state _ x)
  · exact .inr (by simp [hidle])

theorem transitTransfer_reading {s : State} {a : Addr} {w : Width} {z : Option (Fin 4)} {flying : Bool}
    (h : s.upstream = .reading a w z flying) :
    ((∃ p ∈ s.posted, p.ahead = true) → s.transitTransfer = s.postedTransfer) ∧
      ((∀ p ∈ s.posted, p.ahead = false) →
        s.transitTransfer = some { who := .transit, write := false, addr := a, width := w, data := 0#32 }) := by
  unfold transitTransfer
  rw [h]
  dsimp only
  refine ⟨fun ⟨p, hp, ha⟩ => if_pos (List.any_eq_true.mpr ⟨p, hp, ha⟩), fun hno => if_neg fun hb => ?_⟩
  obtain ⟨p, hp, ha⟩ := List.any_eq_true.mp hb
  rw [hno p hp] at ha
  cases ha

theorem transitTransfer_other {s : State} (h : ∀ a w z flying, s.upstream ≠ .reading a w z flying) : s.transitTransfer = s.postedTransfer := by
  unfold transitTransfer
  cases hu : s.upstream with
  | reading a w z flying => exact absurd hu (h a w z flying)
  | idle | judging | placing => rfl

theorem engineTransfer_writing {s : State} {w : Sweep} {e : Fin 16} {f : ForceCfg} (hw : s.sweep = some w) (hwork : w.work = .writing)
    (he : s.sweepEntry = some e) (hf : s.cfg.forces.get e = some f) :
    s.engineTransfer = some { who := .engine, write := true, addr := f.cell, width := .w2, data := cellData f.forced } := by
  unfold engineTransfer
  simp [hw, he, hf, hwork]

theorem engineTransfer_none {s : State} (h : ∀ w, s.sweep = some w → w.work ≠ .writing) : s.engineTransfer = none := by
  unfold engineTransfer
  split
  next w e hw he =>
    split
    next f hwork hf => exact absurd hwork (h w hw)
    next => rfl
  next => rfl

theorem reportTransfer_writing {s : State} {i : Fin 67} {snapshot : List Byte} {off : Nat} {b : Addr}
    (hw : s.writer = .writing i snapshot off) (hb : s.cfg.reportBase = some b) :
    s.reportTransfer = some { who := .report, write := true, addr := b + BitVec.ofNat 24 ((Item.at i).offset + off), width := .w4,
                              data := BitVec.ofNat 32 (leValue ((snapshot.drop off).take 4)) } := by
  unfold reportTransfer
  rw [hw, hb]

theorem reportTransfer_none {s : State} (h : s.writer = .idle ∨ s.cfg.reportBase = none) : s.reportTransfer = none := by
  unfold reportTransfer
  obtain h | h := h
  · rw [h]
  · rw [h]
    cases s.writer <;> rfl

theorem readAddress_none {c : CellStore} (h : ∀ k, c.fill = some k → k.reading = false) : c.readAddress = none := by
  unfold CellStore.readAddress
  cases hf : c.fill with
  | none => rfl
  | some k => exact if_neg (by rw [h k hf]; decide)

end State

open State

/-- Settles O49. -/
theorem portGrants : Obligations.PortGrants := by
  unfold Obligations.PortGrants
  refine ⟨fun s hbusy => ?_, arbitrate_none, fun s x rest hidle hp he => ?_, fun s x rest hidle hp he => arbitrate_coming hidle hp he,
    fun s => rfl, fun s => ⟨fun a w z flying h => transitTransfer_reading h, fun h => transitTransfer_other h⟩,
    fun s => ⟨fun w e f hw hwork he hf => engineTransfer_writing hw hwork he hf, fun h => engineTransfer_none h, fun a h => ?_, fun h => ?_,
      fun k hk hr => CellStore.readAddress_reading hk hr, fun h => readAddress_none h,
      fun i snapshot off b hw hb => reportTransfer_writing hw hb, fun h => reportTransfer_none h⟩,
    fun s hsettling hdue => ?_, fun s hdue => ?_⟩
  · have h := arbitrate_busy s hbusy
    exact ⟨by rw [h], by rw [h], h⟩
  · have h := arbitrate_grant s x rest hidle hp he
    exact ⟨by rw [h], by rw [h], h⟩
  · unfold fillTransfer
    rw [h]
    rfl
  · unfold fillTransfer
    rw [h]
    rfl
  · have hset : s.settled = { s with port := { s.port with state := .idle, settleDue := false } } := if_pos ⟨hsettling, hdue⟩
    rw [← hset]
    exact if_pos ⟨hsettling, hdue⟩
  · have haged : s.reportAged = { s with port := { s.port with aging := .stopped, aged := true } } := if_pos hdue
    rw [← haged]
    exact if_pos hdue

namespace State

/-! ## An append -/

theorem coalesces_iff (kind : EventKind) (zone : Option (Fin 4)) (subject : Option Nat) (r : Record) :
    coalesces kind zone subject r = true ↔
      (kind = .writeRefused ∨ kind = .writeAbsorbed) ∧ r.kind = kind ∧ r.zone = zone ∧ r.subject = subject := by
  simp [coalesces, and_assoc]

/-- A refusal that repeats the newest record is counted on it (R178). -/
theorem append_repeat {s : State} {before : List Record} {r : Record} (h : s.log.records = before ++ [r]) {kind : EventKind}
    {zone : Option (Fin 4)} {subject : Option Nat} (hc : coalesces kind zone subject r = true) (value : Option Nat) :
    (r.repeats < 255 →
      s.append kind zone subject value =
        { s with log := { s.log with records := before ++ [{ r with repeats := r.repeats + 1 }] } }.mark (itemSlot r.seq)) ∧
      (255 ≤ r.repeats → s.append kind zone subject value = s) := by
  have hcount : s.append kind zone subject value = s.countRepeat r := by
    unfold State.append
    rw [h, List.getLast?_concat]
    exact if_pos hc
  rw [hcount]
  unfold countRepeat
  refine ⟨fun hlt => ?_, fun hge => if_neg (by omega)⟩
  rw [if_pos hlt, h, List.dropLast_concat]

/-- Any other append is a record of its own (R176, R179). -/
theorem append_own {s : State} {kind : EventKind} {zone : Option (Fin 4)} {subject : Option Nat}
    (h : ∀ before r, s.log.records = before ++ [r] → coalesces kind zone subject r = false) (value : Option Nat) :
    s.append kind zone subject value = s.appendRecord kind zone subject value := by
  unfold State.append
  obtain hl | ⟨before, r, hl⟩ := s.log.records.eq_nil_or_concat
  · rw [hl]
    rfl
  · rw [List.concat_eq_append] at hl
    rw [hl, List.getLast?_concat]
    exact if_neg (by rw [h before r hl]; decide)

theorem appendRecord_eq (s : State) (kind : EventKind) (zone : Option (Fin 4)) (subject value : Option Nat) :
    s.appendRecord kind zone subject value =
      (State.mark { s with
        log := { s.log with
          records := (if 32 ≤ s.log.records.length then s.log.records.drop 1 else s.log.records) ++
            [{ seq := s.log.nextSeq, kind := kind, zone := zone, time := s.time.seconds, subject := subject, value := value,
               repeats := 1, gap := decide (32 ≤ s.log.records.length) }]
          nextSeq := s.log.nextSeq + 1#16 } } itemHeader).mark (itemSlot s.log.nextSeq) := by
  unfold appendRecord Config.logCapacity
  dsimp only
  simp only [decide_eq_true_iff]

end State

/-- Settles O51. -/
theorem logAppend : Obligations.LogAppend := by
  unfold Obligations.LogAppend
  intro s kind zone subject value t
  refine ⟨fun before r hl hkind hk hz hs => append_repeat hl ((coalesces_iff kind zone subject r).mpr ⟨hkind, hk, hz, hs⟩) value,
    fun hother => ?_, fun hsound hlen r hr => ?_, append_log s kind zone subject value, ?_, ?_, ?_, ?_⟩
  · have hno : ∀ before r, s.log.records = before ++ [r] → coalesces kind zone subject r = false := by
      intro before r hl
      rw [Bool.eq_false_iff, Ne, coalesces_iff]
      rintro ⟨hkind, hk, hz, hs⟩
      obtain ⟨hr, ha⟩ | hnil | ⟨before', r', hl', hne⟩ := hother
      · exact hkind.elim hr ha
      · rw [hnil] at hl; simp at hl
      · obtain ⟨-, hsame⟩ := List.append_inj' (hl.symm.trans hl') rfl
        obtain rfl : r = r' := by simpa using hsame
        exact hne.elim (fun h => h hk) (fun h => h.elim (fun h => h hz) (fun h => h hs))
    exact (append_own hno value).trans (appendRecord_eq s kind zone subject value)
  · have hpos : 0 < s.log.records.length := by omega
    have hfirst := seq_of_consecutive hsound.2 hpos
    rw [List.head?_eq_getElem?, List.getElem?_eq_getElem hpos] at hr
    rw [Option.some.inj hr, hlen] at hfirst
    exact hfirst.symm
  · simp [t]
  · simp [t]
  · simp [t]
  · simp [t]

end Sys2Proof.Machine
end

section
/-!
PROOFS. The report region: its items, the writer's choice, and the layouts (chapter 11).
-/
namespace Sys2Proof.Machine

/-! ## Bytes and bits -/

theorem leValue_singleton (b : Byte) : leValue [b] = b.toNat := by simp [leValue]

theorem flagByte_toNat : ∀ b : Bool, (flagByte b).toNat = if b then 1 else 0 := by decide

theorem bits4_toNat : ∀ b0 b1 b2 b3 : Bool, (bits4 b0 b1 b2 b3).toNat =
    (if b0 then 1 else 0) + (if b1 then 2 else 0) + (if b2 then 4 else 0) + (if b3 then 8 else 0) := by decide

theorem zoneByte_toNat : ∀ z : Option (Fin 4), (zoneByte z).toNat = match z with | some z => z.val | none => 0xFF
  | none => rfl
  | some z => by
    show (BitVec.ofNat 8 z.val).toNat = z.val
    rw [BitVec.toNat_ofNat]
    omega

theorem padTo_length (n : Nat) (bs : List Byte) : (padTo n bs).length = n := by simp [padTo]

/-- The number whose bits are those given, the lowest first. -/
def ofBits (l : List Bool) : Nat := l.foldr Nat.bit 0

theorem testBit_ofBits (l : List Bool) (k : Nat) : (ofBits l).testBit k = l.getD k false := by
  induction l generalizing k with
  | nil => simp [ofBits]
  | cons b l ih =>
    cases k with
    | zero => exact Nat.testBit_bit_zero b _
    | succ k => exact (Nat.testBit_bit_succ k b _).trans (ih k)

/-- The word of cause bits holds the cause of each number at its bit. -/
theorem Causes.word_ofBits (cs : Causes) : cs.word = ofBits (Cause.all.map cs.has) := by
  have hbit : ∀ (b : Bool) (m : Nat), (if b = true then m else 0) = m * b.toNat := fun b m => by cases b <;> simp
  simp only [Causes.word, Cause.all, ofBits, List.map_cons, List.map_nil, List.sum_cons, List.sum_nil, List.foldr_cons, List.foldr_nil,
    Cause.number, hbit, Nat.bit_val]
  omega

theorem Causes.testBit_word (cs : Causes) (c : Cause) : cs.word.testBit c.number = cs.has c := by
  rw [Causes.word_ofBits, testBit_ofBits]
  cases c <;> rfl

/-! ## The items -/

/-- Each item begins where the one before it ends (R170). -/
theorem Item.offset_succ : ∀ i : Fin 66, (Item.at i.succ).offset = (Item.at i.castSucc).offset + (Item.at i.castSucc).size := by decide

theorem indices_drop : ∀ i : Fin 67, (indices 67).drop (i.val + 1) = (indices 67).filter (fun j => decide (i.val < j.val)) := by decide

theorem indices_take : ∀ i : Fin 67, (indices 67).take (i.val + 1) = (indices 67).filter (fun j => decide (j.val ≤ i.val)) := by decide

namespace State

/-- An IDLE writer in RUN takes the first marked item after the one it last started (R173). -/
theorem chooseItem_next {s : State} (hrun : s.mode = .run) (hw : s.writer = .idle) {i : Fin 67}
    (h : (writerOrder s.lastItem).find? (fun j => s.marks.get j) = some i) :
    s.chooseItem.writer = .writing i (s.itemBytes (Item.at i)) 0 ∧ s.chooseItem.marks = s.marks.set i false ∧
      s.chooseItem.lastItem = some i := by
  unfold chooseItem
  rw [hw]
  dsimp only
  rw [if_pos hrun, h]
  exact ⟨rfl, rfl, rfl⟩

theorem chooseItem_writing {s : State} (h : s.writer ≠ .idle) : s.chooseItem = s := by
  unfold chooseItem
  cases hw : s.writer with
  | writing i b off => rfl
  | idle => exact absurd hw h

theorem mark_in_run {s : State} (h : s.mode = .run) (i : Fin 67) : s.mark i = { s with marks := s.marks.set i true }.chooseItem := if_pos h

/-! ## The layouts (R130, R171, R172) -/

theorem headerLayout (s : State) :
    let h := s.itemBytes .header
    fieldOf h 0 2 = 0x0341 ∧ fieldOf h 2 1 = (if s.maint.storing then 2 else 1) ∧
      fieldOf h 3 1 = s.log.lastClear.code ∧
      fieldOf h 4 4 = s.cfg.imageId.toNat ∧ fieldOf h 8 4 = s.time.seconds % 2 ^ 32 ∧ fieldOf h 12 2 = s.log.commitCount % 2 ^ 16 ∧
      fieldOf h 14 2 = (s.log.nextSeq - 1#16).toNat ∧ fieldOf h 16 2 = s.log.clearedThrough.toNat ∧
      fieldOf h 18 1 = s.log.records.length % 2 ^ 8 ∧ fieldOf h 19 1 = s.posted.length % 2 ^ 8 ∧
      fieldOf h 20 1 = s.hold.length % 2 ^ 8 ∧ h.drop 21 = List.replicate 43 0#8 := by
  intro h
  refine ⟨leValue_leBytes 2 _, (leValue_leBytes 1 _).trans ?_, (leValue_leBytes 1 _).trans ?_,
    (leValue_leBytes 4 _).trans (Nat.mod_eq_of_lt s.cfg.imageId.isLt), leValue_leBytes 4 _, leValue_leBytes 2 _,
    (leValue_leBytes 2 _).trans (Nat.mod_eq_of_lt (s.log.nextSeq - 1#16).isLt),
    (leValue_leBytes 2 _).trans (Nat.mod_eq_of_lt s.log.clearedThrough.isLt), leValue_leBytes 1 _, leValue_leBytes 1 _,
    leValue_leBytes 1 _, rfl⟩
  · cases s.maint.storing <;> rfl
  · cases s.log.lastClear <;> rfl

theorem zoneLayout (s : State) (z : Fin 4) :
    let r := s.zones.get z
    let b := s.itemBytes (.zone z)
    fieldOf b 0 1 = r.state.code ∧ fieldOf b 1 1 = r.state.level.val ∧ fieldOf b 2 1 = (if r.unack then 1 else 0) ∧
      fieldOf b 3 1 = (if r.reading.isSome then 1 else 0) + (if r.peak.isSome then 2 else 0) ∧ fieldOf b 4 2 = r.causes.word ∧
      fieldOf b 6 2 = r.reading.getD 0 % 2 ^ 16 ∧ fieldOf b 8 2 = r.peak.getD 0 % 2 ^ 16 ∧ fieldOf b 10 2 = r.purge.shown % 2 ^ 16 ∧
      fieldOf b 12 2 = (if r.refresh = .stopped then 0xFFFF else r.refresh.shown % 2 ^ 16) ∧ b.drop 14 = List.replicate 18 0#8 := by
  intro r b
  have hword : r.causes.word < 256 ^ 2 := Nat.lt_of_lt_of_le r.causes.word_lt (by decide)
  refine ⟨(leValue_leBytes 1 _).trans ?_, (leValue_leBytes 1 _).trans (Nat.mod_eq_of_lt (by omega)),
    (leValue_singleton _).trans (flagByte_toNat r.unack), (leValue_singleton _).trans (bits4_toNat r.reading.isSome r.peak.isSome false false),
    (leValue_leBytes 2 _).trans (Nat.mod_eq_of_lt hword), leValue_leBytes 2 _, leValue_leBytes 2 _, leValue_leBytes 2 _,
    (leValue_leBytes 2 _).trans ?_, rfl⟩
  · cases r.state <;> rfl
  · cases r.refresh with
    | stopped => rfl
    | running n => rw [if_neg Timer.noConfusion]; rfl
    | due | rested => rfl

theorem channelLayout (s : State) (c : Fin 8) :
    let r := s.chans.get c
    let b := s.itemBytes (.channel c)
    fieldOf b 0 1 = (s.channelState c).code ∧
      fieldOf b 1 1 = (if r.warm then 1 else 0) + (if r.filter ≠ [] then 2 else 0) + (if r.test.isSome then 4 else 0) +
        (if r.raw.isSome then 8 else 0) ∧
      fieldOf b 2 2 = r.filter.sum / r.filter.length % 2 ^ 16 ∧ fieldOf b 4 2 = r.test.getD 0 % 2 ^ 16 ∧
      fieldOf b 6 2 = (r.raw.map BitVec.toNat).getD 0 := by
  intro r b
  have hmean : (meanOf r.filter).isSome = decide (r.filter ≠ []) ∧ (meanOf r.filter).getD 0 = r.filter.sum / r.filter.length := by
    cases r.filter <;> simp [meanOf]
  obtain ⟨hsome, hget⟩ := hmean
  have hraw : (r.raw.map BitVec.toNat).getD 0 < 256 ^ 2 := by
    cases r.raw with
    | none => decide
    | some v => exact Nat.lt_of_lt_of_le v.isLt (by decide)
  refine ⟨(leValue_leBytes 1 _).trans ?_, (leValue_singleton _).trans ((bits4_toNat r.warm (meanOf r.filter).isSome r.test.isSome
    r.raw.isSome).trans ?_), (leValue_leBytes 2 _).trans ?_, leValue_leBytes 2 _, (leValue_leBytes 2 _).trans (Nat.mod_eq_of_lt hraw)⟩
  · show (s.channelState c).code % 256 ^ 1 = _
    cases s.channelState c <;> rfl
  · rw [hsome]
    simp only [decide_eq_true_eq]
  · exact congrArg (fun m => m % 256 ^ 2) hget

theorem tachLayout (s : State) (t : Fin 8) :
    let r := s.tachs.get t
    let b := s.itemBytes (.tach t)
    fieldOf b 0 1 = r.state.code ∧ (∀ e, (s.cfg.tachs.get t).binding = some e → fieldOf b 1 1 = e.val) ∧
      ((s.cfg.tachs.get t).binding = none → fieldOf b 1 1 = 0xFF) ∧
      fieldOf b 2 1 = (if r.required then 1 else 0) + (if r.speed.isSome then 2 else 0) ∧
      fieldOf b 3 1 = r.timer.shown % 2 ^ 8 ∧ fieldOf b 4 2 = r.speed.getD 0 % 2 ^ 16 ∧ b.drop 6 = [0#8, 0#8] := by
  intro r b
  obtain ⟨byte, hbyte⟩ : ∃ byte : Byte, byte = match (s.cfg.tachs.get t).binding with | some e => BitVec.ofNat 8 e.val | none => 0xFF#8 :=
    ⟨_, rfl⟩
  have hbinding : fieldOf b 1 1 = byte.toNat := by
    rw [hbyte]
    exact leValue_singleton _
  refine ⟨(leValue_leBytes 1 _).trans ?_, fun e he => ?_, fun hn => ?_,
    (leValue_singleton _).trans (bits4_toNat r.required r.speed.isSome false false), leValue_leBytes 1 _, leValue_leBytes 2 _, rfl⟩
  · show r.state.code % 256 ^ 1 = _
    cases r.state <;> rfl
  · rw [hbinding, hbyte, he, BitVec.toNat_ofNat]
    omega
  · rw [hbinding, hbyte, hn]
    rfl

theorem spillLayout (s : State) (l : Fin 12) :
    let r := s.spills.get l
    let b := s.itemBytes (.spill l)
    fieldOf b 0 1 = (zoneByte (s.cfg.spills.get l).zone).toNat ∧ fieldOf b 1 1 = (if r.wet then 1 else 0) ∧
      (∀ w, r.last = some w → fieldOf b 2 1 = if w then 1 else 0) ∧ (r.last = none → fieldOf b 2 1 = 0xFF) ∧
      fieldOf b 3 1 = r.run % 2 ^ 8 := by
  intro r b
  obtain ⟨byte, hbyte⟩ : ∃ byte : Byte, byte = match r.last with | some w => flagByte w | none => 0xFF#8 := ⟨_, rfl⟩
  have hlast : fieldOf b 2 1 = byte.toNat := by
    rw [hbyte]
    exact leValue_singleton _
  refine ⟨leValue_singleton _, (leValue_singleton _).trans (flagByte_toNat r.wet), fun w hw => ?_, fun hn => ?_, leValue_leBytes 1 _⟩
  · rw [hlast, hbyte, hw]
    exact flagByte_toNat w
  · rw [hlast, hbyte, hn]
    rfl

/-! ## The hold queue mirror -/

/-- The `k`-th eight bytes of entries laid one after another, then zeros. -/
theorem chunk_flatMap {α : Type} {f : α → List Byte} (hf : ∀ x, (f x).length = 8) (k : Nat) (l : List α) (m : Nat) (hm : 8 * k + 8 ≤ m) :
    ((l.flatMap f ++ List.replicate m 0#8).drop (8 * k)).take 8 = ((l[k]?).map f).getD (List.replicate 8 0#8) := by
  induction k generalizing l with
  | zero =>
    cases l with
    | nil => simp [List.take_replicate, Nat.min_eq_left (show 8 ≤ m by omega)]
    | cons x l => simp [List.append_assoc, List.take_append_of_le_length (Nat.le_of_eq (hf x).symm), List.take_of_length_le (Nat.le_of_eq (hf x))]
  | succ k ih =>
    cases l with
    | nil => simp [List.drop_replicate, List.take_replicate, Nat.min_eq_left (show 8 ≤ m - 8 * (k + 1) by omega)]
    | cons x l =>
      have hdrop : ∀ rest : List Byte, (f x ++ rest).drop (8 * (k + 1)) = rest.drop (8 * k) := by
        intro rest
        rw [Nat.mul_succ, Nat.add_comm, ← hf x, ← List.drop_drop, List.drop_left, hf x]
      rw [List.flatMap_cons, List.append_assoc, hdrop, List.getElem?_cons_succ]
      exact ih l (by omega)

theorem HoldEntry.bytes_length (now : Nat) (e : HoldEntry) : (e.bytes now).length = 8 := rfl

theorem holdLayout (s : State) {k : Nat} (hk : k < 8) :
    ((s.itemBytes .hold).drop (8 * k)).take 8 =
      ((s.hold[k]?).map (fun e => e.bytes s.time.seconds)).getD (List.replicate 8 0#8) := by
  have hpad : s.itemBytes .hold = (s.hold.flatMap (fun e => e.bytes s.time.seconds) ++ List.replicate 64 0#8).take 64 := rfl
  rw [hpad, List.drop_take, List.take_take, Nat.min_eq_left (by omega)]
  exact chunk_flatMap (HoldEntry.bytes_length s.time.seconds) k s.hold 64 (by omega)

theorem holdEntryLayout (now : Nat) (e : HoldEntry) :
    let b := e.bytes now
    fieldOf b 0 3 = e.cell.toNat ∧ fieldOf b 3 1 = e.zone.val ∧ fieldOf b 4 2 = e.value.toNat ∧
      fieldOf b 6 2 = max 1 (e.expiry - now) % 2 ^ 16 :=
  ⟨(leValue_leBytes 3 _).trans (Nat.mod_eq_of_lt e.cell.isLt), (leValue_leBytes 1 _).trans (Nat.mod_eq_of_lt (by omega)),
    (leValue_leBytes 2 _).trans (Nat.mod_eq_of_lt e.value.isLt), leValue_leBytes 2 _⟩

end State

open State

/-- Settles O53. -/
theorem reportRegion : Obligations.ReportRegion := by
  unfold Obligations.ReportRegion
  refine ⟨rfl, fun i j hij => ?_, rfl, fun s i => padTo_length _ _, fun s i hrun hw h => chooseItem_next hrun hw h, fun i => ⟨rfl, ?_⟩,
    fun s i => ⟨fun h => mark_outside_run h i, fun hrun hw => ?_, fun hrun _ => mark_in_run hrun i⟩, fun s => ?_, fun s z => ?_,
    fun s c => ?_, fun s t => ?_, fun s l => ?_, fun s k _ hk => ?_, fun s => rfl⟩
  · have hi : i.val < 66 := by omega
    have hnext := Item.offset_succ ⟨i.val, hi⟩
    rw [show Fin.succ ⟨i.val, hi⟩ = j from Fin.ext hij] at hnext
    exact hnext
  · exact congrArg₂ (· ++ ·) (indices_drop i) (indices_take i)
  · rw [mark_in_run hrun]
    exact chooseItem_writing hw
  · obtain ⟨h1, h2, h3, hrest⟩ := headerLayout s
    refine ⟨h1, h2, h3.trans ?_, hrest⟩
    cases s.log.lastClear <;> rfl
  · obtain ⟨h1, h2, h3, h4, h5, hrest⟩ := zoneLayout s z
    refine ⟨h1.trans ?_, h2, h3, h4, fun c => ?_, ?_, hrest⟩
    · cases (s.zones.get z).state <;> rfl
    · rw [h5]; exact Causes.testBit_word _ c
    · rw [h5]; exact Causes.word_lt _
  · obtain ⟨h1, hrest⟩ := channelLayout s c
    refine ⟨h1.trans ?_, hrest⟩
    cases s.channelState c <;> rfl
  · obtain ⟨h1, hbound, hfree, hrest⟩ := tachLayout s t
    refine ⟨h1.trans ?_, ?_, hrest⟩
    · cases (s.tachs.get t).state <;> rfl
    · cases hb : (s.cfg.tachs.get t).binding with
      | none => exact hfree hb
      | some e => exact hbound e hb
  · obtain ⟨h1, h2, hsome, hnone, hrest⟩ := spillLayout s l
    refine ⟨h1.trans ?_, h2, ?_, hrest⟩
    · exact (zoneByte_toNat _).trans (by cases (s.cfg.spills.get l).zone <;> rfl)
    · cases hl : (s.spills.get l).last with
      | none => exact hnone hl
      | some w => rw [hsome w hl]; cases w <;> rfl
  · intro b
    have hb : b = _ := holdLayout s hk
    refine ⟨fun e he => ?_, fun hn => ?_⟩
    · rw [hb, he]
      exact holdEntryLayout s.time.seconds e
    · rw [hb, hn]
      rfl

end Sys2Proof.Machine
end

section
/-!
PROOFS. LOADING ends in RUN (chapter 12).
-/
namespace Sys2Proof.Machine

namespace State

/-! ## The channels and the records of the live ones -/

/-- A channel that is LIVE as RUN begins is used. -/
theorem used_of_live {cfg : ChanCfg} {old : ChanRec} (h : (chanAtRun cfg old).sample = .live) : cfg.zone ≠ none := by
  intro hz
  obtain ⟨-, -, -, -, -, hunused, -⟩ := chanAtRun_spec cfg old
  obtain ⟨-, -, hs⟩ := hunused hz
  rw [hs] at h
  cases h

/-- A used channel that is warm as RUN begins is LIVE (R30, R38). -/
theorem live_of_warm {cfg : ChanCfg} {old : ChanRec} (hz : cfg.zone ≠ none) (hw : (chanAtRun cfg old).warm = true) :
    (chanAtRun cfg old).sample = .live := by
  obtain ⟨-, -, -, -, -, -, hlive, hcold⟩ := chanAtRun_spec cfg old
  by_cases h : old.warm = true ∨ cfg.warmUp = 0
  · obtain ⟨hs, -⟩ := hlive hz h
    exact hs
  · rw [not_or, Bool.not_eq_true] at h
    obtain ⟨-, hno, -⟩ := hcold hz h.1 h.2
    rw [hno] at hw
    cases hw

theorem chanState_live {cfg : ChanCfg} {r : ChanRec} (hz : cfg.zone ≠ none) (ht : r.test = none) (hs : r.sample = .live) :
    chanState cfg r = .live := by
  unfold chanState
  cases hcz : cfg.zone with
  | none => exact absurd hcz hz
  | some z => rw [ht, hs]

/-- In a zone whose channels are all warm as RUN begins, some channel reads, or there is none. -/
theorem reads_of_warm {y : State} {old : Tab ChanRec 8}
    (hchans : ∀ c, y.chans.get c = chanAtRun (y.cfg.channels.get c) (old.get c)) {z : Fin 4} (hw : y.zoneWarm z = true) :
    y.zoneReads z = true ∨ y.zoneChannels z = [] := by
  cases hl : y.zoneChannels z with
  | nil => exact .inr rfl
  | cons c rest =>
    have hmem : c ∈ y.zoneChannels z := by rw [hl]; exact List.mem_cons_self
    have hz : (y.cfg.channels.get c).zone ≠ none := by
      have hcz : (y.cfg.channels.get c).zone = some z := by simpa [zoneChannels] using hmem
      rw [hcz]; exact Option.some_ne_none z
    have hwarm : (y.chans.get c).warm = true := List.all_eq_true.mp hw c hmem
    rw [hchans] at hwarm
    obtain ⟨htest, -⟩ := chanAtRun_spec (y.cfg.channels.get c) (old.get c)
    refine .inl (List.any_eq_true.mpr ⟨c, hmem, ?_⟩)
    unfold channelState
    rw [hchans, chanState_live hz htest (live_of_warm hz hwarm)]
    rfl

/-! ## RUN begins, block by block -/

/-- What `logLive` logs, with the unused channels left out of account: none of them is LIVE. -/
theorem logLive_log {y : State} {old : Tab ChanRec 8} (hchans : ∀ c, y.chans.get c = chanAtRun (y.cfg.channels.get c) (old.get c)) :
    y.logLive.log = y.logged (((indices 8).filter (fun c => decide ((y.chans.get c).sample = .live))).map (fun c =>
      { kind := .channelLive, zone := (y.cfg.channels.get c).zone, subject := some c.val, value := none })) := by
  obtain ⟨hlog, -⟩ := logLive_spec y.usedChannels y
  refine hlog.trans (congrArg (fun l => y.logged (List.map _ l)) ?_)
  unfold usedChannels
  rw [List.filter_filter]
  refine List.filter_congr fun c _ => ?_
  rw [Bool.and_eq_left_iff_imp, decide_eq_true_iff, hchans]
  exact fun h => Option.isSome_iff_ne_none.mpr (used_of_live h)

theorem logLive_agenda (s : State) : s.logLive.agenda = s.agenda := by
  unfold logLive
  induction s.usedChannels generalizing s with
  | nil => rfl
  | cons c l ih =>
    rw [List.foldl_cons, ih]
    split <;> simp

theorem zoneSaid_of_same {s t : State} {z : Fin 4} (hs : (t.zones.get z).state = (s.zones.get z).state)
    (hc : (t.zones.get z).causes = (s.zones.get z).causes) (u : State) : t.zoneSaid u z = s.zoneSaid u z := by
  unfold zoneSaid
  rw [hs, hc]

/-- The zone records as the settings are taken: the refresh timers started (R11). -/
theorem takeSettings_zone (s : State) (cfg : Settings) (z : Fin 4) :
    (s.takeSettings cfg).zones.get z = { s.zones.get z with refresh := Timer.start (cfg.zones.get z).refreshPeriod } := by
  simp

theorem takeSettings_chan (s : State) (cfg : Settings) (c : Fin 8) :
    (s.takeSettings cfg).chans.get c = chanAtRun ((s.takeSettings cfg).cfg.channels.get c) (s.chans.get c) := by
  simp

/-- The blocks of a part in which RUN begins: the settings taken, the live channels logged, START cleared. -/
theorem beginRun_blocks (s : State) (cfg : Settings) :
    let y := s.takeSettings cfg
    let u := s.beginRun cfg
    u.cfg = cfg ∧ u.chans = y.chans ∧ (∀ i, u.toWrite i) ∧
      (∀ z, (u.zones.get z).refresh = Timer.start (cfg.zones.get z).refreshPeriod) ∧
      (∀ z, y.zoneWarm z = false → u.zones.get z = y.zones.get z) ∧
      (∀ z, y.zoneWarm z = true → u.zones.get z =
        ZoneRec.settledBy (cfg.zones.get z) (y.zones.get z) (y.sensorLost z ((y.zones.get z).causes.put .start false))) ∧
      u.log = s.logged
        (((indices 8).filter (fun c => decide ((u.chans.get c).sample = .live))).map (fun c =>
            { kind := .channelLive, zone := (u.cfg.channels.get c).zone, subject := some c.val, value := none }) ++
          (indices 4).flatMap (fun z => s.zoneSaid u z)) ∧
      u.store = CellStore.atRun u.queued u.cfg.pins := by
  obtain ⟨y, hy⟩ : ∃ y, y = s.takeSettings cfg := ⟨_, rfl⟩
  obtain ⟨x, hx⟩ : ∃ x, x = y.logLive := ⟨_, rfl⟩
  obtain ⟨v, hv⟩ : ∃ v, v = x.clearStarts := ⟨_, rfl⟩
  have hu : s.beginRun cfg = v.beginPath := by rw [hv, hx, hy]; rfl
  have hycfg : y.cfg = cfg := by rw [hy]; simp
  have hylog : y.log = s.log ∧ y.time = s.time := by rw [hy]; simp [takeSettings]
  have hyzones : ∀ z, y.zones.get z = { s.zones.get z with refresh := Timer.start (cfg.zones.get z).refreshPeriod } := by
    rw [hy]; exact takeSettings_zone s cfg
  have hychans : ∀ c, y.chans.get c = chanAtRun (y.cfg.channels.get c) (s.chans.get c) := by
    rw [hy]; exact takeSettings_chan s cfg
  have hydue : ∀ i, y.toWrite i := by rw [hy]; exact toWrite_markEvery _
  obtain ⟨xzones, xchans, xcfg, xdue⟩ : x.zones = y.zones ∧ x.chans = y.chans ∧ x.cfg = y.cfg ∧ ∀ i, y.toWrite i → x.toWrite i := by
    rw [hx]; exact logLive_frame y
  have xtime : x.time = y.time := by
    obtain ⟨-, ht⟩ := logLive_spec y.usedChannels y
    rw [hx]; exact ht
  have xlog := logLive_log hychans
  rw [← hx] at xlog
  obtain ⟨vchans, vcfg, vtime, vcold, vwarm, vlog, -⟩ := clearStarts_spec (indices 4) (by decide) x
  obtain ⟨-, -, vdue, vrefresh, -, -⟩ := clearStarts_facts x
  rw [show (indices 4).foldl clearStart x = v from hv.symm] at vchans vcfg vtime vcold vwarm vlog
  rw [← hv] at vdue vrefresh
  have hwarm : ∀ z, x.zoneWarm z = y.zoneWarm z := zoneWarm_congr xchans xcfg
  have hlost : ∀ z cs, x.sensorLost z cs = y.sensorLost z cs := fun z cs => by
    unfold sensorLost zoneReads zoneChannels channelState
    rw [xchans, xcfg]
  intro y' u
  have hy' : y' = y := hy.symm
  have hu' : u = v.beginPath := hu
  clear_value y' u
  rw [hy', hu']
  clear hx hv hu hy hy' hu'
  refine ⟨vcfg.trans (xcfg.trans hycfg), vchans.trans xchans, fun i => vdue i (xdue i (hydue i)), fun z => ?_, fun z h => ?_, fun z h => ?_,
    ?_, rfl⟩
  · exact (vrefresh z).trans (by rw [xzones, hyzones])
  · exact (vcold z (.inr (by rw [hwarm]; exact h))).trans (by rw [xzones])
  · have hz := vwarm z (List.mem_finRange z) (by rw [hwarm]; exact h)
    rw [xcfg, hycfg, xzones, hlost] at hz
    exact hz
  · show v.log = _
    rw [vlog, logged_append xlog (by rw [xtime]), logged_congr hylog.1 (by rw [hylog.2])]
    refine congrArg s.logged (congrArg₂ (· ++ ·) ?_ ?_)
    · show _ = List.map (fun c => _) (List.filter (fun c => decide ((v.chans.get c).sample = .live)) (indices 8))
      rw [vchans, xchans]
      refine List.map_congr_left fun c _ => ?_
      show _ = LogEntry.mk .channelLive (v.cfg.channels.get c).zone _ _
      rw [vcfg, xcfg]
    · rw [List.flatMap_def, List.flatMap_def]
      refine congrArg _ (List.map_congr_left fun z _ => ?_)
      exact zoneSaid_of_same (by rw [xzones, hyzones]) (by rw [xzones, hyzones]) v

/-- START alone cleared, and SENSOR_LOST evaluated, in a zone whose channels are all warm: no cause is left (R8, R10). -/
theorem sensorLost_warm {y : State} {z : Fin 4} (h : y.zoneReads z = true ∨ y.zoneChannels z = []) :
    y.sensorLost z (ZoneRec.initial.causes.put .start false) = Causes.empty := by
  unfold sensorLost
  by_cases hr : y.zoneReads z = true
  · rw [if_pos hr]
    rfl
  · rw [if_neg hr, h.resolve_left hr]
    rfl

/-- The zones as RUN begins after a restart (R8, R16, R23). -/
theorem beginRun_zones {s : State} (h : ∀ z, s.zones.get z = ZoneRec.initial) (cfg : Settings) (z : Fin 4) :
    let u := s.beginRun cfg
    (u.zones.get z).causes.start = !u.zoneWarm z ∧
      (u.zoneWarm z = false → u.zones.get z = { ZoneRec.initial with refresh := (u.zones.get z).refresh }) ∧
      (u.zoneWarm z = true → u.zones.get z =
        { ZoneRec.initial with state := .purge, causes := Causes.empty, purge := Timer.start (u.cfg.zones.get z).purgeTime,
                               refresh := (u.zones.get z).refresh }) := by
  intro u
  obtain ⟨hcfg, hchans, -, hrefresh, hcold, hwarmed, -, -⟩ := beginRun_blocks s cfg
  have hu : s.beginRun cfg = u := rfl
  rw [hu] at hcfg hchans hrefresh hcold hwarmed
  clear_value u
  have hycfg : (s.takeSettings cfg).cfg = cfg := by simp
  have hw : u.zoneWarm z = (s.takeSettings cfg).zoneWarm z := zoneWarm_congr hchans (hcfg.trans hycfg.symm) z
  have hz := takeSettings_zone s cfg z
  rw [h z] at hz
  have hstart : u.zoneWarm z = false → u.zones.get z = { ZoneRec.initial with refresh := (u.zones.get z).refresh } := fun hc => by
    rw [hrefresh, hcold z (hw.symm.trans hc), hz]
  have hclear : u.zoneWarm z = true → u.zones.get z =
      { ZoneRec.initial with state := .purge, causes := Causes.empty, purge := Timer.start (u.cfg.zones.get z).purgeTime,
                             refresh := (u.zones.get z).refresh } := fun hc => by
    have hwz := hwarmed z (hw.symm.trans hc)
    rw [hz, sensorLost_warm (reads_of_warm (takeSettings_chan s cfg) (hw.symm.trans hc))] at hwz
    rw [hrefresh, hwz, hcfg]
    rfl
  refine ⟨?_, hstart, hclear⟩
  cases hc : u.zoneWarm z with
  | false => rw [hstart hc]; rfl
  | true => rw [hclear hc]; rfl

/-- The sweeps requested as RUN begins after a restart, and no other notice (R136). -/
theorem beginRun_agenda {s : State} (h : ∀ z, s.zones.get z = ZoneRec.initial) (cfg : Settings) :
    (s.beginRun cfg).agenda = s.agenda ++ (indices 4).map (fun z => .sweepRequest z .apply) := by
  have hzones : ∀ z, (s.takeSettings cfg).logLive.zones.get z =
      { ZoneRec.initial with refresh := ((s.takeSettings cfg).logLive.zones.get z).refresh } := by
    intro z
    obtain ⟨hz, -⟩ := logLive_frame (s.takeSettings cfg)
    rw [hz, takeSettings_zone, h z]
  have hquiet := clearStarts_quiet hzones
  rw [logLive_agenda, show (s.takeSettings cfg).agenda = s.agenda by simp] at hquiet
  unfold beginRun
  generalize (s.takeSettings cfg).logLive.clearStarts = v at hquiet
  show v.agenda ++ _ = _
  rw [hquiet]

theorem pins_length (m : Memory) : (Settings.ofImage m).pins.length ≤ 8 := by
  have h := List.length_filterMap_le
    (fun i : Fin 8 => if m.field (Settings.pinAt i) 4 = 0xFFFFFFFF then none else some (m.addr (Settings.pinAt i))) (indices 8)
  rw [List.length_finRange] at h
  exact h

end State

open State

/-- Settles O15. -/
theorem loadingEndsInRun : Obligations.LoadingEndsInRun := by
  unfold Obligations.LoadingEndsInRun
  intro s readable halive hmode hcheck
  obtain ⟨u, hu⟩ : ∃ u, u = s.beginRun (Settings.ofImage s.nv.image) := ⟨_, rfl⟩
  have hexec : exec (.loadingEnd readable) s = .next u.finish := by
    show execLoadingEnd readable s = _
    unfold execLoadingEnd
    rw [if_pos ⟨halive, hmode⟩, hcheck, hu]
    rfl
  obtain ⟨hcfg, hchans, hdue, hrefresh, -, -, hlog, hstore⟩ := beginRun_blocks s (Settings.ofImage s.nv.image)
  obtain ⟨-, -, -, -, -, hrun⟩ := beginRun_keeps s (Settings.ofImage s.nv.image)
  have hheader := beginRun_header (s := s) (Settings.ofImage s.nv.image)
  have hzones := fun h z => beginRun_zones (s := s) h (Settings.ofImage s.nv.image) z
  have hagenda := fun h => beginRun_agenda (s := s) h (Settings.ofImage s.nv.image)
  rw [← hu] at hcfg hchans hdue hrefresh hlog hstore hrun hheader hagenda
  simp only [← hu] at hzones
  clear hu
  have hend := ended_finish u
  have hchan : ∀ c, u.chans.get c = chanAtRun (u.cfg.channels.get c) (s.chans.get c) := by
    intro c
    rw [hchans, takeSettings_chan, hcfg]
    simp
  have hpins : u.cfg.pins.length ≤ 8 := by rw [hcfg]; exact pins_length _
  refine ⟨u, hexec, hrun, hcfg, hend.mode.trans hrun, hend.cfg, hend.chans, hdue, ?_, hchan, fun c => ?_, fun z => ?_, hzones, hlog, hheader,
    hagenda, ?_, ?_⟩
  · rw [hcfg]; exact laidOut_ofImage (imageCheck_of_check hcheck)
  · rw [hchan c]; exact chanAtRun_spec _ _
  · rw [hcfg]; exact hrefresh z
  · exact (eraseDups_length _).trans (by rw [List.length_map]; exact hpins)
  · rw [hstore]; exact CellStore.atRun_spec _ _ hpins

end Sys2Proof.Machine
end
